-- ==== Sys2Proof/Word.lean ====
section
/-! DEFINITION. The word types of the TC48 and the plainest arithmetic on them: bytes on the link and at the
host port, 16-bit samples, saturating counters and the two newer-than tests of the manual's conventions. -/

namespace Sys2Proof

/-- One byte of a link frame, of a host frame or of a text. -/
abbrev Byte := BitVec 8

/-- One 16-bit two's complement sample as an input delivers it. -/
abbrev Sample := BitVec 16

/-- The largest value of a 16-bit counter. -/
def max16 : Nat := 65535

/-- The largest stamp, 4,294,967,295. -/
def maxStamp : Nat := 4294967295

/-- A 16-bit counter increased by one, which stays at 65535 once it stands there. -/
def sat16 (n : Nat) : Nat := if n < max16 then n + 1 else n

/-- 00_scope.md, Time: block number `n` is newer than `r` when (n − r) mod 65536 lies in 1..32767. -/
def newerBlock (n r : Nat) : Bool :=
  let d := (n + 65536 - r % 65536) % 65536
  decide (1 ≤ d) && decide (d ≤ 32767)

/-- 00_scope.md, Time: booking version `v` is newer than `w` when (v − w) mod 256 lies in 1..127. -/
def newerVersion (v w : Nat) : Bool :=
  let d := (v + 256 - w % 256) % 256
  decide (1 ≤ d) && decide (d ≤ 127)

/-- A value clamped into lo..hi. -/
def clampNat (lo hi n : Nat) : Nat := max lo (min hi n)

/-- The characters of a Lean string as bytes. -/
def text (t : String) : List Byte := t.toList.map (fun c => BitVec.ofNat 8 c.toNat)

end Sys2Proof
end

