-- ==== Sys2Proof/Config.lean ====
section
/-! DEFINITION. The constants the manual fixes for the part: capacities, spans in blocks and the ends of ranges.
The manual leaves no value free (INVENTORY.md, "What the manual leaves open"), so there is no opaque constant here. -/

namespace Sys2Proof.Config

/-- Samples in one block. -/
def blockSamples : Nat := 64
/-- Blocks in one second. -/
def blocksPerSecond : Nat := 250
/-- Seats of a table. -/
def seats : Nat := 48
/-- R16: attempts at one frame. -/
def maxAttempts : Nat := 8
/-- R13: host-originated frames admitted to the control queue. -/
def maxHostFrames : Nat := 5
/-- R19: blocks from one beacon request to the next. -/
def beaconInterval : Nat := 250
/-- R23: frame age at which a PRESENT peer becomes ABSENT. -/
def absenceAge : Nat := 1250
/-- R29: the greatest beacon age that is replayed at a meeting start. -/
def replayAge : Nat := 500
/-- R62: blocks a button input must differ before its stable state follows it. -/
def debounceBlocks : Nat := 5
/-- R63: blocks of the ring's FLASH. -/
def flashBlocks : Nat := 125
/-- R63: blocks of each phase of SLOW BLINK. -/
def slowPhase : Nat := 250
/-- R63: blocks of each phase of FAST BLINK. -/
def fastPhase : Nat := 50
/-- R78: the value at which the overrun count stays. -/
def maxOverrun : Nat := 999
/-- R80: the greatest budget a time grant leaves. -/
def maxBudget : Nat := 600
/-- R81: the value at which the silence count stays. -/
def maxSilence : Nat := 15000
/-- R81: the silence limit in seconds of VOICE mode when the profile's S is 0. -/
def voiceSilence : Nat := 3
/-- R91: non-talking blocks that end talking. -/
def hangoverBlocks : Nat := 75
/-- R99: source slots. -/
def slots : Nat := 7
/-- R99: held blocks of one jitter FIFO. -/
def fifoDepth : Nat := 4
/-- R103: held blocks at which a FILLING slot plays. -/
def prefillBlocks : Nat := 2
/-- R109: stale count at which a slot is reported. -/
def staleBlocks : Nat := 50
/-- R126: clipped samples in a block that raise the limiter. -/
def heavyClipping : Nat := 8
/-- R115: the greatest limiter reduction. -/
def maxReduction : Nat := 12
/-- R127: quiet blocks that lower the reduction by one. -/
def quietBlocks : Nat := 500
/-- R135: entries of the calendar view. -/
def viewEntries : Nat := 32
/-- R135: HELD entries of the calendar view. -/
def heldEntries : Nat := 8
/-- R143 and R159: blocks of 60 s. -/
def minuteBlocks : Nat := 15000
/-- R146: blocks of the extension ask timer. -/
def askBlocks : Nat := 750
/-- R168: blocks between two advances of the queue window. -/
def windowBlocks : Nat := 500
/-- R169: blocks of a transient line 4 message. -/
def transientBlocks : Nat := 750
/-- R184: notices of the notice FIFO. -/
def noticeEntries : Nat := 16
/-- R58, R150 and R186: records, entries or notices in one reply. -/
def replyRecords : Nat := 8
/-- R165: cells of one display line. -/
def lineCells : Nat := 24
/-- R132: the last second of a day. -/
def lastSecond : Nat := 86399
/-- Seconds of a day. -/
def daySeconds : Nat := 86400
/-- Minutes of a day. -/
def dayMinutes : Nat := 1440

end Sys2Proof.Config
end

