-- ==== Sys2Proof/Syntax.lean ====
section
/-! DEFINITION. The commands of the TC48: one constructor of `Instr` for each row of spec/opcode_table.json. -/

namespace Sys2Proof

/-- The two buttons whose releases are not handed on (R62). -/
inductive ReleaseButton where
  | mic
  | share
  deriving DecidableEq, Repr

/-- The two LEDs of a seat (R63). -/
inductive Led where
  | ring
  | request
  deriving DecidableEq, Repr

/-- One command of the block. A host command carries the parameters of its frame in the sizes of Table 11-4; a
received link frame carries its source seat byte and its body bytes, both as they stood on the link after the CRC
check; an event of the part itself names what it happens to where the part has several of them. -/
inductive Instr where
  /-- POWER_ON, R192. -/
  | powerOn
  /-- CONFIGURE, R188, code 0x01. -/
  | configure (seat role : Byte) (name : List Byte) (trim : Byte) (threshold : BitVec 16)
      (span attenuation duck follower wallScreen shareScreen : Byte)
  /-- SET_PROFILE, R189, code 0x02. -/
  | setProfile (index mode limit : Byte) (budget : BitVec 16)
      (budgetKind warning silence shareRule endWarning priorityAllowed priorityCloses : Byte)
  /-- GO, R190, code 0x03. -/
  | go
  /-- RESET with FULL, R191, code 0x10. -/
  | resetFull
  /-- RESET with SOFT, R191, code 0x10. -/
  | resetSoft
  /-- READ_STATUS, R187, code 0x11. -/
  | readStatus
  /-- READ_NOTICES, R186, code 0x12. -/
  | readNotices
  /-- SET_NOTICE_LEVEL, R185, code 0x13. -/
  | setNoticeLevel (threshold : Byte)
  /-- SET_TIME, R133, code 0x20. -/
  | setTime (day : BitVec 16) (second : BitVec 32)
  /-- SET_VOLUME, R116, code 0x21. -/
  | setVolume (volume : Byte)
  /-- PRESS, R64, code 0x22. -/
  | press
  /-- ADD_TIME, R85, code 0x23. -/
  | addTime (seat : Byte) (seconds : BitVec 16)
  /-- GRANT, R83, code 0x24. -/
  | grant (seat condition : Byte)
  /-- CLOSE_SEAT, R84, code 0x25. -/
  | closeSeat (seat condition : Byte)
  /-- CLEAR_QUEUE, R84, code 0x26. -/
  | clearQueue
  /-- PRIORITY, R85, code 0x27. -/
  | priority (value : Byte)
  /-- READ_FLOOR, R58, code 0x28. -/
  | readFloor (cursor : Byte)
  /-- BOOK, R136, code 0x30. -/
  | book (day minute duration : BitVec 16) (profile chair : Byte) (title : List Byte)
  /-- RESTORE_BOOKING, R138, code 0x31. -/
  | restoreBooking (day minute duration : BitVec 16) (profile chair : Byte) (title : List Byte)
      (serial version : Byte) (createdDay : BitVec 16) (createdSecond : BitVec 32)
  /-- CANCEL_BOOKING, R144, code 0x32. -/
  | cancelBooking (holder serial : Byte)
  /-- READ_CALENDAR, R150, code 0x33. -/
  | readCalendar (cursor : Byte)
  /-- START_MEETING, R162, code 0x34. -/
  | startMeeting (duration : BitVec 16) (profile : Byte) (title : List Byte)
  /-- END_MEETING, R158, code 0x35. -/
  | endMeeting
  /-- EXTEND_MEETING, R146, code 0x36. -/
  | extendMeeting (minutes : Byte)
  /-- SHOW_MESSAGE, R169, code 0x40. -/
  | showMessage (message : List Byte) (lifetime : BitVec 16)
  /-- SHARE, R173, code 0x41. -/
  | share (screen : Byte)
  /-- UNSHARE, R175, code 0x42. -/
  | unshare
  /-- FLUSH, R183, code 0x43. -/
  | flush
  /-- FLUSH_COMPLETE, R183. -/
  | flushComplete
  /-- UNKNOWN_COMMAND_FRAME, R178: a complete frame whose code or parameter length is of no command. -/
  | unknownCommandFrame (code : Byte) (params : List Byte)
  /-- COMMAND_WHILE_SERVING, R179: a complete frame other than RESET that meets a port that is SERVING. -/
  | commandWhileServing (code : Byte) (params : List Byte)
  /-- CUT_SHORT_COMMAND_FRAME, R178: the bytes written before select was released. -/
  | cutShortCommandFrame (bytes : List Byte)
  /-- FRAME_CHECK_FAILED, R3: the bytes the receiver took. -/
  | frameCheckFailed (bytes : List Byte)
  /-- RECEIVE_VOICE, R51, kind 0x10. -/
  | receiveVoice (source : Byte) (body : List Byte)
  /-- RECEIVE_BEACON, R26, kind 0x20. -/
  | receiveBeacon (source : Byte) (body : List Byte)
  /-- RECEIVE_REQUEST, R40, kind 0x41. -/
  | receiveRequest (source : Byte) (body : List Byte)
  /-- RECEIVE_WITHDRAW, R41, kind 0x42. -/
  | receiveWithdraw (source : Byte) (body : List Byte)
  /-- RECEIVE_OPEN, R42, kind 0x43. -/
  | receiveOpen (source : Byte) (body : List Byte)
  /-- RECEIVE_CLOSE, R44, kind 0x44. -/
  | receiveClose (source : Byte) (body : List Byte)
  /-- RECEIVE_YIELD, R43, kind 0x45. -/
  | receiveYield (source : Byte) (body : List Byte)
  /-- RECEIVE_GRANT, R45, kind 0x46. -/
  | receiveGrant (source : Byte) (body : List Byte)
  /-- RECEIVE_CLEAR, R46, kind 0x47. -/
  | receiveClear (source : Byte) (body : List Byte)
  /-- RECEIVE_PRIORITY, R47, kind 0x48. -/
  | receivePriority (source : Byte) (body : List Byte)
  /-- RECEIVE_TIME_ADD, R80, kind 0x49. -/
  | receiveTimeAdd (source : Byte) (body : List Byte)
  /-- RECEIVE_SHARE, R171, kind 0x4A. -/
  | receiveShare (source : Byte) (body : List Byte)
  /-- RECEIVE_UNSHARE, R171, kind 0x4B. -/
  | receiveUnshare (source : Byte) (body : List Byte)
  /-- RECEIVE_CANCEL, R144, kind 0x61. -/
  | receiveCancel (source : Byte) (body : List Byte)
  /-- RECEIVE_EXTEND_ASK, R147, kind 0x62. -/
  | receiveExtendAsk (source : Byte) (body : List Byte)
  /-- RECEIVE_EXTEND_ANSWER, R148, kind 0x63. -/
  | receiveExtendAnswer (source : Byte) (body : List Byte)
  /-- RECEIVE_END_NOW, R157, kind 0x64. -/
  | receiveEndNow (source : Byte) (body : List Byte)
  /-- ATTEMPT_CLEAR, R16. -/
  | attemptClear
  /-- ATTEMPT_FAILED, R16. -/
  | attemptFailed
  /-- BLOCK_COMPLETION, R88: the 64 samples of the microphone input and the three button inputs (pressed or not)
  as they stand at the block. -/
  | blockCompletion (samples : List Sample) (micInput priorityInput shareInput : Bool)
  /-- TALK_END, R91. -/
  | talkEnd
  /-- LIMITER_RECOVERY, R127. -/
  | limiterRecovery
  /-- STALE_SLOT, R109: the number of the slot, 1..7. -/
  | staleSlot (slot : Nat)
  /-- BEACON_REQUEST, R19. -/
  | beaconRequest
  /-- ABSENCE_EVENT, R23: the seat that fell silent. -/
  | absenceEvent (seat : Nat)
  /-- MIC_PRESS, R65. -/
  | micPress
  /-- PRIORITY_PRESS, R85. -/
  | priorityPress
  /-- PRIORITY_RELEASE, R85. -/
  | priorityRelease
  /-- SHARE_PRESS, R173. -/
  | sharePress
  /-- BUTTON_RELEASE, R62. -/
  | buttonRelease (button : ReleaseButton)
  /-- FLASH_EXPIRY, R63. -/
  | flashExpiry
  /-- LED_BLINK_PHASE, R63. -/
  | ledBlinkPhase (led : Led)
  /-- BUDGET_SECOND, R78. -/
  | budgetSecond
  /-- BUDGET_EXPIRY, R79. -/
  | budgetExpiry
  /-- SILENCE_CLOSE, R81. -/
  | silenceClose
  /-- EXTEND_TIMEOUT, R149. -/
  | extendTimeout
  /-- CLOCK_SECOND, R132. -/
  | clockSecond
  /-- ENTRY_AGED_OUT, R143: the booking id (holder seat, serial) of the entry. -/
  | entryAgedOut (holder serial : Nat)
  /-- ENDED_EARLY_EXPIRY, R159. -/
  | endedEarlyExpiry
  /-- QUEUE_WINDOW_ADVANCE, R168. -/
  | queueWindowAdvance
  /-- TRANSIENT_MESSAGE_EXPIRY, R169. -/
  | transientMessageExpiry
  /-- HOST_MESSAGE_EXPIRY, R169. -/
  | hostMessageExpiry
  /-- DISPLAY_TRANSFER_COMPLETE, R165. -/
  | displayTransferComplete
  /-- UNKNOWN_KIND_CODE_FRAME, R4: a frame that passes its CRC with a kind code that Table 1-1 does not list. -/
  | unknownKindCodeFrame (kind source : Byte) (body : List Byte)
  deriving DecidableEq, Repr

end Sys2Proof
end

