-- ==== Sys2Proof/Machine/State.lean ====
section
/-! DEFINITION. The state of one TC48 station as plain data: every register, queue, table, counter and output the
manual gives each of the nine blocks, and the machine right after power-on. -/

namespace Sys2Proof.Machine

/-- No command of this block stops it: every rule of the manual gives a next state, so no meaning raises a fault.
The one constructor stands for a stop that nobody raises (safe: a stop where the part goes on would only make a
true claim unprovable). -/
inductive Fault where
  /-- Raised by no meaning. -/
  | unreachable
  deriving DecidableEq, Repr

/-- Reasons for a refusal. -/
inductive Refusal where
  /-- Raised by an arm of `exec` for a command that has no meaning yet (safe: the model stops). No arm raises it. -/
  | notModelled (mnemonic : String)
  deriving DecidableEq, Repr

/-! ## Names and identifiers -/

/-- R5, R190: the three station states. -/
inductive Station where
  | setup
  | run
  | clash
  deriving DecidableEq, Repr

/-- Station roles (00_scope.md). -/
inductive Role where
  | seat
  | door
  | wall
  deriving DecidableEq, Repr

/-- A booking id: holder seat, then serial. -/
structure Bid where
  holder : Nat
  serial : Nat
  deriving DecidableEq, Repr

/-- R33: the two classes of an open record. -/
inductive OpenClass where
  | chair
  | delegate
  deriving DecidableEq, Repr

/-- Reasons for leaving the open set: the six a CLOSE carries and the four a view records for its own removals. -/
inductive Reason where
  | speaker
  | timeout
  | silence
  | chair
  | override
  | meetingEnd
  | displaced
  | stale
  | sync
  | absent
  deriving DecidableEq, Repr

/-- R160: reasons of MEETING_END. -/
inductive EndReason where
  | time
  | endNow
  | cancelled
  | endedEarly
  deriving DecidableEq, Repr

/-- R145 and R149: results of an extension ask. -/
inductive AskResult where
  | accepted
  | refused
  | noAnswer
  deriving DecidableEq, Repr

/-- Table 11-6: status codes of a reply. -/
inductive Status where
  | ok
  | busy
  | badState
  | badParam
  | queueFull
  | notChair
  | notMatched
  | notOpen
  | conflict
  | full
  | timeNotSet
  | notConfigured
  deriving DecidableEq, Repr

/-! ## Profiles and configuration -/

/-- R189: floor modes. -/
inductive FloorMode where
  | firstCome
  | override
  | chairGrant
  | voice
  deriving DecidableEq, Repr

/-- R189: budget kinds. -/
inductive BudgetKind where
  | hard
  | soft
  deriving DecidableEq, Repr

/-- R189: share rules. -/
inductive ShareRule where
  | free
  | floorOnly
  deriving DecidableEq, Repr

/-- R189: one profile. -/
structure Profile where
  mode : FloorMode
  limit : Nat
  budget : Nat
  budgetKind : BudgetKind
  warning : Nat
  silence : Nat
  shareRule : ShareRule
  endWarning : Nat
  priorityAllowed : Bool
  priorityCloses : Bool
  deriving DecidableEq, Repr

/-- R188: the configuration values and the configured mark. Seat 0 is "no configured seat". -/
structure StationConfig where
  configured : Bool
  seat : Nat
  role : Role
  name : List Byte
  trim : Nat
  threshold : Nat
  span : Nat
  attenuation : Nat
  duck : Nat
  follower : Bool
  wallScreen : Nat
  shareScreen : Nat
  deriving DecidableEq, Repr

/-! ## Booking entries and link frames -/

/-- Table 1-3: a booking entry as BEACON and EXTEND_ANSWER carry it. -/
structure WireEntry where
  id : Bid
  version : Nat
  startDay : Nat
  startMinute : Nat
  duration : Nat
  profile : Nat
  chair : Nat
  createdDay : Nat
  createdSecond : Nat
  title : List Byte
  deriving DecidableEq, Repr

/-- R134: an entry of the calendar view: the carried entry with the station's own origin, active mark and age. -/
structure Entry where
  wire : WireEntry
  held : Bool
  active : Bool
  age : Nat
  deriving DecidableEq, Repr

/-- Table 1-4: the body of a BEACON. `mic` is the open stamp and request stamp when open, `request` the pending
stamp, `share` the screen and share stamp. -/
structure BeaconBody where
  role : Role
  name : List Byte
  meeting : Option Bid
  endedEarly : Option Bid
  mic : Option (Nat × Nat)
  request : Option Nat
  share : Option (Nat × Nat)
  priority : Bool
  day : Nat
  second : Nat
  entry : Option WireEntry
  deriving DecidableEq, Repr

/-- R1 and Table 1-2: the seventeen frame kinds with the fields after kind and source seat. -/
inductive Body where
  | voice (meeting : Option Bid) (openStamp requestStamp block : Nat) (talking : Bool) (samples : List Int)
  | beacon (b : BeaconBody)
  | request (meeting : Option Bid) (requestStamp : Nat)
  | withdraw (meeting : Option Bid)
  | opening (meeting : Option Bid) (openStamp requestStamp : Nat) (cls : OpenClass)
  | close (meeting : Option Bid) (target : Nat) (reason : Reason)
  | yield (meeting : Option Bid) (requestStamp : Nat)
  | grant (meeting : Option Bid) (target : Nat)
  | clear (meeting : Option Bid)
  | priority (meeting : Option Bid) (on : Bool)
  | timeAdd (meeting : Option Bid) (target seconds : Nat)
  | share (meeting : Option Bid) (screen stamp : Nat)
  | unshare (meeting : Option Bid)
  | cancel (id : Bid)
  | extendAsk (id : Bid) (minutes : Nat)
  | extendAnswer (id : Bid) (asker : Nat) (accepted : Bool) (granted : Nat) (entry : WireEntry)
  | endNow (id : Bid)
  deriving DecidableEq, Repr

/-- A link frame: source seat and body. -/
structure Frame where
  source : Nat
  body : Body
  deriving DecidableEq, Repr

/-! ## Link Interface (chapter 1) -/

/-- R10 and R6: what the beacon slot holds when it is not empty. -/
inductive PendingBeacon where
  | normal
  | clash
  deriving DecidableEq, Repr

/-- R16: the frame in send with the number of the attempt on the link, 1..8. `clash` marks the clash beacon (R6);
`voided` marks a frame that ends with no outcome (R5, R18). -/
structure Sending where
  frame : Frame
  attempt : Nat
  clash : Bool
  voided : Bool
  deriving DecidableEq, Repr

/-- The holders of R9 to R11, the frame in send and the three counters. `finishing` is set while an attempt that
was on the link at a full reset has not ended (R18). -/
structure Link where
  voiceSlot : Option Frame
  queue : List Frame
  beaconSlot : Option PendingBeacon
  inSend : Option Sending
  finishing : Bool
  badFrames : Nat
  abandoned : Nat
  voiceSkips : Nat
  deriving DecidableEq, Repr

/-! ## Presence Table (chapter 2) -/

/-- R21: state of a peer entry. -/
inductive PeerState where
  | unknown
  | present
  | absent
  deriving DecidableEq, Repr

/-- R21: one entry of the peer table. -/
structure Peer where
  state : PeerState
  role : Option Role
  name : List Byte
  frameAge : Nat
  beaconAge : Nat
  meeting : Option Bid
  mic : Option (Nat × Nat)
  request : Option Nat
  share : Option (Nat × Nat)
  priority : Bool
  deriving DecidableEq, Repr

/-- R19 and R21: the 48 peer entries, entry k for seat k + 1, and the beacon cadence count. -/
structure Presence where
  peers : List Peer
  cadence : Nat
  deriving DecidableEq, Repr

/-! ## Floor Controller (chapters 3 and 4) -/

/-- R33: one record of the open set. -/
structure OpenRecord where
  seat : Nat
  cls : OpenClass
  openStamp : Nat
  requestStamp : Nat
  since : Nat
  deriving DecidableEq, Repr

/-- R34: one record of the request queue. -/
structure QueueRecord where
  seat : Nat
  requestStamp : Nat
  granted : Bool
  deriving DecidableEq, Repr

/-- The floor view: open set, request queue, stamp counter and priority state (R33 to R36). -/
structure Floor where
  openSet : List OpenRecord
  queue : List QueueRecord
  stamp : Nat
  priority : Bool
  deriving DecidableEq, Repr

/-- R61: own-microphone states. -/
inductive MicState where
  | closed
  | waiting
  | opening
  | open
  deriving DecidableEq, Repr

/-- R61: the own-microphone record. `remaining` is none for an unlimited budget. -/
structure OwnMic where
  state : MicState
  cls : Option OpenClass
  requestStamp : Nat
  openStamp : Nat
  closePending : Option Reason
  remaining : Option Nat
  secondCount : Nat
  warned : Bool
  overrun : Bool
  overrunCount : Nat
  silence : Nat
  deriving DecidableEq, Repr

/-! ## Seat Controls (section 4.2) -/

/-- R62: one button's stable state and difference count. -/
structure Button where
  pressed : Bool
  difference : Nat
  deriving DecidableEq, Repr

/-- R63: LED patterns a state gives. -/
inductive LedPattern where
  | off
  | on
  | slowBlink
  | fastBlink
  deriving DecidableEq, Repr

/-- R63: one LED: its pattern, whether a blink is in its on phase, and the blocks of that phase gone by. -/
structure LedState where
  pattern : LedPattern
  onPhase : Bool
  phaseCount : Nat
  deriving DecidableEq, Repr

/-- R62 and R63: the three buttons, the two LEDs and the blocks left of the ring's FLASH. -/
structure Controls where
  mic : Button
  priority : Button
  share : Button
  ring : LedState
  request : LedState
  flash : Nat
  deriving DecidableEq, Repr

/-! ## Capture Path (chapter 5) -/

/-- R88: the working state of the Capture Path. -/
structure Capture where
  talking : Bool
  hangover : Nat
  lastPeak : Nat
  outgoing : List Int
  placing : Bool
  deriving DecidableEq, Repr

/-! ## Mix Engine (chapters 6 and 7) -/

/-- R99: states of a source slot. -/
inductive SlotState where
  | free
  | filling
  | playing
  | concealing
  deriving DecidableEq, Repr

/-- R99: a held block. -/
structure HeldBlock where
  block : Nat
  talking : Bool
  samples : List Int
  deriving DecidableEq, Repr

/-- R99: one source slot. -/
structure Slot where
  seat : Nat
  state : SlotState
  fifo : List HeldBlock
  last : Option HeldBlock
  stale : Nat
  overflow : Bool
  deriving DecidableEq, Repr

/-- R99 and R115: the slots and the mix state. `output` is the block computed last, which the loudspeaker takes at
the next block; `speaker` is the block the loudspeaker has taken (R124). -/
structure Mix where
  slots : List Slot
  lateBlocks : Nat
  overflowMark : Bool
  volume : Nat
  reduction : Nat
  quiet : Nat
  limitFlag : Bool
  clipped : Nat
  output : List Int
  speaker : List Int
  deriving DecidableEq, Repr

/-! ## Calendar Controller (chapters 8 and 9) -/

/-- R132: the wall clock. -/
structure Clock where
  day : Nat
  second : Nat
  count : Nat
  set : Bool
  deriving DecidableEq, Repr

/-- R139: the rotation mark. -/
structure RotationMark where
  id : Bid
  startDay : Nat
  startMinute : Nat
  deriving DecidableEq, Repr

/-- R146: an extension ask that is ASKING. -/
structure ExtensionAsk where
  id : Bid
  minutes : Nat
  timer : Nat
  deriving DecidableEq, Repr

/-- The clock, the calendar view, the serial counter, the rotation mark and the extension ask (none is NONE). -/
structure Calendar where
  clock : Clock
  view : List Entry
  serial : Nat
  rotation : Option RotationMark
  ask : Option ExtensionAsk
  deriving DecidableEq, Repr

/-- R152: meeting states. -/
inductive MeetingState where
  | idle
  | active
  | ending
  deriving DecidableEq, Repr

/-- R152: the meeting record. -/
structure Meeting where
  state : MeetingState
  id : Option Bid
  profile : Profile
  chair : Nat
  start : Nat
  finish : Nat
  endAsked : Bool
  endedEarly : Option Bid
  endedEarlyAge : Nat
  deriving DecidableEq, Repr

/-! ## Screen Controller (chapter 10) -/

/-- R169: a timed line 4 message. -/
structure Message where
  text : List Byte
  lifetime : Nat
  deriving DecidableEq, Repr

/-- R165, R168 and R169: display buffer, transfer, queue window and messages. `sent` is the 96 cells that the last
transfer took. -/
structure Screen where
  buffer : List (List Byte)
  dirty : Bool
  running : Bool
  sent : List (List Byte)
  windowStart : Nat
  windowCount : Nat
  transient : Message
  host : Message
  deriving DecidableEq, Repr

/-- R171: the presenter of a wall screen. -/
structure Presenter where
  seat : Nat
  stamp : Nat
  deriving DecidableEq, Repr

/-- R173: states of the own claim. -/
inductive ClaimState where
  | none
  | claiming
  | sharing
  deriving DecidableEq, Repr

/-- R171, R173 and R176: the share map, the own claim and the selector output. -/
structure Share where
  screen1 : Option Presenter
  screen2 : Option Presenter
  claim : ClaimState
  claimScreen : Nat
  claimStamp : Nat
  release : Bool
  selector : Nat
  deriving DecidableEq, Repr

/-! ## Host Port (chapter 11) -/

/-- Table 11-3: notices with their parameters. -/
inductive Notice where
  | seatClash (seat : Nat)
  | floorConflict (seat : Nat)
  | timeExpired (seat : Nat)
  | meetingEnd (id : Bid) (reason : EndReason)
  | bookingConflict (id : Bid)
  | timeWarning (seat : Nat)
  | meetingStart (id : Bid)
  | meetingWarning (id : Bid) (minutes : Nat)
  | extendResult (id : Bid) (result : AskResult) (granted : Nat)
  | shareLost (screen seat : Nat)
  | sendFailed (kind : Nat)
  | opened (seat : Nat)
  | closed (seat : Nat) (reason : Reason)
  | jitterOverflow (seat : Nat)
  deriving DecidableEq, Repr

/-- R179: the held reply. -/
structure Reply where
  status : Status
  data : List Byte
  deriving DecidableEq, Repr

/-- R179, R184 and R185: serving state, held reply, notice FIFO, flags and attention threshold. The attention line
is a function of the FIFO and the threshold (`Port.attention` in Machine/Port.lean). -/
structure Port where
  serving : Bool
  reply : Reply
  notices : List Notice
  overflow : Bool
  framing : Bool
  threshold : Nat
  deriving DecidableEq, Repr

/-! ## The station -/

/-- One TC48 station. `pending` is the model's own queue of waiting commands, first in, first out; every other
field is the manual's. -/
structure State where
  pending : List Instr
  station : Station
  config : StationConfig
  profiles : List Profile
  blockNumber : Nat
  link : Link
  presence : Presence
  floor : Floor
  mic : OwnMic
  controls : Controls
  capture : Capture
  mix : Mix
  calendar : Calendar
  meeting : Meeting
  screen : Screen
  share : Share
  port : Port
  deriving DecidableEq, Repr

/-! ## Values after power-on -/

/-- R189: the power-on values of a profile. -/
def Profile.powerOn : Profile :=
  { mode := .firstCome, limit := 4, budget := 0, budgetKind := .soft, warning := 30, silence := 0,
    shareRule := .free, endWarning := 5, priorityAllowed := true, priorityCloses := false }

/-- R188: the defaults. -/
def StationConfig.powerOn : StationConfig :=
  { configured := false, seat := 0, role := .seat, name := [], trim := 0, threshold := 1000, span := 1,
    attenuation := 12, duck := 18, follower := false, wallScreen := 1, shareScreen := 1 }

/-- R18. -/
def Link.powerOn : Link :=
  { voiceSlot := none, queue := [], beaconSlot := none, inSend := none, finishing := false,
    badFrames := 0, abandoned := 0, voiceSkips := 0 }

/-- R21: the values of an UNKNOWN entry. -/
def Peer.unknownEntry : Peer :=
  { state := .unknown, role := none, name := [], frameAge := 0, beaconAge := 65535, meeting := none,
    mic := none, request := none, share := none, priority := false }

/-- R32. -/
def Presence.powerOn : Presence := { peers := List.replicate 48 Peer.unknownEntry, cadence := 0 }

/-- R59 and R60: the cleared view. -/
def Floor.cleared : Floor := { openSet := [], queue := [], stamp := 0, priority := false }

/-- R87: the reset values of the own-microphone record. -/
def OwnMic.reset : OwnMic :=
  { state := .closed, cls := none, requestStamp := 0, openStamp := 0, closePending := none, remaining := none,
    secondCount := 0, warned := false, overrun := false, overrunCount := 0, silence := 0 }

/-- R62: a released button. -/
def Button.released : Button := { pressed := false, difference := 0 }

/-- R63: an LED whose pattern is OFF. -/
def LedState.dark : LedState := { pattern := .off, onPhase := true, phaseCount := 0 }

/-- R62, R63 and R87. -/
def Controls.powerOn : Controls :=
  { mic := .released, priority := .released, share := .released, ring := .dark, request := .dark, flash := 0 }

/-- A block of 64 zero samples. -/
def zeroBlock : List Int := List.replicate 64 0

/-- R98. -/
def Capture.powerOn : Capture :=
  { talking := false, hangover := 0, lastPeak := 0, outgoing := zeroBlock, placing := false }

/-- R99: the values of a FREE slot. -/
def Slot.freed : Slot := { seat := 0, state := .free, fifo := [], last := none, stale := 0, overflow := false }

/-- R113 and R131. -/
def Mix.powerOn : Mix :=
  { slots := List.replicate 7 Slot.freed, lateBlocks := 0, overflowMark := false, volume := 20, reduction := 0,
    quiet := 0, limitFlag := false, clipped := 0, output := zeroBlock, speaker := zeroBlock }

/-- R132: the clock that is not set. -/
def Clock.unset : Clock := { day := 0, second := 0, count := 0, set := false }

/-- R151. -/
def Calendar.powerOn : Calendar := { clock := .unset, view := [], serial := 0, rotation := none, ask := none }

/-- R164. The start and end of an IDLE record are read by nothing (notes/assumptions/17.md). -/
def Meeting.powerOn : Meeting :=
  { state := .idle, id := none, profile := .powerOn, chair := 0, start := 0, finish := 0, endAsked := false,
    endedEarly := none, endedEarlyAge := 0 }

/-- A message that is absent. -/
def Message.absent : Message := { text := [], lifetime := 0 }

/-- R177: four lines of 24 spaces. -/
def blankScreen : List (List Byte) := List.replicate 4 (List.replicate 24 0x20#8)

/-- R177. -/
def Screen.powerOn : Screen :=
  { buffer := blankScreen, dirty := true, running := false, sent := blankScreen, windowStart := 1,
    windowCount := 0, transient := .absent, host := .absent }

/-- R177. -/
def Share.powerOn : Share :=
  { screen1 := none, screen2 := none, claim := .none, claimScreen := 0, claimStamp := 0, release := false,
    selector := 0 }

/-- R179: status OK with data length 0. -/
def Reply.okEmpty : Reply := { status := .ok, data := [] }

/-- R192. -/
def Port.powerOn : Port :=
  { serving := false, reply := .okEmpty, notices := [], overflow := false, framing := false, threshold := 1 }

/-- R192: the station right after power-on, in SETUP. -/
def State.reset : State :=
  { pending := [], station := .setup, config := .powerOn, profiles := List.replicate 4 Profile.powerOn,
    blockNumber := 0, link := .powerOn, presence := .powerOn, floor := .cleared, mic := .reset,
    controls := .powerOn, capture := .powerOn, mix := .powerOn, calendar := .powerOn, meeting := .powerOn,
    screen := .powerOn, share := .powerOn, port := .powerOn }

end Sys2Proof.Machine
end

