-- ==== Sys2Proof/Machine/Wire.lean ====
section
/-! DEFINITION. Link frames as bytes: number and text fields, the CRC of R2, the bodies of Tables 1-2 to 1-4 and
the form check of R4. -/

namespace Sys2Proof.Machine

/-! ## Numbers and texts (R2) -/

/-- A number in one byte. -/
def byte (n : Nat) : Byte := BitVec.ofNat 8 n

/-- A number in two bytes, most significant first. -/
def be2 (n : Nat) : List Byte := [byte (n / 256), byte n]

/-- A number in four bytes, most significant first. -/
def be4 (n : Nat) : List Byte := [byte (n / 16777216), byte (n / 65536), byte (n / 256), byte n]

/-- A text: a length byte, then the characters. -/
def textField (t : List Byte) : List Byte := byte t.length :: t

/-- A yes, set or on is 1; a no, clear or off is 0. -/
def flagByte (b : Bool) : Byte := if b then 1#8 else 0#8

/-- Two bytes, most significant first. -/
def nat2 (a b : Byte) : Nat := a.toNat * 256 + b.toNat

/-- Four bytes, most significant first. -/
def nat4 (a b c d : Byte) : Nat := a.toNat * 16777216 + b.toNat * 65536 + c.toNat * 256 + d.toNat

/-- Reads a one-byte number off the front. -/
def rd1 : List Byte → Option (Nat × List Byte)
  | a :: r => some (a.toNat, r)
  | _ => none

/-- Reads a two-byte number off the front. -/
def rd2 : List Byte → Option (Nat × List Byte)
  | a :: b :: r => some (nat2 a b, r)
  | _ => none

/-- Reads a four-byte number off the front. -/
def rd4 : List Byte → Option (Nat × List Byte)
  | a :: b :: c :: d :: r => some (nat4 a b c d, r)
  | _ => none

/-- Reads a text of at most `limit` characters off the front. -/
def rdText (limit : Nat) : List Byte → Option (List Byte × List Byte)
  | k :: r => if k.toNat ≤ limit ∧ k.toNat ≤ r.length then some (r.take k.toNat, r.drop k.toNat) else none
  | _ => none

/-- Reads a code 0 or 1 off the front. -/
def rdFlag : List Byte → Option (Bool × List Byte)
  | a :: r => if a.toNat = 0 then some (false, r) else if a.toNat = 1 then some (true, r) else none
  | _ => none

/-- A seat that may not be empty: 1..48. -/
def isSeat (n : Nat) : Bool := decide (1 ≤ n) && decide (n ≤ Config.seats)

/-- Reads a seat 1..48 off the front. -/
def rdSeat (l : List Byte) : Option (Nat × List Byte) := do
  let (n, r) ← rd1 l
  if isSeat n then some (n, r) else none

/-- Reads a booking id, whose holder seat is 1..48 (R4). -/
def rdBid (l : List Byte) : Option (Bid × List Byte) := do
  let (h, r) ← rdSeat l
  let (k, r) ← rd1 r
  some (⟨h, k⟩, r)

/-- Reads a meeting id: a booking id, or holder seat 0 with serial 0 for none (R2, R4). -/
def rdMeeting (l : List Byte) : Option (Option Bid × List Byte) := do
  let (h, r) ← rd1 l
  let (k, r) ← rd1 r
  if h = 0 then (if k = 0 then some (none, r) else none)
  else if h ≤ Config.seats then some (some ⟨h, k⟩, r) else none

/-- A booking id in two bytes. -/
def bidBytes (b : Bid) : List Byte := [byte b.holder, byte b.serial]

/-- A booking id that may be none, in two bytes. -/
def meetingBytes (m : Option Bid) : List Byte :=
  match m with
  | none => [0#8, 0#8]
  | some b => bidBytes b

/-! ## Codes of enumerated fields -/

/-- The code of a role, 1 to 3. -/
def Role.code (r : Role) : Nat :=
  match r with
  | .seat => 1
  | .door => 2
  | .wall => 3

/-- The role of a code, none where the code is not listed. -/
def roleOf (n : Nat) : Option Role :=
  match n with
  | 1 => some .seat
  | 2 => some .door
  | 3 => some .wall
  | _ => none

/-- The code of an open record's class: 1 CHAIR, 2 DELEGATE. -/
def OpenClass.code (c : OpenClass) : Nat :=
  match c with
  | .chair => 1
  | .delegate => 2

/-- The class of a code. -/
def classOf (n : Nat) : Option OpenClass :=
  match n with
  | 1 => some .chair
  | 2 => some .delegate
  | _ => none

/-- Table 11-6: CLOSED reasons; the first six are also the codes of a CLOSE (Table 1-2). -/
def Reason.code (r : Reason) : Nat :=
  match r with
  | .speaker => 1
  | .timeout => 2
  | .silence => 3
  | .chair => 4
  | .override => 5
  | .meetingEnd => 6
  | .displaced => 7
  | .stale => 8
  | .sync => 9
  | .absent => 10

/-- The reason a CLOSE carries (Table 1-2). -/
def closeReasonOf (n : Nat) : Option Reason :=
  match n with
  | 1 => some .speaker
  | 2 => some .timeout
  | 3 => some .silence
  | 4 => some .chair
  | 5 => some .override
  | 6 => some .meetingEnd
  | _ => none

/-! ## Bodies as bytes -/

/-- Table 1-3. -/
def entryBytes (e : WireEntry) : List Byte :=
  bidBytes e.id ++ [byte e.version] ++ be2 e.startDay ++ be2 e.startMinute ++ be2 e.duration
    ++ [byte e.profile, byte e.chair] ++ be2 e.createdDay ++ be4 e.createdSecond ++ textField e.title

/-- Table 1-4. -/
def beaconBytes (b : BeaconBody) : List Byte :=
  [byte b.role.code] ++ textField b.name ++ meetingBytes b.meeting ++ meetingBytes b.endedEarly
    ++ (match b.mic with
        | none => [0#8] ++ be4 0 ++ be4 0
        | some (o, q) => [1#8] ++ be4 o ++ be4 q)
    ++ (match b.request with
        | none => [0#8] ++ be4 0
        | some q => [1#8] ++ be4 q)
    ++ (match b.share with
        | none => [0#8] ++ be4 0
        | some (sc, k) => [byte sc] ++ be4 k)
    ++ [flagByte b.priority] ++ be2 b.day ++ be4 b.second
    ++ (match b.entry with
        | none => [0#8]
        | some e => [1#8] ++ entryBytes e)

/-- A sample in two bytes, two's complement, most significant first. -/
def sampleBytes (x : Int) : List Byte := be2 (BitVec.ofInt 16 x).toNat

/-- The value of a 16-bit two's complement number. -/
def sampleOf (a b : Byte) : Int := (BitVec.ofNat 16 (nat2 a b)).toInt

/-- Table 1-1: kind codes. -/
def Body.kindCode (b : Body) : Byte :=
  match b with
  | .voice .. => 0x10#8
  | .beacon _ => 0x20#8
  | .request .. => 0x41#8
  | .withdraw _ => 0x42#8
  | .opening .. => 0x43#8
  | .close .. => 0x44#8
  | .yield .. => 0x45#8
  | .grant .. => 0x46#8
  | .clear _ => 0x47#8
  | .priority .. => 0x48#8
  | .timeAdd .. => 0x49#8
  | .share .. => 0x4A#8
  | .unshare _ => 0x4B#8
  | .cancel _ => 0x61#8
  | .extendAsk .. => 0x62#8
  | .extendAnswer .. => 0x63#8
  | .endNow _ => 0x64#8

/-- Tables 1-2 and 1-4: the body of a frame. -/
def Body.bytes (b : Body) : List Byte :=
  match b with
  | .voice m o q n t xs =>
      meetingBytes m ++ be4 o ++ be4 q ++ be2 n ++ [flagByte t] ++ (xs.map sampleBytes).flatten
  | .beacon c => beaconBytes c
  | .request m q => meetingBytes m ++ be4 q
  | .withdraw m => meetingBytes m
  | .opening m o q c => meetingBytes m ++ be4 o ++ be4 q ++ [byte c.code]
  | .close m t r => meetingBytes m ++ [byte t, byte r.code]
  | .yield m q => meetingBytes m ++ be4 q
  | .grant m t => meetingBytes m ++ [byte t]
  | .clear m => meetingBytes m
  | .priority m v => meetingBytes m ++ [flagByte v]
  | .timeAdd m t n => meetingBytes m ++ [byte t] ++ be2 n
  | .share m sc k => meetingBytes m ++ [byte sc] ++ be4 k
  | .unshare m => meetingBytes m
  | .cancel b => bidBytes b
  | .extendAsk b n => bidBytes b ++ [byte n]
  | .extendAnswer b a ok g e =>
      bidBytes b ++ [byte a, if ok then 1#8 else 2#8, byte g] ++ entryBytes e
  | .endNow b => bidBytes b

/-! ## The CRC (R2) -/

/-- One bit of the CRC register: shift left, and add x^12 + x^5 + 1 when a bit of the polynomial falls out. -/
def crcShift (c : BitVec 16) : BitVec 16 :=
  if c.msb then (c <<< 1) ^^^ 0x1021#16 else c <<< 1

/-- One byte into the CRC register, most significant bit first. -/
def crcByte (c : BitVec 16) (b : Byte) : BitVec 16 :=
  crcShift (crcShift (crcShift (crcShift (crcShift (crcShift (crcShift (crcShift
    (c ^^^ (b.setWidth 16 <<< 8)))))))))

/-- R2: register at all ones, most significant bit first, neither reflected nor inverted. -/
def crc16 (l : List Byte) : BitVec 16 := l.foldl crcByte 0xFFFF#16

/-- Table 1-1: kind code, source seat, body length and body, then the CRC over them, high byte first. -/
def envelope (kind source : Byte) (body : List Byte) : List Byte :=
  let covered := [kind, source, byte body.length] ++ body
  covered ++ be2 (crc16 covered).toNat

/-- R2: the bytes of a frame the station sends. -/
def Frame.bytes (f : Frame) : List Byte := envelope f.body.kindCode (byte f.source) f.body.bytes

/-! ## The form check (R4) -/

/-- Table 1-3, with the ranges listed there. -/
def rdEntry (l : List Byte) : Option (WireEntry × List Byte) := do
  let (id, r) ← rdBid l
  let (version, r) ← rd1 r
  let (startDay, r) ← rd2 r
  let (startMinute, r) ← rd2 r
  let (duration, r) ← rd2 r
  let (profile, r) ← rd1 r
  let (chair, r) ← rd1 r
  let (createdDay, r) ← rd2 r
  let (createdSecond, r) ← rd4 r
  let (title, r) ← rdText 24 r
  if startMinute < 1440 ∧ 15 ≤ duration ∧ duration ≤ 720 ∧ duration % 5 = 0 ∧ profile ≤ 3
      ∧ chair ≤ Config.seats ∧ createdSecond ≤ Config.lastSecond then
    some ({ id, version, startDay, startMinute, duration, profile, chair, createdDay, createdSecond, title }, r)
  else none

/-- A body is read whole: bytes left over are a wrong length (R4). -/
def whole {α : Type} (p : Option (α × List Byte)) : Option α :=
  match p with
  | some (a, []) => some a
  | _ => none

/-- The samples of a VOICE body, two bytes each. -/
def rdSamples : List Byte → Option (List Int)
  | [] => some []
  | a :: b :: r => (rdSamples r).map (sampleOf a b :: ·)
  | _ => none

/-- The body of a VOICE frame. -/
def parseVoice (l : List Byte) : Option Body := do
  let (m, r) ← rdMeeting l
  let (o, r) ← rd4 r
  let (q, r) ← rd4 r
  let (n, r) ← rd2 r
  let (t, r) ← rdFlag r
  let xs ← rdSamples r
  if xs.length = Config.blockSamples then some (.voice m o q n t xs) else none

/-- Reads a state byte and two stamps: present only in state 1 (Table 1-4). -/
def rdMicState (l : List Byte) : Option (Option (Nat × Nat) × List Byte) := do
  let (f, r) ← rdFlag l
  let (o, r) ← rd4 r
  let (q, r) ← rd4 r
  some (if f then some (o, q) else none, r)

/-- Reads a request state and its stamp (Table 1-4). -/
def rdRequestState (l : List Byte) : Option (Option Nat × List Byte) := do
  let (f, r) ← rdFlag l
  let (q, r) ← rd4 r
  some (if f then some q else none, r)

/-- Reads a share state 0, 1 or 2 and its stamp (Table 1-4). -/
def rdShareState (l : List Byte) : Option (Option (Nat × Nat) × List Byte) := do
  let (sc, r) ← rd1 l
  let (k, r) ← rd4 r
  if sc ≤ 2 then some (if sc = 0 then none else some (sc, k), r) else none

/-- Reads the entry-present byte and the entry it announces (Table 1-4). -/
def rdEntryField (l : List Byte) : Option (Option WireEntry × List Byte) := do
  let (f, r) ← rdFlag l
  if f then (rdEntry r).map (fun p => (some p.1, p.2)) else some (none, r)

/-- The body of a BEACON. -/
def parseBeacon (l : List Byte) : Option Body := do
  let (rc, r) ← rd1 l
  let role ← roleOf rc
  let (name, r) ← rdText 20 r
  let (meeting, r) ← rdMeeting r
  let (endedEarly, r) ← rdMeeting r
  let (mic, r) ← rdMicState r
  let (request, r) ← rdRequestState r
  let (share, r) ← rdShareState r
  let (priority, r) ← rdFlag r
  let (day, r) ← rd2 r
  let (second, r) ← rd4 r
  let entry ← whole (rdEntryField r)
  if second ≤ Config.lastSecond then
    some (.beacon { role, name, meeting, endedEarly, mic, request, share, priority, day, second, entry })
  else none

/-- A body of a meeting id alone. -/
def parseMeetingOnly (l : List Byte) : Option (Option Bid) := whole (rdMeeting l)

/-- A body of a meeting id and a stamp. -/
def parseMeetingStamp (l : List Byte) : Option (Option Bid × Nat) := do
  let (m, r) ← rdMeeting l
  let q ← whole (rd4 r)
  some (m, q)

/-- The body of an OPEN. -/
def parseOpening (l : List Byte) : Option Body := do
  let (m, r) ← rdMeeting l
  let (o, r) ← rd4 r
  let (q, r) ← rd4 r
  let c ← whole (rd1 r)
  let cls ← classOf c
  some (.opening m o q cls)

/-- The body of a CLOSE. -/
def parseClose (l : List Byte) : Option Body := do
  let (m, r) ← rdMeeting l
  let (t, r) ← rdSeat r
  let c ← whole (rd1 r)
  let reason ← closeReasonOf c
  some (.close m t reason)

/-- The body of a GRANT. -/
def parseGrant (l : List Byte) : Option Body := do
  let (m, r) ← rdMeeting l
  let t ← whole (rdSeat r)
  some (.grant m t)

/-- The body of a PRIORITY. -/
def parsePriority (l : List Byte) : Option Body := do
  let (m, r) ← rdMeeting l
  let v ← whole (rdFlag r)
  some (.priority m v)

/-- The body of a TIME_ADD: seconds 1..600. -/
def parseTimeAdd (l : List Byte) : Option Body := do
  let (m, r) ← rdMeeting l
  let (t, r) ← rdSeat r
  let n ← whole (rd2 r)
  if 1 ≤ n ∧ n ≤ 600 then some (.timeAdd m t n) else none

/-- The body of a SHARE: screen 1 or 2. -/
def parseShare (l : List Byte) : Option Body := do
  let (m, r) ← rdMeeting l
  let (sc, r) ← rd1 r
  let k ← whole (rd4 r)
  if sc = 1 ∨ sc = 2 then some (.share m sc k) else none

/-- The body of an EXTEND_ASK: minutes 5..60, a multiple of 5. -/
def parseExtendAsk (l : List Byte) : Option Body := do
  let (b, r) ← rdBid l
  let n ← whole (rd1 r)
  if 5 ≤ n ∧ n ≤ 60 ∧ n % 5 = 0 then some (.extendAsk b n) else none

/-- The body of an EXTEND_ANSWER. -/
def parseExtendAnswer (l : List Byte) : Option Body := do
  let (b, r) ← rdBid l
  let (a, r) ← rdSeat r
  let (res, r) ← rd1 r
  let (g, r) ← rd1 r
  let e ← whole (rdEntry r)
  if (res = 1 ∨ res = 2) ∧ g ≤ 60 then some (.extendAnswer b a (res == 1) g e) else none

/-- R4: the body of a frame of a kind, none where the frame is malformed. -/
def parseBody (kind : Byte) (l : List Byte) : Option Body :=
  match kind.toNat with
  | 0x10 => parseVoice l
  | 0x20 => parseBeacon l
  | 0x41 => (parseMeetingStamp l).map (fun p => .request p.1 p.2)
  | 0x42 => (parseMeetingOnly l).map .withdraw
  | 0x43 => parseOpening l
  | 0x44 => parseClose l
  | 0x45 => (parseMeetingStamp l).map (fun p => .yield p.1 p.2)
  | 0x46 => parseGrant l
  | 0x47 => (parseMeetingOnly l).map .clear
  | 0x48 => parsePriority l
  | 0x49 => parseTimeAdd l
  | 0x4A => parseShare l
  | 0x4B => (parseMeetingOnly l).map .unshare
  | 0x61 => (whole (rdBid l)).map .cancel
  | 0x62 => parseExtendAsk l
  | 0x63 => parseExtendAnswer l
  | 0x64 => (whole (rdBid l)).map .endNow
  | _ => none

/-- R4: a frame that passed its CRC, none where it is malformed. -/
def parseFrame (kind source : Byte) (l : List Byte) : Option Frame :=
  if isSeat source.toNat then (parseBody kind l).map (fun b => { source := source.toNat, body := b }) else none

/-- Table 1-1: whether a kind code is listed. -/
def knownKind (kind : Byte) : Bool :=
  [0x10#8, 0x20#8, 0x41#8, 0x42#8, 0x43#8, 0x44#8, 0x45#8, 0x46#8, 0x47#8, 0x48#8, 0x49#8, 0x4A#8, 0x4B#8,
    0x61#8, 0x62#8, 0x63#8, 0x64#8].contains kind

/-- R3: whether the bytes the receiver took pass the CRC check: the length field agrees with what was taken and the
two bytes after the body are the CRC. Answers kind, source seat and body. -/
def checkCrc (l : List Byte) : Option (Byte × Byte × List Byte) :=
  match l with
  | kind :: source :: n :: rest =>
      let body := rest.take n.toNat
      if rest.length = n.toNat + 2 ∧ rest.drop n.toNat = be2 (crc16 ([kind, source, n] ++ body)).toNat
      then some (kind, source, body) else none
  | _ => none

end Sys2Proof.Machine
end

