-- ==== Sys2Proof/Decode.lean ====
section
/-! DEFINITION. How commands are spelled as bytes: command frames at the host port (Tables 11-1, 11-2 and 11-4) and
frames on the link (Table 1-1), decoded in full and encoded. No row of spec/opcode_table.json gives bits, so no table
word spells a command. -/

namespace Sys2Proof

open Sys2Proof.Machine

/-- The command a table word spells: none, since the opcode table gives no row any bits. -/
def decodeTableWord (_nbits _w : Nat) : Option Instr := none

namespace HostFrame

/-! ## Parameters (R182, Table 11-4) -/

/-- A two-byte parameter. -/
def word2 (a b : Byte) : BitVec 16 := BitVec.ofNat 16 (nat2 a b)

/-- A four-byte parameter. -/
def word4 (a b c d : Byte) : BitVec 32 := BitVec.ofNat 32 (nat4 a b c d)

/-- The two bytes of a two-byte parameter. -/
def bytes2 (w : BitVec 16) : List Byte := be2 w.toNat

/-- The four bytes of a four-byte parameter. -/
def bytes4 (w : BitVec 32) : List Byte := be4 w.toNat

/-- A command without parameters. -/
def none0 (c : Instr) : List Byte → Option Instr
  | [] => some c
  | _ => none

/-- A command with a one-byte parameter. -/
def one (c : Byte → Instr) : List Byte → Option Instr
  | [a] => some (c a)
  | _ => none

/-- A command with two one-byte parameters. -/
def two (c : Byte → Byte → Instr) : List Byte → Option Instr
  | [a, b] => some (c a b)
  | _ => none

/-- A text parameter: its length byte counts the characters that follow it. -/
def splitText (k : Byte) (l : List Byte) : Option (List Byte × List Byte) :=
  if k.toNat ≤ l.length then some (l.take k.toNat, l.drop k.toNat) else none

/-- CONFIGURE. -/
def readConfigure : List Byte → Option Instr
  | seat :: role :: k :: l =>
      match splitText k l with
      | some (name, [trim, t1, t0, span, attenuation, duck, follower, wall, share]) =>
          some (.configure seat role name trim (word2 t1 t0) span attenuation duck follower wall share)
      | _ => none
  | _ => none

/-- SET_PROFILE. -/
def readSetProfile : List Byte → Option Instr
  | [index, mode, limit, b1, b0, kind, warning, silence, rule, endWarning, allowed, closes] =>
      some (.setProfile index mode limit (word2 b1 b0) kind warning silence rule endWarning allowed closes)
  | _ => none

/-- RESET: 1 FULL, 2 SOFT (Table 11-6). Another value is of no row of the table: it is refused as an unknown frame is
(notes/assumptions/5.md). -/
def readReset : List Byte → Option Instr
  | [x] => if x = 1#8 then some .resetFull else if x = 2#8 then some .resetSoft else none
  | _ => none

/-- SET_TIME. -/
def readSetTime : List Byte → Option Instr
  | [d1, d0, s3, s2, s1, s0] => some (.setTime (word2 d1 d0) (word4 s3 s2 s1 s0))
  | _ => none

/-- ADD_TIME. -/
def readAddTime : List Byte → Option Instr
  | [seat, s1, s0] => some (.addTime seat (word2 s1 s0))
  | _ => none

/-- BOOK. -/
def readBook : List Byte → Option Instr
  | d1 :: d0 :: m1 :: m0 :: u1 :: u0 :: profile :: chair :: k :: l =>
      match splitText k l with
      | some (title, []) => some (.book (word2 d1 d0) (word2 m1 m0) (word2 u1 u0) profile chair title)
      | _ => none
  | _ => none

/-- RESTORE_BOOKING. -/
def readRestoreBooking : List Byte → Option Instr
  | d1 :: d0 :: m1 :: m0 :: u1 :: u0 :: profile :: chair :: k :: l =>
      match splitText k l with
      | some (title, [serial, version, c1, c0, s3, s2, s1, s0]) =>
          some (.restoreBooking (word2 d1 d0) (word2 m1 m0) (word2 u1 u0) profile chair title serial version
            (word2 c1 c0) (word4 s3 s2 s1 s0))
      | _ => none
  | _ => none

/-- START_MEETING. -/
def readStartMeeting : List Byte → Option Instr
  | u1 :: u0 :: profile :: k :: l =>
      match splitText k l with
      | some (title, []) => some (.startMeeting (word2 u1 u0) profile title)
      | _ => none
  | _ => none

/-- SHOW_MESSAGE. -/
def readShowMessage : List Byte → Option Instr
  | k :: l =>
      match splitText k l with
      | some (message, [t1, t0]) => some (.showMessage message (word2 t1 t0))
      | _ => none
  | _ => none

/-- Table 11-2: the command of a code and its parameters; none where the code is not listed or the parameter length is
not the command's. -/
def command (code : Byte) (p : List Byte) : Option Instr :=
  match code.toNat with
  | 0x01 => readConfigure p
  | 0x02 => readSetProfile p
  | 0x03 => none0 .go p
  | 0x10 => readReset p
  | 0x11 => none0 .readStatus p
  | 0x12 => none0 .readNotices p
  | 0x13 => one .setNoticeLevel p
  | 0x20 => readSetTime p
  | 0x21 => one .setVolume p
  | 0x22 => none0 .press p
  | 0x23 => readAddTime p
  | 0x24 => two .grant p
  | 0x25 => two .closeSeat p
  | 0x26 => none0 .clearQueue p
  | 0x27 => one .priority p
  | 0x28 => one .readFloor p
  | 0x30 => readBook p
  | 0x31 => readRestoreBooking p
  | 0x32 => two .cancelBooking p
  | 0x33 => one .readCalendar p
  | 0x34 => readStartMeeting p
  | 0x35 => none0 .endMeeting p
  | 0x36 => one .extendMeeting p
  | 0x40 => readShowMessage p
  | 0x41 => one .share p
  | 0x42 => none0 .unshare p
  | 0x43 => none0 .flush p
  | _ => none

/-- R178: the command that the bytes written while select was held make: a command of Table 11-2, a complete frame of
none, or a frame cut short. -/
def decode (bytes : List Byte) : Instr :=
  match bytes with
  | code :: n :: p =>
      if p.length = n.toNat then
        match command code p with
        | some c => c
        | none => .unknownCommandFrame code p
      else .cutShortCommandFrame bytes
  | _ => .cutShortCommandFrame bytes

/-- Tables 11-2 and 11-4: code and parameters of a host command; none for a command that is no host frame of a block's
command. -/
def parameters (c : Instr) : Option (Byte × List Byte) :=
  match c with
  | .configure seat role name trim threshold span attenuation duck follower wall share =>
      some (0x01#8, [seat, role] ++ textField name ++ [trim] ++ bytes2 threshold
        ++ [span, attenuation, duck, follower, wall, share])
  | .setProfile index mode limit budget kind warning silence rule endWarning allowed closes =>
      some (0x02#8, [index, mode, limit] ++ bytes2 budget ++ [kind, warning, silence, rule, endWarning, allowed, closes])
  | .go => some (0x03#8, [])
  | .resetFull => some (0x10#8, [1#8])
  | .resetSoft => some (0x10#8, [2#8])
  | .readStatus => some (0x11#8, [])
  | .readNotices => some (0x12#8, [])
  | .setNoticeLevel threshold => some (0x13#8, [threshold])
  | .setTime day second => some (0x20#8, bytes2 day ++ bytes4 second)
  | .setVolume volume => some (0x21#8, [volume])
  | .press => some (0x22#8, [])
  | .addTime seat seconds => some (0x23#8, [seat] ++ bytes2 seconds)
  | .grant seat condition => some (0x24#8, [seat, condition])
  | .closeSeat seat condition => some (0x25#8, [seat, condition])
  | .clearQueue => some (0x26#8, [])
  | .priority value => some (0x27#8, [value])
  | .readFloor cursor => some (0x28#8, [cursor])
  | .book day minute duration profile chair title =>
      some (0x30#8, bytes2 day ++ bytes2 minute ++ bytes2 duration ++ [profile, chair] ++ textField title)
  | .restoreBooking day minute duration profile chair title serial version createdDay createdSecond =>
      some (0x31#8, bytes2 day ++ bytes2 minute ++ bytes2 duration ++ [profile, chair] ++ textField title
        ++ [serial, version] ++ bytes2 createdDay ++ bytes4 createdSecond)
  | .cancelBooking holder serial => some (0x32#8, [holder, serial])
  | .readCalendar cursor => some (0x33#8, [cursor])
  | .startMeeting duration profile title => some (0x34#8, bytes2 duration ++ [profile] ++ textField title)
  | .endMeeting => some (0x35#8, [])
  | .extendMeeting minutes => some (0x36#8, [minutes])
  | .showMessage message lifetime => some (0x40#8, textField message ++ bytes2 lifetime)
  | .share screen => some (0x41#8, [screen])
  | .unshare => some (0x42#8, [])
  | .flush => some (0x43#8, [])
  | _ => none

/-- Table 11-1: the bytes of a command frame. -/
def frame (code : Byte) (p : List Byte) : List Byte := [code, byte p.length] ++ p

/-- The bytes that spell a host command; none for a command that no complete host frame spells. -/
def encode (c : Instr) : Option (List Byte) := (parameters c).map (fun p => frame p.1 p.2)

end HostFrame

namespace LinkFrame

/-- Table 1-1: the command of a frame that passed its CRC check. -/
def received (kind source : Byte) (body : List Byte) : Instr :=
  match kind.toNat with
  | 0x10 => .receiveVoice source body
  | 0x20 => .receiveBeacon source body
  | 0x41 => .receiveRequest source body
  | 0x42 => .receiveWithdraw source body
  | 0x43 => .receiveOpen source body
  | 0x44 => .receiveClose source body
  | 0x45 => .receiveYield source body
  | 0x46 => .receiveGrant source body
  | 0x47 => .receiveClear source body
  | 0x48 => .receivePriority source body
  | 0x49 => .receiveTimeAdd source body
  | 0x4A => .receiveShare source body
  | 0x4B => .receiveUnshare source body
  | 0x61 => .receiveCancel source body
  | 0x62 => .receiveExtendAsk source body
  | 0x63 => .receiveExtendAnswer source body
  | 0x64 => .receiveEndNow source body
  | _ => .unknownKindCodeFrame kind source body

/-- R3: the command that the bytes the receiver took make. -/
def decode (bytes : List Byte) : Instr :=
  match checkCrc bytes with
  | some (kind, source, body) => received kind source body
  | none => .frameCheckFailed bytes

end LinkFrame

end Sys2Proof
end

