-- ==== Sys2Proof/Machine/Port.lean ====
section
/-! DEFINITION. The Host Port's shared operations: notices and the notice FIFO (section 11.3), replies and reads
(section 11.1) and the codes of Table 11-6. -/

namespace Sys2Proof.Machine

/-! ## Notices -/

/-- Table 11-6: MEETING_END reasons. -/
def EndReason.code (r : EndReason) : Nat :=
  match r with
  | .time => 1
  | .endNow => 2
  | .cancelled => 3
  | .endedEarly => 4

/-- Table 11-6: EXTEND_RESULT results. -/
def AskResult.code (r : AskResult) : Nat :=
  match r with
  | .accepted => 1
  | .refused => 2
  | .noAnswer => 3

/-- Table 11-3: the code of a notice. -/
def Notice.code (n : Notice) : Nat :=
  match n with
  | .seatClash _ => 1
  | .floorConflict _ => 2
  | .timeExpired _ => 3
  | .meetingEnd _ _ => 4
  | .bookingConflict _ => 5
  | .timeWarning _ => 6
  | .meetingStart _ => 7
  | .meetingWarning _ _ => 8
  | .extendResult _ _ _ => 9
  | .shareLost _ _ => 10
  | .sendFailed _ => 11
  | .opened _ => 12
  | .closed _ _ => 13
  | .jitterOverflow _ => 14

/-- Table 11-3: the level of a notice. -/
def Notice.level (n : Notice) : Nat :=
  match n with
  | .seatClash _ => 3
  | .floorConflict _ => 2
  | .timeExpired _ => 2
  | .meetingEnd _ _ => 2
  | .bookingConflict _ => 2
  | .timeWarning _ => 1
  | .meetingStart _ => 1
  | .meetingWarning _ _ => 1
  | .extendResult _ _ _ => 1
  | .shareLost _ _ => 1
  | .sendFailed _ => 1
  | .opened _ => 0
  | .closed _ _ => 0
  | .jitterOverflow _ => 0

/-- Table 11-3: the parameters of a notice as bytes. -/
def Notice.params (n : Notice) : List Byte :=
  match n with
  | .seatClash a => [byte a]
  | .floorConflict a => [byte a]
  | .timeExpired a => [byte a]
  | .meetingEnd b r => bidBytes b ++ [byte r.code]
  | .bookingConflict b => bidBytes b
  | .timeWarning a => [byte a]
  | .meetingStart b => bidBytes b
  | .meetingWarning b m => bidBytes b ++ [byte m]
  | .extendResult b r g => bidBytes b ++ [byte r.code, byte g]
  | .shareLost c a => [byte c, byte a]
  | .sendFailed k => [byte k]
  | .opened a => [byte a]
  | .closed a r => [byte a, byte r.code]
  | .jitterOverflow a => [byte a]

/-- R186: a notice in a READ_NOTICES reply. -/
def Notice.bytes (n : Notice) : List Byte := [byte n.code, byte n.level] ++ n.params

/-- R184: a notice joins the tail when the FIFO holds fewer than 16, and is otherwise dropped with the
notice-overflow flag set. -/
def Port.push (p : Port) (n : Notice) : Port :=
  if p.notices.length < Config.noticeEntries then { p with notices := p.notices ++ [n] }
  else { p with overflow := true }

/-- A block queues a notice (R184). -/
def notify (n : Notice) (s : State) : State := { s with port := s.port.push n }

/-- Several notices, in their order. -/
def notifyAll (l : List Notice) (s : State) : State := l.foldl (fun t n => notify n t) s

/-- R185: the attention line: asserted while a queued notice's level is at or above the threshold. A threshold of 4
is reached by no level. -/
def Port.attention (p : Port) : Bool := p.notices.any (fun n => decide (p.threshold ≤ n.level))

/-! ## Replies and reads -/

/-- Table 11-1: status codes. -/
def Status.code (x : Status) : Nat :=
  match x with
  | .ok => 0
  | .busy => 1
  | .badState => 2
  | .badParam => 3
  | .queueFull => 4
  | .notChair => 5
  | .notMatched => 6
  | .notOpen => 7
  | .conflict => 8
  | .full => 9
  | .timeNotSet => 10
  | .notConfigured => 11

/-- Table 11-1: the bytes of a reply. -/
def Reply.bytes (r : Reply) : List Byte := [byte r.status.code] ++ be2 r.data.length ++ r.data

/-- A command that completes leaves its reply in the reply holder (R179). -/
def reply (x : Status) (data : List Byte) (s : State) : State :=
  { s with port := { s.port with reply := { status := x, data := data } } }

/-- A refusal, or an answer whose data length is 0 (R182). -/
def answer (x : Status) (s : State) : State := reply x [] s

/-- R179: the reply a read returns: status BUSY with data length 0 while the port is SERVING, otherwise the held
reply. -/
def Port.readReply (p : Port) : Reply := if p.serving then { status := .busy, data := [] } else p.reply

/-- R179: the byte at a position of a read; bytes clocked beyond the reply's end read as 0. Reading changes no
state. -/
def Port.readByte (p : Port) (k : Nat) : Byte := p.readReply.bytes.getD k 0#8

/-- R183: FLUSH completes when the control queue holds no frame: OK with data length 0, and the port is IDLE. -/
def flushCheck (s : State) : State :=
  if s.port.serving && s.link.queue.isEmpty then
    { s with port := { s.port with serving := false, reply := .okEmpty } }
  else s

/-- R179: a command frame other than RESET that arrives while the port is SERVING is refused with BUSY and changes
no state; otherwise the command is taken. -/
def whenTaken (s : State) (k : State → State) : State := if s.port.serving then s else k s

/-- R180: a RUN-group command arriving in SETUP is refused BAD_STATE. -/
def runGroup (s : State) (k : State → State) : State :=
  whenTaken s (fun t => if t.station = .setup then answer .badState t else k t)

/-- R180: a SETUP-only command arriving in RUN or CLASH is refused BAD_STATE. -/
def setupGroup (s : State) (k : State → State) : State :=
  whenTaken s (fun t => if t.station = .setup then k t else answer .badState t)

end Sys2Proof.Machine
end

