-- ==== Sys2Proof/Machine/Ops.lean ====
section
/-! DEFINITION. Readers that several blocks share: the configured seat, the meeting filter, the chair test, the peer
table by seat, the clock in minutes, and the calendar view by booking id. -/

namespace Sys2Proof.Machine

/-- The station's configured seat; 0 while none is configured. -/
def State.ownSeat (s : State) : Nat := s.config.seat

/-- Whether a meeting runs: state ACTIVE or ENDING. -/
def State.inMeeting (s : State) : Bool := decide (s.meeting.state ≠ .idle)

/-- The booking id of the active meeting, none while IDLE. -/
def State.meetingId (s : State) : Option Bid := if s.inMeeting then s.meeting.id else none

/-- R8: the meeting filter passes a frame when a meeting runs and the frame's id is the active meeting's. -/
def State.filterPasses (s : State) (m : Option Bid) : Bool :=
  s.inMeeting && decide (m ≠ none) && decide (m = s.meeting.id)

/-- The chair seat of the active meeting; 0 for none. -/
def State.chairSeat (s : State) : Nat := s.meeting.chair

/-- Whether a seat is the chair seat of the active meeting. -/
def State.isChairSeat (s : State) (seat : Nat) : Bool :=
  s.inMeeting && decide (seat = s.meeting.chair) && decide (seat ≠ 0)

/-- R73: the station is the chair. -/
def State.isChair (s : State) : Bool := s.isChairSeat s.ownSeat

/-- The delegate limit L of the active profile. -/
def State.limit (s : State) : Nat := s.meeting.profile.limit

/-! ## Peer table -/

/-- The entry of a seat (R21). A seat outside 1..48 reads as an UNKNOWN entry. -/
def Presence.peer (p : Presence) (seat : Nat) : Peer :=
  if isSeat seat then p.peers.getD (seat - 1) .unknownEntry else .unknownEntry

/-- Replaces the entry of a seat 1..48. -/
def Presence.setPeer (p : Presence) (seat : Nat) (e : Peer) : Presence :=
  if isSeat seat then { p with peers := p.peers.set (seat - 1) e } else p

/-- R28: whether the chair counts as present. -/
def State.chairPresent (s : State) : Bool :=
  decide (s.meeting.chair ≠ 0) &&
    (decide (s.meeting.chair = s.ownSeat) || decide ((s.presence.peer s.meeting.chair).state = .present))

/-! ## Clock and view -/

/-- R132: the clock's current minute. -/
def Clock.minute (c : Clock) : Nat := c.second / 60

/-- R132: the clock's minute number. -/
def Clock.minuteNumber (c : Clock) : Nat := c.day * Config.dayMinutes + c.minute

/-- R30: the clock in seconds. -/
def Clock.seconds (c : Clock) : Nat := c.day * Config.daySeconds + c.second

/-- R134: the start's minute number. -/
def WireEntry.start (e : WireEntry) : Nat := e.startDay * Config.dayMinutes + e.startMinute

/-- R134: the end's minute number. -/
def WireEntry.finish (e : WireEntry) : Nat := e.start + e.duration

/-- R134: two entries overlap when each starts before the other ends. -/
def WireEntry.overlaps (a b : WireEntry) : Bool := decide (a.start < b.finish) && decide (b.start < a.finish)

/-- R134: an entry is due when the clock is set and its minute number lies in the interval. -/
def WireEntry.due (e : WireEntry) (c : Clock) : Bool :=
  c.set && decide (e.start ≤ c.minuteNumber) && decide (c.minuteNumber < e.finish)

/-- The entry of a booking id (R135: no id appears twice). -/
def viewFind (v : List Entry) (id : Bid) : Option Entry := v.find? (fun e => decide (e.wire.id = id))

/-- The view without the entry of a booking id. -/
def viewDrop (v : List Entry) (id : Bid) : List Entry := v.filter (fun e => decide (e.wire.id ≠ id))

/-- The number of HELD entries. -/
def heldCount (v : List Entry) : Nat := (v.filter (fun e => e.held)).length

/-- R152: the time remaining in seconds. -/
def State.timeRemaining (s : State) : Int := (s.meeting.finish * 60 : Nat) - (s.calendar.clock.seconds : Int)

/-! ## Screen state that other blocks set or read -/

/-- The presenter of a screen, 1 or 2. -/
def Share.presenter (h : Share) (screen : Nat) : Option Presenter := if screen = 1 then h.screen1 else h.screen2

/-- R169: a block hands over a transient line 4 message with a lifetime of 750 blocks. -/
def showTransient (t : List Byte) (s : State) : State :=
  { s with screen := { s.screen with transient := { text := t, lifetime := Config.transientBlocks } } }

end Sys2Proof.Machine
end

