-- ==== Sys2Proof/Machine/FloorView.lean ====
section
/-! DEFINITION. The floor view as data (chapter 3): its orders, the rules that enter and remove seats, displacement
and reconciliation, each as a function of the view alone. What a change hands on is in
Machine/Speaking.lean. -/

namespace Sys2Proof.Machine

/-! ## Orders -/

/-- R33: (open stamp, seat) ascending. -/
def OpenRecord.before (a b : OpenRecord) : Bool :=
  decide (a.openStamp < b.openStamp) || (decide (a.openStamp = b.openStamp) && decide (a.seat < b.seat))

/-- R34: (request stamp, seat) ascending. -/
def QueueRecord.before (a b : QueueRecord) : Bool :=
  decide (a.requestStamp < b.requestStamp) || (decide (a.requestStamp = b.requestStamp) && decide (a.seat < b.seat))

/-- Inserts a record into the open set at the position its stamps give it. -/
def insertOpen (r : OpenRecord) : List OpenRecord → List OpenRecord
  | [] => [r]
  | x :: xs => if r.before x then r :: x :: xs else x :: insertOpen r xs

/-- Inserts a record into the request queue at the position its stamp gives it. -/
def insertQueue (r : QueueRecord) : List QueueRecord → List QueueRecord
  | [] => [r]
  | x :: xs => if r.before x then r :: x :: xs else x :: insertQueue r xs

/-! ## Readers -/

/-- The open record of a seat. -/
def Floor.openRecord (f : Floor) (seat : Nat) : Option OpenRecord :=
  f.openSet.find? (fun r => decide (r.seat = seat))

/-- Whether a seat is in the open set. -/
def Floor.isOpen (f : Floor) (seat : Nat) : Bool := f.openSet.any (fun r => decide (r.seat = seat))

/-- The queue record of a seat. -/
def Floor.queueRecord (f : Floor) (seat : Nat) : Option QueueRecord :=
  f.queue.find? (fun r => decide (r.seat = seat))

/-- Whether a seat is in the request queue. -/
def Floor.isQueued (f : Floor) (seat : Nat) : Bool := f.queue.any (fun r => decide (r.seat = seat))

/-- The 1-based index of a seat in a list of queue records, counting on from `k`. -/
def positionFrom (seat : Nat) : Nat → List QueueRecord → Option Nat
  | _, [] => none
  | k, r :: rs => if r.seat = seat then some k else positionFrom seat (k + 1) rs

/-- R34: a seat's position in the request queue. -/
def Floor.position (f : Floor) (seat : Nat) : Option Nat := positionFrom seat 1 f.queue

/-- The DELEGATE records in open-set order. -/
def Floor.delegates (f : Floor) : List OpenRecord := f.openSet.filter (fun r => decide (r.cls = .delegate))

/-! ## Stamps -/

/-- R35: a stamp that reaches the Floor Controller raises the counter. -/
def Floor.raise (f : Floor) (k : Nat) : Floor := { f with stamp := max f.stamp k }

/-- R35: the stamp the station issues next. -/
def Floor.nextStamp (f : Floor) : Nat := if f.stamp < maxStamp then f.stamp + 1 else maxStamp

/-- R35: the counter is raised to the issued stamp. -/
def Floor.issued (f : Floor) : Floor := f.raise f.nextStamp

/-! ## Single changes -/

/-- Removes a seat's record from the open set. -/
def Floor.dropOpen (f : Floor) (seat : Nat) : Floor :=
  { f with openSet := f.openSet.filter (fun r => decide (r.seat ≠ seat)) }

/-- Removes a seat's record from the request queue. -/
def Floor.dropQueue (f : Floor) (seat : Nat) : Floor :=
  { f with queue := f.queue.filter (fun r => decide (r.seat ≠ seat)) }

/-- R34: a seat that is not queued joins the queue with its mark clear; a queued seat's record is kept. -/
def Floor.join (f : Floor) (seat stamp : Nat) : Floor :=
  if f.isQueued seat then f
  else { f with queue := insertQueue { seat := seat, requestStamp := stamp, granted := false } f.queue }

/-- R42: a seat enters the open set out of the queue, or its record is updated in place with its since kept. -/
def Floor.enter (f : Floor) (seat : Nat) (cls : OpenClass) (o q block : Nat) : Floor :=
  let g := f.dropQueue seat
  let since := match g.openRecord seat with
    | some r => r.since
    | none => block
  let entered : OpenRecord := { seat := seat, cls := cls, openStamp := o, requestStamp := q, since := since }
  { g with openSet := insertOpen entered (g.dropOpen seat).openSet }

/-- Joins the seats of displaced records to the queue, each with its record's request stamp (R49). -/
def Floor.requeue (f : Floor) (l : List OpenRecord) : Floor :=
  l.foldl (fun g r => g.join r.seat r.requestStamp) f

/-- R49: the DELEGATE records beyond the first L. -/
def Floor.excess (f : Floor) (limit : Nat) : List OpenRecord := f.delegates.drop limit

/-- R49: displacement. -/
def Floor.displace (f : Floor) (limit : Nat) : Floor :=
  let out := f.excess limit
  let kept : Floor := { f with openSet := f.openSet.filter (fun r => !out.contains r) }
  kept.requeue out

/-- What one step of the view does: the view after it, and the seats it took out of the open set, each with the
reason the step records, in the order they left. -/
structure FloorStep where
  floor : Floor
  left : List (Nat × Reason)
  deriving DecidableEq, Repr

/-- A step that takes no seat out of the open set. -/
def FloorStep.plain (f : Floor) : FloorStep := { floor := f, left := [] }

/-- The third part of a step (R37): displacement of a view in which a record was entered or updated. -/
def Floor.displaceStep (f : Floor) (limit : Nat) : FloorStep :=
  { floor := f.displace limit, left := (f.excess limit).map (fun r => (r.seat, Reason.displaced)) }

/-! ## Arrivals -/

/-- R40: a REQUEST. -/
def Floor.request (f : Floor) (seat stamp : Nat) : Floor :=
  let g := f.raise stamp
  if g.isOpen seat then g else g.join seat stamp

/-- R42: an OPEN, with displacement. An OPEN with the record's own stamps and class changes only the counter. -/
def Floor.opening (f : Floor) (seat : Nat) (cls : OpenClass) (o q block limit : Nat) : FloorStep :=
  let g := (f.raise o).raise q
  match g.openRecord seat with
  | some r =>
      if r.openStamp = o ∧ r.requestStamp = q ∧ r.cls = cls ∧ g.isQueued seat = false then .plain g
      else (g.enter seat cls o q block).displaceStep limit
  | none => (g.enter seat cls o q block).displaceStep limit

/-- R51: an implicit open from a VOICE frame; a frame whose stamps are the open record's own changes only the
counter. -/
def Floor.implicit (f : Floor) (seat : Nat) (cls : OpenClass) (o q block limit : Nat) : FloorStep :=
  let g := (f.raise o).raise q
  match g.openRecord seat with
  | some r =>
      if r.openStamp = o ∧ r.requestStamp = q then .plain g
      else (g.enter seat cls o q block).displaceStep limit
  | none => (g.enter seat cls o q block).displaceStep limit

/-- R43: a YIELD. -/
def Floor.yielded (f : Floor) (seat stamp : Nat) : FloorStep :=
  let g := f.raise stamp
  { floor := (g.dropOpen seat).join seat stamp,
    left := if g.isOpen seat then [(seat, .displaced)] else [] }

/-- A seat leaves the open set with a reason (R44, R52, R55). -/
def Floor.removed (f : Floor) (seat : Nat) (why : Reason) : FloorStep :=
  { floor := f.dropOpen seat, left := if f.isOpen seat then [(seat, why)] else [] }

/-- R45: the granted mark of a queued seat is set. -/
def Floor.grant (f : Floor) (seat : Nat) : Floor :=
  { f with queue := f.queue.map (fun r => if r.seat = seat then { r with granted := true } else r) }

/-- R36: an order to turn priority on is taken only while the profile allows priority; an order to turn it off is
taken in any case. -/
def Floor.setPriority (f : Floor) (on allowed : Bool) : Floor :=
  if on then (if allowed then { f with priority := true } else f) else { f with priority := false }

/-- R53: an absent seat leaves both collections, and priority goes off when it is the chair. -/
def Floor.departed (f : Floor) (seat : Nat) (chair : Bool) : FloorStep :=
  let g := (f.dropOpen seat).dropQueue seat
  { floor := if chair then { g with priority := false } else g,
    left := if f.isOpen seat then [(seat, .absent)] else [] }

/-- R54: the request part of reconciliation. -/
def Floor.reconcileRequest (f : Floor) (seat : Nat) (request : Option Nat) : Floor :=
  match request with
  | none => f.dropQueue seat
  | some q =>
      if f.isOpen seat then f
      else match f.queueRecord seat with
        | none => f.join seat q
        | some r =>
            if r.requestStamp = q then f
            else { f with queue := insertQueue { r with requestStamp := q } (f.dropQueue seat).queue }

/-- R35 and R54: the stamps a beacon reports raise the counter. -/
def Floor.raiseReported (f : Floor) (mic : Option (Nat × Nat)) (request : Option Nat) : Floor :=
  let g := match mic with
    | some (o, q) => (f.raise o).raise q
    | none => f
  match request with
  | some q => g.raise q
  | none => g

/-- R54: the priority part: the chair's report alone counts. -/
def Floor.reconcilePriority (f : Floor) (priority chair allowed : Bool) : Floor :=
  if chair then f.setPriority priority allowed else f

/-- R51: the class of an implicit opening. -/
def implicitClass (chair : Bool) : OpenClass := if chair then .chair else .delegate

/-- R54: reconciliation of the view with the floor state of a beacon, as one step: mic part, request part, priority
part, then displacement when the mic part entered or updated a record. `chair` says that the sender is the chair
seat. -/
def Floor.reconcile (f : Floor) (seat : Nat) (mic : Option (Nat × Nat)) (request : Option Nat) (priority chair : Bool)
    (block limit : Nat) (allowed : Bool) : FloorStep :=
  let g := f.raiseReported mic request
  match mic with
  | none =>
      { floor := ((g.dropOpen seat).reconcileRequest seat request).reconcilePriority priority chair allowed,
        left := if g.isOpen seat then [(seat, .sync)] else [] }
  | some (o, q) =>
      if (g.openRecord seat).any (fun r => decide (r.openStamp = o) && decide (r.requestStamp = q)) then
        .plain ((g.reconcileRequest seat request).reconcilePriority priority chair allowed)
      else
        (((g.enter seat (implicitClass chair) o q block).reconcileRequest seat request).reconcilePriority priority chair
          allowed).displaceStep limit

end Sys2Proof.Machine
end

