-- ==== Sys2Proof/Machine/LinkOps.lean ====
section
/-! DEFINITION. The Link Interface (chapter 1): the control queue's kinds, coalescing, admission and withdrawal, the
voice slot and the beacon slot, the composition of a beacon and the selection of the next frame. -/

namespace Sys2Proof.Machine

/-- R11: the internal kinds. -/
inductive InternalKind where
  | mic
  | req
  | share
  | prio
  | cal
  deriving DecidableEq, Repr

/-- R11: the internal kind of a control frame; none for a host-originated one. A CLOSE is of kind MIC when it is
about the sender's own seat. -/
def Frame.internalKind (f : Frame) : Option InternalKind :=
  match f.body with
  | .opening .. => some .mic
  | .yield .. => some .mic
  | .close _ target _ => if target = f.source then some .mic else none
  | .request .. => some .req
  | .withdraw _ => some .req
  | .share .. => some .share
  | .unshare _ => some .share
  | .priority .. => some .prio
  | .extendAnswer .. => some .cal
  | _ => none

/-- R12: the inverse pairs: a queued frame followed by an offered one. -/
def inversePair (queued offered : Frame) : Bool :=
  match queued.body, offered.body with
  | .opening .., .close _ target _ => decide (target = offered.source)
  | .request .., .withdraw _ => true
  | .share .., .unshare _ => true
  | .priority _ on, .priority _ on' => on && !on'
  | _, _ => false

/-- R12: what became of an offered internal frame. -/
inductive Offered where
  | joined
  | replaced
  | cancelled
  | refused
  deriving DecidableEq, Repr

/-- R12: the queue after a frame of an internal kind is offered. -/
def coalesce (f : Frame) : List Frame → List Frame × Offered
  | [] => ([f], .joined)
  | q :: qs =>
      if q.internalKind = f.internalKind then
        (if inversePair q f then (qs, .cancelled) else (f :: qs, .replaced))
      else
        let r := coalesce f qs
        (q :: r.1, r.2)

/-- R13: host-originated frames in the control queue. -/
def hostFrames (q : List Frame) : Nat := (q.filter (fun f => f.internalKind.isNone)).length

/-! ## Announcement (R139) -/

/-- R135: (start, holder seat, serial) ascending. -/
def viewKeyLt (start : Nat) (id : Bid) (start' : Nat) (id' : Bid) : Bool :=
  decide (start < start') ||
    (decide (start = start') &&
      (decide (id.holder < id'.holder) || (decide (id.holder = id'.holder) && decide (id.serial < id'.serial))))

/-- The place of a rotation mark in view order. -/
def RotationMark.start (m : RotationMark) : Nat := m.startDay * Config.dayMinutes + m.startMinute

/-- R139: the held entry that the next beacon carries. -/
def nextHeld (v : List Entry) (mark : Option RotationMark) : Option WireEntry :=
  let held := (v.filter (fun e => e.held)).map (fun e => e.wire)
  match mark with
  | none => held.head?
  | some m =>
      match held.find? (fun e => viewKeyLt m.start m.id e.start e.id) with
      | some e => some e
      | none => held.head?

/-- R139: the mark after an announcement; unchanged when nothing was carried. -/
def markAfter (mark : Option RotationMark) (carried : Option WireEntry) : Option RotationMark :=
  match carried with
  | some e => some { id := e.id, startDay := e.startDay, startMinute := e.startMinute }
  | none => mark

/-! ## Composition of a beacon (R10, R20) -/

/-- R20: the screen that a seat holds in the share map, with its stamp. -/
def Share.holds (h : Share) (seat : Nat) : Option (Nat × Nat) :=
  match h.screen1, h.screen2 with
  | some p, some q => if p.seat = seat then some (1, p.stamp) else if q.seat = seat then some (2, q.stamp) else none
  | some p, none => if p.seat = seat then some (1, p.stamp) else none
  | none, some q => if q.seat = seat then some (2, q.stamp) else none
  | none, none => none

/-- R20: the sender time: the clock, or the unset mark. -/
def Clock.reported (c : Clock) : Nat × Nat := if c.set then (c.day, c.second) else (65535, Config.lastSecond)

/-- R20: the contents of a beacon at the moment it starts. -/
def composeBeacon (s : State) : BeaconBody :=
  { role := s.config.role, name := s.config.name, meeting := s.meetingId, endedEarly := s.meeting.endedEarly,
    mic := (s.floor.openRecord s.ownSeat).map (fun r => (r.openStamp, r.requestStamp)),
    request := (s.floor.queueRecord s.ownSeat).map (fun r => r.requestStamp),
    share := s.share.holds s.ownSeat, priority := s.floor.priority,
    day := s.calendar.clock.reported.1, second := s.calendar.clock.reported.2,
    entry := nextHeld s.calendar.view s.calendar.rotation }

/-- R6: the contents of the clash beacon. -/
def composeClashBeacon (s : State) : BeaconBody :=
  { role := s.config.role, name := s.config.name, meeting := none, endedEarly := none, mic := none, request := none,
    share := none, priority := false, day := s.calendar.clock.reported.1, second := s.calendar.clock.reported.2,
    entry := none }

/-! ## Selection (R15) -/

/-- Whether the link is free: no frame in send and no attempt of a reset frame still on the link. -/
def Link.idle (l : Link) : Bool := l.inSend.isNone && !l.finishing

/-- A frame becomes the frame in send, at its first attempt (R16). -/
def Sending.first (f : Frame) (clash : Bool) : Sending := { frame := f, attempt := 1, clash := clash, voided := false }

/-- The pending beacon starts: it is composed, and the rotation mark moves (R10, R139). -/
def startBeacon (s : State) : State :=
  let b := composeBeacon s
  { s with
    link := { s.link with beaconSlot := none,
                          inSend := some (.first { source := s.ownSeat, body := .beacon b } false) },
    calendar := { s.calendar with rotation := markAfter s.calendar.rotation b.entry } }

/-- The clash beacon starts (R6). -/
def startClashBeacon (s : State) : State :=
  { s with
    link := { s.link with
                beaconSlot := none,
                inSend := some (.first { source := s.ownSeat, body := .beacon (composeClashBeacon s) } true) } }

/-- R15 in RUN, on a free link: the voice slot, then the oldest control frame, then the pending beacon. -/
def selectRun (s : State) : State :=
  match s.link.voiceSlot with
  | some f => { s with link := { s.link with voiceSlot := none, inSend := some (.first f false) } }
  | none =>
      match s.link.queue with
      | f :: rest =>
          flushCheck { s with link := { s.link with queue := rest, inSend := some (.first f false) } }
      | [] => if s.link.beaconSlot.isSome then startBeacon s else s

/-- R15: the selection of a frame to start, made whenever the link is free. In CLASH it considers the clash beacon
alone; in SETUP none is made. -/
def select (s : State) : State :=
  if s.link.idle then
    match s.station with
    | .setup => s
    | .run => selectRun s
    | .clash => if s.link.beaconSlot = some .clash then startClashBeacon s else s
  else s

/-! ## Placing frames in the holders -/

/-- The frame of a body the station places: its source seat is the configured one (R1). -/
def State.own (s : State) (b : Body) : Frame := { source := s.ownSeat, body := b }

/-- R12: a block offers a frame of an internal kind. In CLASH the queue refuses it (R6). -/
def offer (b : Body) (s : State) : State × Offered :=
  if s.station = .clash then (s, .refused)
  else
    let r := coalesce (s.own b) s.link.queue
    (select (flushCheck { s with link := { s.link with queue := r.1 } }), r.2)

/-- R12, where the offering block does not ask what became of the frame. -/
def offerFrame (b : Body) (s : State) : State := (offer b s).1

/-- R13: whether a host-originated frame is admitted. -/
def State.admitsHost (s : State) : Bool := decide (hostFrames s.link.queue < Config.maxHostFrames)

/-- R13: an admitted host-originated frame joins the tail. -/
def offerHost (b : Body) (s : State) : State :=
  select { s with link := { s.link with queue := s.link.queue ++ [s.own b] } }

/-- R14: the answers to a withdrawal. -/
inductive Withdrawal where
  | withdrawn
  | started
  | none
  deriving DecidableEq, Repr

/-- R14: the Floor Controller asks for its OPEN to be withdrawn: a frame of internal kind MIC in the queue is
removed; otherwise an OPEN in send answers "started". -/
def withdrawOpen (s : State) : State × Withdrawal :=
  if s.link.queue.any (fun f => decide (f.internalKind = some .mic)) then
    (flushCheck { s with
      link := { s.link with queue := s.link.queue.filter (fun f => decide (f.internalKind ≠ some .mic)) } },
      .withdrawn)
  else
    match s.link.inSend with
    | some x =>
        match x.frame.body with
        | .opening .. => if x.voided then (s, .none) else (s, .started)
        | _ => (s, .none)
    | none => (s, .none)

/-- R9: the Capture Path offers a VOICE frame. -/
def placeVoice (b : Body) (s : State) : State :=
  if s.station = .clash then s
  else
    let skips := if s.link.voiceSlot.isSome then sat16 s.link.voiceSkips else s.link.voiceSkips
    select { s with link := { s.link with voiceSlot := some (s.own b), voiceSkips := skips } }

/-- R9: the voice slot is emptied; no skip is counted. -/
def emptyVoice (s : State) : State := { s with link := { s.link with voiceSlot := none } }

/-- R10: the Presence Table asks for a beacon: placed when the slot is empty, dropped otherwise, refused in CLASH
(R6). -/
def requestBeacon (s : State) : State :=
  if s.station = .run then
    (if s.link.beaconSlot.isSome then s
     else select { s with link := { s.link with beaconSlot := some .normal } })
  else s

/-- R3 and R4: a frame that fails a check is discarded and counted. -/
def countBadFrame (s : State) : State := { s with link := { s.link with badFrames := sat16 s.link.badFrames } }

end Sys2Proof.Machine
end

