-- ==== Sys2Proof/Machine/MixEngine.lean ====
section
/-! DEFINITION. The Mix Engine (chapters 6 and 7) and the trim arithmetic it shares with the Capture Path: the gain
table, source slots and jitter FIFOs, the sum, the clamp and the limiter. -/

namespace Sys2Proof.Machine

/-! ## Gains (section 7.1) -/

/-- Table 7-1, indices 0 to 31. -/
def coefficientsLow : List Nat :=
  [32767, 29205, 26029, 23198, 20675, 18427, 16423, 14637, 13045, 11627, 10362, 9235, 8231, 7336, 6538, 5827,
   5193, 4629, 4125, 3677, 3277, 2920, 2603, 2320, 2068, 1843, 1642, 1464, 1305, 1163, 1036, 924]

/-- Table 7-1, indices 32 to 63. -/
def coefficientsHigh : List Nat :=
  [823, 734, 654, 583, 519, 463, 413, 368, 328, 292, 260, 232, 207, 184, 164, 146,
   130, 116, 104, 92, 82, 73, 65, 58, 52, 46, 41, 37, 33, 29, 26, 0]

/-- R114: the coefficient of a gain index 0..63. -/
def coefficient (g : Nat) : Nat := (coefficientsLow ++ coefficientsHigh).getD g 0

/-- R89 and R121: a sample times a coefficient, rounded half up: floor((s × c + 16384) / 32768). -/
def scale (x : Int) (c : Nat) : Int := (x * (c : Int) + 16384).fdiv 32768

/-- The magnitude of a sample (00_scope.md: |−32768| counts as 32768). -/
def magnitude (x : Int) : Nat := x.natAbs

/-- R90: the largest magnitude of a block. -/
def peak (l : List Int) : Nat := l.foldl (fun m x => max m (magnitude x)) 0

/-- A block of exactly 64 samples (an input delivers 64; anything beyond is not read, anything missing reads 0). -/
def block64 (l : List Sample) : List Int :=
  (List.range Config.blockSamples).map (fun i => (l.getD i 0#16).toInt)

/-! ## Slots (sections 6.1 to 6.5) -/

/-- R100: binds the lowest-numbered FREE slot. -/
def bindFirst (seat : Nat) : List Slot → List Slot
  | [] => []
  | x :: xs =>
      if x.state = .free then { Slot.freed with seat := seat, state := .filling } :: xs else x :: bindFirst seat xs

/-- R101: frees the slot bound to a seat. -/
def freeSeat (seat : Nat) (l : List Slot) : List Slot :=
  l.map (fun x => if x.state ≠ .free ∧ x.seat = seat then Slot.freed else x)

/-- The slot bound to a seat. -/
def slotOf (l : List Slot) (seat : Nat) : Option Slot := l.find? (fun x => decide (x.state ≠ .free) && decide (x.seat = seat))

/-- R102: the acceptance test. -/
def Slot.accepts (x : Slot) (block : Nat) : Bool :=
  (match x.fifo.getLast? with
   | some h => newerBlock block h.block
   | none => true) &&
  (match x.last with
   | some h => newerBlock block h.block
   | none => true)

/-- R103: an accepted block joins the FIFO, or is dropped with the overflow flag set when it holds 4; a FILLING
slot that then holds 2 plays. The stale count was set to 0 (R102). -/
def Slot.take (x : Slot) (h : HeldBlock) : Slot :=
  if x.fifo.length < Config.fifoDepth then
    let fifo := x.fifo ++ [h]
    { x with fifo := fifo, stale := 0,
             state := if x.state = .filling ∧ fifo.length = Config.prefillBlocks then .playing else x.state }
  else { x with overflow := true, stale := 0 }

/-- R106: the halved repetition of a block. -/
def halved (l : List Int) : List Int := l.map (fun x => x.fdiv 2)

/-- R105 to R107: what a slot yields at a block of the station (none for silence), and the slot after it. -/
def Slot.yield (x : Slot) : Option (List Int) × Slot :=
  match x.state with
  | .free => (none, x)
  | .filling => (none, x)
  | .playing =>
      match x.fifo with
      | h :: rest => (some h.samples, { x with fifo := rest, last := some h })
      | [] =>
          (match x.last with
           | some h => some (halved h.samples)
           | none => none,
           { x with state := .concealing })
  | .concealing =>
      match x.fifo with
      | h :: rest => (some h.samples, { x with state := .playing, fifo := rest, last := some h })
      | [] => (none, { x with state := .filling })

/-- R109: the stale count of a bound slot after a block. -/
def Slot.age (x : Slot) : Slot :=
  if x.state = .free then x else { x with stale := if x.stale < Config.staleBlocks then x.stale + 1 else x.stale }

/-- Whether the station has source slots: a DOOR station has none (chapter 6). -/
def State.hasMix (s : State) : Bool := decide (s.config.role ≠ .door)

/-- R38, R100 and R101: a net change handed to the Mix Engine, removals first, then entries. -/
def bindNet (own : Nat) (removed entered : List Nat) (l : List Slot) : List Slot :=
  let freedSlots := (removed.filter (fun k => decide (k ≠ own))).foldl (fun m k => freeSeat k m) l
  (entered.filter (fun k => decide (k ≠ own))).foldl (fun m k => bindFirst k m) freedSlots

/-- R102 to R104: a VOICE frame that has passed the Floor Controller reaches the Mix Engine. -/
def mixReceive (seat : Nat) (h : HeldBlock) (s : State) : State :=
  if s.hasMix then
    match slotOf s.mix.slots seat with
    | none => s
    | some x =>
        let put (y : Slot) : List Slot :=
          s.mix.slots.map (fun z => if z.state ≠ .free ∧ z.seat = seat then y else z)
        if x.accepts h.block then
          let t := { s with mix := { s.mix with slots := put (x.take h) } }
          if x.fifo.length < Config.fifoDepth then t
          else if t.mix.overflowMark then t
          else notify (.jitterOverflow seat) { t with mix := { t.mix with overflowMark := true } }
        else
          { s with mix := { s.mix with slots := put { x with stale := 0 }, lateBlocks := sat16 s.mix.lateBlocks } }
  else s

/-! ## The mix (sections 7.3 to 7.6) -/

/-- R117: whether proximity applies to a source at this station. -/
def State.proximityApplies (s : State) (seat : Nat) : Bool :=
  decide (s.config.role = .seat) && decide (0 < s.config.span) &&
    decide ((if seat ≤ s.ownSeat then s.ownSeat - seat else seat - s.ownSeat) ≤ s.config.span)

/-- R118: whether the duck applies at this station. -/
def State.duckApplies (s : State) : Bool := decide (s.config.role = .seat) && s.floor.isOpen s.ownSeat

/-- R119: whether a source is priority-muted. -/
def State.priorityMuted (s : State) (seat : Nat) : Bool := s.floor.priority && decide (seat ≠ s.meeting.chair)

/-- R120: the coefficient of a source, 0 when it is muted. -/
def State.sourceCoefficient (s : State) (seat : Nat) : Nat :=
  if s.mix.volume = 63 ∨ (s.duckApplies = true ∧ s.config.duck = 63) ∨ s.priorityMuted seat = true then 0
  else
    coefficient (min 62 (s.mix.volume + s.mix.reduction
      + (if s.proximityApplies seat then s.config.attenuation else 0)
      + (if s.duckApplies then s.config.duck else 0)))

/-- R121: the terms of one source's block. -/
def terms (c : Nat) (l : List Int) : List Int := l.map (fun x => if c = 0 then 0 else scale x c)

/-- R123: the sums, position by position, of the terms of the yielding slots. -/
def sumBlocks (l : List (List Int)) : List Int :=
  l.foldl (fun acc b => (List.range Config.blockSamples).map (fun i => acc.getD i 0 + b.getD i 0)) zeroBlock

/-- R124: one output sample. -/
def clampSample (x : Int) : Int := if x > 32767 then 32767 else if x < -32768 then -32768 else x

/-- R124: the clipped count of a block of sums. -/
def clippedCount (l : List Int) : Nat := (l.filter (fun x => decide (x > 32767) || decide (x < -32768))).length

/-- R126 and R127: the limiter takes a block: reduction and quiet counter after it. -/
def limiterStep (clipped reduction quiet : Nat) : Nat × Nat :=
  if Config.heavyClipping ≤ clipped then (min Config.maxReduction (reduction + 1), 0)
  else if 1 ≤ clipped then (reduction, 0)
  else if Config.quietBlocks ≤ quiet + 1 then (reduction - 1, 0)
  else (reduction, quiet + 1)

/-- R122 to R127: the Mix Engine's part of a block in RUN or CLASH: the slots yield, the block is computed with the
components as they stand, the output of the block before goes to the loudspeaker, and the limiter takes the clipped
count. -/
def mixBlock (s : State) : State :=
  let yields := s.mix.slots.map (fun x => (x.seat, x.yield))
  let contributions := yields.filterMap (fun p => p.2.1.map (fun l => terms (s.sourceCoefficient p.1) l))
  let sums := sumBlocks contributions
  let clipped := clippedCount sums
  let lim := limiterStep clipped s.mix.reduction s.mix.quiet
  { s with mix := { s.mix with
      slots := yields.map (fun p => p.2.2),
      output := sums.map clampSample, speaker := s.mix.output,
      clipped := clipped, limitFlag := s.mix.limitFlag || decide (1 ≤ clipped),
      reduction := lim.1, quiet := lim.2 } }

/-- R109: the stale counts after the slots have yielded. -/
def ageSlots (s : State) : State := { s with mix := { s.mix with slots := s.mix.slots.map Slot.age } }

/-- R122: in SETUP the loudspeaker takes a block of zero samples. -/
def silentBlock (s : State) : State :=
  { s with mix := { s.mix with output := zeroBlock, speaker := zeroBlock } }

end Sys2Proof.Machine
end

