-- ==== Sys2Proof/Machine/Display.lean ====
section
/-! DEFINITION. The lamps (R63), the seat display (sections 10.1 and 10.2), the wall selector (R176) and `settle`, which
follows each change of what they read: LED patterns, selector output, the lines composed afresh and the transfer. -/

namespace Sys2Proof.Machine

/-! ## Lamps (R63) -/

/-- R63: blocks of one phase of a pattern; 0 for a pattern that does not blink. -/
def LedPattern.phase (p : LedPattern) : Nat :=
  match p with
  | .slowBlink => Config.slowPhase
  | .fastBlink => Config.fastPhase
  | _ => 0

/-- R63: the phase of a blink runs out and the LED toggles. -/
def LedState.toggle (l : LedState) : LedState := { l with onPhase := !l.onPhase, phaseCount := 0 }

/-- R63: one block of an LED's pattern. -/
def LedState.tick (l : LedState) : LedState :=
  if l.pattern.phase = 0 then l
  else if l.phaseCount + 1 < l.pattern.phase then { l with phaseCount := l.phaseCount + 1 } else l.toggle

/-- R63: the pattern the ring's condition gives. -/
def State.ringPattern (s : State) : LedPattern :=
  if s.config.role ≠ .seat then .off
  else match s.station with
    | .setup => .off
    | .clash => .off
    | .run =>
        match s.mic.state with
        | .closed => .off
        | .waiting => .slowBlink
        | .opening => .on
        | .open => if s.mic.warned || s.mic.overrun then .fastBlink else .on

/-- R63: the pattern the request LED's condition gives. -/
def State.requestPattern (s : State) : LedPattern :=
  if s.config.role ≠ .seat then .off
  else match s.station with
    | .setup => .off
    | .clash => .fastBlink
    | .run =>
        match s.mic.state with
        | .waiting =>
            match s.floor.queueRecord s.ownSeat with
            | some r => if r.granted then .on else .off
            | none => .off
        | _ => .off

/-- R63: a change that gives a different pattern starts the new one at the beginning of its on phase; the same pattern
leaves its phase running. -/
def LedState.set (l : LedState) (p : LedPattern) : LedState :=
  if l.pattern = p then l else { pattern := p, onPhase := true, phaseCount := 0 }

/-- R63: both patterns set afresh from the state. -/
def refreshLeds (s : State) : State :=
  { s with controls := { s.controls with
      ring := s.controls.ring.set s.ringPattern, request := s.controls.request.set s.requestPattern } }

/-- R63: whether a pattern's output is on. -/
def LedState.lit (l : LedState) : Bool :=
  match l.pattern with
  | .off => false
  | .on => true
  | _ => l.onPhase

/-- R63: the ring output: ON while a FLASH lasts, whatever its pattern; OFF at a DOOR or WALL station. -/
def State.ringLit (s : State) : Bool :=
  decide (s.config.role = .seat) && (decide (0 < s.controls.flash) || s.controls.ring.lit)

/-- R63: the request LED output. -/
def State.requestLit (s : State) : Bool := decide (s.config.role = .seat) && s.controls.request.lit

/-! ## Text fields (R165, R166) -/

/-- R165: a character outside 0x20..0x7E is stored as '?'. -/
def cell (c : Byte) : Byte := if 0x20 ≤ c.toNat ∧ c.toNat ≤ 0x7E then c else 0x3F#8

/-- R165: a text in a field of `n` cells: cut at its end, filled with spaces to the right. -/
def field (n : Nat) (t : List Byte) : List Byte :=
  let cut := (t.take n).map cell
  cut ++ List.replicate (n - cut.length) 0x20#8

/-- One decimal digit. -/
def digit (n : Nat) : Byte := byte (48 + n % 10)

/-- A number in two digits. -/
def digits2 (n : Nat) : List Byte := [digit (n / 10), digit n]

/-- A number in five digits. -/
def digits5 (n : Nat) : List Byte := [digit (n / 10000), digit (n / 1000), digit (n / 100), digit (n / 10), digit n]

/-- A position without leading zero. -/
def decimal (n : Nat) : List Byte := if n < 10 then [digit n] else digits2 n

/-- R166: "hh:mm" of a minute of day. -/
def clockText (minute : Nat) : List Byte := digits2 (minute / 60) ++ text ":" ++ digits2 (minute % 60)

/-- R166: "mm:ss" of a number of seconds. -/
def durationText (n : Nat) : List Byte := digits2 (n / 60) ++ text ":" ++ digits2 (n % 60)

/-- R166: the name a seat has: the configured name for the own seat, the peer entry's otherwise. -/
def State.nameOf (s : State) (seat : Nat) : List Byte :=
  if seat = s.ownSeat then s.config.name else (s.presence.peer seat).name

/-- R166: a seat as a line names it: "Seat nn" where its name is empty. -/
def State.seatText (s : State) (seat : Nat) : List Byte :=
  if (s.nameOf seat).isEmpty then text "Seat " ++ digits2 seat else s.nameOf seat

/-- Texts joined by a separator. -/
def joinText (sep : List Byte) : List (List Byte) → List Byte
  | [] => []
  | [x] => x
  | x :: y :: rest => x ++ sep ++ joinText sep (y :: rest)

/-! ## Lines (R167, R168, R170) -/

/-- R167: the speakers line for a list of seats; the chair's name is prefixed "*". -/
def State.speakersLine (s : State) (seats : List Nat) : List Byte :=
  if seats.isEmpty then text "Floor open"
  else joinText (text " / ") (seats.map (fun k => (if k = s.chairSeat then text "*" else []) ++ s.seatText k))

/-- R167: the own-state line. -/
def State.ownStateLine (s : State) : List Byte :=
  match s.mic.state with
  | .closed => text "Press to speak"
  | .waiting => text "Waiting  #" ++ decimal ((s.floor.position s.ownSeat).getD 0)
  | .opening => text "Opening"
  | .open =>
      if s.mic.overrun then text "OVER TIME +" ++ durationText s.mic.overrunCount
      else match s.mic.remaining with
        | none => text "SPEAKING"
        | some n => text "SPEAKING " ++ durationText n

/-- R168: one record of the queue window in 12 cells. -/
def State.windowField (s : State) (r : Option QueueRecord) : List Byte :=
  match r with
  | none => field 12 []
  | some q => field 12 (digits2 q.seat ++ text " " ++ (s.nameOf q.seat).take 9)

/-- R168: line 3, the records at positions k and k + 1. -/
def State.windowLine (s : State) : List Byte :=
  if s.floor.queue.isEmpty then text "No requests"
  else s.windowField (s.floor.queue[s.screen.windowStart - 1]?) ++ s.windowField (s.floor.queue[s.screen.windowStart]?)

/-- The active entry's title. -/
def State.meetingTitle (s : State) : List Byte :=
  match s.meeting.id with
  | some id => (match viewFind s.calendar.view id with
      | some e => e.wire.title
      | none => [])
  | none => []

/-- R169: the default of a running meeting's page. -/
def State.meetingDefault (s : State) : List Byte :=
  let untilText := text "until " ++ clockText (s.meeting.finish % Config.dayMinutes)
  if s.meetingTitle.isEmpty then untilText else s.meetingTitle.take 12 ++ text " " ++ untilText

/-- R169: the first present of the five sources of line 4. DESIGN CHOICE (unsafe): a time remaining below 0, between a
jump of the clock past the end and the end itself, is written 00:00 (notes/assumptions/42.md). -/
def State.lineFour (s : State) (default : List Byte) : List Byte :=
  if s.station = .clash then text "SEAT NUMBER IN USE"
  else if s.meeting.state = .ending then text "Meeting ends in " ++ durationText s.timeRemaining.toNat
  else if 0 < s.screen.transient.lifetime then s.screen.transient.text
  else if 0 < s.screen.host.lifetime then s.screen.host.text
  else default

/-- R170: "hh:mm TITLE" of an entry. -/
def entryBrief (e : WireEntry) : List Byte := clockText e.startMinute ++ text " " ++ e.title

/-- R170: an entry line of a DOOR page. -/
def doorEntry (e : Option Entry) : List Byte :=
  match e with
  | none => []
  | some x =>
      clockText x.wire.startMinute ++ text "-" ++ clockText (x.wire.finish % Config.dayMinutes)
        ++ (if x.active then text "*" else text " ") ++ x.wire.title.take 12

/-- R170: the seat holding the station's configured screen. -/
def State.shownSeat (s : State) : Nat :=
  match s.share.presenter s.config.wallScreen with
  | some p => p.seat
  | none => 0

/-- R167: the page of a SEAT station in a meeting. -/
def State.seatPage (s : State) : List (List Byte) :=
  [s.speakersLine ((s.floor.openSet.map (fun r => r.seat)).filter (fun k => decide (k ≠ s.ownSeat))),
   s.ownStateLine, s.windowLine, s.lineFour s.meetingDefault]

/-- R170: the page of a WALL station in a meeting. -/
def State.wallPage (s : State) : List (List Byte) :=
  [s.speakersLine (s.floor.openSet.map (fun r => r.seat)),
   if s.shownSeat = 0 then text "No presentation" else text "Showing: " ++ s.seatText s.shownSeat,
   s.meetingTitle, s.lineFour s.meetingDefault]

/-- R170: the page of a SEAT or WALL station while IDLE. -/
def State.idlePage (s : State) : List (List Byte) :=
  let v := s.calendar.view
  [s.seatText s.ownSeat,
   match v[0]? with
   | some e => text "Next " ++ entryBrief e.wire
   | none => text "No meeting",
   match v[1]? with
   | some e => entryBrief e.wire
   | none => [],
   s.lineFour (if s.calendar.clock.set then clockText s.calendar.clock.minute else [])]

/-- R170: the page of a DOOR station. -/
def State.doorPage (s : State) : List (List Byte) :=
  let v := s.calendar.view
  [if s.calendar.clock.set then
      text "Day " ++ digits5 s.calendar.clock.day ++ text " " ++ clockText s.calendar.clock.minute
   else text "Time not set",
   if v.isEmpty then text "No bookings" else doorEntry v[0]?,
   doorEntry v[1]?, s.lineFour (doorEntry v[2]?)]

/-- R167 and R170: the page the station shows, each line in 24 cells. -/
def State.page (s : State) : List (List Byte) :=
  let lines :=
    if s.station = .setup then [text "SETUP", [], [], s.lineFour []]
    else match s.config.role with
      | .door => s.doorPage
      | .seat => if s.inMeeting then s.seatPage else s.idlePage
      | .wall => if s.inMeeting then s.wallPage else s.idlePage
  lines.map (field Config.lineCells)

/-! ## Composition and transfer (R165) -/

/-- R168: the window start as a composition leaves it: 1 where no record stands at position k. -/
def State.windowShown (s : State) : Nat :=
  if s.config.role = .seat ∧ s.station ≠ .setup ∧ s.inMeeting = true ∧ s.floor.queue.length < s.screen.windowStart then 1
  else s.screen.windowStart

/-- R168: the composition that finds no record at position k sets k to 1. -/
def fixWindow (s : State) : State := { s with screen := { s.screen with windowStart := s.windowShown } }

/-- R165: writing a page: the buffer becomes dirty when any cell's content differs. -/
def Screen.write (d : Screen) (p : List (List Byte)) : Screen :=
  { d with buffer := p, dirty := d.dirty || decide (p ≠ d.buffer) }

/-- R165: composing the page. -/
def compose (s : State) : State := { s with screen := s.screen.write s.page }

/-- R165: a dirty buffer with an idle port starts a transfer of the 96 cells as they stand. -/
def Screen.start (d : Screen) : Screen :=
  if d.dirty && !d.running then { d with dirty := false, running := true, sent := d.buffer } else d

/-- R165: the transfer that a dirty buffer starts. -/
def startTransfer (s : State) : State := { s with screen := s.screen.start }

/-- R165: the transfer that runs completes. -/
def completeTransfer (s : State) : State := { s with screen := { s.screen with running := false } }

/-- R176: the selector output of a WALL station; a station of another role drives none. -/
def refreshSelector (s : State) : State :=
  { s with share := { s.share with
      selector := if s.config.role = .wall ∧ s.station ≠ .setup then s.shownSeat else 0 } }

/-- What follows each change (R63, R165, R166, R176): LED patterns, selector output, composition and transfer. The
operations call it after each change that their rules make in a row, and every command that can change what it reads ends
with it; changes that one rule makes together are followed together (notes/assumptions/4.md). -/
def settle (s : State) : State := startTransfer (compose (fixWindow (refreshSelector (refreshLeds s))))

end Sys2Proof.Machine
end

