-- ==== Sys2Proof/Machine/Speaking.lean ====
section
/-! DEFINITION. What a step of the floor view hands on (section 3.2), the own claim's release, and the
own-microphone rules (chapter 4). -/

namespace Sys2Proof.Machine

/-! ## Handing a step on (R37 to R39) -/

/-- R37: the seats that were in the open set before the step and are not after it, in the order they left, with the
reason the step recorded. -/
def FloorStep.removals (before : Floor) (x : FloorStep) : List (Nat × Reason) :=
  x.left.filter (fun p => before.isOpen p.1 && !x.floor.isOpen p.1)

/-- R37: the seats that are in the open set after the step and were not before, in open-set order. -/
def FloorStep.entries (before : Floor) (x : FloorStep) : List Nat :=
  (x.floor.openSet.filter (fun r => !before.isOpen r.seat)).map (fun r => r.seat)

/-- Stores a step and hands its net change to the Mix Engine (R38), to the Host Port (R39) and, when the own seat has
left the own open set, to the voice slot (R9). -/
def storeStep (x : FloorStep) (s : State) : State :=
  let out := x.removals s.floor
  let ins := x.entries s.floor
  let slots := if s.hasMix then bindNet s.ownSeat (out.map (fun p => p.1)) ins s.mix.slots else s.mix.slots
  let t := notifyAll (out.map (fun p => .closed p.1 p.2) ++ ins.map .opened)
    { s with floor := x.floor, mix := { s.mix with slots := slots } }
  if out.any (fun p => decide (p.1 = s.ownSeat)) then emptyVoice t else t

/-- Changes the request queue, the priority state or the counter alone. -/
def storeView (f : Floor) (s : State) : State := storeStep (.plain f) s

/-! ## Releasing the own claim (R175) -/

/-- Empties the screen a seat presents on. -/
def Share.clearSeat (h : Share) (seat : Nat) : Share :=
  { h with screen1 := h.screen1.filter (fun p => decide (p.seat ≠ seat)),
           screen2 := h.screen2.filter (fun p => decide (p.seat ≠ seat)) }

/-- The own claim NONE, with the release mark clear. -/
def Share.noClaim (h : Share) : Share := { h with claim := .none, claimScreen := 0, claimStamp := 0, release := false }

/-- R175: a release: an UNSHARE is offered; what follows depends on the claim state and on whether the UNSHARE
cancelled a queued SHARE. -/
def releaseClaim (s : State) : State :=
  let r := offer (.unshare s.meetingId) s
  match s.share.claim with
  | .none => r.1
  | .claiming =>
      if r.2 = .cancelled then { r.1 with share := (r.1.share.clearSeat s.ownSeat).noClaim }
      else { r.1 with share := { r.1.share with release := true } }
  | .sharing => { r.1 with share := (r.1.share.clearSeat s.ownSeat).noClaim }

/-- R175: under FLOOR_ONLY, a station that is not the chair releases its claim when its own microphone leaves OPEN. -/
def leaveOpenRelease (s : State) : State :=
  if s.meeting.profile.shareRule = .floorOnly ∧ s.isChair = false ∧ s.share.claim ≠ .none then releaseClaim s else s

/-! ## Closing -/

/-- Turns placing on or off (R93). -/
def setPlacing (on : Bool) (s : State) : State := { s with capture := { s.capture with placing := on } }

/-- The own-microphone record takes its reset values and placing is off (R65, R87, R93). -/
def micOff (s : State) : State := setPlacing false { s with mic := .reset }

/-- R55 and R65: the station decides to close from OPEN: the own seat leaves the own open set, a CLOSE about the own
seat is offered, and the state is CLOSED. -/
def micClose (why : Reason) (s : State) : State :=
  let t := settle (storeStep (s.floor.removed s.ownSeat why) (micOff s))
  leaveOpenRelease (offerFrame (.close s.meetingId s.ownSeat why) t)

/-- R55: the own seat leaves the own request queue, a WITHDRAW is offered, and the state is CLOSED. -/
def micWithdraw (s : State) : State :=
  offerFrame (.withdraw s.meetingId) (storeView (s.floor.dropQueue s.ownSeat) (micOff s))

/-! ## Eligibility (section 4.4) -/

/-- R66: the test of the floor mode in force; CHAIR-GRANT is FIRST-COME while the chair is absent. -/
def State.eligible (s : State) : Bool :=
  s.inMeeting &&
    (if s.meeting.profile.mode = .chairGrant ∧ s.chairPresent = true then
      (match s.floor.queueRecord s.ownSeat with
       | some r => r.granted
       | none => false)
     else
      (match s.floor.position s.ownSeat with
       | some p => decide (p ≤ s.limit - s.floor.delegates.length)
       | none => false))

/-- R67: an eligible station in WAITING issues an open stamp, offers an OPEN and becomes OPENING. -/
def offerOpen (s : State) : State :=
  let k := s.floor.nextStamp
  offerFrame (.opening s.meetingId k s.mic.requestStamp .delegate)
    { s with floor := s.floor.issued,
             mic := { s.mic with state := .opening, cls := some .delegate, openStamp := k, closePending := none } }

/-- R68: a station that is no longer eligible asks for its OPEN to be withdrawn and returns to WAITING. -/
def withdrawLostOpen (s : State) : State :=
  match withdrawOpen s with
  | (t, .withdrawn) => { t with mic := { t.mic with state := .waiting, cls := none, openStamp := 0 } }
  | (t, _) => t

/-- R74: the test of OVERRIDE for an OPEN delegate. -/
def State.overrideCloses (s : State) : Bool :=
  decide (s.meeting.profile.mode = .override) && decide (s.floor.delegates.length = s.limit) &&
    (match s.floor.delegates.head? with
     | some r => decide (r.seat = s.ownSeat)
     | none => false) &&
    !s.floor.queue.isEmpty

/-- R66, R67, R68 and R74: what the evaluation of the own side decides. -/
def ownSide (s : State) : State :=
  if s.inMeeting then
    match s.mic.state with
    | .closed => s
    | .waiting => if s.eligible then offerOpen s else s
    | .opening =>
        if s.mic.cls = some .delegate ∧ s.mic.closePending = none ∧ s.eligible = false then withdrawLostOpen s else s
    | .open => if s.mic.cls = some .delegate ∧ s.overrideCloses = true then micClose .override s else s
  else s

/-- R66: the evaluation of the own side, after what follows the change that brought it about; a change that it decides
on is followed in its turn (R38). -/
def evalMic (s : State) : State := settle (ownSide (settle s))

/-! ## The speaking budget (section 4.10) -/

/-- R78: what the warning test does. -/
def warn (s : State) : State :=
  match s.mic.remaining with
  | none => s
  | some n =>
      let w := s.meeting.profile.warning
      if 0 < w ∧ n ≤ w ∧ s.mic.warned = false then
        notify (.timeWarning s.ownSeat) { s with mic := { s.mic with warned := true } }
      else if w < n then { s with mic := { s.mic with warned := false } } else s

/-- R78: the warning test, made after a change to budget remaining. -/
def warningTest (s : State) : State := settle (warn (settle s))

/-- R78: the budget at the start of an opening; the chair's is unlimited (R73). -/
def startBudget (s : State) : State :=
  let b := s.meeting.profile.budget
  let limited := s.mic.cls = some .delegate ∧ 0 < b
  warningTest { s with
    mic := { s.mic with remaining := if limited then some b else none, secondCount := 0, warned := false,
                        overrun := false, overrunCount := 0 } }

/-- R79: budget remaining has reached 0. -/
def budgetExpires (s : State) : State :=
  match s.meeting.profile.budgetKind with
  | .hard => notify (.timeExpired s.ownSeat) (micClose .timeout s)
  | .soft => notify (.timeExpired s.ownSeat) { s with mic := { s.mic with overrun := true, overrunCount := 0 } }

/-- R78: a second of the budget has passed. -/
def budgetSecondPasses (s : State) : State :=
  match s.mic.remaining with
  | none => s
  | some n =>
      if s.mic.overrun then
        { s with mic := { s.mic with overrunCount := if s.mic.overrunCount < Config.maxOverrun then s.mic.overrunCount + 1
                                                     else s.mic.overrunCount } }
      else
        let t := warningTest { s with mic := { s.mic with remaining := some (n - 1) } }
        if n - 1 = 0 then budgetExpires t else t

/-- R80: a TIME_ADD for the own seat. -/
def micTimeAdd (seconds : Nat) (s : State) : State :=
  if s.mic.state = .open ∧ s.mic.cls = some .delegate then
    match s.mic.remaining with
    | none => s
    | some n =>
        if s.mic.overrun then
          warningTest { s with mic := { s.mic with remaining := some seconds, overrun := false, overrunCount := 0 } }
        else warningTest { s with mic := { s.mic with remaining := some (min Config.maxBudget (n + seconds)) } }
  else s

/-- R81: the silence limit in blocks; none when there is no silence close. -/
def State.silenceLimit (s : State) : Option Nat :=
  let p := s.meeting.profile
  if 0 < p.silence then some (p.silence * Config.blocksPerSecond)
  else if p.mode = .voice then some (Config.voiceSilence * Config.blocksPerSecond) else none

/-! ## Displacement, priority and the chair's frames at the own seat -/

/-- R72: displacement has removed the own seat and no close is pending. -/
def micDisplaced (s : State) : State :=
  let wasOpen := s.mic.state = .open
  let t := setPlacing false { s with
    mic := { OwnMic.reset with state := .waiting, requestStamp := s.mic.requestStamp } }
  let u := offerFrame (.yield s.meetingId s.mic.requestStamp) t
  let v := showTransient (text "Floor full - requeued") (notify (.floorConflict s.ownSeat) (settle u))
  if wasOpen then leaveOpenRelease v else v

/-- R77: the view's priority state has turned on. -/
def micPriorityOn (s : State) : State :=
  if s.meeting.profile.priorityCloses = true ∧ s.mic.state = .open ∧ s.mic.cls = some .delegate then
    micClose .chair s
  else s

/-- A step of the view, applied, handed on (R37 to R39) and taken by the own-microphone rules (R50, R77, R66). The step's
CLOSED and OPENED stand before the FLOOR_CONFLICT of R72 in the notice FIFO (notes/assumptions/34.md). -/
def floorStep (x : FloorStep) (s : State) : State :=
  let t := settle (storeStep x s)
  let u := if (x.removals s.floor).contains (s.ownSeat, .displaced) then micDisplaced t else t
  let v := if !s.floor.priority && x.floor.priority then micPriorityOn u else u
  evalMic v

/-- R65 and R76: a close in OPENING with no close pending: the OPEN is withdrawn, or the close becomes pending. -/
def closeOpening (why : Reason) (s : State) : State :=
  match withdrawOpen s with
  | (t, .withdrawn) => if s.mic.cls = some .chair then micOff t else micWithdraw t
  | (t, .started) => { t with mic := { t.mic with closePending := some why } }
  | (t, .none) => t

/-- R76: the chair's CLOSE naming the own seat; the own seat has left the own open set under R44. -/
def micChairClose (why : Reason) (s : State) : State :=
  match s.mic.state with
  | .closed => s
  | .waiting => s
  | .opening =>
      match s.mic.closePending with
      | none => closeOpening why s
      | some _ => { s with mic := { s.mic with closePending := some why } }
  | .open => leaveOpenRelease (micOff s)

/-- R76: a CLEAR that found the own seat queued. -/
def micCleared (s : State) : State :=
  match s.mic.state with
  | .waiting => micOff s
  | .opening =>
      match withdrawOpen s with
      | (t, .withdrawn) => micOff t
      | (t, _) => t
  | _ => s

/-! ## A press (R65, R73) -/

/-- R65: a delegate's press in CLOSED. -/
def requestFloor (s : State) : State :=
  let k := s.floor.nextStamp
  let t := storeView (s.floor.request s.ownSeat k) { s with mic := { OwnMic.reset with state := .waiting, requestStamp := k } }
  evalMic (offerFrame (.request s.meetingId k) t)

/-- R73: the chair's press in CLOSED. -/
def chairOpens (s : State) : State :=
  let k := s.floor.nextStamp
  offerFrame (.opening s.meetingId k k .chair)
    { s with floor := s.floor.issued,
             mic := { OwnMic.reset with state := .opening, cls := some .chair, requestStamp := k, openStamp := k } }

/-- R65 and R73: a taken press. -/
def takePress (s : State) : State :=
  match s.mic.state with
  | .closed => if s.isChair then chairOpens s else requestFloor s
  | .waiting => micWithdraw s
  | .opening =>
      match s.mic.closePending with
      | none => closeOpening .speaker s
      | some _ => { s with mic := { s.mic with closePending := none } }
  | .open => micClose .speaker s

/-- R64: whether a press is taken. -/
def State.pressTaken (s : State) : Bool :=
  decide (s.config.role = .seat) && decide (s.station = .run) && s.inMeeting

/-- R63: a FLASH of the ring starts. -/
def startFlash (s : State) : State := { s with controls := { s.controls with flash := Config.flashBlocks } }

/-- R64: a MIC press at a SEAT station: taken in a meeting, a FLASH in SETUP and in RUN while IDLE, ignored in
CLASH. -/
def micPressed (s : State) : State :=
  if s.pressTaken then takePress s
  else if s.config.role = .seat ∧ s.station ≠ .clash then startFlash s else s

/-! ## Outcomes of the own OPEN (section 4.5) -/

/-- R42: the class a view enters for an OPEN: CHAIR is the chair seat's alone. -/
def State.classTaken (s : State) (seat : Nat) (c : OpenClass) : OpenClass :=
  if c = .chair ∧ s.isChairSeat seat = false then .delegate else c

/-- R56 and R69: SENT of the own OPEN, past the meeting filter. -/
def openSent (o q : Nat) (c : OpenClass) (s : State) : State :=
  let cls := s.classTaken s.ownSeat c
  let pend := s.mic.closePending
  let t0 := settle (storeStep (s.floor.opening s.ownSeat cls o q s.blockNumber s.limit) s)
  let t := { t0 with mic := { t0.mic with cls := some cls, openStamp := o, requestStamp := q, closePending := none } }
  if t.floor.isOpen s.ownSeat then
    let u := setPlacing true { t with mic := { t.mic with state := .open, silence := 0 } }
    match pend with
    | none => evalMic (startBudget u)
    | some why => micClose why (settle u)
  else
    match pend with
    | none => evalMic (micDisplaced t)
    | some why => micWithdraw (offerFrame (.close s.meetingId s.ownSeat why) t)

/-- R70: ABANDONED of the own OPEN, past the meeting filter. -/
def openAbandoned (s : State) : State :=
  if s.mic.state = .opening then
    if s.mic.cls = some .chair then micOff s
    else if s.floor.isQueued s.ownSeat then
      match s.mic.closePending with
      | none => evalMic { s with mic := { s.mic with state := .waiting, cls := none, openStamp := 0 } }
      | some _ => micWithdraw s
    else micOff s
  else s

/-- R86: the own-microphone rules at the meeting's end, while the record still names the meeting: a CLOSE about the own
seat from OPEN or OPENING. -/
def micMeetingEnd (s : State) : State :=
  match s.mic.state with
  | .open =>
      offerFrame (.close s.meetingId s.ownSeat .meetingEnd)
        (storeStep (s.floor.removed s.ownSeat .meetingEnd) (micOff s))
  | .opening => offerFrame (.close s.meetingId s.ownSeat .meetingEnd) (micOff s)
  | _ => s

/-! ## Chair frames in the view (R44 to R47, R56) -/

/-- R44 and R76: a CLOSE taken by the view. -/
def viewClose (target : Nat) (why : Reason) (s : State) : State :=
  let t := settle (storeStep (s.floor.removed target why) s)
  evalMic (if target = s.ownSeat then micChairClose why t else t)

/-- R45: a GRANT taken by the view. -/
def viewGrant (target : Nat) (s : State) : State := floorStep (.plain (s.floor.grant target)) s

/-- R46 and R76: a CLEAR taken by the view, with the own seat's part of it. -/
def viewClear (s : State) : State :=
  let t := storeView { s.floor with queue := [] } s
  evalMic (if s.floor.isQueued s.ownSeat then micCleared t else t)

/-- R47: a PRIORITY taken by the view. -/
def viewPriority (on : Bool) (s : State) : State :=
  floorStep (.plain (s.floor.setPriority on s.meeting.profile.priorityAllowed)) s

end Sys2Proof.Machine
end

