-- ==== Sys2Proof/Machine/Sharing.lean ====
section
/-! DEFINITION. The share map and the station's own claim (sections 10.3 and 10.4). -/

namespace Sys2Proof.Machine

/-- Sets what a screen, 1 or 2, holds. -/
def Share.setScreen (h : Share) (screen : Nat) (p : Option Presenter) : Share :=
  if screen = 1 then { h with screen1 := p } else { h with screen2 := p }

/-- The other wall screen. -/
def otherScreen (screen : Nat) : Nat := if screen = 1 then 2 else 1

/-- Whether a seat presents on a screen. -/
def Share.presents (h : Share) (seat screen : Nat) : Bool :=
  match h.presenter screen with
  | some p => decide (p.seat = seat)
  | none => false

/-- R171, step 1: a claimant that presents on the other screen loses it. -/
def Share.leaveOther (h : Share) (seat screen : Nat) : Share :=
  if h.presents seat (otherScreen screen) then h.setScreen (otherScreen screen) none else h

/-- R171, steps 2 and 3: whether a claim takes the screen from what it holds. -/
def claimWins (held : Option Presenter) (seat stamp chair : Nat) : Bool :=
  match held with
  | none => true
  | some p =>
      !(decide (p.seat = chair) && decide (seat ≠ chair)) &&
        (decide (p.stamp < stamp) || (decide (p.stamp = stamp) && decide (p.seat < seat)))

/-- R171: the claim rule. -/
def Share.claimRule (h : Share) (seat screen stamp chair : Nat) : Share :=
  if claimWins (h.presenter screen) seat stamp chair then
    (h.leaveOther seat screen).setScreen screen (some { seat := seat, stamp := stamp })
  else h.leaveOther seat screen

/-- R169: "Screen n taken". -/
def takenText (screen : Nat) : List Byte := text "Screen " ++ [byte (48 + screen)] ++ text " taken"

/-- R174 and R175: SHARE_LOST with its line 4 message. -/
def shareLost (screen seat : Nat) (s : State) : State := showTransient (takenText screen) (notify (.shareLost screen seat) s)

/-- R171 and R175: the claim of another seat, past the filter, with the stamp first raising the counter (R35). -/
def shareClaimed (seat screen stamp : Nat) (s : State) : State :=
  let t := floorStep (.plain (s.floor.raise stamp)) s
  let h := t.share.claimRule seat screen stamp t.meeting.chair
  let lost := t.share.presents t.ownSeat screen && !h.presents t.ownSeat screen
  let u := { t with share := h }
  if lost then
    shareLost screen seat (settle (if t.share.claim = .sharing then { u with share := u.share.noClaim } else u))
  else u

/-- R171: an UNSHARE of a seat, or R176: the seat's absence: the screen it presents on is emptied. -/
def shareReleased (seat : Nat) (s : State) : State := { s with share := s.share.clearSeat seat }

/-- R172: a beacon's share state, for a beacon of the active meeting. -/
def shareSync (seat : Nat) (reported : Option (Nat × Nat)) (s : State) : State :=
  match reported with
  | none => shareReleased seat s
  | some (screen, stamp) =>
      if s.share.holds seat = some (screen, stamp) then floorStep (.plain (s.floor.raise stamp)) s
      else shareClaimed seat screen stamp s

/-- R173: the checks of a claim after the screen parameter's; none when it passes. -/
def State.claimRefusal (s : State) : Option Status :=
  if s.config.role ≠ .seat ∨ s.station = .clash ∨ s.inMeeting = false then some .badState
  else if s.meeting.profile.shareRule = .floorOnly ∧ s.mic.state ≠ .open ∧ s.isChair = false then some .notOpen
  else if s.share.claim = .claiming then some .busy
  else none

/-- R173: the screen that a screen parameter names: 0 is the configured default. -/
def State.screenNamed (s : State) (screen : Nat) : Nat := if screen = 0 then s.config.shareScreen else screen

/-- R173: a claim that passed its checks. -/
def makeClaim (screen : Nat) (s : State) : State :=
  let k := s.floor.nextStamp
  let t := { s with floor := s.floor.issued }
  let u := offerFrame (.share t.meetingId screen k) t
  { u with share := { u.share with claim := .claiming, claimScreen := screen, claimStamp := k, release := false } }

/-- R174: what a set release mark does at the outcome. -/
def claimReleased (s : State) : State := { s with share := (s.share.clearSeat s.ownSeat).noClaim }

/-- The own claim as the own map has it on a screen: SHARING with the entry's stamp where the own seat presents there,
NONE otherwise. -/
def Share.claimFromMap (h : Share) (seat screen : Nat) : Share :=
  match h.presenter screen with
  | some p =>
      if p.seat = seat then { h with claim := .sharing, claimScreen := screen, claimStamp := p.stamp, release := false }
      else h.noClaim
  | none => h.noClaim

/-- R174: SENT of the own SHARE, past the filter. The stamp raises the counter first, which it already has unless the
same meeting was cleared and started again meanwhile (R35, notes/assumptions/22.md). -/
def shareSent (screen stamp : Nat) (s : State) : State :=
  let won := claimWins (s.share.presenter screen) s.ownSeat stamp s.meeting.chair
  let h := s.share.claimRule s.ownSeat screen stamp s.meeting.chair
  let t := { s with floor := s.floor.raise stamp, share := h.claimFromMap s.ownSeat screen }
  if s.share.release then claimReleased t
  else if won then t
  else
    match h.presenter screen with
    | some p => shareLost screen p.seat (settle t)
    | none => t

/-- R174: ABANDONED of the own SHARE, past the filter. DESIGN CHOICE (unsafe): a claim that returns to SHARING takes the
screen and the stamp of the own seat's entry in the own map (notes/assumptions/43.md). -/
def shareAbandoned (s : State) : State :=
  if s.share.claim = .claiming then
    if s.share.release then claimReleased s
    else
      match s.share.holds s.ownSeat with
      | some (screen, stamp) =>
          { s with share := { s.share with claim := .sharing, claimScreen := screen, claimStamp := stamp } }
      | none => { s with share := s.share.noClaim }
  else s

/-- R173 and R175: a SHARE press at a SEAT station: a claim of the default screen in NONE, a release in CLAIMING or
SHARING; a press that a check refuses changes nothing. -/
def sharePressed (s : State) : State :=
  if s.share.claim = .none then
    (match s.claimRefusal with
     | some _ => s
     | none => makeClaim s.config.shareScreen s)
  else if s.config.role ≠ .seat ∨ s.station = .clash ∨ s.inMeeting = false then s
  else releaseClaim s

/-- R176: the map is emptied and the own claim becomes NONE. -/
def clearShare (s : State) : State := { s with share := { s.share.noClaim with screen1 := none, screen2 := none } }

end Sys2Proof.Machine
end

