-- ==== Sys2Proof/Machine/MeetingOps.lean ====
section
/-! DEFINITION. The meeting record (chapter 9): reconciliation and replay of beacon state, the start, the warning and
the end of a meeting, and the evaluation of the record. -/

namespace Sys2Proof.Machine

/-! ## Beacon state (R54, R172, R29) -/

/-- R54: reconciliation, for a beacon whose meeting id passes the filter's test. -/
def reconcileBeacon (seat : Nat) (m : Option Bid) (mic : Option (Nat × Nat)) (request : Option Nat) (prio : Bool)
    (s : State) : State :=
  if s.filterPasses m then
    floorStep (s.floor.reconcile seat mic request prio (s.isChairSeat seat) s.blockNumber s.limit
      s.meeting.profile.priorityAllowed) s
  else s

/-- R172: the share state of a beacon whose meeting id passes the same test. -/
def shareBeacon (seat : Nat) (m : Option Bid) (reported : Option (Nat × Nat)) (s : State) : State :=
  if s.filterPasses m then shareSync seat reported s else s

/-- R29: the stored state of one peer is replayed when it is PRESENT, its beacon age is 500 or less and it reported
the new meeting. -/
def replaySeat (id : Bid) (s : State) (seat : Nat) : State :=
  let p := s.presence.peer seat
  if p.state = .present ∧ p.beaconAge ≤ Config.replayAge ∧ p.meeting = some id then
    settle (shareBeacon seat p.meeting p.share (reconcileBeacon seat p.meeting p.mic p.request p.priority s))
  else s

/-- The seats 1..48 in ascending order. -/
def allSeats : List Nat := List.range' 1 48

/-- R29: replay in ascending seat order. -/
def replay (id : Bid) (s : State) : State := allSeats.foldl (replaySeat id) s

/-! ## Clearing (R59, R112, R176) -/

/-- R59 and R101: the view is cleared and every bound slot freed; no CLOSED notice is queued. -/
def clearView (s : State) : State :=
  let seats := s.floor.openSet.map (fun r => r.seat)
  { s with floor := .cleared, mix := { s.mix with slots := bindNet s.ownSeat seats [] s.mix.slots } }

/-! ## Time remaining and the warning (R152, R155) -/

/-- R155: the warning test. -/
def meetingWarningTest (s : State) : State :=
  let e := s.meeting.profile.endWarning
  if 0 < e then
    match s.meeting.state with
    | .idle => s
    | .active =>
        if s.timeRemaining ≤ (e * 60 : Nat) then
          let t := { s with meeting := { s.meeting with state := .ending } }
          match s.meeting.id with
          | some id => notify (.meetingWarning id e) t
          | none => t
        else s
    | .ending =>
        if s.timeRemaining ≤ (e * 60 : Nat) then s else { s with meeting := { s.meeting with state := .active } }
  else s

/-! ## Starting (R154) -/

/-- The profile an index names. -/
def State.profileAt (s : State) (k : Nat) : Profile := s.profiles.getD k .powerOn

/-- R154: the record and the entry's mark at a start. -/
def recordStart (e : Entry) (s : State) : State :=
  { s with
    calendar := { s.calendar with
      view := s.calendar.view.map (fun x => if x.wire.id = e.wire.id then { x with active := true, age := 0 } else x) },
    meeting := { s.meeting with
      state := .active, id := some e.wire.id, profile := s.profileAt e.wire.profile, chair := e.wire.chair,
      start := e.wire.start, finish := e.wire.finish, endAsked := false } }

/-- R129 and R112: limiter and overflow notice mark at a start. -/
def mixAtStart (s : State) : State :=
  { s with mix := { s.mix with reduction := 0, quiet := 0, overflowMark := false } }

/-- R176 and R177: share map, own claim and queue window at a start. -/
def screenAtStart (s : State) : State :=
  clearShare { s with screen := { s.screen with windowStart := 1, windowCount := 0 } }

/-- R154: a due entry's meeting starts, handed on in the rule's order: the pages are composed at step 3, before the
replay. -/
def startMeetingFor (e : Entry) (s : State) : State :=
  let t := replay e.wire.id (settle (screenAtStart (mixAtStart (clearView (recordStart e s)))))
  evalMic (meetingWarningTest (notify (.meetingStart e.wire.id) t))

/-- R153 while IDLE: a due entry of the view starts, with the clock set. -/
def startDue (s : State) : State :=
  if s.station ≠ .setup ∧ s.meeting.state = .idle then
    match s.calendar.view.find? (fun e => e.wire.due s.calendar.clock) with
    | some e => startMeetingFor e s
    | none => s
  else s

/-! ## Ending (R160) -/

/-- R160, steps 1 to 8, without the evaluation that follows: the own side's decision is followed as one change, the idle
pages are composed at step 4, and the view is composed afresh after step 5. -/
def closeMeeting (id : Bid) (why : EndReason) (s : State) : State :=
  let s1 := settle (micMeetingEnd (settle s))
  let s2 := { s1 with meeting := { s1.meeting with state := .idle, id := none, chair := 0, endAsked := false } }
  let s3 := micOff (clearView s2)
  let s4 := settle (clearShare s3)
  let s5 := settle { s4 with calendar := { s4.calendar with view := viewDrop s4.calendar.view id, ask := none } }
  let s6 := if why = .time then s5
            else { s5 with meeting := { s5.meeting with endedEarly := some id, endedEarlyAge := 0 } }
  notify (.meetingEnd id why) s6

/-- R160 and R161: the running meeting ends, and the record is evaluated at once. -/
def endMeetingFor (why : EndReason) (s : State) : State :=
  match s.meetingId with
  | some id => startDue (closeMeeting id why s)
  | none => s

/-- R153, R155 and R156: what the evaluation of the meeting record does. -/
def runRecord (s : State) : State :=
  if s.station = .setup then s
  else if s.meeting.state = .idle then startDue s
  else
    let t := meetingWarningTest s
    if t.timeRemaining ≤ 0 then endMeetingFor .time t else t

/-- R153: the evaluation of the meeting record, after what follows the change that brought it about. -/
def evaluate (s : State) : State := settle (runRecord (settle s))

end Sys2Proof.Machine
end

