-- ==== Sys2Proof/Machine/CalendarOps.lean ====
section
/-! DEFINITION. The wall clock, the calendar view and the extension of a meeting (chapter 8). -/

namespace Sys2Proof.Machine

/-! ## The view's order and room (R135, R136, R142) -/

/-- Inserts an entry at its place in (start, booking id) order. -/
def insertEntry (e : Entry) : List Entry → List Entry
  | [] => [e]
  | x :: xs =>
      if viewKeyLt e.wire.start e.wire.id x.wire.start x.wire.id then e :: x :: xs else x :: insertEntry e xs

/-- The last HEARD entry that is not active, in view order. -/
def lastEvictable (v : List Entry) : Option Entry := (v.filter (fun e => !e.held && !e.active)).getLast?

/-- R136: a full view gives up its last HEARD entry that is not active. -/
def evictForOwn (v : List Entry) : List Entry :=
  if v.length < Config.viewEntries then v
  else
    match lastEvictable v with
    | some e => viewDrop v e.wire.id
    | none => v

/-- R142: room for an accepted candidate with a new id; none where it is dropped. -/
def makeRoom (c : WireEntry) (v : List Entry) : Option (List Entry) :=
  if v.length < Config.viewEntries then some v
  else
    match lastEvictable v with
    | some e => if c.start < e.wire.start then some (viewDrop v e.wire.id) else none
    | none => none

/-- Stores a view. -/
def setView (v : List Entry) (s : State) : State := { s with calendar := { s.calendar with view := v } }

/-! ## Resolution (R141) -/

/-- R141: whether an entry created at the first time wins against one created at the second. -/
def createdBefore (d t d' t' : Nat) : Bool := decide (d < d') || (decide (d = d') && decide (t < t'))

/-- R141: whether the candidate wins against an entry that it overlaps. -/
def Entry.beats (c e : Entry) : Bool :=
  if c.active ≠ e.active then c.active
  else if createdBefore c.wire.createdDay c.wire.createdSecond e.wire.createdDay e.wire.createdSecond then true
  else if createdBefore e.wire.createdDay e.wire.createdSecond c.wire.createdDay c.wire.createdSecond then false
  else if c.wire.id.holder < e.wire.id.holder then true
  else if e.wire.id.holder < c.wire.id.holder then false
  else decide (c.wire.id.serial < e.wire.id.serial)

/-- R141: a candidate against a view: the view without the entries it beats and the ids of the HELD ones among them,
or none where it loses against any. -/
def resolve (c : Entry) (v : List Entry) : Option (List Entry × List Bid) :=
  if v.all (fun e => !c.wire.overlaps e.wire || c.beats e) then
    some (v.filter (fun e => !c.wire.overlaps e.wire),
      (v.filter (fun e => c.wire.overlaps e.wire && e.held)).map (fun e => e.wire.id))
  else none

/-- R141: the removed HELD entries raise BOOKING_CONFLICT. DESIGN CHOICE (unsafe): in view order
(notes/assumptions/41.md). -/
def notifyLost (lost : List Bid) (s : State) : State := notifyAll (lost.map .bookingConflict) s

/-! ## Arrival (R140 to R142) -/

/-- R140: whether a candidate is taken at all. -/
def State.takesCandidate (s : State) (source : Nat) (w : WireEntry) : Bool :=
  decide (w.id.holder = source) &&
    !(s.calendar.clock.set && decide (w.finish ≤ s.calendar.clock.minuteNumber)) &&
    !decide (s.meeting.endedEarly = some w.id)

/-- R140: a repeat announcement sets the entry's age to 0. -/
def refreshAge (id : Bid) (s : State) : State :=
  setView (s.calendar.view.map (fun e => if e.wire.id = id then { e with age := 0 } else e)) s

/-- R135 and R156: an entry has been inserted or has replaced another; a replaced active entry hands its end to the
record, and the record is evaluated. -/
def handOnEntry (e : Entry) (s : State) : State :=
  let t := settle s
  evaluate (if e.active then { t with meeting := { t.meeting with finish := e.wire.finish } } else t)

/-- R140: a newer version of an entry in the view. -/
def replaceEntry (old : Entry) (w : WireEntry) (s : State) : State :=
  let rest := viewDrop s.calendar.view w.id
  let c : Entry := { wire := w, held := false, active := old.active, age := 0 }
  match resolve c rest with
  | some (v, lost) => handOnEntry c (setView (insertEntry c v) (notifyLost lost s))
  | none => setView rest s

/-- R140, R141 and R142: a candidate with a new id. -/
def newEntry (w : WireEntry) (s : State) : State :=
  let c : Entry := { wire := w, held := false, active := false, age := 0 }
  match resolve c s.calendar.view with
  | some (v, lost) =>
      let t := setView v (notifyLost lost s)
      (match makeRoom w v with
       | some v' => handOnEntry c (setView (insertEntry c v') t)
       | none => t)
  | none => s

/-- R140: an entry arrives from a source seat. -/
def arriveEntry (source : Nat) (w : WireEntry) (s : State) : State :=
  if s.takesCandidate source w then
    match viewFind s.calendar.view w.id with
    | some old => if newerVersion w.version old.wire.version then replaceEntry old w s else refreshAge w.id s
    | none => newEntry w s
  else s

/-! ## The clock (R132, R133) -/

/-- R143: the time test. -/
def timeTest (s : State) : State :=
  if s.calendar.clock.set then
    setView (s.calendar.view.filter (fun e => e.active || decide (s.calendar.clock.minuteNumber < e.wire.finish))) s
  else s

/-- R133: what follows every change of the clock. -/
def clockChanged (s : State) : State := evaluate (timeTest (settle s))

/-- R133 and R31: the clock takes a day and a second; the current second begins and the clock is set. -/
def setClock (day second : Nat) (s : State) : State :=
  clockChanged { s with calendar := { s.calendar with clock := { day := day, second := second, count := 0, set := true } } }

/-- R132: one second on; the clock holds at the end of its range. -/
def Clock.advance (c : Clock) : Clock :=
  if c.second < Config.lastSecond then { c with second := c.second + 1 }
  else if c.day < 65535 then { c with day := c.day + 1, second := 0 } else c

/-- R132: the second count wraps and a second passes. A clock that holds does not change. -/
def clockSecondPasses (s : State) : State :=
  let c := { s.calendar.clock with count := 0 }
  let t := { s with calendar := { s.calendar with clock := c.advance } }
  if c.advance = c then t else clockChanged t

/-! ## Own bookings (R136, R137) -/

/-- R137: the first serial, counting on from `k` for at most `n` values, whose id is not in the view. -/
def freeSerial (v : List Entry) (seat : Nat) : Nat → Nat → Nat
  | 0, k => k % 256
  | n + 1, k => if (viewFind v { holder := seat, serial := k % 256 }).isNone then k % 256 else freeSerial v seat n (k + 1)

/-- R137: the serial a new booking takes. -/
def State.nextSerial (s : State) : Nat := freeSerial s.calendar.view s.ownSeat 256 s.calendar.serial

/-- R136 and R162: creates a HELD booking with the next serial, and hands it on. -/
def createBooking (startDay startMinute duration profile chair : Nat) (title : List Byte) (s : State) : State :=
  let k := s.nextSerial
  let w : WireEntry :=
    { id := { holder := s.ownSeat, serial := k }, version := 0, startDay := startDay, startMinute := startMinute,
      duration := duration, profile := profile, chair := chair, createdDay := s.calendar.clock.day,
      createdSecond := s.calendar.clock.second, title := title }
  let e : Entry := { wire := w, held := true, active := false, age := 0 }
  handOnEntry e { s with calendar := { s.calendar with
    serial := (k + 1) % 256, view := insertEntry e (evictForOwn s.calendar.view) } }

/-- R136: durations are rounded up to a multiple of 5 and clamped into 15..720. -/
def bookingDuration (n : Nat) : Nat := clampNat 15 720 ((n + 4) / 5 * 5)

/-! ## Leaving the view (R143, R144, R157, R159) -/

/-- An entry that is not active is removed and handed on. -/
def removeEntry (id : Bid) (s : State) : State := setView (viewDrop s.calendar.view id) s

/-- R144, R157 and R159: the entry of an id is removed; when it is active its meeting ends for the given reason.
DESIGN CHOICE (unsafe): a cancelled active entry leaves the view at step 5 of R160, inside the end, and not before it
(notes/assumptions/39.md). -/
def endOrRemove (id : Bid) (why : EndReason) (s : State) : State :=
  match viewFind s.calendar.view id with
  | some e => if e.active then endMeetingFor why s else removeEntry id s
  | none => s

/-! ## Extension (section 8.7) -/

/-- R145: the minutes free after an entry: none for no limit. -/
def freeAfter (v : List Entry) (finish : Nat) : Option Nat :=
  (v.find? (fun e => decide (finish ≤ e.wire.start))).map (fun e => e.wire.start - finish)

/-- R145: the grant for an entry and a number of minutes asked, before the test for 5. -/
def grantFor (v : List Entry) (w : WireEntry) (asked : Nat) : Nat :=
  let room := min asked (720 - w.duration)
  (match freeAfter v w.finish with
   | some f => min room f
   | none => room) / 5 * 5

/-- R145: the entry as an accepted extension leaves it. -/
def WireEntry.extended (w : WireEntry) (grant : Nat) : WireEntry :=
  { w with duration := w.duration + grant, version := (w.version + 1) % 256 }

/-- R145: the holder's decision for a HELD entry: the answer is offered and a changed entry handed on. -/
def holderDecision (e : Entry) (asker asked : Nat) (s : State) : State :=
  let g := grantFor s.calendar.view e.wire asked
  if 5 ≤ g then
    let e' : Entry := { e with wire := e.wire.extended g }
    let t := setView (s.calendar.view.map (fun x => if x.wire.id = e.wire.id then e' else x)) s
    handOnEntry e' (offerFrame (.extendAnswer e.wire.id asker true g e'.wire) t)
  else offerFrame (.extendAnswer e.wire.id asker false 0 e.wire) s

/-- R169: the transient text of an EXTEND_RESULT. -/
def extendText (r : AskResult) (granted : Nat) : List Byte :=
  match r with
  | .accepted => text "Extended +" ++ [byte (48 + granted / 10 % 10), byte (48 + granted % 10)] ++ text " min"
  | .refused => text "Extension refused"
  | .noAnswer => text "Extension: no answer"

/-- R146, R148 and R149: EXTEND_RESULT with its line 4 message. -/
def extendResult (id : Bid) (r : AskResult) (granted : Nat) (s : State) : State :=
  showTransient (extendText r granted) (notify (.extendResult id r granted) s)

/-- The extension ask becomes NONE. -/
def clearAsk (s : State) : State := { s with calendar := { s.calendar with ask := none } }

/-- R149: the ask ends without an answer. -/
def askUnanswered (s : State) : State :=
  match s.calendar.ask with
  | some a => extendResult a.id .noAnswer 0 (clearAsk s)
  | none => s

end Sys2Proof.Machine
end

