-- ==== Sys2Proof/Machine/Arrivals.lean ====
section
/-! DEFINITION. What a received frame does (R3 to R8 and the arrival rules of the owning chapters): presence, entry
into CLASH, the meeting filter and the delivery of each kind. -/

namespace Sys2Proof.Machine

/-! ## Presence (R22 to R28) -/

/-- R22 and R28: a seat is heard; the return or first hearing of the chair seat has the own side evaluated. -/
def heard (seat : Nat) (s : State) : State :=
  let p := s.presence.peer seat
  let t := { s with presence := s.presence.setPeer seat { p with state := .present, frameAge := 0 } }
  if p.state ≠ .present ∧ s.isChairSeat seat = true then evalMic t else t

/-- R25: the entry takes what a beacon carries. -/
def Peer.fromBeacon (p : Peer) (b : BeaconBody) : Peer :=
  { p with role := some b.role, name := b.name, beaconAge := 0, meeting := b.meeting, mic := b.mic,
           request := b.request, share := b.share, priority := b.priority }

/-- R23, R24, R53 and R176: the absence event of a PRESENT seat. -/
def peerAbsent (seat : Nat) (s : State) : State :=
  let p := s.presence.peer seat
  let t := { s with presence := s.presence.setPeer seat { p with state := .absent, frameAge := Config.absenceAge } }
  shareReleased seat (floorStep (t.floor.departed seat (t.isChairSeat seat)) t)

/-! ## Time following (R30, R31) -/

/-- R30: whether a beacon's time is adopted. -/
def State.adopts (s : State) (b : BeaconBody) : Bool :=
  let heardTime := b.day * Config.daySeconds + b.second
  let own := s.calendar.clock.seconds
  s.config.follower && decide (b.role = .door) && !(decide (b.day = 65535) && decide (b.second = Config.lastSecond)) &&
    (!s.calendar.clock.set || decide (own + 2 ≤ heardTime) || decide (heardTime + 2 ≤ own))

/-! ## Entry into CLASH (R5, R6) -/

/-- R5 and R6: the Link Interface at entry into CLASH: holders emptied, the frame in send voided, and the clash beacon
in the beacon slot. A FLUSH being served completes (R183). -/
def linkAtClash (s : State) : State :=
  flushCheck { s with link := { s.link with
    voiceSlot := none, queue := [], beaconSlot := some .clash,
    inSend := s.link.inSend.map (fun x => { x with voided := true }) } }

/-- R57: the own seat leaves both collections; no CLOSED notice is queued. -/
def floorAtClash (s : State) : State :=
  { s with floor := (s.floor.dropOpen s.ownSeat).dropQueue s.ownSeat }

/-- R86, R97: microphone record and detector at entry into CLASH. -/
def captureAtClash (s : State) : State :=
  let t := micOff s
  { t with capture := { t.capture with talking := false, hangover := 0 } }

/-- R176, R149 and R163: own claim, extension ask and end asked at entry into CLASH. -/
def controllersAtClash (s : State) : State :=
  let t := clearAsk { s with share := (s.share.clearSeat s.ownSeat).noClaim }
  { t with meeting := { t.meeting with endAsked := false } }

/-- R5: the receiver enters CLASH. -/
def enterClash (s : State) : State :=
  let t := controllersAtClash (captureAtClash (floorAtClash (linkAtClash { s with station := .clash })))
  select (notify (.seatClash s.ownSeat) t)

/-! ## Delivery of a beacon (R26) -/

/-- R26: the parts of a beacon, each owner applying its part to its state as it stands after the parts before it. -/
def onBeacon (source : Nat) (b : BeaconBody) (s : State) : State :=
  let s0 := { s with presence := s.presence.setPeer source ((s.presence.peer source).fromBeacon b) }
  let s1 := if s0.adopts b then setClock b.day b.second s0 else s0
  let s2 := match b.endedEarly with
    | some id => settle (endOrRemove id .endedEarly s1)
    | none => s1
  let s3 := match b.entry with
    | some w => settle (arriveEntry source w s2)
    | none => s2
  let s4 := reconcileBeacon source b.meeting b.mic b.request b.priority s3
  shareBeacon source b.meeting b.share s4

/-! ## Delivery of VOICE and floor kinds -/

/-- R51 and R102: a VOICE frame past the filter: implicit open, then the Mix Engine. -/
def onVoice (source o q n : Nat) (talking : Bool) (samples : List Int) (s : State) : State :=
  let t := floorStep (s.floor.implicit source (implicitClass (s.isChairSeat source)) o q s.blockNumber s.limit) s
  mixReceive source { block := n, talking := talking, samples := samples } t

/-- R40. -/
def onRequest (source q : Nat) (s : State) : State := floorStep (.plain (s.floor.request source q)) s

/-- R41. -/
def onWithdraw (source : Nat) (s : State) : State := floorStep (.plain (s.floor.dropQueue source)) s

/-- R42. -/
def onOpening (source o q : Nat) (c : OpenClass) (s : State) : State :=
  floorStep (s.floor.opening source (s.classTaken source c) o q s.blockNumber s.limit) s

/-- R43. -/
def onYield (source q : Nat) (s : State) : State := floorStep (s.floor.yielded source q) s

/-- R44: a CLOSE of the source's own seat, or of another seat from the chair seat. -/
def onClose (source target : Nat) (why : Reason) (s : State) : State :=
  if target = source ∨ s.isChairSeat source = true then viewClose target why s else s

/-- R45. -/
def onGrant (source target : Nat) (s : State) : State := if s.isChairSeat source then viewGrant target s else s

/-- R46. -/
def onClear (source : Nat) (s : State) : State := if s.isChairSeat source then viewClear s else s

/-- R47. -/
def onPriority (source : Nat) (on : Bool) (s : State) : State := if s.isChairSeat source then viewPriority on s else s

/-- R48. -/
def onTimeAdd (source target seconds : Nat) (s : State) : State :=
  if s.isChairSeat source = true ∧ target = s.ownSeat then micTimeAdd seconds s else s

/-! ## Delivery of calendar kinds -/

/-- R144: a CANCEL is taken from the holder of the id alone. -/
def onCancel (source : Nat) (id : Bid) (s : State) : State :=
  if id.holder = source then endOrRemove id .cancelled s else s

/-- R147: an EXTEND_ASK from the chair of a HELD entry. -/
def onExtendAsk (source : Nat) (id : Bid) (minutes : Nat) (s : State) : State :=
  match viewFind s.calendar.view id with
  | some e => if e.held = true ∧ e.wire.chair = source then holderDecision e source minutes s else s
  | none => s

/-- R148: an EXTEND_ANSWER from the holder: its entry arrives, then a matching ask is answered. -/
def onExtendAnswer (source : Nat) (id : Bid) (asker : Nat) (accepted : Bool) (granted : Nat) (w : WireEntry)
    (s : State) : State :=
  if id.holder = source ∧ w.id = id then
    let t := settle (arriveEntry source w s)
    match t.calendar.ask with
    | some a =>
        if asker = t.ownSeat ∧ a.id = id then
          extendResult id (if accepted then .accepted else .refused) granted (clearAsk t)
        else t
    | none => t
  else s

/-- R157: an END_NOW from the chair of an entry of the view. -/
def onEndNow (source : Nat) (id : Bid) (s : State) : State :=
  match viewFind s.calendar.view id with
  | some e => if e.wire.chair = source then endOrRemove id .endNow s else s
  | none => s

/-! ## Delivery (R7) -/

/-- R7 and R8: a VOICE frame or a floor kind goes through the meeting filter. -/
def filtered (m : Option Bid) (k : State → State) (s : State) : State := if s.filterPasses m then k s else s

/-- R7: a valid frame that is not discarded is recorded as heard and handed to its owner. -/
def deliver (f : Frame) (s : State) : State :=
  let t := heard f.source s
  match f.body with
  | .voice m o q n talking samples => filtered m (onVoice f.source o q n talking samples) t
  | .beacon b => onBeacon f.source b t
  | .request m q => filtered m (onRequest f.source q) t
  | .withdraw m => filtered m (onWithdraw f.source) t
  | .opening m o q c => filtered m (onOpening f.source o q c) t
  | .close m target why => filtered m (onClose f.source target why) t
  | .yield m q => filtered m (onYield f.source q) t
  | .grant m target => filtered m (onGrant f.source target) t
  | .clear m => filtered m (onClear f.source) t
  | .priority m on => filtered m (onPriority f.source on) t
  | .timeAdd m target n => filtered m (onTimeAdd f.source target n) t
  | .share m screen k => filtered m (shareClaimed f.source screen k) t
  | .unshare m => filtered m (shareReleased f.source) t
  | .cancel id => onCancel f.source id t
  | .extendAsk id n => onExtendAsk f.source id n t
  | .extendAnswer id a ok g w => onExtendAnswer f.source id a ok g w t
  | .endNow id => onEndNow f.source id t

end Sys2Proof.Machine
end

