-- ==== Sys2Proof/Machine/BlockOps.lean ====
section
/-! DEFINITION. What happens at each block of 64 samples: the Seat Controls (section 4.2), the Capture Path (chapter 5),
the Mix Engine, and every count the manual keeps in blocks. The order of the parts inside one block is the model's
choice (notes/assumptions/3.md): the manual lets causes that fall together be taken in either order. -/

namespace Sys2Proof.Machine

/-! ## Seat Controls (R62, R63) -/

/-- R62: what one sampling of a button raises. -/
inductive ButtonEvent where
  | none
  | press
  | release
  deriving DecidableEq, Repr

/-- R62: one block's sampling of a button input. -/
def Button.sample (b : Button) (input : Bool) : Button × ButtonEvent :=
  if input = b.pressed then ({ b with difference := 0 }, .none)
  else if b.difference + 1 < Config.debounceBlocks then ({ b with difference := b.difference + 1 }, .none)
  else ({ pressed := input, difference := 0 }, if input then .press else .release)

/-- R85: the PRIORITY button at a chair SEAT station in RUN, while the profile allows priority. -/
def priorityButton (on : Bool) (s : State) : State :=
  if s.config.role = .seat ∧ s.station = .run ∧ s.isChair = true ∧ s.meeting.profile.priorityAllowed = true then
    offerFrame (.priority s.meetingId on) s
  else s

/-- R62: the events of a block's sampling, handed to their owners: MIC, PRIORITY, SHARE in this order. -/
def buttonEvents (m p h : ButtonEvent) (s : State) : State :=
  let s1 := if m = .press then settle (micPressed s) else s
  let s2 := match p with
    | .press => priorityButton true s1
    | .release => priorityButton false s1
    | .none => s1
  if h = .press then sharePressed s2 else s2

/-- R62: the three buttons are sampled once per block at a SEAT station, in every station state. -/
def sampleButtons (micInput priorityInput shareInput : Bool) (s : State) : State :=
  if s.config.role = .seat then
    let m := s.controls.mic.sample micInput
    let p := s.controls.priority.sample priorityInput
    let h := s.controls.share.sample shareInput
    buttonEvents m.2 p.2 h.2
      { s with controls := { s.controls with mic := m.1, priority := p.1, share := h.1 } }
  else s

/-- R63: one block of the LEDs and of the FLASH. DESIGN CHOICE (unsafe): at a DOOR or WALL station, where the outputs are
OFF, the count of a FLASH that ran when CONFIGURE changed the role stands still (notes/assumptions/40.md). -/
def tickLeds (s : State) : State :=
  if s.config.role = .seat then
    { s with controls := { s.controls with
        ring := s.controls.ring.tick, request := s.controls.request.tick, flash := s.controls.flash - 1 } }
  else s

/-! ## Capture Path (R88 to R95) -/

/-- R88: whether the Capture Path takes a block completion. -/
def State.capturing (s : State) : Bool := decide (s.config.role = .seat) && decide (s.station = .run)

/-- R89 and R90: the trim of a completed block and its peak. -/
def trimBlock (samples : List Sample) (s : State) : State :=
  let out := (block64 samples).map (fun x => scale x (coefficient s.config.trim))
  { s with capture := { s.capture with outgoing := out, lastPeak := peak out } }

/-- R91: what the detector reports of a block. -/
inductive TalkEvent where
  | none
  | onset
  | finish
  deriving DecidableEq, Repr

/-- R91: the detector takes the judgement of a block. -/
def Capture.detect (c : Capture) (talkingBlock : Bool) : Capture × TalkEvent :=
  if c.talking then
    if talkingBlock then ({ c with hangover := 0 }, .none)
    else if c.hangover + 1 < Config.hangoverBlocks then ({ c with hangover := c.hangover + 1 }, .none)
    else ({ c with talking := false, hangover := 0 }, .finish)
  else if talkingBlock then ({ c with talking := true, hangover := 0 }, .onset)
  else ({ c with hangover := 0 }, .none)

/-- R75 and R81: a talk onset: it resets the silence count of an OPEN delegate, and under VOICE stands for a press in
CLOSED. -/
def talkOnset (s : State) : State :=
  match s.mic.state with
  | .open => { s with mic := { s.mic with silence := 0 } }
  | .closed => if s.pressTaken = true ∧ s.meeting.profile.mode = .voice then takePress s else s
  | _ => s

/-- R94 and R95: while placing is on, the completed block is built into a VOICE frame and offered. -/
def buildVoice (s : State) : State :=
  if s.capture.placing then
    placeVoice (.voice s.meetingId s.mic.openStamp s.mic.requestStamp s.blockNumber s.capture.talking
      s.capture.outgoing) s
  else s

/-- R81: the silence count of an OPEN delegate after a block of talk state QUIET, and the close at the limit. -/
def silenceBlock (s : State) : State :=
  if s.mic.state = .open ∧ s.mic.cls = some .delegate ∧ s.capture.talking = false then
    let n := if s.mic.silence < Config.maxSilence then s.mic.silence + 1 else s.mic.silence
    let t := { s with mic := { s.mic with silence := n } }
    match s.silenceLimit with
    | some limit => if limit ≤ n then micClose .silence t else t
    | none => t
  else s

/-- R88 to R95: a block completion taken by the Capture Path: trim, detector, onset, VOICE frame, talk state. -/
def captureBlock (samples : List Sample) (s : State) : State :=
  if s.capturing then
    let t := trimBlock samples s
    let d := t.capture.detect (decide (t.config.threshold ≤ t.capture.lastPeak))
    let u := { t with capture := d.1 }
    let v := if d.2 = .onset then talkOnset u else u
    silenceBlock (buildVoice v)
  else s

/-! ## Mix Engine -/

/-- R52 and R109: a stale slot's seat leaves the open set, and its slot is freed by the net change. -/
def staleReport (seat : Nat) (s : State) : State := floorStep (s.floor.removed seat .stale) s

/-- The seats of the slots whose stale count has reached 50, in slot order. -/
def staleSeats (l : List Slot) : List Nat :=
  (l.filter (fun x => decide (x.state ≠ .free) && decide (Config.staleBlocks ≤ x.stale))).map (fun x => x.seat)

/-- R105 to R109 and R120 to R127: the Mix Engine's block. -/
def mixEngineBlock (s : State) : State :=
  if s.hasMix then
    if s.station = .setup then silentBlock s
    else
      let t := ageSlots (mixBlock s)
      (staleSeats t.mix.slots).foldl (fun u k => staleReport k u) t
  else s

/-! ## Counts in blocks -/

/-- R78: one block of a limited budget. -/
def budgetBlock (s : State) : State :=
  if s.mic.state = .open ∧ s.mic.remaining ≠ none then
    if s.mic.secondCount + 1 < Config.blocksPerSecond then
      { s with mic := { s.mic with secondCount := s.mic.secondCount + 1 } }
    else budgetSecondPasses { s with mic := { s.mic with secondCount := 0 } }
  else s

/-- R23: one block of an entry's ages; an UNKNOWN entry does not age. -/
def Peer.aged (p : Peer) : Peer :=
  if p.state = .unknown then p else { p with frameAge := sat16 p.frameAge, beaconAge := sat16 p.beaconAge }

/-- R23: the seats whose PRESENT entry has reached a frame age of 1250. -/
def silentSeats (p : Presence) : List Nat :=
  allSeats.filter (fun k => decide ((p.peer k).state = .present) && decide (Config.absenceAge ≤ (p.peer k).frameAge))

/-- R23: one block of the peer table, with the absence events in ascending seat order. -/
def presenceBlock (s : State) : State :=
  let t := { s with presence := { s.presence with peers := s.presence.peers.map Peer.aged } }
  (silentSeats t.presence).foldl (fun u k => settle (peerAbsent k u)) t

/-- R19: one block of the beacon cadence count. -/
def cadenceBlock (s : State) : State :=
  if s.presence.cadence + 1 < Config.beaconInterval then
    { s with presence := { s.presence with cadence := s.presence.cadence + 1 } }
  else requestBeacon { s with presence := { s.presence with cadence := 0 } }

/-- R132: one block of a clock that is set. -/
def clockBlock (s : State) : State :=
  if s.calendar.clock.set then
    if s.calendar.clock.count + 1 < Config.blocksPerSecond then
      { s with calendar := { s.calendar with clock := { s.calendar.clock with count := s.calendar.clock.count + 1 } } }
    else clockSecondPasses s
  else s

/-- R143: one block of the ages of HEARD entries that are not active; an entry whose age reaches 15000 is removed. -/
def ageEntries (s : State) : State :=
  let aged := s.calendar.view.map (fun e => if e.held || e.active then e else { e with age := e.age + 1 })
  setView (aged.filter (fun e => e.held || e.active || decide (e.age < Config.minuteBlocks))) s

/-- R159: the ended-early id is dropped. -/
def dropEndedEarly (s : State) : State :=
  { s with meeting := { s.meeting with endedEarly := none, endedEarlyAge := 0 } }

/-- R159: one block of the ended-early age. -/
def endedEarlyBlock (s : State) : State :=
  if s.meeting.endedEarly = none then s
  else if s.meeting.endedEarlyAge + 1 < Config.minuteBlocks then
    { s with meeting := { s.meeting with endedEarlyAge := s.meeting.endedEarlyAge + 1 } }
  else dropEndedEarly s

/-- R149: one block of the extension ask's timer. -/
def askBlock (s : State) : State :=
  match s.calendar.ask with
  | some a =>
      if a.timer + 1 < Config.askBlocks then
        { s with calendar := { s.calendar with ask := some { a with timer := a.timer + 1 } } }
      else askUnanswered s
  | none => s

/-- R168: the queue window advances. -/
def advanceWindow (s : State) : State :=
  let k := s.screen.windowStart
  { s with screen := { s.screen with
      windowCount := 0, windowStart := if k + 2 ≤ s.floor.queue.length then k + 2 else 1 } }

/-- R168: one block of the window count while a meeting runs. -/
def windowBlock (s : State) : State :=
  if s.inMeeting then
    if s.screen.windowCount + 1 < Config.windowBlocks then
      { s with screen := { s.screen with windowCount := s.screen.windowCount + 1 } }
    else advanceWindow s
  else s

/-- R169: one block of both message lifetimes. -/
def messageBlock (s : State) : State :=
  { s with screen := { s.screen with
      transient := { s.screen.transient with lifetime := s.screen.transient.lifetime - 1 },
      host := { s.screen.host with lifetime := s.screen.host.lifetime - 1 } } }

/-- The counts kept in RUN and in CLASH, each followed before the next where it can change what a page reads. -/
def runningCounts (s : State) : State :=
  let s1 := settle (budgetBlock s)
  let s2 := settle (presenceBlock s1)
  let s3 := settle (clockBlock (cadenceBlock s2))
  let s4 := settle (ageEntries s3)
  let s5 := settle (askBlock (endedEarlyBlock s4))
  messageBlock (settle (windowBlock s5))

/-- R98: the station's block number advances by one and wraps from 65535 to 0. -/
def advanceBlock (s : State) : State := { s with blockNumber := (s.blockNumber + 1) % 65536 }

/-- R88: a block completion: the block number advances, the buttons and LEDs are served, the Capture Path takes the
samples, the Mix Engine computes its block, and every count moves on by one. -/
def blockStep (samples : List Sample) (micInput priorityInput shareInput : Bool) (s : State) : State :=
  let t := mixEngineBlock (settle (captureBlock samples (sampleButtons micInput priorityInput shareInput
    (tickLeds (advanceBlock s)))))
  if t.station = .setup then t else runningCounts t

end Sys2Proof.Machine
end

