-- ==== Sys2Proof/Machine/Operands.lean ====
section
/-! DEFINITION. Parameters of host commands (R181, Table 11-6): the values an enumerated code names, the clamping of
quantities, and the configuration and profile that CONFIGURE and SET_PROFILE carry. -/

namespace Sys2Proof.Machine

/-- Table 11-6: a yes or no code. -/
def yesNoOf (b : Byte) : Option Bool :=
  match b.toNat with
  | 0 => some false
  | 1 => some true
  | _ => none

/-- Table 11-6: a wall screen or default share screen. -/
def screenOf (b : Byte) : Option Nat :=
  match b.toNat with
  | 1 => some 1
  | 2 => some 2
  | _ => none

/-- Table 11-6: a floor mode. -/
def modeOf (b : Byte) : Option FloorMode :=
  match b.toNat with
  | 1 => some .firstCome
  | 2 => some .override
  | 3 => some .chairGrant
  | 4 => some .voice
  | _ => none

/-- Table 11-6: a budget kind. -/
def budgetKindOf (b : Byte) : Option BudgetKind :=
  match b.toNat with
  | 1 => some .hard
  | 2 => some .soft
  | _ => none

/-- Table 11-6: a share rule. -/
def shareRuleOf (b : Byte) : Option ShareRule :=
  match b.toNat with
  | 1 => some .free
  | 2 => some .floorOnly
  | _ => none

/-- R83: GRANT conditions. -/
inductive GrantCondition where
  | any
  | ifHead
  | ifQueued
  deriving DecidableEq, Repr

/-- Table 11-6: a GRANT condition. -/
def grantConditionOf (b : Byte) : Option GrantCondition :=
  match b.toNat with
  | 1 => some .any
  | 2 => some .ifHead
  | 3 => some .ifQueued
  | _ => none

/-- Table 11-6: a CLOSE_SEAT condition: whether it is IF_FIRST. -/
def closeConditionOf (b : Byte) : Option Bool :=
  match b.toNat with
  | 1 => some false
  | 2 => some true
  | _ => none

/-- R82: a seat parameter 1..48. -/
def seatOf (b : Byte) : Option Nat := if isSeat b.toNat then some b.toNat else none

/-- R189: a silence limit: 0, or 5..60 s with 1..4 raised to 5. -/
def silenceOf (n : Nat) : Nat := if n = 0 then 0 else clampNat 5 60 n

/-- R188: the configuration a CONFIGURE carries, none where it is refused BAD_PARAM. -/
def configOf (seat role : Byte) (name : List Byte) (trim : Byte) (threshold : BitVec 16)
    (span attenuation duck follower wallScreen shareScreen : Byte) : Option StationConfig := do
  let k ← seatOf seat
  let r ← roleOf role.toNat
  let f ← yesNoOf follower
  let w ← screenOf wallScreen
  let h ← screenOf shareScreen
  if name.length ≤ 20 then
    some { configured := true, seat := k, role := r, name := name, trim := min 30 trim.toNat,
           threshold := min 32767 threshold.toNat, span := min 3 span.toNat, attenuation := min 30 attenuation.toNat,
           duck := min 63 duck.toNat, follower := f, wallScreen := w, shareScreen := h }
  else none

/-- R189: the profile a SET_PROFILE carries, none where it is refused BAD_PARAM. -/
def profileOf (mode limit : Byte) (budget : BitVec 16)
    (budgetKind warning silence shareRule endWarning priorityAllowed priorityCloses : Byte) : Option Profile := do
  let m ← modeOf mode
  let k ← budgetKindOf budgetKind
  let r ← shareRuleOf shareRule
  let a ← yesNoOf priorityAllowed
  let c ← yesNoOf priorityCloses
  some { mode := m, limit := clampNat 1 6 limit.toNat, budget := min 600 budget.toNat, budgetKind := k,
         warning := min 60 warning.toNat, silence := silenceOf silence.toNat, shareRule := r,
         endWarning := min 15 endWarning.toNat, priorityAllowed := a, priorityCloses := c }

end Sys2Proof.Machine
end

