-- ==== Sys2Proof/Machine/HostSetup.lean ====
section
/-! DEFINITION. The commands of configuration, entry into RUN and reset (sections 11.5 and 11.6), with power-on. -/

namespace Sys2Proof.Machine

/-- Every command of this block ends in a next state. -/
abbrev Result := Host.Outcome State Fault Refusal

/-- CONFIGURE (R188): every configuration value is replaced and the configured mark set, or none. -/
def execConfigure (seat role : Byte) (name : List Byte) (trim : Byte) (threshold : BitVec 16)
    (span attenuation duck follower wallScreen shareScreen : Byte) (s : State) : Result :=
  .next (setupGroup s fun t =>
    match configOf seat role name trim threshold span attenuation duck follower wallScreen shareScreen with
    | some c => settle (answer .ok { t with config := c })
    | none => answer .badParam t)

/-- SET_PROFILE (R189): the whole profile is replaced, or no field of it. -/
def execSetProfile (index mode limit : Byte) (budget : BitVec 16)
    (budgetKind warning silence shareRule endWarning priorityAllowed priorityCloses : Byte) (s : State) : Result :=
  .next (setupGroup s fun t =>
    match profileOf mode limit budget budgetKind warning silence shareRule endWarning priorityAllowed priorityCloses with
    | some p =>
        if index.toNat ≤ 3 then answer .ok { t with profiles := t.profiles.set index.toNat p } else answer .badParam t
    | none => answer .badParam t)

/-- R190 and R19: entry into RUN: the cadence count at 0, a beacon requested at once, and the record evaluated. -/
def enterRun (s : State) : State :=
  evaluate (requestBeacon { s with station := .run, presence := { s.presence with cadence := 0 } })

/-- GO (R190). -/
def execGo (s : State) : Result :=
  .next (setupGroup s fun t => if t.config.configured then settle (enterRun (answer .ok t)) else answer .notConfigured t)

/-- R18 at power-on and RESET FULL: no frame is in send; an attempt that was on the link finishes with no outcome. -/
def Link.fullReset (l : Link) : Link := { Link.powerOn with finishing := l.inSend.isSome || l.finishing }

/-- R18 at RESET SOFT: holders and counters emptied; a frame in send finishes its attempt with no outcome. -/
def Link.softReset (l : Link) : Link :=
  { Link.powerOn with inSend := l.inSend.map (fun x => { x with voided := true }), finishing := l.finishing }

/-- R177: the display at any reset: the power-on values, while a transfer that runs completes first with the cells it
took (R165). -/
def Screen.atReset (d : Screen) : Screen := { Screen.powerOn with running := d.running, sent := d.sent }

/-- R192 and the owners' reset rules: the power-on values of every block. -/
def powerOnState (s : State) : State :=
  { State.reset with pending := s.pending, link := s.link.fullReset, screen := s.screen.atReset }

/-- R151 at RESET SOFT: clock, serial counter and HELD entries are kept, with every active mark cleared. -/
def Calendar.softReset (c : Calendar) : Calendar :=
  { c with view := (c.view.filter (fun e => e.held)).map (fun e => { e with active := false }), rotation := none,
           ask := none }

/-- R164 at RESET SOFT. -/
def Meeting.softReset (m : Meeting) : Meeting :=
  { m with state := .idle, id := none, chair := 0, endAsked := false, endedEarly := none, endedEarlyAge := 0 }

/-- R131 at RESET SOFT: the master volume is kept. -/
def Mix.softReset (m : Mix) : Mix := { Mix.powerOn with volume := m.volume }

/-- R192 and R191 at RESET SOFT: the attention threshold is kept. -/
def Port.softReset (p : Port) : Port := { Port.powerOn with threshold := p.threshold }

/-- R191: the state of every block at RESET SOFT, before the beacon request and the evaluation that follow it. -/
def softResetState (s : State) : State :=
  { s with
    link := s.link.softReset, presence := .powerOn, floor := .cleared, mic := .reset, controls := .powerOn,
    capture := .powerOn, mix := s.mix.softReset, calendar := s.calendar.softReset, meeting := s.meeting.softReset,
    screen := s.screen.atReset, share := .powerOn, port := s.port.softReset }

/-- POWER_ON (R192). -/
def execPowerOn (s : State) : Result := .next (settle (powerOnState s))

/-- RESET with FULL (R191): the effect of power-on on every block. It is taken while the port is SERVING. -/
def execResetFull (s : State) : Result := .next (settle (powerOnState s))

/-- RESET with SOFT (R191): in RUN a beacon is requested at once (R19); in RUN and CLASH the record is evaluated
(R164). It is taken while the port is SERVING. The request stands before the evaluation (notes/assumptions/37.md). -/
def execResetSoft (s : State) : Result := .next (settle (evaluate (requestBeacon (softResetState s))))

end Sys2Proof.Machine
end

