-- ==== Sys2Proof/Machine/HostCommands.lean ====
section
/-! DEFINITION. The commands of the RUN group that act (Table 11-2), SET_NOTICE_LEVEL, FLUSH and the frames at the port
that are no command of a block (sections 11.1 to 11.3). -/

namespace Sys2Proof.Machine

/-! ## Notices, clock and volume -/

/-- SET_NOTICE_LEVEL (R185): a threshold above 4 is clamped to 4. -/
def execSetNoticeLevel (threshold : Byte) (s : State) : Result :=
  .next (whenTaken s fun t => answer .ok { t with port := { t.port with threshold := min 4 threshold.toNat } })

/-- SET_TIME (R133): a second above 86399 is refused BAD_PARAM. -/
def execSetTime (day : BitVec 16) (second : BitVec 32) (s : State) : Result :=
  .next (runGroup s fun t =>
    if second.toNat ≤ Config.lastSecond then settle (setClock day.toNat second.toNat (answer .ok t))
    else answer .badParam t)

/-- SET_VOLUME (R116): a value above 63 is clamped to 63. -/
def execSetVolume (volume : Byte) (s : State) : Result :=
  .next (runGroup s fun t => answer .ok { t with mix := { t.mix with volume := min 63 volume.toNat } })

/-! ## The own microphone and the chair's commands (chapter 4) -/

/-- Table 11-6: the code of an own-microphone state. -/
def MicState.code (m : MicState) : Nat :=
  match m with
  | .closed => 0
  | .waiting => 1
  | .opening => 2
  | .open => 3

/-- PRESS (R64): the reply's data is the own-microphone state after the press. At a SEAT station in CLASH that is also
IDLE the model starts no FLASH (notes/assumptions/35.md). -/
def execPress (s : State) : Result :=
  .next (runGroup s fun t =>
    if t.pressTaken then
      let u := takePress t
      settle (reply .ok [byte u.mic.state.code] u)
    else if t.config.role = .seat ∧ t.station = .run then settle (startFlash (answer .badState t))
    else answer .badState t)

/-- R82 and R158: the checks of a chair's command that stand after its parameters': CLASH, then the chair. -/
def chairOnly (s : State) (k : State → State) : State :=
  if s.station = .clash then answer .badState s else if s.isChair then k s else answer .notChair s

/-- R13: a host-originated frame is admitted and the command answered OK, or the command is refused QUEUE_FULL. -/
def admitFrame (b : Body) (s : State) : State :=
  if s.admitsHost then settle (offerHost b (answer .ok s)) else answer .queueFull s

/-- ADD_TIME (R82, R85): seconds clamped into 1..600. -/
def execAddTime (seat : Byte) (seconds : BitVec 16) (s : State) : Result :=
  .next (runGroup s fun t =>
    match seatOf seat with
    | none => answer .badParam t
    | some k => chairOnly t fun u => admitFrame (.timeAdd u.meetingId k (clampNat 1 600 seconds.toNat)) u)

/-- R83: whether a GRANT condition holds of a seat in a view. -/
def Floor.grantHolds (f : Floor) (seat : Nat) (c : GrantCondition) : Bool :=
  match c with
  | .any => true
  | .ifHead => decide (f.position seat = some 1)
  | .ifQueued => f.isQueued seat

/-- GRANT (R82, R83). -/
def execGrant (seat condition : Byte) (s : State) : Result :=
  .next (runGroup s fun t =>
    match seatOf seat, grantConditionOf condition with
    | some k, some c =>
        chairOnly t fun u =>
          if u.floor.grantHolds k c = false then answer .notMatched u
          else if u.limit ≤ u.floor.delegates.length then answer .full u
          else admitFrame (.grant u.meetingId k) u
    | _, _ => answer .badParam t)

/-- R84: whether a seat's record is the first DELEGATE record of the open set. -/
def Floor.isFirstDelegate (f : Floor) (seat : Nat) : Bool := decide (f.delegates.head?.map (fun r => r.seat) = some seat)

/-- CLOSE_SEAT (R82, R84). -/
def execCloseSeat (seat condition : Byte) (s : State) : Result :=
  .next (runGroup s fun t =>
    match seatOf seat, closeConditionOf condition with
    | some k, some ifFirst =>
        chairOnly t fun u =>
          if ifFirst = true ∧ u.floor.isFirstDelegate k = false then answer .notMatched u
          else if k = u.ownSeat then answer .badParam u
          else admitFrame (.close u.meetingId k .chair) u
    | _, _ => answer .badParam t)

/-- CLEAR_QUEUE (R82, R84). -/
def execClearQueue (s : State) : Result :=
  .next (runGroup s fun t => chairOnly t fun u => admitFrame (.clear u.meetingId) u)

/-- PRIORITY (R82, R85): the frame is of the internal kind PRIO. -/
def execPriority (value : Byte) (s : State) : Result :=
  .next (runGroup s fun t =>
    match yesNoOf value with
    | none => answer .badParam t
    | some on =>
        chairOnly t fun u =>
          if u.meeting.profile.priorityAllowed then settle (offerFrame (.priority u.meetingId on) (answer .ok u))
          else answer .badState u)

/-! ## Bookings (chapter 8) -/

/-- R136: the parameters of BOOK lie in their sets. -/
def bookingParams (minute profile chair : Nat) (title : List Byte) : Bool :=
  decide (minute ≤ 1439) && decide (profile ≤ 3) && decide (chair ≤ 48) && decide (title.length ≤ 24)

/-- R136: whether minutes from a start on are free in a view. -/
def viewFree (v : List Entry) (start finish : Nat) : Bool :=
  v.all (fun e => !(decide (start < e.wire.finish) && decide (e.wire.start < finish)))

/-- BOOK (R136): the checks in their order, then the booking. -/
def execBook (day minute duration : BitVec 16) (profile chair : Byte) (title : List Byte) (s : State) : Result :=
  .next (runGroup s fun t =>
    let n := bookingDuration duration.toNat
    let start := day.toNat * Config.dayMinutes + minute.toNat
    if t.station = .clash then answer .badState t
    else if bookingParams minute.toNat profile.toNat chair.toNat title = false then answer .badParam t
    else if t.calendar.clock.set = false then answer .timeNotSet t
    else if start < t.calendar.clock.minuteNumber then answer .badParam t
    else if Config.heldEntries ≤ heldCount t.calendar.view then answer .full t
    else if viewFree t.calendar.view start (start + n) = false then answer .conflict t
    else
      settle (createBooking day.toNat minute.toNat n profile.toNat chair.toNat title
        (reply .ok (bidBytes { holder := t.ownSeat, serial := t.nextSerial }) t)))

/-- R138: the entry a RESTORE_BOOKING re-enters. -/
def restoredEntry (seat : Nat) (day minute duration : BitVec 16) (profile chair : Byte) (title : List Byte)
    (serial version : Byte) (createdDay : BitVec 16) (createdSecond : BitVec 32) : WireEntry :=
  { id := { holder := seat, serial := serial.toNat }, version := version.toNat, startDay := day.toNat,
    startMinute := minute.toNat, duration := bookingDuration duration.toNat, profile := profile.toNat,
    chair := chair.toNat, createdDay := createdDay.toNat, createdSecond := createdSecond.toNat, title := title }

/-- R138: a restored entry that passed its checks is resolved as a candidate with a new id: inserted and handed on with
the serial counter moved past it, or the view unchanged and CONFLICT or FULL. -/
def restoreEntry (w : WireEntry) (s : State) : State :=
  let c : Entry := { wire := w, held := true, active := false, age := 0 }
  match resolve c s.calendar.view with
  | none => answer .conflict s
  | some (v, lost) =>
      match makeRoom w v with
      | none => answer .full s
      | some v' =>
          let t := notifyLost lost (reply .ok (bidBytes w.id) s)
          settle (handOnEntry c { t with calendar := { t.calendar with
            serial := (w.id.serial + 1) % 256, view := insertEntry c v' } })

/-- RESTORE_BOOKING (R138): the checks in their order, then the resolution. -/
def execRestoreBooking (day minute duration : BitVec 16) (profile chair : Byte) (title : List Byte)
    (serial version : Byte) (createdDay : BitVec 16) (createdSecond : BitVec 32) (s : State) : Result :=
  .next (runGroup s fun t =>
    let w := restoredEntry t.ownSeat day minute duration profile chair title serial version createdDay createdSecond
    if t.station = .clash then answer .badState t
    else if bookingParams minute.toNat profile.toNat chair.toNat title = false
      ∨ Config.lastSecond < createdSecond.toNat then answer .badParam t
    else if t.calendar.clock.set = false then answer .timeNotSet t
    else if w.finish ≤ t.calendar.clock.minuteNumber then answer .badParam t
    else if (viewFind t.calendar.view w.id).isSome then answer .conflict t
    else if Config.heldEntries ≤ heldCount t.calendar.view then answer .full t
    else restoreEntry w t)

/-- R144: whether a view holds a HELD entry of an id. -/
def viewHolds (v : List Entry) (id : Bid) : Bool := v.any (fun e => e.held && decide (e.wire.id = id))

/-- CANCEL_BOOKING (R144): the CANCEL is admitted, then the entry is removed or its meeting ends CANCELLED. DESIGN CHOICE
(unsafe): a holder byte 0 or above 48, which R181 also covers, is refused BAD_STATE by R144's check
(notes/assumptions/44.md). -/
def execCancelBooking (holder serial : Byte) (s : State) : Result :=
  .next (runGroup s fun t =>
    let id : Bid := { holder := holder.toNat, serial := serial.toNat }
    if t.station = .clash then answer .badState t
    else if viewHolds t.calendar.view id = false then answer .badState t
    else if t.admitsHost = false then answer .queueFull t
    else settle (endOrRemove id .cancelled (offerHost (.cancel id) (answer .ok t))))

/-! ## Meetings (chapter 9) -/

/-- R162: the duration START_MEETING asks for: 0 stands for 60. -/
def walkInDuration (n : Nat) : Nat := if n = 0 then 60 else bookingDuration n

/-- R162: the minutes free from a minute number on: none for no limit. Inside an entry's interval, where no station that
is IDLE with its clock set can be, none is free (notes/assumptions/21.md). -/
def freeFrom (v : List Entry) (now : Nat) : Option Nat :=
  if v.any (fun e => decide (e.wire.start ≤ now) && decide (now < e.wire.finish)) then some 0
  else (v.find? (fun e => decide (now < e.wire.start))).map (fun e => e.wire.start - now)

/-- R162: the duration taken; none where fewer than 15 minutes are free. -/
def walkInTaken (v : List Entry) (now asked : Nat) : Option Nat :=
  match freeFrom v now with
  | none => some asked
  | some f => if f < 15 then none else some (min asked (f / 5 * 5))

/-- R162: the chair of a walk-in meeting: the own seat at a SEAT station, none elsewhere. -/
def State.walkInChair (s : State) : Nat := if s.config.role = .seat then s.ownSeat else 0

/-- START_MEETING (R162): the checks in their order, then a HELD booking at the current minute, whose meeting the
evaluation starts. -/
def execStartMeeting (duration : BitVec 16) (profile : Byte) (title : List Byte) (s : State) : Result :=
  .next (runGroup s fun t =>
    if t.station = .clash then answer .badState t
    else if 3 < profile.toNat ∨ 24 < title.length then answer .badParam t
    else if t.calendar.clock.set = false then answer .timeNotSet t
    else if t.meeting.state ≠ .idle then answer .badState t
    else if Config.heldEntries ≤ heldCount t.calendar.view then answer .full t
    else
      match walkInTaken t.calendar.view t.calendar.clock.minuteNumber (walkInDuration duration.toNat) with
      | none => answer .conflict t
      | some n =>
          settle (createBooking t.calendar.clock.day t.calendar.clock.minute n profile.toNat t.walkInChair title
            (reply .ok (bidBytes { holder := t.ownSeat, serial := t.nextSerial }) t)))

/-- The booking id of the active meeting as a frame carries it; a running meeting has one (R152). -/
def State.activeId (s : State) : Bid := s.meeting.id.getD { holder := 0, serial := 0 }

/-- END_MEETING (R158): an END_NOW is admitted and end asked set. -/
def execEndMeeting (s : State) : Result :=
  .next (runGroup s fun t => chairOnly t fun u =>
    if u.meeting.endAsked then answer .busy u
    else if u.admitsHost = false then answer .queueFull u
    else
      let v := offerHost (.endNow u.activeId) (answer .ok u)
      settle { v with meeting := { v.meeting with endAsked := true } })

/-- R146: minutes rounded up to a multiple of 5 and clamped into 5..60. -/
def extensionMinutes (n : Nat) : Nat := clampNat 5 60 ((n + 4) / 5 * 5)

/-- R146: the chair's own decision for a HELD active entry, with the own seat as the asker. -/
def extendHeld (e : Entry) (minutes : Nat) (s : State) : State :=
  let g := grantFor s.calendar.view e.wire minutes
  let t := settle (holderDecision e s.ownSeat minutes s)
  if 5 ≤ g then extendResult e.wire.id .accepted g t else extendResult e.wire.id .refused 0 t

/-- R146: an EXTEND_ASK for a HEARD active entry: admitted with the ask ASKING, or refused QUEUE_FULL. -/
def extendHeard (minutes : Nat) (s : State) : State :=
  if s.admitsHost then
    let t := offerHost (.extendAsk s.activeId minutes) (answer .ok s)
    settle { t with calendar := { t.calendar with ask := some { id := s.activeId, minutes := minutes, timer := 0 } } }
  else answer .queueFull s

/-- The HELD entry of the active meeting, none where another station holds it. -/
def State.heldActive (s : State) : Option Entry :=
  match viewFind s.calendar.view s.activeId with
  | some e => if e.held then some e else none
  | none => none

/-- EXTEND_MEETING (R146). -/
def execExtendMeeting (minutes : Byte) (s : State) : Result :=
  .next (runGroup s fun t => chairOnly t fun u =>
    if u.calendar.ask.isSome then answer .busy u
    else
      match u.heldActive with
      | some e => settle (extendHeld e (extensionMinutes minutes.toNat) (answer .ok u))
      | none => extendHeard (extensionMinutes minutes.toNat) u)

/-! ## Screens (chapter 10) -/

/-- R169: the host message that a text and a lifetime in seconds leave. -/
def hostMessage (message : List Byte) (seconds : Nat) : Message :=
  if message.isEmpty then .absent
  else { text := message, lifetime := clampNat 1 600 seconds * Config.blocksPerSecond }

/-- SHOW_MESSAGE (R169). -/
def execShowMessage (message : List Byte) (lifetime : BitVec 16) (s : State) : Result :=
  .next (runGroup s fun t =>
    if 24 < message.length then answer .badParam t
    else settle (answer .ok { t with screen := { t.screen with host := hostMessage message lifetime.toNat } }))

/-- SHARE (R173): the checks in their order, then the claim. -/
def execShare (screen : Byte) (s : State) : Result :=
  .next (runGroup s fun t =>
    if 2 < screen.toNat then answer .badParam t
    else
      match t.claimRefusal with
      | some x => answer x t
      | none => settle (makeClaim (t.screenNamed screen.toNat) (answer .ok t)))

/-- UNSHARE (R175). -/
def execUnshare (s : State) : Result :=
  .next (runGroup s fun t =>
    if t.config.role ≠ .seat ∨ t.station = .clash ∨ t.inMeeting = false then answer .badState t
    else settle (releaseClaim (answer .ok t)))

/-! ## FLUSH and frames that are no command of a block -/

/-- FLUSH (R183): completes at once when the control queue is empty, and otherwise sets the port SERVING. -/
def execFlush (s : State) : Result :=
  .next (runGroup s fun t =>
    if t.link.queue.isEmpty then answer .ok t else { t with port := { t.port with serving := true } })

/-- FLUSH_COMPLETE (R183): a FLUSH being served completes when the control queue holds no frame. -/
def execFlushComplete (s : State) : Result := .next (flushCheck s)

/-- UNKNOWN_COMMAND_FRAME (R178): taken as a command and refused BAD_PARAM, in every station state. -/
def execUnknownCommandFrame (_code : Byte) (_params : List Byte) (s : State) : Result :=
  .next (whenTaken s fun t => answer .badParam t)

/-- COMMAND_WHILE_SERVING (R179): refused with BUSY and discarded; no state changes and no reply is stored. -/
def execCommandWhileServing (_code : Byte) (_params : List Byte) (s : State) : Result := .next s

/-- CUT_SHORT_COMMAND_FRAME (R178): discarded, with the framing flag set. -/
def execCutShortCommandFrame (_bytes : List Byte) (s : State) : Result :=
  .next { s with port := { s.port with framing := true } }

end Sys2Proof.Machine
end

