-- ==== Sys2Proof/Machine/HostReads.lean ====
section
/-! DEFINITION. The commands that read the station (READ_STATUS, READ_NOTICES, READ_FLOOR, READ_CALENDAR) and the
layouts of their replies (Table 11-5). -/

namespace Sys2Proof.Machine

/-! ## Codes (Table 11-6) -/

/-- The code of a station state. -/
def Station.code (x : Station) : Nat :=
  match x with
  | .setup => 1
  | .run => 2
  | .clash => 3

/-- The code of an own claim state. -/
def ClaimState.code (x : ClaimState) : Nat :=
  match x with
  | .none => 0
  | .claiming => 1
  | .sharing => 2

/-- The code of a meeting state. -/
def MeetingState.code (x : MeetingState) : Nat :=
  match x with
  | .idle => 0
  | .active => 1
  | .ending => 2

/-- The code of a slot state. -/
def SlotState.code (x : SlotState) : Nat :=
  match x with
  | .free => 0
  | .filling => 1
  | .playing => 2
  | .concealing => 3

/-! ## READ_STATUS (R187) -/

/-- R187: the own queue position while WAITING, else 0. -/
def State.waitingPosition (s : State) : Nat :=
  if s.mic.state = .waiting then (s.floor.position s.ownSeat).getD 0 else 0

/-- R187: peer entries in a state; the own seat's entry counts as UNKNOWN. -/
def State.peersIn (s : State) (x : PeerState) : Nat :=
  (allSeats.filter (fun k =>
    decide ((if k = s.ownSeat then PeerState.unknown else (s.presence.peer k).state) = x))).length

/-- R187: the kind code of the frame in send; 0 for none. -/
def Link.kindInSend (l : Link) : Byte :=
  match l.inSend with
  | some x => x.frame.body.kindCode
  | none => 0#8

/-- R111: the report of one slot. -/
def slotReport (number : Nat) (x : Slot) : List Byte :=
  [byte number, byte x.seat, byte x.state.code, byte x.fifo.length, flagByte x.overflow,
   flagByte (match x.last with
     | some h => h.talking
     | none => false)]

/-- R111: the report of slots numbered on from `k`. -/
def slotReports : Nat → List Slot → List Byte
  | _, [] => []
  | k, x :: xs => slotReport k x ++ slotReports (k + 1) xs

/-- R187: the station and own side groups. -/
def statusOwn (s : State) : List Byte :=
  [byte s.station.code, flagByte s.config.configured, byte s.config.seat, byte s.config.role.code,
   byte s.mic.state.code, byte s.waitingPosition, byte s.share.claim.code,
   byte (if s.share.claim = .none then 0 else s.share.claimScreen)]

/-- R187: the meeting group. -/
def statusMeeting (s : State) : List Byte :=
  [byte s.meeting.state.code] ++ meetingBytes s.meetingId ++ [byte s.meeting.chair]
    ++ be2 s.calendar.clock.day ++ be4 s.calendar.clock.second ++ [flagByte s.calendar.clock.set]

/-- R187: the link and presence groups. -/
def statusLink (s : State) : List Byte :=
  [byte s.link.queue.length, byte (hostFrames s.link.queue), s.link.kindInSend]
    ++ be2 s.link.badFrames ++ be2 s.link.abandoned ++ be2 s.link.voiceSkips
    ++ [byte (s.peersIn .unknown), byte (s.peersIn .present), byte (s.peersIn .absent)]

/-- R187: the mix group: the items of R130, the slot report of R111 and the late-block counter. A DOOR station reports
seven FREE slots and a late-block counter of 0 (notes/assumptions/36.md). -/
def statusMix (s : State) : List Byte :=
  [byte s.mix.volume, byte s.mix.reduction] ++ be2 s.mix.quiet ++ [flagByte s.mix.limitFlag, byte s.mix.clipped]
    ++ slotReports 1 s.mix.slots ++ be2 s.mix.lateBlocks

/-- R187: the port group. -/
def statusPort (s : State) : List Byte :=
  [byte s.port.notices.length, flagByte s.port.overflow, flagByte s.port.framing, byte s.port.threshold]

/-- R187: the data of a READ_STATUS reply. -/
def statusData (s : State) : List Byte := statusOwn s ++ statusMeeting s ++ statusLink s ++ statusMix s ++ statusPort s

/-- R187: the three flags that the read clears. -/
def clearFlags (s : State) : State :=
  { s with port := { s.port with overflow := false, framing := false }, mix := { s.mix with limitFlag := false } }

/-- READ_STATUS (R187). -/
def execReadStatus (s : State) : Result :=
  .next (whenTaken s fun t => clearFlags (reply .ok (statusData t) t))

/-! ## READ_NOTICES (R186) -/

/-- R186: the data of a READ_NOTICES reply. -/
def noticesData (l : List Notice) : List Byte :=
  let out := l.take Config.replyRecords
  [byte out.length] ++ (out.map Notice.bytes).flatten ++ [byte (l.length - out.length)]

/-- READ_NOTICES (R186): up to 8 of the oldest notices are removed and returned. -/
def execReadNotices (s : State) : Result :=
  .next (whenTaken s fun t =>
    reply .ok (noticesData t.port.notices)
      { t with port := { t.port with notices := t.port.notices.drop Config.replyRecords } })

/-! ## READ_FLOOR (R58) -/

/-- R58: an open record in a reply. -/
def openRecordBytes (block : Nat) (r : OpenRecord) : List Byte :=
  [byte 1, byte r.seat, byte r.cls.code] ++ be4 r.openStamp ++ be4 r.requestStamp
    ++ be2 ((block + 65536 - r.since % 65536) % 65536)

/-- R58: a queue record in a reply, with its position. -/
def queueRecordBytes (position : Nat) (r : QueueRecord) : List Byte :=
  [byte 2, byte r.seat, flagByte r.granted] ++ be4 0 ++ be4 r.requestStamp ++ be2 position

/-- R58: queue records numbered on from a position. -/
def queueRecordList : Nat → List QueueRecord → List (List Byte)
  | _, [] => []
  | k, r :: rs => queueRecordBytes k r :: queueRecordList (k + 1) rs

/-- R58: the single list of floor records: the open set in its order, then the request queue in its order. -/
def floorRecords (s : State) : List (List Byte) :=
  s.floor.openSet.map (openRecordBytes s.blockNumber) ++ queueRecordList 1 s.floor.queue

/-- R58 and R150: up to 8 records from a cursor on. -/
def recordsFrom {α : Type} (cursor : Nat) (l : List α) : List α := (l.drop cursor).take Config.replyRecords

/-- R58 and R150: the next cursor. -/
def nextCursor {α : Type} (cursor : Nat) (l : List α) : Nat :=
  if cursor + (recordsFrom cursor l).length < l.length then cursor + (recordsFrom cursor l).length else 0

/-- R58: the data of a READ_FLOOR reply. -/
def floorData (cursor : Nat) (s : State) : List Byte :=
  let l := floorRecords s
  let out := recordsFrom cursor l
  [flagByte s.floor.priority] ++ be4 s.floor.stamp
    ++ [byte (if s.inMeeting then s.limit else 0), byte s.floor.openSet.length, byte s.floor.queue.length,
        byte out.length, byte (nextCursor cursor l)]
    ++ out.flatten

/-- READ_FLOOR (R58): the view is not changed. -/
def execReadFloor (cursor : Byte) (s : State) : Result :=
  .next (runGroup s fun t => reply .ok (floorData cursor.toNat t) t)

/-! ## READ_CALENDAR (R150) -/

/-- R150: the extension ask in a reply: state, booking id, minutes and blocks left, each 0 while NONE. -/
def askData (a : Option ExtensionAsk) : List Byte :=
  match a with
  | none => [0#8] ++ meetingBytes none ++ [0#8] ++ be2 0
  | some x => [1#8] ++ bidBytes x.id ++ [byte x.minutes] ++ be2 (Config.askBlocks - x.timer)

/-- R150: an entry in a reply: Table 1-3, origin, active mark and age. -/
def viewEntryBytes (e : Entry) : List Byte :=
  entryBytes e.wire ++ [byte (if e.held then 1 else 2), flagByte e.active] ++ be2 e.age

/-- R150: the data of a READ_CALENDAR reply. -/
def calendarData (cursor : Nat) (s : State) : List Byte :=
  let v := s.calendar.view
  let out := recordsFrom cursor v
  be2 s.calendar.clock.day ++ be4 s.calendar.clock.second
    ++ [flagByte s.calendar.clock.set, byte v.length, byte (heldCount v)] ++ askData s.calendar.ask
    ++ [byte out.length, byte (nextCursor cursor v)] ++ (out.map viewEntryBytes).flatten

/-- READ_CALENDAR (R150): nothing is changed. -/
def execReadCalendar (cursor : Byte) (s : State) : Result :=
  .next (runGroup s fun t => reply .ok (calendarData cursor.toNat t) t)

end Sys2Proof.Machine
end

