-- ==== Sys2Proof/Machine/Receive.lean ====
section
/-! DEFINITION. Frames from the link as commands: one for each kind of Table 1-1, and the two that a check refuses. -/

namespace Sys2Proof.Machine

/-- R4 to R7: a frame that passed its CRC: counted when malformed; discarded in SETUP; the entry into CLASH in RUN, and
discarded in CLASH, when it bears the own seat; delivered otherwise. -/
def receive (kind source : Byte) (body : List Byte) (s : State) : State :=
  match parseFrame kind source body with
  | none => countBadFrame s
  | some f =>
      match s.station with
      | .setup => s
      | .run => if f.source = s.ownSeat then settle (enterClash s) else settle (deliver f s)
      | .clash => if f.source = s.ownSeat then s else settle (deliver f s)

/-- RECEIVE_VOICE (R51): kind code 0x10. -/
def execReceiveVoice (source : Byte) (body : List Byte) (s : State) : Result :=
  .next (receive 0x10#8 source body s)

/-- RECEIVE_BEACON (R26): kind code 0x20. -/
def execReceiveBeacon (source : Byte) (body : List Byte) (s : State) : Result :=
  .next (receive 0x20#8 source body s)

/-- RECEIVE_REQUEST (R40): kind code 0x41. -/
def execReceiveRequest (source : Byte) (body : List Byte) (s : State) : Result :=
  .next (receive 0x41#8 source body s)

/-- RECEIVE_WITHDRAW (R41): kind code 0x42. -/
def execReceiveWithdraw (source : Byte) (body : List Byte) (s : State) : Result :=
  .next (receive 0x42#8 source body s)

/-- RECEIVE_OPEN (R42): kind code 0x43. -/
def execReceiveOpen (source : Byte) (body : List Byte) (s : State) : Result :=
  .next (receive 0x43#8 source body s)

/-- RECEIVE_CLOSE (R44): kind code 0x44. -/
def execReceiveClose (source : Byte) (body : List Byte) (s : State) : Result :=
  .next (receive 0x44#8 source body s)

/-- RECEIVE_YIELD (R43): kind code 0x45. -/
def execReceiveYield (source : Byte) (body : List Byte) (s : State) : Result :=
  .next (receive 0x45#8 source body s)

/-- RECEIVE_GRANT (R45): kind code 0x46. -/
def execReceiveGrant (source : Byte) (body : List Byte) (s : State) : Result :=
  .next (receive 0x46#8 source body s)

/-- RECEIVE_CLEAR (R46): kind code 0x47. -/
def execReceiveClear (source : Byte) (body : List Byte) (s : State) : Result :=
  .next (receive 0x47#8 source body s)

/-- RECEIVE_PRIORITY (R47): kind code 0x48. -/
def execReceivePriority (source : Byte) (body : List Byte) (s : State) : Result :=
  .next (receive 0x48#8 source body s)

/-- RECEIVE_TIME_ADD (R48, R80): kind code 0x49. -/
def execReceiveTimeAdd (source : Byte) (body : List Byte) (s : State) : Result :=
  .next (receive 0x49#8 source body s)

/-- RECEIVE_SHARE (R171): kind code 0x4A. -/
def execReceiveShare (source : Byte) (body : List Byte) (s : State) : Result :=
  .next (receive 0x4A#8 source body s)

/-- RECEIVE_UNSHARE (R171): kind code 0x4B. -/
def execReceiveUnshare (source : Byte) (body : List Byte) (s : State) : Result :=
  .next (receive 0x4B#8 source body s)

/-- RECEIVE_CANCEL (R144): kind code 0x61. -/
def execReceiveCancel (source : Byte) (body : List Byte) (s : State) : Result :=
  .next (receive 0x61#8 source body s)

/-- RECEIVE_EXTEND_ASK (R147): kind code 0x62. -/
def execReceiveExtendAsk (source : Byte) (body : List Byte) (s : State) : Result :=
  .next (receive 0x62#8 source body s)

/-- RECEIVE_EXTEND_ANSWER (R148): kind code 0x63. -/
def execReceiveExtendAnswer (source : Byte) (body : List Byte) (s : State) : Result :=
  .next (receive 0x63#8 source body s)

/-- RECEIVE_END_NOW (R157): kind code 0x64. -/
def execReceiveEndNow (source : Byte) (body : List Byte) (s : State) : Result :=
  .next (receive 0x64#8 source body s)

/-- FRAME_CHECK_FAILED (R3): discarded and counted; no other block is reached. -/
def execFrameCheckFailed (_bytes : List Byte) (s : State) : Result := .next (countBadFrame s)

/-- UNKNOWN_KIND_CODE_FRAME (R4): malformed, so discarded and counted. -/
def execUnknownKindCodeFrame (_kind _source : Byte) (_body : List Byte) (s : State) : Result := .next (countBadFrame s)

end Sys2Proof.Machine
end

