-- ==== Sys2Proof/Machine/Events.lean ====
section
/-! DEFINITION. The events of the part itself: the ends of send attempts with their outcomes, the block completion, and
the moments at which a count of the part reaches its end. BLOCK_COMPLETION moves every count on by one block and applies
whatever a count then reaches; a row for one of those moments, sent by itself, means that its count reaches its end now
(notes/assumptions/2.md): it has its effect in every state in which the moment can come, and changes nothing in any
other. -/

namespace Sys2Proof.Machine

/-- RUN or CLASH: the station states in which the part's counts run. -/
def State.counting (s : State) : Bool := decide (s.station ≠ .setup)

/-! ## Outcomes of the frame in send (R16, R17) -/

/-- R158: the outcome of the chair's END_NOW, SENT or ABANDONED. -/
def endNowOutcome (id : Bid) (s : State) : State :=
  let t := { s with meeting := { s.meeting with endAsked := false } }
  if t.meetingId = some id then endMeetingFor .endNow t else t

/-- R17: what SENT of a frame does at its owner; VOICE and floor kinds through the meeting filter. -/
def sentOutcome (f : Frame) (s : State) : State :=
  match f.body with
  | .opening m o q c => filtered m (openSent o q c) s
  | .close m target why => if target = f.source then s else filtered m (viewClose target why) s
  | .grant m target => filtered m (viewGrant target) s
  | .clear m => filtered m viewClear s
  | .priority m on => filtered m (viewPriority on) s
  | .share m screen stamp => filtered m (shareSent screen stamp) s
  | .endNow id => endNowOutcome id s
  | _ => s

/-- R149: ABANDONED of an EXTEND_ASK: the ask that waits for its id ends without an answer. -/
def extendAskAbandoned (id : Bid) (s : State) : State :=
  match s.calendar.ask with
  | some a => if a.id = id then askUnanswered s else s
  | none => s

/-- R16 and R17: the abandoned-send counter, and SEND_FAILED with the frame kind for every frame but the clash
beacon. -/
def countAbandoned (x : Sending) (s : State) : State :=
  let t := { s with link := { s.link with abandoned := sat16 s.link.abandoned } }
  if x.clash then t else notify (.sendFailed x.frame.body.kindCode.toNat) t

/-- R17: what ABANDONED of a frame does at its owner. -/
def abandonedOutcome (f : Frame) (s : State) : State :=
  match f.body with
  | .opening m .. => filtered m openAbandoned s
  | .share m .. => filtered m shareAbandoned s
  | .extendAsk id _ => extendAskAbandoned id s
  | .endNow id => endNowOutcome id s
  | _ => s

/-- R15: the frame in send has ended; the link is free and the next frame is selected. -/
def freeLink (s : State) : State := select { s with link := { s.link with inSend := none } }

/-- R18: the attempt that was on the link at a full reset has ended. -/
def finishAttempt (s : State) : State := select { s with link := { s.link with finishing := false } }

/-- R16: an attempt ends clear. A frame in send that CLASH or a reset has voided ends with no outcome (R5, R18). -/
def attemptClear (s : State) : State :=
  if s.link.finishing then finishAttempt s
  else
    match s.link.inSend with
    | none => s
    | some x => if x.voided then freeLink s else freeLink (sentOutcome x.frame s)

/-- R16: an attempt ends failed: another follows, or the 8th ends the frame ABANDONED. -/
def attemptFailed (s : State) : State :=
  if s.link.finishing then finishAttempt s
  else
    match s.link.inSend with
    | none => s
    | some x =>
        if x.voided then freeLink s
        else if x.attempt < Config.maxAttempts then
          { s with link := { s.link with inSend := some { x with attempt := x.attempt + 1 } } }
        else freeLink (abandonedOutcome x.frame (countAbandoned x s))

/-- ATTEMPT_CLEAR (R16). -/
def execAttemptClear (s : State) : Result := .next (settle (attemptClear s))

/-- ATTEMPT_FAILED (R16). -/
def execAttemptFailed (s : State) : Result := .next (settle (attemptFailed s))

/-! ## Blocks and the ends of counts -/

/-- BLOCK_COMPLETION (R88). -/
def execBlockCompletion (samples : List Sample) (micInput priorityInput shareInput : Bool) (s : State) : Result :=
  .next (settle (blockStep samples micInput priorityInput shareInput s))

/-- TALK_END (R91): a talking detector becomes QUIET. DESIGN CHOICE (unsafe): sent by itself the row completes no block,
so it hands over no talk state (R92) and leaves the silence count of an OPEN delegate as it stands
(notes/assumptions/38.md). -/
def execTalkEnd (s : State) : Result :=
  .next (if s.capturing = true ∧ s.capture.talking = true then
    { s with capture := { s.capture with talking := false, hangover := 0 } }
  else s)

/-- LIMITER_RECOVERY (R127). -/
def execLimiterRecovery (s : State) : Result :=
  .next (if s.hasMix = true ∧ s.counting = true then
    { s with mix := { s.mix with reduction := s.mix.reduction - 1, quiet := 0 } }
  else s)

/-- The bound slot of a number 1..7. -/
def Mix.boundSlot (m : Mix) (number : Nat) : Option Slot :=
  if number = 0 then none
  else
    match m.slots[number - 1]? with
    | some x => if x.state = .free then none else some x
    | none => none

/-- STALE_SLOT (R109, R52): the bound seat of a slot is reported stale. -/
def execStaleSlot (slot : Nat) (s : State) : Result :=
  .next (if s.hasMix = true ∧ s.counting = true then
    match s.mix.boundSlot slot with
    | some x => settle (staleReport x.seat s)
    | none => s
  else s)

/-- BEACON_REQUEST (R19): the cadence count returns to 0 and a beacon is requested. -/
def execBeaconRequest (s : State) : Result :=
  .next (if s.counting then requestBeacon { s with presence := { s.presence with cadence := 0 } } else s)

/-- ABSENCE_EVENT (R23, R24): a PRESENT seat falls absent. -/
def execAbsenceEvent (seat : Nat) (s : State) : Result :=
  .next (if s.counting = true ∧ (s.presence.peer seat).state = .present then settle (peerAbsent seat s) else s)

/-! ## Buttons and LEDs (R62, R63) -/

/-- R62: a button whose stable state has just changed. -/
def Button.stable (pressed : Bool) : Button := { pressed := pressed, difference := 0 }

/-- R62: whether the buttons are sampled. -/
def State.hasButtons (s : State) : Bool := decide (s.config.role = .seat)

/-- MIC_PRESS (R64, R65). -/
def execMicPress (s : State) : Result :=
  .next (if s.hasButtons then settle (micPressed { s with controls := { s.controls with mic := .stable true } }) else s)

/-- PRIORITY_PRESS (R85). -/
def execPriorityPress (s : State) : Result :=
  .next (if s.hasButtons then
    settle (priorityButton true { s with controls := { s.controls with priority := .stable true } }) else s)

/-- PRIORITY_RELEASE (R85). -/
def execPriorityRelease (s : State) : Result :=
  .next (if s.hasButtons then
    settle (priorityButton false { s with controls := { s.controls with priority := .stable false } }) else s)

/-- SHARE_PRESS (R173, R175). -/
def execSharePress (s : State) : Result :=
  .next (if s.hasButtons then
    settle (sharePressed { s with controls := { s.controls with share := .stable true } }) else s)

/-- BUTTON_RELEASE (R62): the stable state changes and nothing is handed on. -/
def execButtonRelease (button : ReleaseButton) (s : State) : Result :=
  .next (if s.hasButtons then
    match button with
    | .mic => { s with controls := { s.controls with mic := .stable false } }
    | .share => { s with controls := { s.controls with share := .stable false } }
  else s)

/-- FLASH_EXPIRY (R63): the ring returns to the pattern its state gives. At a DOOR or WALL station it ends a FLASH that
stands still there (notes/assumptions/40.md). -/
def execFlashExpiry (s : State) : Result := .next { s with controls := { s.controls with flash := 0 } }

/-- R63: an LED whose blink phase has run out; a pattern that does not blink has no phase. -/
def LedState.phaseEnds (l : LedState) : LedState := if l.pattern.phase = 0 then l else l.toggle

/-- LED_BLINK_PHASE (R63). -/
def execLedBlinkPhase (led : Led) (s : State) : Result :=
  .next (match led with
    | .ring => { s with controls := { s.controls with ring := s.controls.ring.phaseEnds } }
    | .request => { s with controls := { s.controls with request := s.controls.request.phaseEnds } })

/-! ## Budget and silence (section 4.10) -/

/-- Whether the speaking budget counts: OPEN with a limited budget (R78). -/
def State.budgetRuns (s : State) : Bool := decide (s.mic.state = .open) && decide (s.mic.remaining ≠ none)

/-- BUDGET_SECOND (R78): a second of the budget passes, with the warning test, and with R79 where remaining reaches
0. -/
def execBudgetSecond (s : State) : Result :=
  .next (if s.budgetRuns then settle (budgetSecondPasses { s with mic := { s.mic with secondCount := 0 } }) else s)

/-- BUDGET_EXPIRY (R79): budget remaining reaches 0. -/
def execBudgetExpiry (s : State) : Result :=
  .next (if s.budgetRuns = true ∧ s.mic.overrun = false then
    settle (budgetExpires (warningTest { s with mic := { s.mic with remaining := some 0, secondCount := 0 } }))
  else s)

/-- SILENCE_CLOSE (R81): the silence count of an OPEN delegate reaches the silence limit. -/
def execSilenceClose (s : State) : Result :=
  .next (if s.mic.state = .open ∧ s.mic.cls = some .delegate ∧ s.capture.talking = false ∧ s.silenceLimit ≠ none then
    settle (micClose .silence s)
  else s)

/-! ## Clock and calendar -/

/-- EXTEND_TIMEOUT (R149). -/
def execExtendTimeout (s : State) : Result :=
  .next (if s.counting = true ∧ s.calendar.ask ≠ none then settle (askUnanswered s) else s)

/-- CLOCK_SECOND (R132, R133). -/
def execClockSecond (s : State) : Result :=
  .next (if s.counting = true ∧ s.calendar.clock.set = true then settle (clockSecondPasses s) else s)

/-- R143: whether a view has a HEARD entry of an id that is not active. -/
def viewAges (v : List Entry) (id : Bid) : Bool := v.any (fun e => !e.held && !e.active && decide (e.wire.id = id))

/-- ENTRY_AGED_OUT (R143). -/
def execEntryAgedOut (holder serial : Nat) (s : State) : Result :=
  .next (if s.counting = true ∧ viewAges s.calendar.view { holder := holder, serial := serial } = true then
    settle (removeEntry { holder := holder, serial := serial } s)
  else s)

/-- ENDED_EARLY_EXPIRY (R159). -/
def execEndedEarlyExpiry (s : State) : Result := .next (if s.counting then dropEndedEarly s else s)

/-! ## Display (chapter 10) -/

/-- QUEUE_WINDOW_ADVANCE (R168). -/
def execQueueWindowAdvance (s : State) : Result :=
  .next (if s.counting = true ∧ s.inMeeting = true then settle (advanceWindow s) else s)

/-- R169: a message whose lifetime has run out. -/
def Message.expired (m : Message) : Message := { m with lifetime := 0 }

/-- TRANSIENT_MESSAGE_EXPIRY (R169). -/
def execTransientMessageExpiry (s : State) : Result :=
  .next (if s.counting then
    settle { s with screen := { s.screen with transient := s.screen.transient.expired } } else s)

/-- HOST_MESSAGE_EXPIRY (R169). -/
def execHostMessageExpiry (s : State) : Result :=
  .next (if s.counting then settle { s with screen := { s.screen with host := s.screen.host.expired } } else s)

/-- DISPLAY_TRANSFER_COMPLETE (R165): a dirty buffer starts the next transfer at once. -/
def execDisplayTransferComplete (s : State) : Result :=
  .next (if s.screen.running then startTransfer (completeTransfer s) else s)

end Sys2Proof.Machine
end

