-- ==== Sys2Proof/Machine/Dispatch.lean ====
section
/-! DEFINITION. The dispatch: one arm for each command, each one call of its meaning. -/

namespace Sys2Proof.Machine

/-- What a command does to the station, the queue of waiting commands apart. -/
def exec (i : Instr) (s : State) : Host.Outcome State Fault Refusal :=
  match i with
  | .powerOn => Sys2Proof.Machine.execPowerOn s
  | .configure seat role name trim threshold span attenuation duck follower wallScreen shareScreen => Sys2Proof.Machine.execConfigure seat role name trim threshold span attenuation duck follower wallScreen shareScreen s
  | .setProfile index mode limit budget budgetKind warning silence shareRule endWarning priorityAllowed priorityCloses => Sys2Proof.Machine.execSetProfile index mode limit budget budgetKind warning silence shareRule endWarning priorityAllowed priorityCloses s
  | .go => Sys2Proof.Machine.execGo s
  | .resetFull => Sys2Proof.Machine.execResetFull s
  | .resetSoft => Sys2Proof.Machine.execResetSoft s
  | .readStatus => Sys2Proof.Machine.execReadStatus s
  | .readNotices => Sys2Proof.Machine.execReadNotices s
  | .setNoticeLevel threshold => Sys2Proof.Machine.execSetNoticeLevel threshold s
  | .setTime day second => Sys2Proof.Machine.execSetTime day second s
  | .setVolume volume => Sys2Proof.Machine.execSetVolume volume s
  | .press => Sys2Proof.Machine.execPress s
  | .addTime seat seconds => Sys2Proof.Machine.execAddTime seat seconds s
  | .grant seat condition => Sys2Proof.Machine.execGrant seat condition s
  | .closeSeat seat condition => Sys2Proof.Machine.execCloseSeat seat condition s
  | .clearQueue => Sys2Proof.Machine.execClearQueue s
  | .priority value => Sys2Proof.Machine.execPriority value s
  | .readFloor cursor => Sys2Proof.Machine.execReadFloor cursor s
  | .book day minute duration profile chair title => Sys2Proof.Machine.execBook day minute duration profile chair title s
  | .restoreBooking day minute duration profile chair title serial version createdDay createdSecond => Sys2Proof.Machine.execRestoreBooking day minute duration profile chair title serial version createdDay createdSecond s
  | .cancelBooking holder serial => Sys2Proof.Machine.execCancelBooking holder serial s
  | .readCalendar cursor => Sys2Proof.Machine.execReadCalendar cursor s
  | .startMeeting duration profile title => Sys2Proof.Machine.execStartMeeting duration profile title s
  | .endMeeting => Sys2Proof.Machine.execEndMeeting s
  | .extendMeeting minutes => Sys2Proof.Machine.execExtendMeeting minutes s
  | .showMessage message lifetime => Sys2Proof.Machine.execShowMessage message lifetime s
  | .share screen => Sys2Proof.Machine.execShare screen s
  | .unshare => Sys2Proof.Machine.execUnshare s
  | .flush => Sys2Proof.Machine.execFlush s
  | .flushComplete => Sys2Proof.Machine.execFlushComplete s
  | .unknownCommandFrame code params => Sys2Proof.Machine.execUnknownCommandFrame code params s
  | .commandWhileServing code params => Sys2Proof.Machine.execCommandWhileServing code params s
  | .cutShortCommandFrame bytes => Sys2Proof.Machine.execCutShortCommandFrame bytes s
  | .frameCheckFailed bytes => Sys2Proof.Machine.execFrameCheckFailed bytes s
  | .receiveVoice source body => Sys2Proof.Machine.execReceiveVoice source body s
  | .receiveBeacon source body => Sys2Proof.Machine.execReceiveBeacon source body s
  | .receiveRequest source body => Sys2Proof.Machine.execReceiveRequest source body s
  | .receiveWithdraw source body => Sys2Proof.Machine.execReceiveWithdraw source body s
  | .receiveOpen source body => Sys2Proof.Machine.execReceiveOpen source body s
  | .receiveClose source body => Sys2Proof.Machine.execReceiveClose source body s
  | .receiveYield source body => Sys2Proof.Machine.execReceiveYield source body s
  | .receiveGrant source body => Sys2Proof.Machine.execReceiveGrant source body s
  | .receiveClear source body => Sys2Proof.Machine.execReceiveClear source body s
  | .receivePriority source body => Sys2Proof.Machine.execReceivePriority source body s
  | .receiveTimeAdd source body => Sys2Proof.Machine.execReceiveTimeAdd source body s
  | .receiveShare source body => Sys2Proof.Machine.execReceiveShare source body s
  | .receiveUnshare source body => Sys2Proof.Machine.execReceiveUnshare source body s
  | .receiveCancel source body => Sys2Proof.Machine.execReceiveCancel source body s
  | .receiveExtendAsk source body => Sys2Proof.Machine.execReceiveExtendAsk source body s
  | .receiveExtendAnswer source body => Sys2Proof.Machine.execReceiveExtendAnswer source body s
  | .receiveEndNow source body => Sys2Proof.Machine.execReceiveEndNow source body s
  | .attemptClear => Sys2Proof.Machine.execAttemptClear s
  | .attemptFailed => Sys2Proof.Machine.execAttemptFailed s
  | .blockCompletion samples micInput priorityInput shareInput => Sys2Proof.Machine.execBlockCompletion samples micInput priorityInput shareInput s
  | .talkEnd => Sys2Proof.Machine.execTalkEnd s
  | .limiterRecovery => Sys2Proof.Machine.execLimiterRecovery s
  | .staleSlot slot => Sys2Proof.Machine.execStaleSlot slot s
  | .beaconRequest => Sys2Proof.Machine.execBeaconRequest s
  | .absenceEvent seat => Sys2Proof.Machine.execAbsenceEvent seat s
  | .micPress => Sys2Proof.Machine.execMicPress s
  | .priorityPress => Sys2Proof.Machine.execPriorityPress s
  | .priorityRelease => Sys2Proof.Machine.execPriorityRelease s
  | .sharePress => Sys2Proof.Machine.execSharePress s
  | .buttonRelease button => Sys2Proof.Machine.execButtonRelease button s
  | .flashExpiry => Sys2Proof.Machine.execFlashExpiry s
  | .ledBlinkPhase led => Sys2Proof.Machine.execLedBlinkPhase led s
  | .budgetSecond => Sys2Proof.Machine.execBudgetSecond s
  | .budgetExpiry => Sys2Proof.Machine.execBudgetExpiry s
  | .silenceClose => Sys2Proof.Machine.execSilenceClose s
  | .extendTimeout => Sys2Proof.Machine.execExtendTimeout s
  | .clockSecond => Sys2Proof.Machine.execClockSecond s
  | .entryAgedOut holder serial => Sys2Proof.Machine.execEntryAgedOut holder serial s
  | .endedEarlyExpiry => Sys2Proof.Machine.execEndedEarlyExpiry s
  | .queueWindowAdvance => Sys2Proof.Machine.execQueueWindowAdvance s
  | .transientMessageExpiry => Sys2Proof.Machine.execTransientMessageExpiry s
  | .hostMessageExpiry => Sys2Proof.Machine.execHostMessageExpiry s
  | .displayTransferComplete => Sys2Proof.Machine.execDisplayTransferComplete s
  | .unknownKindCodeFrame kind source body => Sys2Proof.Machine.execUnknownKindCodeFrame kind source body s

end Sys2Proof.Machine
end

