-- ==== Sys2Proof/WellFormed.lean ====
section
/-! DEFINITION. Well-formed commands: those that the link, the host port or the part itself can send. -/

namespace Sys2Proof

open Sys2Proof.Machine

/-- R178: the bytes of a command frame are cut short: fewer or more than 2 + n. -/
def cutShort (bytes : List Byte) : Bool :=
  match bytes with
  | _ :: n :: p => decide (p.length ≠ n.toNat)
  | _ => true

/-- A body length field has one byte (Table 1-1). -/
def bodyFits (body : List Byte) : Bool := decide (body.length ≤ 255)

/-- Whether a command is one that can arrive: parameter lengths of one byte, frames that are what their row says, 64
samples in a block, and slots, seats and booking ids in their ranges. -/
def Instr.wellFormed (c : Instr) : Bool :=
  match c with
  | .powerOn => true
  | .configure _ _ name _ _ _ _ _ _ _ _ => decide (name.length + 12 ≤ 255)
  | .setProfile _ _ _ _ _ _ _ _ _ _ _ => true
  | .go => true
  | .resetFull => true
  | .resetSoft => true
  | .readStatus => true
  | .readNotices => true
  | .setNoticeLevel _ => true
  | .setTime _ _ => true
  | .setVolume _ => true
  | .press => true
  | .addTime _ _ => true
  | .grant _ _ => true
  | .closeSeat _ _ => true
  | .clearQueue => true
  | .priority _ => true
  | .readFloor _ => true
  | .book _ _ _ _ _ title => decide (title.length + 9 ≤ 255)
  | .restoreBooking _ _ _ _ _ title _ _ _ _ => decide (title.length + 17 ≤ 255)
  | .cancelBooking _ _ => true
  | .readCalendar _ => true
  | .startMeeting _ _ title => decide (title.length + 4 ≤ 255)
  | .endMeeting => true
  | .extendMeeting _ => true
  | .showMessage message _ => decide (message.length + 3 ≤ 255)
  | .share _ => true
  | .unshare => true
  | .flush => true
  | .flushComplete => true
  | .unknownCommandFrame code p => decide (p.length ≤ 255) && (HostFrame.command code p).isNone
  | .commandWhileServing code p => decide (p.length ≤ 255) && decide (code ≠ 0x10#8)
  | .cutShortCommandFrame bytes => cutShort bytes
  | .frameCheckFailed bytes => (checkCrc bytes).isNone
  | .receiveVoice _ body => bodyFits body
  | .receiveBeacon _ body => bodyFits body
  | .receiveRequest _ body => bodyFits body
  | .receiveWithdraw _ body => bodyFits body
  | .receiveOpen _ body => bodyFits body
  | .receiveClose _ body => bodyFits body
  | .receiveYield _ body => bodyFits body
  | .receiveGrant _ body => bodyFits body
  | .receiveClear _ body => bodyFits body
  | .receivePriority _ body => bodyFits body
  | .receiveTimeAdd _ body => bodyFits body
  | .receiveShare _ body => bodyFits body
  | .receiveUnshare _ body => bodyFits body
  | .receiveCancel _ body => bodyFits body
  | .receiveExtendAsk _ body => bodyFits body
  | .receiveExtendAnswer _ body => bodyFits body
  | .receiveEndNow _ body => bodyFits body
  | .attemptClear => true
  | .attemptFailed => true
  | .blockCompletion samples _ _ _ => decide (samples.length = Config.blockSamples)
  | .talkEnd => true
  | .limiterRecovery => true
  | .staleSlot slot => decide (1 ≤ slot) && decide (slot ≤ Config.slots)
  | .beaconRequest => true
  | .absenceEvent seat => isSeat seat
  | .micPress => true
  | .priorityPress => true
  | .priorityRelease => true
  | .sharePress => true
  | .buttonRelease _ => true
  | .flashExpiry => true
  | .ledBlinkPhase _ => true
  | .budgetSecond => true
  | .budgetExpiry => true
  | .silenceClose => true
  | .extendTimeout => true
  | .clockSecond => true
  | .entryAgedOut holder serial => isSeat holder && decide (serial ≤ 255)
  | .endedEarlyExpiry => true
  | .queueWindowAdvance => true
  | .transientMessageExpiry => true
  | .hostMessageExpiry => true
  | .displayTransferComplete => true
  | .unknownKindCodeFrame kind _ body => bodyFits body && !knownKind kind

/-! ## Frames that a station can compose (Tables 1-2 to 1-4) -/

namespace Machine

/-- A value of a stamp field. -/
def stampFits (n : Nat) : Bool := decide (n ≤ maxStamp)

/-- A booking id as a frame carries it. -/
def Bid.wellFormed (b : Bid) : Bool := isSeat b.holder && decide (b.serial ≤ 255)

/-- Table 1-3: an entry in the ranges listed there. -/
def WireEntry.wellFormed (e : WireEntry) : Bool :=
  e.id.wellFormed && decide (e.version ≤ 255) && decide (e.startDay ≤ 65535) && decide (e.startMinute ≤ 1439)
    && decide (15 ≤ e.duration) && decide (e.duration ≤ 720) && decide (e.duration % 5 = 0) && decide (e.profile ≤ 3)
    && decide (e.chair ≤ Config.seats) && decide (e.createdDay ≤ 65535) && decide (e.createdSecond ≤ Config.lastSecond)
    && decide (e.title.length ≤ 24)

/-- Table 1-4: the fields of a beacon in their ranges. -/
def BeaconBody.wellFormed (b : BeaconBody) : Bool :=
  decide (b.name.length ≤ 20) && b.meeting.all Bid.wellFormed && b.endedEarly.all Bid.wellFormed
    && b.mic.all (fun p => stampFits p.1 && stampFits p.2) && b.request.all stampFits
    && b.share.all (fun p => (decide (p.1 = 1) || decide (p.1 = 2)) && stampFits p.2)
    && decide (b.day ≤ 65535) && decide (b.second ≤ Config.lastSecond) && b.entry.all WireEntry.wellFormed

/-- A 16-bit sample. -/
def sampleFits (x : Int) : Bool := decide (-32768 ≤ x) && decide (x ≤ 32767)

/-- Whether a reason is one that a CLOSE carries (Table 1-2). -/
def Reason.carried (r : Reason) : Bool := decide (r.code ≤ 6)

/-- Table 1-2: the body of a frame in its ranges. -/
def Body.wellFormed (b : Body) : Bool :=
  match b with
  | .voice m o q n _ xs =>
      m.all Bid.wellFormed && stampFits o && stampFits q && decide (n ≤ 65535) && decide (xs.length = Config.blockSamples)
        && xs.all sampleFits
  | .beacon c => c.wellFormed
  | .request m q => m.all Bid.wellFormed && stampFits q
  | .withdraw m => m.all Bid.wellFormed
  | .opening m o q _ => m.all Bid.wellFormed && stampFits o && stampFits q
  | .close m t r => m.all Bid.wellFormed && isSeat t && r.carried
  | .yield m q => m.all Bid.wellFormed && stampFits q
  | .grant m t => m.all Bid.wellFormed && isSeat t
  | .clear m => m.all Bid.wellFormed
  | .priority m _ => m.all Bid.wellFormed
  | .timeAdd m t n => m.all Bid.wellFormed && isSeat t && decide (1 ≤ n) && decide (n ≤ 600)
  | .share m sc k => m.all Bid.wellFormed && (decide (sc = 1) || decide (sc = 2)) && stampFits k
  | .unshare m => m.all Bid.wellFormed
  | .cancel id => id.wellFormed
  | .extendAsk id n => id.wellFormed && decide (5 ≤ n) && decide (n ≤ 60) && decide (n % 5 = 0)
  | .extendAnswer id a _ g e => id.wellFormed && isSeat a && decide (g ≤ 60) && e.wellFormed
  | .endNow id => id.wellFormed

/-- R1 and R2: a frame from a seat 1..48 with a well-formed body. -/
def Frame.wellFormed (f : Frame) : Bool := isSeat f.source && f.body.wellFormed

end Machine

end Sys2Proof
end

