-- ==== Sys2Proof/Safety.lean ====
section
/-! DEFINITION. What a sound station is, in the terms the claims use: the bounds, orders and agreements that the manual
states of every station, as one predicate of the state. -/

namespace Sys2Proof.Machine

/-! ## Link Interface -/

/-- The frames of an internal kind in a control queue. -/
def ofKind (q : List Frame) (k : InternalKind) : List Frame := q.filter (fun f => decide (f.internalKind = some k))

/-- R11: at most one frame per internal kind and at most 5 host-originated. -/
structure QueueSound (q : List Frame) : Prop where
  onePerKind : ∀ k, (ofKind q k).length ≤ 1
  hosts : hostFrames q ≤ Config.maxHostFrames

/-! ## Floor view -/

/-- R33 and R34: the orders of both collections; no seat twice in either, or in both at once. -/
structure ViewsSound (f : Floor) : Prop where
  openOrder : f.openSet.Pairwise (fun a b => a.before b = true)
  queueOrder : f.queue.Pairwise (fun a b => a.before b = true)
  openSeats : (f.openSet.map (fun r => r.seat)).Nodup
  queueSeats : (f.queue.map (fun r => r.seat)).Nodup
  apart : ∀ r ∈ f.openSet, f.isQueued r.seat = false

/-- R35: the counter is not below any stamp of the open set and the request queue. -/
structure StampsSound (f : Floor) : Prop where
  opens : ∀ r ∈ f.openSet, r.openStamp ≤ f.stamp ∧ r.requestStamp ≤ f.stamp
  queued : ∀ r ∈ f.queue, r.requestStamp ≤ f.stamp

/-- R35: the counter is not below any stamp of the share map. -/
def shareStampsSound (h : Share) (stamp : Nat) : Prop :=
  (∀ p, h.screen1 = some p → p.stamp ≤ stamp) ∧ (∀ p, h.screen2 = some p → p.stamp ≤ stamp)

/-- R33: at most L DELEGATE records, and a record of class CHAIR for the chair seat alone. -/
structure ClassesSound (f : Floor) (m : Meeting) : Prop where
  delegates : f.delegates.length ≤ m.profile.limit
  chairs : ∀ r ∈ f.openSet, r.cls = .chair → r.seat = m.chair

/-! ## Calendar -/

/-- R135: entries in order, none overlapping another. -/
def entryApart (a b : Entry) : Prop :=
  viewKeyLt a.wire.start a.wire.id b.wire.start b.wire.id = true ∧ a.wire.overlaps b.wire = false

/-- R135: the order of the view, no two entries overlapping, no booking id twice, and the bounds 32 and 8. -/
structure CalendarSound (v : List Entry) : Prop where
  apart : v.Pairwise entryApart
  ids : (v.map (fun e => e.wire.id)).Nodup
  entries : v.length ≤ Config.viewEntries
  held : heldCount v ≤ Config.heldEntries

/-- R152: an active entry is the one the record names, while a meeting runs. -/
def activeSound (v : List Entry) (m : Meeting) : Prop :=
  ∀ e ∈ v, e.active = true → m.state ≠ .idle ∧ m.id = some e.wire.id

/-! ## Share map, mix, tables and port -/

/-- R171: no seat presents on both screens. -/
def shareSound (h : Share) : Prop := ∀ p q, h.screen1 = some p → h.screen2 = some q → p.seat ≠ q.seat

/-- R99 and R115: seven slots, FIFOs of at most 4 blocks, a reduction of at most 12 and a volume of at most 63. -/
structure MixSound (m : Mix) : Prop where
  slots : m.slots.length = Config.slots
  fifos : ∀ x ∈ m.slots, x.fifo.length ≤ Config.fifoDepth
  reduction : m.reduction ≤ Config.maxReduction
  volume : m.volume ≤ 63

/-- R21 and R189: 48 peer entries, four profiles, and delegate limits of 1..6. -/
structure TablesSound (l : List Peer) (q : List Profile) (m : Meeting) : Prop where
  peers : l.length = Config.seats
  profiles : q.length = 4
  limits : ∀ p ∈ q, 1 ≤ p.limit ∧ p.limit ≤ 6
  limit : 1 ≤ m.profile.limit ∧ m.profile.limit ≤ 6

/-- R184 and R185: at most 16 notices, and a threshold of at most 4. -/
structure PortSound (p : Port) : Prop where
  notices : p.notices.length ≤ Config.noticeEntries
  threshold : p.threshold ≤ 4

/-- A sound station. -/
structure State.Sound (s : State) : Prop where
  queue : QueueSound s.link.queue
  views : ViewsSound s.floor
  stamps : StampsSound s.floor
  shareStamps : shareStampsSound s.share s.floor.stamp
  classes : ClassesSound s.floor s.meeting
  calendar : CalendarSound s.calendar.view
  active : activeSound s.calendar.view s.meeting
  share : shareSound s.share
  mix : MixSound s.mix
  tables : TablesSound s.presence.peers s.profiles s.meeting
  port : PortSound s.port

/-! ## What only named commands change -/

/-- What no command changes but those that configure, reset, enter RUN or CLASH, set the volume or the threshold, or
complete a block: queue of commands, station state, configuration, profiles, block number, volume and threshold. -/
structure SameSetup (s t : State) : Prop where
  pending : t.pending = s.pending
  station : t.station = s.station
  config : t.config = s.config
  profiles : t.profiles = s.profiles
  blockNumber : t.blockNumber = s.blockNumber
  volume : t.mix.volume = s.mix.volume
  threshold : t.port.threshold = s.port.threshold

/-! ## Other invariants -/

/-- R6: in CLASH the queue and the voice slot are empty, the beacon slot holds nothing but the clash beacon, and a frame
in send is the clash beacon or one that ends with no outcome. -/
structure ClashSilent (s : State) : Prop where
  queue : s.station = .clash → s.link.queue = []
  voice : s.station = .clash → s.link.voiceSlot = none
  beacon : s.station = .clash → s.link.beaconSlot ≠ some .normal
  sending : s.station = .clash → ∀ x, s.link.inSend = some x → x.clash = true ∨ x.voided = true

/-- R33, R61 and R171: while the meeting state is IDLE nobody is open, the own microphone is CLOSED, and the share map
and the own claim are empty; in SETUP the state is IDLE (R153). -/
structure IdleEmpty (s : State) : Prop where
  openSet : s.meeting.state = .idle → s.floor.openSet = []
  mic : s.meeting.state = .idle → s.mic.state = .closed
  screens : s.meeting.state = .idle → s.share.screen1 = none ∧ s.share.screen2 = none
  claim : s.meeting.state = .idle → s.share.claim = .none
  setup : s.station = .setup → s.meeting.state = .idle

/-- R93: placing is on exactly while the own-microphone state is OPEN. -/
def PlacingWithOpen (s : State) : Prop := s.capture.placing = true ↔ s.mic.state = .open

/-- R100: a slot is bound to a seat exactly when that seat is open and is not the own seat, no two slots to one seat; at
a DOOR station, and in SETUP, every slot is FREE. -/
structure SlotsFollow (s : State) : Prop where
  bound : s.hasMix = true → ∀ k, (∃ x ∈ s.mix.slots, x.state ≠ .free ∧ x.seat = k) ↔ (s.floor.isOpen k = true ∧ k ≠ s.ownSeat)
  once : ((s.mix.slots.filter (fun x => decide (x.state ≠ .free))).map (fun x => x.seat)).Nodup
  free : s.hasMix = false ∨ s.station = .setup → ∀ x ∈ s.mix.slots, x.state = .free

/-! ## Where commands are taken -/

/-- R179 and R180: where a RUN-group command reaches the checks of its own rule: the port is IDLE and the station is in
RUN or CLASH. -/
structure RunTaken (s : State) : Prop where
  idle : s.port.serving = false
  station : s.station ≠ .setup

/-- R82: where a chair's command reaches its own conditions: taken in RUN at the chair of the running meeting. -/
structure ChairTaken (s : State) : Prop where
  idle : s.port.serving = false
  station : s.station = .run
  chair : s.isChair = true

/-- R4 to R7: a valid frame that is delivered: in RUN or CLASH, from another seat. -/
structure Delivered (s : State) (kind source : Byte) (body : List Byte) (f : Frame) : Prop where
  valid : parseFrame kind source body = some f
  station : s.station ≠ .setup
  other : f.source ≠ s.ownSeat

/-- A completed command's reply without data (R182). -/
def State.answered (s : State) (x : Status) : State := { s with port := { s.port with reply := { status := x, data := [] } } }

/-! ## Groups of commands -/

/-- R191 and R192: the commands with the effect of power-on. -/
def fullReset (c : Instr) : Bool :=
  match c with
  | .powerOn | .resetFull => true
  | _ => false

/-- Whether a command is a CONFIGURE. -/
def isConfigure (c : Instr) : Bool :=
  match c with
  | .configure .. => true
  | _ => false

/-- Whether a command is a SET_PROFILE. -/
def isSetProfile (c : Instr) : Bool :=
  match c with
  | .setProfile .. => true
  | _ => false

/-- Whether a command is a SET_VOLUME. -/
def isSetVolume (c : Instr) : Bool :=
  match c with
  | .setVolume _ => true
  | _ => false

/-- Whether a command is a SET_NOTICE_LEVEL. -/
def isSetNoticeLevel (c : Instr) : Bool :=
  match c with
  | .setNoticeLevel _ => true
  | _ => false

/-- Whether a command is a BLOCK_COMPLETION. -/
def isBlock (c : Instr) : Bool :=
  match c with
  | .blockCompletion .. => true
  | _ => false

/-- Table 11-2: the SETUP-only group. -/
def setupOnly (c : Instr) : Bool :=
  match c with
  | .configure .. | .setProfile .. | .go => true
  | _ => false

/-- Table 11-2: the RUN group. -/
def runOnly (c : Instr) : Bool :=
  match c with
  | .setTime .. | .setVolume _ | .press | .addTime .. | .grant .. | .closeSeat .. | .clearQueue | .priority _
  | .readFloor _ | .book .. | .restoreBooking .. | .cancelBooking .. | .readCalendar _ | .startMeeting .. | .endMeeting
  | .extendMeeting _ | .showMessage .. | .share _ | .unshare | .flush => true
  | _ => false

/-- Table 11-2: the any-state group but for RESET. -/
def anyState (c : Instr) : Bool :=
  match c with
  | .readStatus | .readNotices | .setNoticeLevel _ => true
  | _ => false

/-! ## Frames by their bodies -/

/-- R8: the meeting id that the meeting filter compares: of a VOICE frame or a floor kind, none of the other kinds. -/
def filteredId (b : Body) : Option (Option Bid) :=
  match b with
  | .voice m .. => some m
  | .request m _ => some m
  | .withdraw m => some m
  | .opening m .. => some m
  | .close m .. => some m
  | .yield m _ => some m
  | .grant m _ => some m
  | .clear m => some m
  | .priority m _ => some m
  | .timeAdd m .. => some m
  | .share m .. => some m
  | .unshare m => some m
  | .beacon _ | .cancel _ | .extendAsk .. | .extendAnswer .. | .endNow _ => none

/-- R15: the frame in send has ended and the next is selected. -/
def State.linkFreed (s : State) : State := select { s with link := { s.link with inSend := none } }

end Sys2Proof.Machine
end

