-- ==== Sys2Proof/Certificates/Slice0/Obligations.lean ====
section
/-! DEFINITION. The statements for the provers. Each says what its name says; the rule of spec/ that it formalises stands
in its docstring. An equation whose right side is built with an operation of the model says where that operation is
applied and to what; what the operation does is said by a clause about it: `settle` and the texts of the pages with the
lamps and the display, `select`, the beacons it composes, `offer`, `offerHost`, `placeVoice`, `withdrawOpen`, the internal
kinds and the inverse pairs with the holders, `requestBeacon` with the beacons, `Floor.opening`, `Floor.implicit`,
`Floor.enter`, displacement, `insertQueue` and the readers of the view with an opening, `storeStep`, `floorStep`,
`micDisplaced` and the binding of slots with a step of the view, `evalMic` and `chairPresent` with the own side,
`micClose`, `micTimeAdd`, `warningTest` and `startBudget` with the budget, `closeOpening` with a press, `viewClose` and
`isChairSeat` with the chair's frames, `openSent`, `openAbandoned`, `viewGrant`, `viewClear` and `viewPriority` with the
outcomes, the share operations with the claims, `evaluate` with the evaluation, `startMeetingFor`, `replay` and
`closeMeeting` with the meeting, `insertEntry` with a booking, `Entry.beats` and the times of an entry with the booking
tests, `arriveEntry`, `endOrRemove`, `holderDecision` and `extendResult` with the calendar, `filterPasses` and `meetingId`
with the filter, the bytes and codes with the frames, the replies and the notices. Where `settle` stands between two
changes, and that a row for the end of a count acts by itself, are the model's readings (notes/assumptions/4.md and
2.md). -/

open Sys2Proof Sys2Proof.Machine

/-! ## The block as a whole -/

/-- The model's own queue (notes/assumptions/1.md): the command at the front runs with the queue's rest; an empty queue
idles. -/
def Obligations.StepRunsTheFrontCommand : Prop :=
  (∀ (c : Instr) (s : State), step { s with pending := c :: s.pending } = exec c s) ∧
  (∀ s : State, s.pending = [] → step s = .next s)

/-- The manual names no command that stops the part: every command completes, and none touches the waiting commands. -/
def Obligations.EveryCommandGivesANextState : Prop :=
  ∀ (c : Instr) (s : State), ∃ t : State, exec c s = .next t ∧ t.pending = s.pending

/-- Bounds, orders and agreements of R11, R33, R34, R35, R99, R115, R135, R152, R171, R184 and R189, kept by every step
from every sound state. -/
def Obligations.EveryStepKeepsTheStationSound : Prop :=
  ∀ s t : State, s.Sound → step s = .next t → t.Sound

/-- R6: a station in CLASH sends its clash beacon and after that nothing, whatever command comes: every step keeps the
station silent, an empty beacon slot stays empty, and with it empty no frame but the one in send is in send after a
step. -/
def Obligations.EveryStepKeepsClashSilent : Prop :=
  (∀ s t : State, ClashSilent s → step s = .next t → ClashSilent t) ∧
  (∀ s t : State, ClashSilent s → s.station = .clash → s.link.beaconSlot = none → step s = .next t →
    t.link.beaconSlot = none ∧
    (t.station = .clash → ∀ y : Sending, t.link.inSend = some y → ∃ x : Sending, s.link.inSend = some x ∧ y.frame = x.frame))

/-- R33, R61, R153 and R171: while no meeting runs nobody is open, the own microphone is CLOSED, nobody presents and
nothing is claimed; no meeting runs in SETUP. R93: placing is on exactly while the own-microphone state is OPEN. -/
def Obligations.EveryStepKeepsIdleEmptyAndPlacing : Prop :=
  (∀ s t : State, IdleEmpty s → step s = .next t → IdleEmpty t) ∧
  (∀ s t : State, PlacingWithOpen s → step s = .next t → PlacingWithOpen t)

/-- R100 and R101: the source slots follow the open set. -/
def Obligations.EveryStepKeepsSlotsFollowingTheOpenSet : Prop :=
  ∀ s t : State, s.Sound → IdleEmpty s → SlotsFollow s → step s = .next t → SlotsFollow t

/-- The station right after power-on meets every invariant above. -/
def Obligations.PowerOnStateMeetsTheInvariants : Prop :=
  State.reset.Sound ∧ ClashSilent State.reset ∧ IdleEmpty State.reset ∧ PlacingWithOpen State.reset
    ∧ SlotsFollow State.reset

/-- What a sound station bounds: ten frames in the control queue (R11); L + 1 records in the open set, seven at most, one
of class CHAIR at most (R33); one active entry at most and no two entries overlapping (R135). -/
def Obligations.SoundStationKeepsTheBounds : Prop :=
  ∀ s : State, s.Sound →
    s.link.queue.length ≤ 10 ∧
    s.floor.openSet.length ≤ s.meeting.profile.limit + 1 ∧ s.floor.openSet.length ≤ 7 ∧
    (s.floor.openSet.filter (fun r => decide (r.cls = .chair))).length ≤ 1 ∧
    (s.calendar.view.filter (fun e => e.active)).length ≤ 1 ∧
    (∀ a ∈ s.calendar.view, ∀ b ∈ s.calendar.view, a ≠ b → a.wire.overlaps b.wire = false)

/-- Configuration, profiles, block number, master volume and attention threshold are changed by the named commands
alone (R188, R189, R98, R116, R185). -/
def Obligations.OnlyNamedCommandsChangeTheSetup : Prop :=
  ∀ (c : Instr) (s t : State), exec c s = .next t → fullReset c = false →
    (isConfigure c = false → t.config = s.config) ∧
    (isSetProfile c = false → t.profiles = s.profiles) ∧
    (isBlock c = false → t.blockNumber = s.blockNumber) ∧
    (isSetVolume c = false → t.mix.volume = s.mix.volume) ∧
    (isSetNoticeLevel c = false → t.port.threshold = s.port.threshold)

/-- The station states: SETUP is left by GO alone and entered by a full reset alone; CLASH is left by a full reset alone
(R6) and entered from RUN alone, by a valid frame that bears the own seat (R5). -/
def Obligations.StationStateChangesByNamedCommandsAlone : Prop :=
  ∀ (c : Instr) (s t : State), exec c s = .next t → t.station ≠ s.station →
    (s.station = .setup → c = .go ∧ t.station = .run) ∧
    (t.station = .setup → fullReset c = true) ∧
    (s.station = .clash → fullReset c = true ∧ t.station = .setup) ∧
    (t.station = .clash → s.station = .run ∧ ∃ (kind source : Byte) (body : List Byte) (f : Frame),
      c = LinkFrame.received kind source body ∧ parseFrame kind source body = some f ∧ f.source = s.ownSeat)

/-! ## Frames as bytes -/

/-- Tables 11-1, 11-2 and 11-4: a well-formed host command is what the bytes that spell it decode to: its code, the
number of its parameter bytes, and its parameters in the order and the sizes of Table 11-4. Bytes whose number is not
the one that the length byte gives are a frame cut short (R178). -/
def Obligations.HostCommandsDecodeFromTheirBytes : Prop :=
  (∀ (c : Instr) (bytes : List Byte), c.wellFormed = true → HostFrame.encode c = some bytes → HostFrame.decode bytes = c) ∧
  (∀ (a b c d e f g h i j : Byte) (x y z u : BitVec 16) (w : BitVec 32) (l : List Byte),
    HostFrame.encode (.configure a b l c x d e f g h i) = some ([0x01#8, byte (l.length + 12), a, b, byte l.length] ++ l
      ++ [c] ++ be2 x.toNat ++ [d, e, f, g, h, i]) ∧
    HostFrame.encode (.setProfile a b c x d e f g h i j)
      = some ([0x02#8, 12#8, a, b, c] ++ be2 x.toNat ++ [d, e, f, g, h, i, j]) ∧
    HostFrame.encode .go = some [0x03#8, 0#8] ∧
    HostFrame.encode .resetFull = some [0x10#8, 1#8, 1#8] ∧ HostFrame.encode .resetSoft = some [0x10#8, 1#8, 2#8] ∧
    HostFrame.encode .readStatus = some [0x11#8, 0#8] ∧ HostFrame.encode .readNotices = some [0x12#8, 0#8] ∧
    HostFrame.encode (.setNoticeLevel a) = some [0x13#8, 1#8, a] ∧
    HostFrame.encode (.setTime x w) = some ([0x20#8, 6#8] ++ be2 x.toNat ++ be4 w.toNat) ∧
    HostFrame.encode (.setVolume a) = some [0x21#8, 1#8, a] ∧ HostFrame.encode .press = some [0x22#8, 0#8] ∧
    HostFrame.encode (.addTime a x) = some ([0x23#8, 3#8, a] ++ be2 x.toNat) ∧
    HostFrame.encode (.grant a b) = some [0x24#8, 2#8, a, b] ∧ HostFrame.encode (.closeSeat a b) = some [0x25#8, 2#8, a, b] ∧
    HostFrame.encode .clearQueue = some [0x26#8, 0#8] ∧ HostFrame.encode (.priority a) = some [0x27#8, 1#8, a] ∧
    HostFrame.encode (.readFloor a) = some [0x28#8, 1#8, a] ∧
    HostFrame.encode (.book x y z a b l) = some ([0x30#8, byte (l.length + 9)] ++ be2 x.toNat ++ be2 y.toNat ++ be2 z.toNat
      ++ [a, b, byte l.length] ++ l) ∧
    HostFrame.encode (.restoreBooking x y z a b l c d u w) = some ([0x31#8, byte (l.length + 17)] ++ be2 x.toNat
      ++ be2 y.toNat ++ be2 z.toNat ++ [a, b, byte l.length] ++ l ++ [c, d] ++ be2 u.toNat ++ be4 w.toNat) ∧
    HostFrame.encode (.cancelBooking a b) = some [0x32#8, 2#8, a, b] ∧
    HostFrame.encode (.readCalendar a) = some [0x33#8, 1#8, a] ∧
    HostFrame.encode (.startMeeting x a l)
      = some ([0x34#8, byte (l.length + 4)] ++ be2 x.toNat ++ [a, byte l.length] ++ l) ∧
    HostFrame.encode .endMeeting = some [0x35#8, 0#8] ∧ HostFrame.encode (.extendMeeting a) = some [0x36#8, 1#8, a] ∧
    HostFrame.encode (.showMessage l x) = some ([0x40#8, byte (l.length + 3), byte l.length] ++ l ++ be2 x.toNat) ∧
    HostFrame.encode (.share a) = some [0x41#8, 1#8, a] ∧ HostFrame.encode .unshare = some [0x42#8, 0#8] ∧
    HostFrame.encode .flush = some [0x43#8, 0#8]) ∧
  (∀ (code n : Byte) (p : List Byte),
    HostFrame.decode [] = .cutShortCommandFrame [] ∧ HostFrame.decode [code] = .cutShortCommandFrame [code] ∧
    (p.length ≠ n.toNat → HostFrame.decode (code :: n :: p) = .cutShortCommandFrame (code :: n :: p)))

/-- R2 and Tables 1-1 to 1-4: the bytes of every frame a station can compose pass both checks of a receiver, and the
receiver reads the same frame from them. The kind codes and the bodies field by field. R4: which frames are malformed:
a frame that is read is well-formed, of the kind and the source seat that its bytes give and of the length that its
kind and its own fields give, and where no field of a beacon makes another meaningless (notes/assumptions/10.md) its
body is the one its fields give; so a frame with an unlisted kind, a source seat, field or code outside its range, or
another length is not read. -/
def Obligations.LinkFramesDecodeFromTheirBytes : Prop :=
  (∀ f : Frame, f.wellFormed = true →
    LinkFrame.decode f.bytes = LinkFrame.received f.body.kindCode (byte f.source) f.body.bytes ∧
    parseFrame f.body.kindCode (byte f.source) f.body.bytes = some f ∧
    f.bytes.length ≤ 146) ∧
  (∀ (kind source : Byte) (body : List Byte) (f : Frame), parseFrame kind source body = some f →
    f.wellFormed = true ∧ f.source = source.toNat ∧ f.body.kindCode = kind ∧ body.length = f.body.bytes.length ∧
    ((∀ b : BeaconBody, f.body = .beacon b → b.mic ≠ none ∧ b.request ≠ none ∧ b.share ≠ none) → body = f.body.bytes)) ∧
  (∀ (kind source : Byte) (body : List Byte), source.toNat = 0 ∨ 48 < source.toNat ∨
      kind ∉ [0x10#8, 0x20#8, 0x41#8, 0x42#8, 0x43#8, 0x44#8, 0x45#8, 0x46#8, 0x47#8, 0x48#8, 0x49#8, 0x4A#8, 0x4B#8,
        0x61#8, 0x62#8, 0x63#8, 0x64#8] → parseFrame kind source body = none) ∧
  (∀ (m : Option Bid) (id : Bid) (o q k n g : Nat) (on : Bool) (why : Reason) (c : OpenClass) (xs : List Int)
    (e : WireEntry) (b : BeaconBody) (mb ib : List Byte),
    mb = ((m.map (fun i => [byte i.holder, byte i.serial])).getD [0#8, 0#8]) → ib = [byte id.holder, byte id.serial] →
    (Body.voice m o q n on xs).bytes = mb ++ be4 o ++ be4 q ++ be2 n ++ [if on then 1#8 else 0#8]
      ++ xs.flatMap (fun x => be2 (x % 65536).toNat) ∧
    (Body.request m q).bytes = mb ++ be4 q ∧ (Body.withdraw m).bytes = mb ∧
    (Body.opening m o q c).bytes = mb ++ be4 o ++ be4 q ++ [if c = .chair then 1#8 else 2#8] ∧
    (Body.close m k why).bytes = mb ++ [byte k, byte why.code] ∧ (Body.yield m q).bytes = mb ++ be4 q ∧
    (Body.grant m k).bytes = mb ++ [byte k] ∧ (Body.clear m).bytes = mb ∧
    (Body.priority m on).bytes = mb ++ [if on then 1#8 else 0#8] ∧ (Body.timeAdd m k n).bytes = mb ++ [byte k] ++ be2 n ∧
    (Body.share m k q).bytes = mb ++ [byte k] ++ be4 q ∧ (Body.unshare m).bytes = mb ∧
    (Body.cancel id).bytes = ib ∧ (Body.extendAsk id n).bytes = ib ++ [byte n] ∧
    (Body.extendAnswer id k on g e).bytes = ib ++ [byte k, if on then 1#8 else 2#8, byte g] ++ entryBytes e ∧
    (Body.endNow id).bytes = ib ∧
    (Body.beacon b).bytes = [byte b.role.code, byte b.name.length] ++ b.name
      ++ ((b.meeting.map (fun i => [byte i.holder, byte i.serial])).getD [0#8, 0#8])
      ++ ((b.endedEarly.map (fun i => [byte i.holder, byte i.serial])).getD [0#8, 0#8])
      ++ ((b.mic.map (fun x => [1#8] ++ be4 x.1 ++ be4 x.2)).getD (List.replicate 9 0#8))
      ++ ((b.request.map (fun x => [1#8] ++ be4 x)).getD (List.replicate 5 0#8))
      ++ ((b.share.map (fun x => [byte x.1] ++ be4 x.2)).getD (List.replicate 5 0#8))
      ++ [if b.priority then 1#8 else 0#8] ++ be2 b.day ++ be4 b.second
      ++ ((b.entry.map (fun x => [1#8] ++ entryBytes x)).getD [0#8])) ∧
  (∀ (m : Option Bid) (id : Bid) (o q k n g : Nat) (on : Bool) (why : Reason) (c : OpenClass) (xs : List Int)
    (e : WireEntry) (b : BeaconBody),
    [(Body.voice m o q n on xs).kindCode, (Body.beacon b).kindCode, (Body.request m q).kindCode,
      (Body.withdraw m).kindCode, (Body.opening m o q c).kindCode, (Body.close m k why).kindCode,
      (Body.yield m q).kindCode, (Body.grant m k).kindCode, (Body.clear m).kindCode, (Body.priority m on).kindCode,
      (Body.timeAdd m k n).kindCode, (Body.share m k q).kindCode, (Body.unshare m).kindCode, (Body.cancel id).kindCode,
      (Body.extendAsk id n).kindCode, (Body.extendAnswer id k on g e).kindCode, (Body.endNow id).kindCode]
    = [0x10#8, 0x20#8, 0x41#8, 0x42#8, 0x43#8, 0x44#8, 0x45#8, 0x46#8, 0x47#8, 0x48#8, 0x49#8, 0x4A#8, 0x4B#8, 0x61#8,
        0x62#8, 0x63#8, 0x64#8]) ∧
  (∀ (source : Byte) (body : List Byte), ([0x10#8, 0x20#8, 0x41#8, 0x42#8, 0x43#8, 0x44#8, 0x45#8, 0x46#8, 0x47#8, 0x48#8,
      0x49#8, 0x4A#8, 0x4B#8, 0x61#8, 0x62#8, 0x63#8, 0x64#8] : List Byte).map (fun k => LinkFrame.received k source body)
    = [.receiveVoice source body, .receiveBeacon source body, .receiveRequest source body, .receiveWithdraw source body,
        .receiveOpen source body, .receiveClose source body, .receiveYield source body, .receiveGrant source body,
        .receiveClear source body, .receivePriority source body, .receiveTimeAdd source body, .receiveShare source body,
        .receiveUnshare source body, .receiveCancel source body, .receiveExtendAsk source body,
        .receiveExtendAnswer source body, .receiveEndNow source body]) ∧
  (∀ f : Frame, f.bytes = envelope f.body.kindCode (byte f.source) f.body.bytes)

/-- R2 and R3: a frame of which any one byte has been altered fails the check. Table 1-1: the envelope; exactly the
bytes that are an envelope pass, and give its kind, source seat and body. The CRC: the register at all ones; each byte
added at the high end and shifted out, most significant bit first, with x^12 + x^5 + 1 added for each bit that falls
out. -/
def Obligations.OneAlteredByteFailsTheCheck : Prop :=
  (∀ (kind source : Byte) (body : List Byte) (i : Nat) (b : Byte), body.length ≤ 255 →
    i < (envelope kind source body).length → (envelope kind source body)[i]? ≠ some b →
    checkCrc ((envelope kind source body).set i b) = none) ∧
  (∀ (kind source : Byte) (body : List Byte), envelope kind source body
    = [kind, source, byte body.length] ++ body ++ be2 (crc16 ([kind, source, byte body.length] ++ body)).toNat) ∧
  (∀ (bytes body : List Byte) (kind source : Byte), checkCrc bytes = some (kind, source, body) ↔
    body.length ≤ 255 ∧ bytes = envelope kind source body) ∧
  crc16 [] = 0xFFFF#16 ∧
  (∀ (l : List Byte) (b : Byte), crc16 (l ++ [b])
    = Nat.repeat (fun c : BitVec 16 => (c <<< 1) ^^^ (if c.getLsbD 15 then 0x1021#16 else 0#16)) 8 (crc16 l ^^^ (b.setWidth 16 <<< 8)))

/-! ## Reset, configuration and entry into RUN -/

/-- R192, R191 and the reset rule of every block (R18, R32, R60, R87, R98, R113, R131, R151, R164, R177): POWER_ON and
RESET FULL, in every state, also while the port is SERVING. The model's readings in it: what becomes of an attempt on the
link (notes/assumptions/6.md), the profile of the IDLE record (17.md), the loudspeaker's block and the block before it at
zeros (19.md), and seat 0 for none configured (33.md). -/
def Obligations.FullResetGivesThePowerOnState : Prop :=
  ∀ s : State, ∃ t : State, exec .powerOn s = .next t ∧ exec .resetFull s = .next t ∧
    t.pending = s.pending ∧ t.station = .setup ∧ t.blockNumber = 0 ∧
    t.config = { configured := false, seat := 0, role := .seat, name := [], trim := 0, threshold := 1000, span := 1,
                 attenuation := 12, duck := 18, follower := false, wallScreen := 1, shareScreen := 1 } ∧
    t.profiles = List.replicate 4
      { mode := .firstCome, limit := 4, budget := 0, budgetKind := .soft, warning := 30, silence := 0,
        shareRule := .free, endWarning := 5, priorityAllowed := true, priorityCloses := false } ∧
    t.link = { voiceSlot := none, queue := [], beaconSlot := none, inSend := none,
               finishing := s.link.inSend.isSome || s.link.finishing, badFrames := 0, abandoned := 0, voiceSkips := 0 } ∧
    t.presence = { peers := List.replicate 48
                     { state := .unknown, role := none, name := [], frameAge := 0, beaconAge := 65535,
                       meeting := none, mic := none, request := none, share := none, priority := false },
                   cadence := 0 } ∧
    t.floor = { openSet := [], queue := [], stamp := 0, priority := false } ∧
    t.mic = { state := .closed, cls := none, requestStamp := 0, openStamp := 0, closePending := none,
              remaining := none, secondCount := 0, warned := false, overrun := false, overrunCount := 0, silence := 0 } ∧
    (t.controls.mic = { pressed := false, difference := 0 } ∧ t.controls.priority = { pressed := false, difference := 0 } ∧
      t.controls.share = { pressed := false, difference := 0 } ∧ t.controls.flash = 0 ∧
      t.controls.ring.pattern = .off ∧ t.controls.request.pattern = .off) ∧
    t.capture = { talking := false, hangover := 0, lastPeak := 0, outgoing := List.replicate 64 0, placing := false } ∧
    t.mix = { slots := List.replicate 7 { seat := 0, state := .free, fifo := [], last := none, stale := 0, overflow := false },
              lateBlocks := 0, overflowMark := false, volume := 20, reduction := 0, quiet := 0, limitFlag := false,
              clipped := 0, output := List.replicate 64 0, speaker := List.replicate 64 0 } ∧
    t.calendar = { clock := { day := 0, second := 0, count := 0, set := false }, view := [], serial := 0,
                   rotation := none, ask := none } ∧
    (t.meeting.state = .idle ∧ t.meeting.id = none ∧ t.meeting.chair = 0 ∧ t.meeting.endAsked = false ∧
      t.meeting.endedEarly = none ∧ t.meeting.endedEarlyAge = 0 ∧ t.profiles[0]? = some t.meeting.profile) ∧
    (t.share.screen1 = none ∧ t.share.screen2 = none ∧ t.share.claim = .none ∧ t.share.release = false ∧
      t.share.selector = 0) ∧
    (t.screen.buffer = [field 24 (text "SETUP"), field 24 [], field 24 [], field 24 []] ∧ t.screen.running = true ∧
      t.screen.dirty = s.screen.running ∧ t.screen.windowStart = 1 ∧ t.screen.windowCount = 0 ∧
      t.screen.transient.lifetime = 0 ∧ t.screen.host.lifetime = 0) ∧
    (s.screen.running = true → t.screen.sent = s.screen.sent) ∧
    t.port = { serving := false, reply := { status := .ok, data := [] }, notices := [], overflow := false,
               framing := false, threshold := 1 } ∧
    t.port.attention = false

/-- R191 and the reset rule of every block: RESET SOFT, in every state, also while the port is SERVING. The state that
the beacon request of R19 and the evaluation of R164 then act on, in this order (notes/assumptions/37.md). The model's
readings in it: what becomes of an attempt on the link (6.md), start, end and profile of the IDLE record kept and claim
screen and stamp 0 (17.md), the loudspeaker's block (19.md), the LED phases (20.md) and the cells of the last transfer
(23.md). -/
def Obligations.SoftResetKeepsTheSetupAndClearsTheRest : Prop :=
  ∀ s : State, exec .resetSoft s = .next (settle (evaluate (requestBeacon { s with
    link := { voiceSlot := none, queue := [], beaconSlot := none,
              inSend := s.link.inSend.map (fun x => { x with voided := true }), finishing := s.link.finishing,
              badFrames := 0, abandoned := 0, voiceSkips := 0 },
    presence := .powerOn, floor := .cleared, mic := .reset, controls := .powerOn, capture := .powerOn,
    mix := { Mix.powerOn with volume := s.mix.volume },
    calendar := { clock := s.calendar.clock, serial := s.calendar.serial, rotation := none, ask := none,
                  view := (s.calendar.view.filter (fun e => e.held)).map (fun e => { e with active := false }) },
    meeting := { s.meeting with state := .idle, id := none, chair := 0, endAsked := false, endedEarly := none,
                                endedEarlyAge := 0 },
    screen := { Screen.powerOn with running := s.screen.running, sent := s.screen.sent }, share := .powerOn,
    port := { Port.powerOn with threshold := s.port.threshold } })))

/-- R188: a CONFIGURE with every named value in its set and a name of at most 20 characters replaces every value, the
quantities clamped; any other changes no value and is refused BAD_PARAM. The codes of a role (Table 11-6). -/
def Obligations.ConfigureReplacesEveryValueOrNone : Prop :=
  (∀ (seat role : Byte) (name : List Byte) (trim : Byte) (threshold : BitVec 16)
    (span attenuation duck follower wall share : Byte) (s : State), s.port.serving = false → s.station = .setup →
    (∀ (r : Role) (f : Bool), (1 ≤ seat.toNat ∧ seat.toNat ≤ 48) → roleOf role.toNat = some r → name.length ≤ 20 →
      follower = flagByte f → (wall.toNat = 1 ∨ wall.toNat = 2) → (share.toNat = 1 ∨ share.toNat = 2) →
      exec (.configure seat role name trim threshold span attenuation duck follower wall share) s
        = .next (settle (({ s with config :=
            { configured := true, seat := seat.toNat, role := r, name := name, trim := min trim.toNat 30,
              threshold := min threshold.toNat 32767, span := min span.toNat 3, attenuation := min attenuation.toNat 30,
              duck := min duck.toNat 63, follower := f, wallScreen := wall.toNat, shareScreen := share.toNat } } : State).answered .ok))) ∧
    (seat.toNat = 0 ∨ 48 < seat.toNat ∨ role.toNat = 0 ∨ 3 < role.toNat ∨ 20 < name.length ∨ 1 < follower.toNat
        ∨ wall.toNat = 0 ∨ 2 < wall.toNat ∨ share.toNat = 0 ∨ 2 < share.toNat →
      exec (.configure seat role name trim threshold span attenuation duck follower wall share) s
        = .next (s.answered .badParam))) ∧
  (roleOf 1 = some .seat ∧ roleOf 2 = some .door ∧ roleOf 3 = some .wall ∧
    (∀ n : Nat, n = 0 ∨ 3 < n → roleOf n = none) ∧ flagByte false = 0#8 ∧ flagByte true = 1#8)

/-- R189: a SET_PROFILE with every named value in its set replaces the whole profile, the quantities clamped; any
other changes no field and is refused BAD_PARAM. The codes of a floor mode, a budget kind and a share rule (Table
11-6). -/
def Obligations.SetProfileReplacesAWholeProfileOrNone : Prop :=
  (∀ (index mode limit : Byte) (budget : BitVec 16) (kind warning silence rule endWarning allowed closes : Byte) (s : State),
    s.port.serving = false → s.station = .setup →
    (∀ (m : FloorMode) (k : BudgetKind) (r : ShareRule) (a c : Bool) (p : Profile), index.toNat ≤ 3 → modeOf mode = some m →
      budgetKindOf kind = some k → shareRuleOf rule = some r → allowed = flagByte a → closes = flagByte c →
      p = { mode := m, limit := max 1 (min limit.toNat 6), budget := min budget.toNat 600, budgetKind := k,
            warning := min warning.toNat 60,
            silence := if silence.toNat = 0 then 0 else max 5 (min silence.toNat 60), shareRule := r,
            endWarning := min endWarning.toNat 15, priorityAllowed := a, priorityCloses := c } →
      exec (.setProfile index mode limit budget kind warning silence rule endWarning allowed closes) s
        = .next (({ s with profiles := s.profiles.set index.toNat p } : State).answered .ok)) ∧
    (3 < index.toNat ∨ mode.toNat = 0 ∨ 4 < mode.toNat ∨ kind.toNat = 0 ∨ 2 < kind.toNat ∨ rule.toNat = 0
        ∨ 2 < rule.toNat ∨ 1 < allowed.toNat ∨ 1 < closes.toNat →
      exec (.setProfile index mode limit budget kind warning silence rule endWarning allowed closes) s
        = .next (s.answered .badParam))) ∧
  (modeOf 1#8 = some .firstCome ∧ modeOf 2#8 = some .override ∧ modeOf 3#8 = some .chairGrant ∧ modeOf 4#8 = some .voice ∧
    budgetKindOf 1#8 = some .hard ∧ budgetKindOf 2#8 = some .soft ∧
    shareRuleOf 1#8 = some .free ∧ shareRuleOf 2#8 = some .floorOnly ∧
    ∀ b : Byte, (b.toNat = 0 ∨ 4 < b.toNat → modeOf b = none) ∧
      (b.toNat = 0 ∨ 2 < b.toNat → budgetKindOf b = none ∧ shareRuleOf b = none))

/-- R190 with R19: GO without the configured mark is refused NOT_CONFIGURED; otherwise RUN is entered with the cadence
count at 0, a beacon requested at once and the record evaluated. On a link at rest with nothing waiting, and no clock,
the first beacon is in send when GO has been taken. -/
def Obligations.GoEntersRun : Prop :=
  ∀ s : State, s.port.serving = false → s.station = .setup →
    (s.config.configured = false → exec .go s = .next (s.answered .notConfigured)) ∧
    (s.config.configured = true →
      exec .go s = .next (settle (evaluate (requestBeacon
        { s.answered .ok with station := .run, presence := { s.presence with cadence := 0 } })))) ∧
    (s.config.configured = true → s.calendar.clock.set = false → s.meeting.state = .idle → s.link = .powerOn →
      ∃ t : State, exec .go s = .next t ∧ t.station = .run ∧ t.port.reply = { status := .ok, data := [] } ∧
        t.link.beaconSlot = none ∧
        t.link.inSend = some { frame := { source := s.config.seat, body := .beacon (composeBeacon s) }, attempt := 1,
                               clash := false, voided := false })

/-! ## The host port -/

/-- R180 and R179: the group test stands before every other check; while the port is SERVING every command but RESET is
refused BUSY and changes nothing. -/
def Obligations.GroupTestStandsFirst : Prop :=
  ∀ (c : Instr) (s : State),
    (runOnly c = true → s.port.serving = false → s.station = .setup → exec c s = .next (s.answered .badState)) ∧
    (setupOnly c = true → s.port.serving = false → s.station ≠ .setup → exec c s = .next (s.answered .badState)) ∧
    (runOnly c = true ∨ setupOnly c = true ∨ anyState c = true → s.port.serving = true →
      exec c s = .next s ∧ s.port.readReply = { status := .busy, data := [] })

/-- R185 and R116: SET_NOTICE_LEVEL, in every station state, and SET_VOLUME, in RUN and CLASH, clamp what they carry
and are answered OK; the attention line is then asserted exactly while a queued notice reaches the new threshold, and
at 4 never. R184: a notice that finds fewer than 16 queued joins the tail; another is dropped, the FIFO unchanged and
the overflow flag set; several join one after another. Table 11-3: code, level and parameters of each notice, with the
codes of Table 11-6 for a CLOSED reason, a MEETING_END reason and an EXTEND_RESULT. -/
def Obligations.NoticesThresholdAndVolume : Prop :=
  (∀ (b : Byte) (s : State), s.port.serving = false →
    (∃ t : State, exec (.setNoticeLevel b) s = .next t ∧
      t = ({ s with port := { s.port with threshold := min b.toNat 4 } } : State).answered .ok ∧
      (t.port.attention = true ↔ ∃ n ∈ s.port.notices, min b.toNat 4 ≤ n.level) ∧
      (4 ≤ b.toNat → t.port.attention = false)) ∧
    (s.station ≠ .setup →
      exec (.setVolume b) s = .next (({ s with mix := { s.mix with volume := min b.toNat 63 } } : State).answered .ok))) ∧
  (∀ (n : Notice) (s : State),
    (s.port.notices.length < 16 →
      notify n s = { s with port := { s.port with notices := s.port.notices ++ [n] } } ∧
      ((notify n s).port.attention = true ↔ s.port.attention = true ∨ s.port.threshold ≤ n.level)) ∧
    (16 ≤ s.port.notices.length →
      notify n s = { s with port := { s.port with overflow := true } } ∧
      (notify n s).port.attention = s.port.attention)) ∧
  (∀ (n : Notice) (l : List Notice) (s : State), s.port.push n = (notify n s).port ∧
    notifyAll [] s = s ∧ notifyAll (n :: l) s = notifyAll l (notify n s)) ∧
  (∀ (k screen m g : Nat) (id : Bid) (why : Reason) (end_ : EndReason) (x : AskResult) (ib : List Byte),
    ib = [byte id.holder, byte id.serial] →
    [(Notice.seatClash k).code, (Notice.floorConflict k).code, (Notice.timeExpired k).code, (Notice.meetingEnd id end_).code,
      (Notice.bookingConflict id).code, (Notice.timeWarning k).code, (Notice.meetingStart id).code,
      (Notice.meetingWarning id m).code, (Notice.extendResult id x g).code, (Notice.shareLost screen k).code,
      (Notice.sendFailed k).code, (Notice.opened k).code, (Notice.closed k why).code, (Notice.jitterOverflow k).code]
      = [1, 2, 3, 4, 5, 6, 7, 8, 9, 10, 11, 12, 13, 14] ∧
    [(Notice.seatClash k).level, (Notice.floorConflict k).level, (Notice.timeExpired k).level,
      (Notice.meetingEnd id end_).level, (Notice.bookingConflict id).level, (Notice.timeWarning k).level,
      (Notice.meetingStart id).level, (Notice.meetingWarning id m).level, (Notice.extendResult id x g).level,
      (Notice.shareLost screen k).level, (Notice.sendFailed k).level, (Notice.opened k).level, (Notice.closed k why).level,
      (Notice.jitterOverflow k).level] = [3, 2, 2, 2, 2, 1, 1, 1, 1, 1, 1, 0, 0, 0] ∧
    [(Notice.seatClash k).params, (Notice.floorConflict k).params, (Notice.timeExpired k).params,
      (Notice.meetingEnd id end_).params, (Notice.bookingConflict id).params, (Notice.timeWarning k).params,
      (Notice.meetingStart id).params, (Notice.meetingWarning id m).params, (Notice.extendResult id x g).params,
      (Notice.shareLost screen k).params, (Notice.sendFailed k).params, (Notice.opened k).params,
      (Notice.closed k why).params, (Notice.jitterOverflow k).params]
      = [[byte k], [byte k], [byte k], ib ++ [byte end_.code], ib, [byte k], ib, ib ++ [byte m], ib ++ [byte x.code, byte g],
          [byte screen, byte k], [byte k], [byte k], [byte k, byte why.code], [byte k]]) ∧
  ([Reason.speaker, .timeout, .silence, .chair, .override, .meetingEnd, .displaced, .stale, .sync, .absent].map Reason.code
      = [1, 2, 3, 4, 5, 6, 7, 8, 9, 10] ∧
    [EndReason.time, .endNow, .cancelled, .endedEarly].map EndReason.code = [1, 2, 3, 4] ∧
    [AskResult.accepted, .refused, .noAnswer].map AskResult.code = [1, 2, 3])

/-- R187: READ_STATUS, in every station state: the reply's 85 bytes group by group, and the three flags cleared after
it; nothing else changes. The codes are those of Table 11-6; the own seat counts as UNKNOWN among the peers. What the
slot reports and the late-block counter hold at a DOOR station, which has no slots, is the model's choice
(notes/assumptions/36.md). -/
def Obligations.ReadStatusReportsAndClearsThreeFlags : Prop :=
  (∀ s : State, s.port.serving = false → s.mix.slots.length = 7 →
    ∃ d : List Byte,
      exec .readStatus s = .next { s with
        port := { s.port with reply := { status := .ok, data := d }, overflow := false, framing := false },
        mix := { s.mix with limitFlag := false } } ∧
      d.length = 85 ∧
      d.take 8 = [byte s.station.code, flagByte s.config.configured, byte s.config.seat, byte s.config.role.code,
        byte s.mic.state.code, byte (if s.mic.state = .waiting then (s.floor.position s.ownSeat).getD 0 else 0),
        byte s.share.claim.code, byte (if s.share.claim = .none then 0 else s.share.claimScreen)] ∧
      (d.drop 8).take 11 = [byte s.meeting.state.code] ++ meetingBytes s.meetingId ++ [byte s.meeting.chair]
        ++ be2 s.calendar.clock.day ++ be4 s.calendar.clock.second ++ [flagByte s.calendar.clock.set] ∧
      (d.drop 19).take 9 = [byte s.link.queue.length, byte (hostFrames s.link.queue),
        (s.link.inSend.map (fun x => x.frame.body.kindCode)).getD 0#8]
        ++ be2 s.link.badFrames ++ be2 s.link.abandoned ++ be2 s.link.voiceSkips ∧
      (d.drop 28).take 3 = [byte (s.peersIn .unknown), byte (s.peersIn .present), byte (s.peersIn .absent)] ∧
      (d.drop 31).take 6 = [byte s.mix.volume, byte s.mix.reduction] ++ be2 s.mix.quiet
        ++ [flagByte s.mix.limitFlag, byte s.mix.clipped] ∧
      (∀ (i : Nat) (x : Slot), s.mix.slots[i]? = some x →
        (d.drop (37 + 6 * i)).take 6 = [byte (i + 1), byte x.seat, byte x.state.code, byte x.fifo.length,
          flagByte x.overflow, flagByte ((x.last.map (fun h => h.talking)).getD false)]) ∧
      (d.drop 79).take 2 = be2 s.mix.lateBlocks ∧
      d.drop 81 = [byte s.port.notices.length, flagByte s.port.overflow, flagByte s.port.framing, byte s.port.threshold]) ∧
  ([Station.setup, .run, .clash].map Station.code = [1, 2, 3] ∧ [Role.seat, .door, .wall].map Role.code = [1, 2, 3] ∧
    [MicState.closed, .waiting, .opening, .open].map MicState.code = [0, 1, 2, 3] ∧
    [ClaimState.none, .claiming, .sharing].map ClaimState.code = [0, 1, 2] ∧
    [MeetingState.idle, .active, .ending].map MeetingState.code = [0, 1, 2] ∧
    [SlotState.free, .filling, .playing, .concealing].map SlotState.code = [0, 1, 2, 3] ∧
    flagByte false = 0#8 ∧ flagByte true = 1#8 ∧ meetingBytes none = [0#8, 0#8] ∧
    ∀ id : Bid, meetingBytes (some id) = [byte id.holder, byte id.serial]) ∧
  (∀ (s : State) (x : PeerState), s.peersIn x = ((List.range' 1 48).filter (fun k =>
    decide (if k = s.config.seat then x = .unknown else (s.presence.peer k).state = x))).length)

/-- R186: READ_NOTICES, in every station state, removes and returns up to 8 of the oldest notices, with the number still
queued; the overflow flag stays, and the attention line follows from the notices that are left. -/
def Obligations.ReadNoticesTakesTheEightOldest : Prop :=
  ∀ (s t : State), s.port.serving = false →
    t = { s with port := { s.port with
      notices := s.port.notices.drop 8,
      reply := { status := .ok,
                 data := [byte (min 8 s.port.notices.length)]
                   ++ ((s.port.notices.take 8).map (fun n => [byte n.code, byte n.level] ++ n.params)).flatten
                   ++ [byte (s.port.notices.length - 8)] } } } →
    exec .readNotices s = .next t ∧
    (t.port.attention = true ↔ ∃ n ∈ s.port.notices.drop 8, s.port.threshold ≤ n.level)

/-- R58 and R150: READ_FLOOR and READ_CALENDAR change nothing but the held reply; each returns up to 8 records from the
cursor on, and a next cursor that is 0 once the end of the list is reached. Table 11-5: a floor record has list, seat, class
or mark, open stamp, request stamp, and its age in blocks or its position, the open set first and the request queue after
it, each in its order; an entry has the fields of Table 1-3; an ask has the blocks left before its timeout. -/
def Obligations.CursorReadsReturnEightRecords : Prop :=
  (∀ (cursor : Byte) (s : State), RunTaken s →
    (∃ d : List Byte, exec (.readFloor cursor) s = .next { s with port := { s.port with reply := { status := .ok, data := d } } } ∧
      ∀ l : List (List Byte), l = floorRecords s →
        d = [flagByte s.floor.priority] ++ be4 s.floor.stamp
          ++ [byte (if s.meeting.state = .idle then 0 else s.meeting.profile.limit), byte s.floor.openSet.length,
              byte s.floor.queue.length, byte (min 8 (l.length - cursor.toNat)),
              byte (if cursor.toNat + 8 < l.length then cursor.toNat + 8 else 0)]
          ++ ((l.drop cursor.toNat).take 8).flatten) ∧
    (∃ d : List Byte, exec (.readCalendar cursor) s = .next { s with port := { s.port with reply := { status := .ok, data := d } } } ∧
      ∀ v : List Entry, v = s.calendar.view →
        d = be2 s.calendar.clock.day ++ be4 s.calendar.clock.second
          ++ [flagByte s.calendar.clock.set, byte v.length, byte (heldCount v)] ++ askData s.calendar.ask
          ++ [byte (min 8 (v.length - cursor.toNat)), byte (if cursor.toNat + 8 < v.length then cursor.toNat + 8 else 0)]
          ++ ((v.drop cursor.toNat).take 8).flatMap (fun e =>
               entryBytes e.wire ++ [byte (if e.held then 1 else 2), flagByte e.active] ++ be2 e.age))) ∧
  (∀ (s : State) (l : List (List Byte)), l = floorRecords s →
    l.length = s.floor.openSet.length + s.floor.queue.length ∧
    (∀ (i age : Nat) (r : OpenRecord), s.floor.openSet[i]? = some r → age < 65536 →
      (r.since + age) % 65536 = s.blockNumber % 65536 →
      l[i]? = some ([1#8, byte r.seat, if r.cls = .chair then 1#8 else 2#8] ++ be4 r.openStamp ++ be4 r.requestStamp
        ++ be2 age)) ∧
    (∀ (i : Nat) (r : QueueRecord), s.floor.queue[i]? = some r →
      l[s.floor.openSet.length + i]? = some ([2#8, byte r.seat, if r.granted then 1#8 else 0#8] ++ be4 0
        ++ be4 r.requestStamp ++ be2 (i + 1)))) ∧
  (∀ e : WireEntry, entryBytes e = [byte e.id.holder, byte e.id.serial, byte e.version] ++ be2 e.startDay
    ++ be2 e.startMinute ++ be2 e.duration ++ [byte e.profile, byte e.chair] ++ be2 e.createdDay ++ be4 e.createdSecond
    ++ [byte e.title.length] ++ e.title) ∧
  askData none = [0#8, 0#8, 0#8, 0#8, 0#8, 0#8] ∧
  (∀ a : ExtensionAsk, a.timer ≤ 750 →
    askData (some a) = [1#8, byte a.id.holder, byte a.id.serial, byte a.minutes] ++ be2 (750 - a.timer)) ∧
  (∀ n : Nat, be2 n = [byte (n / 256), byte n] ∧ be4 n = be2 (n / 65536) ++ be2 n)

/-- R183: FLUSH completes at once on an empty control queue and otherwise sets the port SERVING; a FLUSH being served
completes when the queue holds no frame, and not before. R178 and R179: a frame of no command is refused BAD_PARAM in
every station state, a frame that meets a SERVING port changes nothing, and a frame cut short sets the framing flag
and nothing else. R178 and R179: a reply reads as its status code (Table 11-1), the length of its data and its data,
and zeros beyond; while the port is SERVING as BUSY without data. COMMAND_WHILE_SERVING at a SERVING port is
notes/assumptions/26.md. -/
def Obligations.FlushAndFramesOfNoCommand : Prop :=
  (∀ s : State,
    (RunTaken s → s.link.queue = [] → exec .flush s = .next (s.answered .ok)) ∧
    (RunTaken s → s.link.queue ≠ [] → exec .flush s = .next { s with port := { s.port with serving := true } }) ∧
    (s.port.serving = true → s.link.queue = [] → exec .flushComplete s
      = .next { s with port := { s.port with serving := false, reply := { status := .ok, data := [] } } }) ∧
    (s.port.serving = false ∨ s.link.queue ≠ [] → exec .flushComplete s = .next s)) ∧
  (∀ (code : Byte) (p : List Byte) (s : State),
    (s.port.serving = false → exec (.unknownCommandFrame code p) s = .next (s.answered .badParam)) ∧
    (s.port.serving = true → exec (.commandWhileServing code p) s = .next s) ∧
    exec (.cutShortCommandFrame p) s = .next { s with port := { s.port with framing := true } }) ∧
  (∀ (r : Reply) (p : Port) (k : Nat),
    [Status.ok, .busy, .badState, .badParam, .queueFull, .notChair, .notMatched, .notOpen, .conflict, .full, .timeNotSet,
      .notConfigured].map Status.code = [0, 1, 2, 3, 4, 5, 6, 7, 8, 9, 10, 11] ∧
    r.bytes = [byte r.status.code] ++ be2 r.data.length ++ r.data ∧
    (p.serving = false → p.readByte k = p.reply.bytes.getD k 0#8) ∧
    (p.serving = true → p.readByte k = ([1#8, 0#8, 0#8] : List Byte).getD k 0#8))

/-! ## Clock and calendar -/

/-- R132: a block adds one to the second count of a set clock; the 250th passes a second. R133 and R143: SET_TIME with
a second above 86399 is refused BAD_PARAM; another sets the clock, with the second count at 0, removes the entries
that are over and not active, has the record evaluated and is answered OK. R132: a second of a set clock passes: one
on within the day, to second 0 of the next day at its end. The minute number is the day times 1440 and the minute of
the day. At the end of the range the clock holds and the count alone returns to 0; that no time test and no evaluation
follows there is the model's reading (notes/assumptions/27.md). -/
def Obligations.ClockIsSetAndAdvances : Prop :=
  (∀ s : State,
    (s.calendar.clock.set = false → clockBlock s = s) ∧
    (s.calendar.clock.set = true →
      (s.calendar.clock.count < 249 → clockBlock s = { s with calendar := { s.calendar with
        clock := { s.calendar.clock with count := s.calendar.clock.count + 1 } } }) ∧
      (249 ≤ s.calendar.clock.count → s.station ≠ .setup → exec .clockSecond s = .next (settle (clockBlock s))))) ∧
  (∀ (day : BitVec 16) (second : BitVec 32) (s : State), RunTaken s →
    (86399 < second.toNat → exec (.setTime day second) s = .next (s.answered .badParam)) ∧
    (∀ u : State, second.toNat ≤ 86399 →
      u = settle { s.answered .ok with calendar := { s.calendar with
        clock := { day := day.toNat, second := second.toNat, count := 0, set := true } } } →
      exec (.setTime day second) s = .next (settle (evaluate { u with calendar := { u.calendar with
        view := s.calendar.view.filter (fun e =>
          e.active || decide (day.toNat * 1440 + second.toNat / 60 < e.wire.finish)) } })))) ∧
  (∀ s : State, s.station ≠ .setup → s.calendar.clock.set = true →
    (∀ (d n : Nat) (u : State), (s.calendar.clock.second < 86399 ∧ d = s.calendar.clock.day ∧ n = s.calendar.clock.second + 1) ∨
        (86399 ≤ s.calendar.clock.second ∧ s.calendar.clock.day < 65535 ∧ d = s.calendar.clock.day + 1 ∧ n = 0) →
      u = settle { s with calendar := { s.calendar with clock := { day := d, second := n, count := 0, set := true } } } →
      exec .clockSecond s = .next (settle (evaluate { u with calendar := { u.calendar with
        view := s.calendar.view.filter (fun e => e.active || decide (d * 1440 + n / 60 < e.wire.finish)) } }))) ∧
    (86399 ≤ s.calendar.clock.second → 65535 ≤ s.calendar.clock.day →
      exec .clockSecond s = .next (settle { s with calendar := { s.calendar with
        clock := { s.calendar.clock with count := 0 } } }))) ∧
  (∀ c : Clock, c.minuteNumber = c.day * 1440 + c.second / 60)

/-- R153, R155 and R156: the evaluation of the meeting record, after what follows the change that brought it about:
nothing in SETUP; a due entry starts while IDLE; a running meeting takes the warning test, which warns of an approach
once, and ends with reason TIME once no time remains. R134 and R152: an entry is due from its start up to its end, by
a set clock; the time remaining is counted in seconds. That the warning test comes first is notes/assumptions/9.md. -/
def Obligations.EvaluationStartsWarnsAndEnds : Prop :=
  (∀ s u : State, u = settle s →
    (s.station = .setup → evaluate s = u) ∧
    (s.station ≠ .setup → s.meeting.state = .idle → (∀ e ∈ s.calendar.view, e.wire.due s.calendar.clock = false) →
      evaluate s = u) ∧
    (s.Sound → s.station ≠ .setup → s.meeting.state = .idle →
      ∀ e ∈ s.calendar.view, e.wire.due s.calendar.clock = true → evaluate s = settle (startMeetingFor e u)) ∧
    (s.station ≠ .setup → s.meeting.state = .active → s.timeRemaining > (s.meeting.profile.endWarning * 60 : Nat) →
      evaluate s = u) ∧
    (∀ (id : Bid) (v : State), s.station ≠ .setup → s.meeting.state = .active → s.meeting.id = some id →
      0 < s.meeting.profile.endWarning → s.timeRemaining ≤ (s.meeting.profile.endWarning * 60 : Nat) →
      v = notify (.meetingWarning id s.meeting.profile.endWarning)
        { u with meeting := { u.meeting with state := .ending } } →
      (0 < s.timeRemaining → evaluate s = settle v) ∧
      (s.timeRemaining ≤ 0 → evaluate s = settle (endMeetingFor .time v))) ∧
    (s.station ≠ .setup → s.meeting.state = .ending → 0 < s.meeting.profile.endWarning →
      s.timeRemaining > (s.meeting.profile.endWarning * 60 : Nat) →
      evaluate s = settle { u with meeting := { u.meeting with state := .active } }) ∧
    (s.station ≠ .setup → s.meeting.state = .ending → 0 < s.timeRemaining →
      s.timeRemaining ≤ (s.meeting.profile.endWarning * 60 : Nat) → evaluate s = u) ∧
    (∀ id : Bid, s.station ≠ .setup → s.meeting.state = .ending ∨ s.meeting.state = .active ∧ s.meeting.profile.endWarning = 0 →
      s.meeting.id = some id → s.timeRemaining ≤ 0 → evaluate s = settle (endMeetingFor .time u))) ∧
  (∀ (w : WireEntry) (c : Clock), w.due c = true ↔
    c.set = true ∧ w.start ≤ c.minuteNumber ∧ c.minuteNumber < w.finish) ∧
  (∀ s : State, s.timeRemaining = (s.meeting.finish : Int) * 60
    - ((s.calendar.clock.day : Int) * 86400 + (s.calendar.clock.second : Int)))

/-- R154: what a start leaves: the record and the entry's mark, the limiter at rest, the own claim NONE, the overflow
notice mark clear and the queue window at its start. With no peer PRESENT, so that nothing is replayed (R29), the
floor is cleared, both screens are empty, and MEETING_START is the first notice queued. Screen and stamp of the NONE
claim at 0 are the model's choice (notes/assumptions/17.md). The steps in their order: the record and the mark, the
floor, the slots of the seats that were open, the limiter, the share map and the window, with the page composed; the
replay; MEETING_START; the warning test; the evaluation of the own side. R29: the replay takes the seats in ascending
order, each as the seats before it left the view: a peer that is PRESENT, of a beacon age of 500 or less, and that
reported the new meeting has its floor state reconciled and then its share state applied; any other changes nothing.
-/
def Obligations.MeetingStartTakesTheEntry : Prop :=
  (∀ (e : Entry) (s t : State), t = startMeetingFor e s →
    (t.meeting.state ≠ .idle ∧ t.meeting.id = some e.wire.id ∧ t.meeting.start = e.wire.start ∧
      t.meeting.finish = e.wire.finish ∧ t.meeting.chair = e.wire.chair ∧ t.meeting.endAsked = false ∧
      t.meeting.profile = s.profiles.getD e.wire.profile .powerOn) ∧
    t.calendar.view = s.calendar.view.map (fun x =>
      if x.wire.id = e.wire.id then { x with active := true, age := 0 } else x) ∧
    (t.mix.reduction = 0 ∧ t.mix.quiet = 0 ∧ t.mix.overflowMark = false) ∧
    (t.share.claim = .none ∧ t.share.release = false) ∧
    (t.screen.windowStart = 1 ∧ t.screen.windowCount = 0) ∧
    ((∀ k : Nat, (s.presence.peer k).state ≠ .present) →
      (t.floor.openSet = [] ∧ t.floor.queue = [] ∧ t.floor.stamp = 0 ∧ t.floor.priority = false) ∧
      (t.share.screen1 = none ∧ t.share.screen2 = none) ∧
      (s.port.notices = [] → ∃ rest : List Notice, t.port.notices = .meetingStart e.wire.id :: rest))) ∧
  (∀ (e : Entry) (s w t : State),
    w = { s with
      calendar := { s.calendar with view := s.calendar.view.map (fun x =>
        if x.wire.id = e.wire.id then { x with active := true, age := 0 } else x) },
      meeting := { s.meeting with
        state := .active, id := some e.wire.id, profile := s.profiles.getD e.wire.profile .powerOn, chair := e.wire.chair,
        start := e.wire.start, finish := e.wire.finish, endAsked := false },
      floor := { openSet := [], queue := [], stamp := 0, priority := false },
      mix := { s.mix with
        reduction := 0, quiet := 0, overflowMark := false,
        slots := s.mix.slots.map (fun y =>
          if y.state ≠ .free ∧ y.seat ≠ s.config.seat ∧ s.floor.isOpen y.seat = true then
            { seat := 0, state := .free, fifo := [], last := none, stale := 0, overflow := false } else y) },
      share := { s.share with
        screen1 := none, screen2 := none, claim := .none, claimScreen := 0, claimStamp := 0, release := false },
      screen := { s.screen with windowStart := 1, windowCount := 0 } } →
    t = notify (.meetingStart e.wire.id) (replay e.wire.id (settle w)) →
    (t.meeting.profile.endWarning = 0 ∨ t.timeRemaining > (t.meeting.profile.endWarning * 60 : Nat) →
      startMeetingFor e s = evalMic t) ∧
    (0 < t.meeting.profile.endWarning → t.timeRemaining ≤ (t.meeting.profile.endWarning * 60 : Nat) →
      startMeetingFor e s = evalMic (notify (.meetingWarning e.wire.id t.meeting.profile.endWarning)
        { t with meeting := { t.meeting with state := .ending } }))) ∧
  (∀ (id : Bid) (s : State), replay id s = (List.range' 1 48).foldl (fun u k => replaySeat id u k) s) ∧
  (∀ (id : Bid) (k : Nat) (p : Peer) (s v : State), p = s.presence.peer k →
    (p.state ≠ .present ∨ 500 < p.beaconAge ∨ p.meeting ≠ some id → replaySeat id s k = s) ∧
    (p.state = .present → p.beaconAge ≤ 500 → p.meeting = some id → s.meeting.state ≠ .idle → s.meeting.id = some id →
      v = floorStep (s.floor.reconcile k p.mic p.request p.priority (s.isChairSeat k) s.blockNumber
        s.meeting.profile.limit s.meeting.profile.priorityAllowed) s →
      replaySeat id s k = settle (shareSync k p.share v)))

/-- R160, R86, R112, R159 and R176: what an end leaves before the evaluation that follows it at once (R161). From
OPENING and from OPEN a CLOSE about the own seat is offered, with the id of the ending meeting, and from OPEN the host
sees CLOSED (MEETING_END); an early end records the ended-early id with its age at 0. The model's readings: no UNSHARE
at an end (notes/assumptions/15.md), the whole own-microphone record at its reset values (16.md), the profile of the
IDLE record kept (17.md), and the entry out of the view at step 5, also where it was cancelled (39.md). -/
def Obligations.MeetingEndClearsTheTable : Prop :=
  ∀ (id : Bid) (why : EndReason) (s t : State), t = closeMeeting id why s →
    (t.meeting.state = .idle ∧ t.meeting.id = none ∧ t.meeting.chair = 0 ∧ t.meeting.endAsked = false ∧
      t.meeting.profile = s.meeting.profile ∧
      t.meeting.endedEarly = (if why = .time then s.meeting.endedEarly else some id) ∧
      t.meeting.endedEarlyAge = (if why = .time then s.meeting.endedEarlyAge else 0)) ∧
    (s.mic.state = .closed ∨ s.mic.state = .waiting → t.link = s.link) ∧
    (∀ v : State, v = settle s →
      (s.mic.state = .opening → t.link = (offerFrame (.close s.meetingId s.config.seat .meetingEnd)
        { v with mic := .reset, capture := { v.capture with placing := false } }).link) ∧
      (s.mic.state = .open → s.floor.isOpen s.config.seat = true → s.port.notices.length + 2 ≤ 16 →
        t.link = (offerFrame (.close s.meetingId s.config.seat .meetingEnd)
          { v with floor := { v.floor with openSet := s.floor.openSet.filter (fun r => decide (r.seat ≠ s.config.seat)) },
                   mic := .reset, capture := { v.capture with placing := false },
                   link := { v.link with voiceSlot := none },
                   port := { v.port with notices := s.port.notices ++ [.closed s.config.seat .meetingEnd] } }).link ∧
        t.port.notices = s.port.notices ++ [.closed s.config.seat .meetingEnd, .meetingEnd id why])) ∧
    (t.floor.openSet = [] ∧ t.floor.queue = [] ∧ t.floor.stamp = 0 ∧ t.floor.priority = false) ∧
    t.mic = .reset ∧ t.capture.placing = false ∧
    (t.share.screen1 = none ∧ t.share.screen2 = none ∧ t.share.claim = .none ∧ t.share.release = false) ∧
    t.calendar.view = s.calendar.view.filter (fun e => decide (e.wire.id ≠ id)) ∧ t.calendar.ask = none ∧
    (t.mix.reduction = s.mix.reduction ∧ t.mix.quiet = s.mix.quiet ∧ t.mix.volume = s.mix.volume) ∧
    (s.mic.state = .closed → s.port.notices.length < 16 →
      t.port.notices = s.port.notices ++ [.meetingEnd id why]) ∧
    (SlotsFollow s → ∀ x ∈ t.mix.slots, x.state = .free) ∧
    (s.meeting.state ≠ .idle → s.meeting.id = some id → s.station ≠ .setup → endMeetingFor why s = evaluate t)

/-- R136: BOOK: each check with the ones before it passed, in the rule's order, and the booking. A view of fewer than
32 entries gives none up for it; a full one gives up its last HEARD entry that is not active. R135: an entry enters
the view behind every entry that stands before the first one it precedes in (start, holder, serial) order, so that a
view in that order stays in it. -/
def Obligations.BookChecksInOrderThenInserts : Prop :=
  (∀ (day minute duration : BitVec 16) (profile chair : Byte) (title : List Byte) (s : State) (n start : Nat),
    RunTaken s → n = max 15 (min ((duration.toNat + 4) / 5 * 5) 720) → start = day.toNat * 1440 + minute.toNat →
    (s.station = .clash → exec (.book day minute duration profile chair title) s = .next (s.answered .badState)) ∧
    (s.station = .run →
      (1439 < minute.toNat ∨ 3 < profile.toNat ∨ 48 < chair.toNat ∨ 24 < title.length →
        exec (.book day minute duration profile chair title) s = .next (s.answered .badParam)) ∧
      (minute.toNat ≤ 1439 → profile.toNat ≤ 3 → chair.toNat ≤ 48 → title.length ≤ 24 →
        (s.calendar.clock.set = false →
          exec (.book day minute duration profile chair title) s = .next (s.answered .timeNotSet)) ∧
        (s.calendar.clock.set = true →
          (start < s.calendar.clock.minuteNumber →
            exec (.book day minute duration profile chair title) s = .next (s.answered .badParam)) ∧
          (s.calendar.clock.minuteNumber ≤ start →
            (8 ≤ heldCount s.calendar.view →
              exec (.book day minute duration profile chair title) s = .next (s.answered .full)) ∧
            (heldCount s.calendar.view < 8 →
              ((∃ e ∈ s.calendar.view, start < e.wire.finish ∧ e.wire.start < start + n) →
                exec (.book day minute duration profile chair title) s = .next (s.answered .conflict)) ∧
              ((∀ e ∈ s.calendar.view, e.wire.finish ≤ start ∨ start + n ≤ e.wire.start) →
                ∀ k : Nat, k = s.nextSerial →
                exec (.book day minute duration profile chair title) s = .next (settle (evaluate { s with
                  port := { s.port with reply := { status := .ok, data := [byte s.config.seat, byte k] } },
                  calendar := { s.calendar with
                    serial := (k + 1) % 256,
                    view := insertEntry
                      { wire := { id := { holder := s.config.seat, serial := k }, version := 0, startDay := day.toNat,
                                  startMinute := minute.toNat, duration := n, profile := profile.toNat,
                                  chair := chair.toNat, createdDay := s.calendar.clock.day,
                                  createdSecond := s.calendar.clock.second, title := title },
                        held := true, active := false, age := 0 }
                      (evictForOwn s.calendar.view) } }))))))))) ∧
  (∀ v : List Entry,
    (v.length < 32 → evictForOwn v = v) ∧
    (∀ (l r : List Entry) (e : Entry), 32 ≤ v.length → v = l ++ e :: r → e.held = false → e.active = false →
      (∀ x ∈ r, x.held = true ∨ x.active = true) → evictForOwn v = v.filter (fun x => decide (x.wire.id ≠ e.wire.id)))) ∧
  (∀ v : List Entry, heldCount v = (v.filter (fun e => e.held)).length) ∧
  (∀ (c : Entry) (v : List Entry) (before : Entry → Entry → Prop),
    (∀ a b : Entry, before a b ↔ a.wire.start < b.wire.start ∨ (a.wire.start = b.wire.start ∧
      (a.wire.id.holder < b.wire.id.holder ∨
        (a.wire.id.holder = b.wire.id.holder ∧ a.wire.id.serial < b.wire.id.serial)))) →
    (∃ l r : List Entry, v = l ++ r ∧ insertEntry c v = l ++ c :: r ∧ (∀ x ∈ l, ¬ before c x) ∧
      (∀ x : Entry, r.head? = some x → before c x)) ∧
    (v.Pairwise before → (∀ x ∈ v, x.wire.id ≠ c.wire.id) → (insertEntry c v).Pairwise before))

/-- R137: in a sound station the serial a booking takes is the first, counting on from the counter and wrapping from
255 to 0, whose id no entry of the view has. R134: start, end and overlap of an entry. R141: the four tests: an active
entry wins, then the earlier created day and second, then the lower holder seat, then the lower serial; so among
entries that are not active any two of different ids stand in one order, and no three in a circle. R145: the holder's
grant is at most what is asked, at most what 720 minutes leave, a multiple of 5, ending at or before every entry that
starts at or after the entry's end, and the greatest such number. -/
def Obligations.SerialsTestsAndGrantsFollowTheirRules : Prop :=
  (∀ s : State, s.Sound →
    ∃ j : Nat, j < 256 ∧ s.nextSerial = (s.calendar.serial + j) % 256 ∧
      (∀ e ∈ s.calendar.view, e.wire.id ≠ { holder := s.config.seat, serial := s.nextSerial }) ∧
      (∀ i : Nat, i < j → ∃ e ∈ s.calendar.view,
        e.wire.id = { holder := s.config.seat, serial := (s.calendar.serial + i) % 256 })) ∧
  (∀ a b c : Entry, a.active = false → b.active = false → c.active = false →
    (a.wire.id ≠ b.wire.id → (a.beats b = true ↔ b.beats a = false)) ∧
    (a.beats b = true → b.beats c = true → a.beats c = true)) ∧
  (∀ (s : State) (e : Entry) (m : Nat), s.Sound → e ∈ s.calendar.view →
    ∀ g : Nat, g = grantFor s.calendar.view e.wire m →
      (g ≤ m ∧ g ≤ 720 - e.wire.duration ∧ g % 5 = 0 ∧
        ∀ x ∈ s.calendar.view, e.wire.finish ≤ x.wire.start → e.wire.finish + g ≤ x.wire.start) ∧
      (∀ h : Nat, h ≤ m → h ≤ 720 - e.wire.duration → h % 5 = 0 →
        (∀ x ∈ s.calendar.view, e.wire.finish ≤ x.wire.start → e.wire.finish + h ≤ x.wire.start) → h ≤ g)) ∧
  (∀ w x : WireEntry, w.start = w.startDay * 1440 + w.startMinute ∧ w.finish = w.start + w.duration ∧
    (w.overlaps x = true ↔ w.start < x.finish ∧ x.start < w.finish)) ∧
  (∀ c e : Entry, c.beats e = true ↔
    (c.active = true ∧ e.active = false) ∨ (c.active = e.active ∧
      (c.wire.createdDay < e.wire.createdDay ∨ (c.wire.createdDay = e.wire.createdDay ∧
        (c.wire.createdSecond < e.wire.createdSecond ∨ (c.wire.createdSecond = e.wire.createdSecond ∧
          (c.wire.id.holder < e.wire.id.holder ∨
            (c.wire.id.holder = e.wire.id.holder ∧ c.wire.id.serial < e.wire.id.serial))))))))

/-- R138: a RESTORE_BOOKING: its six checks in their order, and past them: inserted with the overlapping entries that
it beats removed, refused CONFLICT when it loses against any, and FULL when no room is made for it. R142: there is
room below 32 entries; at 32 the last HEARD entry that is not active gives way to a candidate that starts before it.
R140 to R142: an arriving entry: not taken, it changes nothing; a version that is not newer returns the age to 0; a
newer one (by 1 to 127, modulo 256), resolved against the rest, replaces the entry with its active mark kept, its end
going to the record of a running meeting (R156), or leaves the view without it; a new id is inserted where it wins and
room is made. That several BOOKING_CONFLICT notices of one candidate stand in view order is the model's choice
(notes/assumptions/41.md). -/
def Obligations.RestoreBookingResolvesLikeAnArrival : Prop :=
  (∀ (c : WireEntry) (v : List Entry),
    (v.length < 32 → makeRoom c v = some v) ∧
    (∀ (l r : List Entry) (e : Entry), 32 ≤ v.length → v = l ++ e :: r → e.held = false → e.active = false →
      (∀ x ∈ r, x.held = true ∨ x.active = true) →
      makeRoom c v = if c.start < e.wire.start then some (viewDrop v e.wire.id) else none) ∧
    (32 ≤ v.length → (∀ x ∈ v, x.held = true ∨ x.active = true) → makeRoom c v = none)) ∧
  (∀ (day minute duration : BitVec 16) (profile chair : Byte) (title : List Byte) (serial version : Byte)
    (createdDay : BitVec 16) (createdSecond : BitVec 32) (s : State) (c : Entry),
    s.port.serving = false → s.station = .run → s.calendar.clock.set = true →
    minute.toNat ≤ 1439 → profile.toNat ≤ 3 → chair.toNat ≤ 48 → title.length ≤ 24 → createdSecond.toNat ≤ 86399 →
    c = { wire := { id := { holder := s.config.seat, serial := serial.toNat }, version := version.toNat,
                    startDay := day.toNat, startMinute := minute.toNat,
                    duration := max 15 (min ((duration.toNat + 4) / 5 * 5) 720), profile := profile.toNat,
                    chair := chair.toNat, createdDay := createdDay.toNat, createdSecond := createdSecond.toNat,
                    title := title },
          held := true, active := false, age := 0 } →
    s.calendar.clock.minuteNumber < c.wire.finish → (∀ e ∈ s.calendar.view, e.wire.id ≠ c.wire.id) →
    heldCount s.calendar.view < 8 →
    ((∃ e ∈ s.calendar.view, c.wire.overlaps e.wire = true ∧ c.beats e = false) →
      exec (.restoreBooking day minute duration profile chair title serial version createdDay createdSecond) s
        = .next (s.answered .conflict)) ∧
    (∀ v : List Entry, (∀ e ∈ s.calendar.view, c.wire.overlaps e.wire = true → c.beats e = true) →
      v = s.calendar.view.filter (fun e => !c.wire.overlaps e.wire) →
      (makeRoom c.wire v = none →
        exec (.restoreBooking day minute duration profile chair title serial version createdDay createdSecond) s
          = .next (s.answered .full)) ∧
      (∀ w : List Entry, makeRoom c.wire v = some w →
        exec (.restoreBooking day minute duration profile chair title serial version createdDay createdSecond) s
          = .next (settle (evaluate (notifyAll
              ((s.calendar.view.filter (fun e => c.wire.overlaps e.wire && e.held)).map (fun e => .bookingConflict e.wire.id))
              { s with
                port := { s.port with reply := { status := .ok, data := [byte s.config.seat, serial] } },
                calendar := { s.calendar with serial := (serial.toNat + 1) % 256, view := insertEntry c w } })))))) ∧
  (∀ (k : Nat) (w : WireEntry) (s : State),
    (w.id.holder ≠ k ∨ (s.calendar.clock.set = true ∧ w.finish ≤ s.calendar.clock.minuteNumber) ∨
        s.meeting.endedEarly = some w.id → arriveEntry k w s = s) ∧
    (w.id.holder = k → s.calendar.clock.set = false ∨ s.calendar.clock.minuteNumber < w.finish →
        s.meeting.endedEarly ≠ some w.id →
      (∀ old : Entry, viewFind s.calendar.view w.id = some old →
        (newerVersion w.version old.wire.version = false → arriveEntry k w s = { s with calendar := { s.calendar with
          view := s.calendar.view.map (fun e => if e.wire.id = w.id then { e with age := 0 } else e) } }) ∧
        (∀ (c : Entry) (rest : List Entry), newerVersion w.version old.wire.version = true →
          c = { wire := w, held := false, active := old.active, age := 0 } →
          rest = s.calendar.view.filter (fun e => decide (e.wire.id ≠ w.id)) →
          ((∃ e ∈ rest, c.wire.overlaps e.wire = true ∧ c.beats e = false) →
            arriveEntry k w s = { s with calendar := { s.calendar with view := rest } }) ∧
          (∀ u : State, (∀ e ∈ rest, c.wire.overlaps e.wire = true → c.beats e = true) →
            u = settle (notifyAll
              ((rest.filter (fun e => c.wire.overlaps e.wire && e.held)).map (fun e => .bookingConflict e.wire.id))
              { s with calendar := { s.calendar with
                view := insertEntry c (rest.filter (fun e => !c.wire.overlaps e.wire)) } }) →
            arriveEntry k w s = evaluate
              (if old.active then { u with meeting := { u.meeting with finish := w.finish } } else u)))) ∧
      (∀ c : Entry, (∀ e ∈ s.calendar.view, e.wire.id ≠ w.id) → c = { wire := w, held := false, active := false, age := 0 } →
        ((∃ e ∈ s.calendar.view, c.wire.overlaps e.wire = true ∧ c.beats e = false) → arriveEntry k w s = s) ∧
        (∀ (v : List Entry) (lost : List Notice), (∀ e ∈ s.calendar.view, c.wire.overlaps e.wire = true → c.beats e = true) →
          v = s.calendar.view.filter (fun e => !c.wire.overlaps e.wire) →
          lost = (s.calendar.view.filter (fun e => c.wire.overlaps e.wire && e.held)).map (fun e => .bookingConflict e.wire.id) →
          (makeRoom w v = none →
            arriveEntry k w s = notifyAll lost { s with calendar := { s.calendar with view := v } }) ∧
          (∀ room : List Entry, makeRoom w v = some room → arriveEntry k w s
            = evaluate (notifyAll lost { s with calendar := { s.calendar with view := insertEntry c room } })))))) ∧
  (∀ (day minute duration : BitVec 16) (profile chair : Byte) (title : List Byte) (serial version : Byte)
    (createdDay : BitVec 16) (createdSecond : BitVec 32) (s : State) (finish : Nat) (outside taken : Prop) (x : Status),
    RunTaken s → finish = day.toNat * 1440 + minute.toNat + max 15 (min ((duration.toNat + 4) / 5 * 5) 720) →
    (outside ↔ 1439 < minute.toNat ∨ 3 < profile.toNat ∨ 48 < chair.toNat ∨ 24 < title.length ∨
      86399 < createdSecond.toNat) →
    (taken ↔ ∃ e ∈ s.calendar.view, e.wire.id.holder = s.config.seat ∧ e.wire.id.serial = serial.toNat) →
    (s.station = .clash ∧ x = .badState) ∨
      (s.station = .run ∧ outside ∧ x = .badParam) ∨
      (s.station = .run ∧ ¬ outside ∧ s.calendar.clock.set = false ∧ x = .timeNotSet) ∨
      (s.station = .run ∧ ¬ outside ∧ s.calendar.clock.set = true ∧
        ((finish ≤ s.calendar.clock.minuteNumber ∧ x = .badParam) ∨
          (s.calendar.clock.minuteNumber < finish ∧ taken ∧ x = .conflict) ∨
          (s.calendar.clock.minuteNumber < finish ∧ ¬ taken ∧ 8 ≤ heldCount s.calendar.view ∧ x = .full))) →
    exec (.restoreBooking day minute duration profile chair title serial version createdDay createdSecond) s
      = .next (s.answered x)) ∧
  (∀ v w : Nat, v < 256 → w < 256 →
    (newerVersion v w = true ↔ ∃ d : Nat, 1 ≤ d ∧ d ≤ 127 ∧ v = (w + d) % 256)) ∧
  (∀ (v : List Entry) (id : Bid), viewFind v id = v.find? (fun e => decide (e.wire.id = id)) ∧
    viewDrop v id = v.filter (fun e => decide (e.wire.id ≠ id)))

/-- R144: CANCEL_BOOKING: its three checks in order, which a holder byte outside 1..48 meets as well, the model's
choice (notes/assumptions/44.md); then the CANCEL is admitted and the entry leaves the view, with its meeting ended
CANCELLED where it was active. R144, R157 and R159: an id that no entry bears changes nothing; an entry that is not
active leaves the view; an active one ends its meeting, and leaves the view inside that end (39.md). -/
def Obligations.CancelBookingSendsAndRemoves : Prop :=
  (∀ (holder serial : Byte) (s u : State) (id : Bid), RunTaken s → id = { holder := holder.toNat, serial := serial.toNat } →
    u = offerHost (.cancel id) (s.answered .ok) →
    (s.station = .clash ∨ (∀ e ∈ s.calendar.view, e.held = true → e.wire.id ≠ id) →
      exec (.cancelBooking holder serial) s = .next (s.answered .badState)) ∧
    (∀ e : Entry, s.Sound → s.station = .run → e ∈ s.calendar.view → e.held = true → e.wire.id = id →
      (5 ≤ hostFrames s.link.queue → exec (.cancelBooking holder serial) s = .next (s.answered .queueFull)) ∧
      (hostFrames s.link.queue < 5 → e.active = false →
        exec (.cancelBooking holder serial) s = .next (settle { u with
          calendar := { u.calendar with view := s.calendar.view.filter (fun x => decide (x.wire.id ≠ id)) } })) ∧
      (hostFrames s.link.queue < 5 → e.active = true →
        exec (.cancelBooking holder serial) s = .next (settle (endMeetingFor .cancelled u))))) ∧
  (∀ (id : Bid) (why : EndReason) (s : State),
    ((∀ e ∈ s.calendar.view, e.wire.id ≠ id) → endOrRemove id why s = s) ∧
    (∀ e : Entry, viewFind s.calendar.view id = some e →
      (e.active = false → endOrRemove id why s = { s with calendar := { s.calendar with
        view := s.calendar.view.filter (fun x => decide (x.wire.id ≠ id)) } }) ∧
      (e.active = true → endOrRemove id why s = endMeetingFor why s)))

/-- R162: START_MEETING: its checks in their order, and past them: a HELD booking at the current minute with version 0, the
clock as its created time, and the title, put into the view with room made for it as BOOK does (R136), and its meeting
started at once. -/
def Obligations.WalkInStartsAtOnce : Prop :=
  (∀ (duration : BitVec 16) (profile : Byte) (title : List Byte) (s : State) (asked : Nat), s.Sound →
    s.port.serving = false → s.station = .run → profile.toNat ≤ 3 → title.length ≤ 24 → s.calendar.clock.set = true →
    s.meeting.state = .idle → heldCount s.calendar.view < 8 →
    (∀ e ∈ s.calendar.view, e.wire.due s.calendar.clock = false) →
    asked = (if duration.toNat = 0 then 60 else max 15 (min ((duration.toNat + 4) / 5 * 5) 720)) →
    ((∃ e ∈ s.calendar.view, s.calendar.clock.minuteNumber < e.wire.start ∧
        e.wire.start < s.calendar.clock.minuteNumber + 15) →
      exec (.startMeeting duration profile title) s = .next (s.answered .conflict)) ∧
    (∀ n : Nat,
      ((∀ e ∈ s.calendar.view, e.wire.start ≤ s.calendar.clock.minuteNumber) ∧ n = asked ∨
        ∃ e ∈ s.calendar.view, s.calendar.clock.minuteNumber + 15 ≤ e.wire.start ∧
          (∀ x ∈ s.calendar.view, s.calendar.clock.minuteNumber < x.wire.start → e.wire.start ≤ x.wire.start) ∧
          n = min asked ((e.wire.start - s.calendar.clock.minuteNumber) / 5 * 5)) →
      ∃ t : State, exec (.startMeeting duration profile title) s = .next t ∧
        t.port.reply = { status := .ok, data := [byte s.config.seat, byte s.nextSerial] } ∧
        t.meeting.state ≠ .idle ∧ t.meeting.id = some { holder := s.config.seat, serial := s.nextSerial } ∧
        t.meeting.start = s.calendar.clock.minuteNumber ∧ t.meeting.finish = s.calendar.clock.minuteNumber + n ∧
        t.meeting.chair = (if s.config.role = .seat then s.config.seat else 0) ∧
        t.meeting.profile = s.profiles.getD profile.toNat .powerOn ∧
        t.calendar.serial = (s.nextSerial + 1) % 256 ∧
        (∀ e : Entry,
          e = { wire := { id := { holder := s.config.seat, serial := s.nextSerial }, version := 0,
                          startDay := s.calendar.clock.day, startMinute := s.calendar.clock.second / 60, duration := n,
                          profile := profile.toNat, chair := if s.config.role = .seat then s.config.seat else 0,
                          createdDay := s.calendar.clock.day, createdSecond := s.calendar.clock.second, title := title },
                held := true, active := true, age := 0 } →
          e ∈ t.calendar.view ∧ t.calendar.view = insertEntry e (evictForOwn s.calendar.view)))) ∧
  (∀ (duration : BitVec 16) (profile : Byte) (title : List Byte) (s : State), RunTaken s →
    (s.station = .clash → exec (.startMeeting duration profile title) s = .next (s.answered .badState)) ∧
    (s.station = .run →
      (3 < profile.toNat ∨ 24 < title.length →
        exec (.startMeeting duration profile title) s = .next (s.answered .badParam)) ∧
      (profile.toNat ≤ 3 → title.length ≤ 24 →
        (s.calendar.clock.set = false →
          exec (.startMeeting duration profile title) s = .next (s.answered .timeNotSet)) ∧
        (s.calendar.clock.set = true →
          (s.meeting.state ≠ .idle → exec (.startMeeting duration profile title) s = .next (s.answered .badState)) ∧
          (s.meeting.state = .idle → 8 ≤ heldCount s.calendar.view →
            exec (.startMeeting duration profile title) s = .next (s.answered .full))))))

/-- R158: END_MEETING at the chair: BUSY while an end is asked, QUEUE_FULL at five host frames, and otherwise an END_NOW
with end asked set; the meeting runs on until the outcome, which clears end asked and ends the meeting where its id is
still the active one. R146: EXTEND_MEETING at the chair: BUSY while ASKING; decided at once for a HELD active entry,
with the ask staying NONE; asked of the holder for a HEARD one, QUEUE_FULL at five host frames. R145: the holder's
decision: below 5 minutes REFUSED with the entry unchanged, otherwise duration and version move on, the answer is
offered and the entry handed on, its end to the record of a running meeting. R149: an abandoned EXTEND_ASK ends the ask
for its id. R169: an EXTEND_RESULT with its line 4 text, for 750 blocks. -/
def Obligations.ChairEndsAndExtendsTheMeeting : Prop :=
  (∀ (s : State) (id : Bid), ChairTaken s → s.meeting.id = some id →
    (s.meeting.endAsked = true → exec .endMeeting s = .next (s.answered .busy)) ∧
    (s.meeting.endAsked = false → 5 ≤ hostFrames s.link.queue → exec .endMeeting s = .next (s.answered .queueFull)) ∧
    (s.meeting.endAsked = false → hostFrames s.link.queue < 5 →
      exec .endMeeting s = .next (settle { offerHost (.endNow id) (s.answered .ok) with
        meeting := { s.meeting with endAsked := true } }))) ∧
  (∀ (minutes : Byte) (s : State) (id : Bid) (e : Entry) (m : Nat), ChairTaken s → s.Sound → s.meeting.id = some id →
    e ∈ s.calendar.view → e.wire.id = id → m = max 5 (min ((minutes.toNat + 4) / 5 * 5) 60) →
    (s.calendar.ask ≠ none → exec (.extendMeeting minutes) s = .next (s.answered .busy)) ∧
    (s.calendar.ask = none → e.held = true → grantFor s.calendar.view e.wire m < 5 →
      exec (.extendMeeting minutes) s = .next (settle (extendResult id .refused 0
        (settle (offerFrame (.extendAnswer id s.config.seat false 0 e.wire) (s.answered .ok)))))) ∧
    (∀ g : Nat, s.calendar.ask = none → e.held = true → g = grantFor s.calendar.view e.wire m → 5 ≤ g →
      exec (.extendMeeting minutes) s = .next (settle (extendResult id .accepted g
        (settle (holderDecision e s.config.seat m (s.answered .ok)))))) ∧
    (s.calendar.ask = none → e.held = false → 5 ≤ hostFrames s.link.queue →
      exec (.extendMeeting minutes) s = .next (s.answered .queueFull)) ∧
    (∀ u : State, s.calendar.ask = none → e.held = false → hostFrames s.link.queue < 5 →
      u = offerHost (.extendAsk id m) (s.answered .ok) →
      exec (.extendMeeting minutes) s = .next (settle { u with
        calendar := { u.calendar with ask := some { id := id, minutes := m, timer := 0 } } }))) ∧
  (∀ (e : Entry) (asker m g : Nat) (w : WireEntry) (s : State), g = grantFor s.calendar.view e.wire m →
    w = { e.wire with duration := e.wire.duration + g, version := (e.wire.version + 1) % 256 } →
    (g < 5 → holderDecision e asker m s = offerFrame (.extendAnswer e.wire.id asker false 0 e.wire) s) ∧
    (∀ u : State, 5 ≤ g →
      u = settle (offerFrame (.extendAnswer e.wire.id asker true g w) { s with calendar := { s.calendar with
        view := s.calendar.view.map (fun x => if x.wire.id = e.wire.id then { e with wire := w } else x) } }) →
      holderDecision e asker m s = evaluate
        (if e.active then { u with meeting := { u.meeting with finish := w.finish } } else u))) ∧
  (∀ (id : Bid) (s u : State), u = { s with meeting := { s.meeting with endAsked := false } } →
    (s.meeting.state ≠ .idle → s.meeting.id = some id → endNowOutcome id s = endMeetingFor .endNow u) ∧
    (s.meeting.state = .idle ∨ s.meeting.id ≠ some id → endNowOutcome id s = u)) ∧
  (∀ (id : Bid) (a : ExtensionAsk) (s : State),
    (s.calendar.ask = some a → a.id = id → extendAskAbandoned id s = extendResult id .noAnswer 0
      { s with calendar := { s.calendar with ask := none } }) ∧
    (s.calendar.ask = none ∨ (s.calendar.ask = some a ∧ a.id ≠ id) → extendAskAbandoned id s = s)) ∧
  (∀ (id : Bid) (g : Nat) (x : AskResult) (s : State), extendResult id x g s = { s with
    port := s.port.push (.extendResult id x g),
    screen := { s.screen with transient := { lifetime := 750, text := match x with
      | .accepted => text "Extended +" ++ digits2 g ++ text " min"
      | .refused => text "Extension refused"
      | .noAnswer => text "Extension: no answer" } } })

/-- R144, R147, R148 and R157: the four calendar kinds, from another seat, in RUN and CLASH, without the meeting
filter. -/
def Obligations.CalendarFramesApplyTheirRules : Prop :=
  ∀ (source : Byte) (body : List Byte) (k : Nat) (id : Bid) (s u : State), u = heard k s →
    (Delivered s 0x61#8 source body { source := k, body := .cancel id } →
      exec (.receiveCancel source body) s = .next (settle (if id.holder = k then endOrRemove id .cancelled u else u))) ∧
    (∀ m : Nat, Delivered s 0x62#8 source body { source := k, body := .extendAsk id m } →
      (∀ e : Entry, viewFind s.calendar.view id = some e → e.held = true → e.wire.chair = k →
        exec (.receiveExtendAsk source body) s = .next (settle (holderDecision e k m u))) ∧
      ((∀ e : Entry, viewFind s.calendar.view id = some e → e.held = false ∨ e.wire.chair ≠ k) →
        exec (.receiveExtendAsk source body) s = .next (settle u))) ∧
    (∀ (a g : Nat) (ok : Bool) (w : WireEntry),
      Delivered s 0x63#8 source body { source := k, body := .extendAnswer id a ok g w } →
      (id.holder ≠ k ∨ w.id ≠ id → exec (.receiveExtendAnswer source body) s = .next (settle u)) ∧
      (id.holder = k → w.id = id →
        (∀ (x : ExtensionAsk) (v : State), v = settle (arriveEntry k w u) → v.calendar.ask = some x → x.id = id →
          a = s.config.seat →
          exec (.receiveExtendAnswer source body) s = .next (settle (extendResult id
            (if ok then .accepted else .refused) g { v with calendar := { v.calendar with ask := none } }))) ∧
        ((∀ x : ExtensionAsk, (arriveEntry k w u).calendar.ask = some x → x.id ≠ id) ∨ a ≠ s.config.seat →
          exec (.receiveExtendAnswer source body) s = .next (settle (arriveEntry k w u))))) ∧
    (Delivered s 0x64#8 source body { source := k, body := .endNow id } →
      (∀ e : Entry, viewFind s.calendar.view id = some e → e.wire.chair = k →
        exec (.receiveEndNow source body) s = .next (settle (endOrRemove id .endNow u))) ∧
      ((∀ e : Entry, viewFind s.calendar.view id = some e → e.wire.chair ≠ k) →
        exec (.receiveEndNow source body) s = .next (settle u)))

/-! ## Receiving -/

/-- R3, R4, R6 and R7: a frame that fails a check is counted and reaches no block, in every station state; a valid
frame in SETUP, or of the own seat in CLASH, changes nothing. Which frames are malformed is said with the frames'
bytes (LinkFramesDecodeFromTheirBytes). A body that does not parse is counted (notes/assumptions/26.md). -/
def Obligations.DiscardedFramesReachNoBlock : Prop :=
  ∀ (kind source : Byte) (body bytes : List Byte) (s bad : State),
    bad = { s with link := { s.link with
      badFrames := if s.link.badFrames < 65535 then s.link.badFrames + 1 else s.link.badFrames } } →
    exec (.frameCheckFailed bytes) s = .next bad ∧
    exec (.unknownKindCodeFrame kind source body) s = .next bad ∧
    (parseFrame kind source body = none → exec (LinkFrame.received kind source body) s = .next bad) ∧
    (∀ f : Frame, parseFrame kind source body = some f →
      s.station = .setup ∨ (s.station = .clash ∧ f.source = s.config.seat) →
      exec (LinkFrame.received kind source body) s = .next s)

/-- R5 with R6, R57, R86, R97, R149, R163 and R176: in RUN a valid frame that bears the own seat puts the station into
CLASH. On a link that an attempt of a reset frame still holds the clash beacon waits in its slot. What becomes of the
frame in send is notes/assumptions/6.md. -/
def Obligations.OwnSeatFrameEntersClash : Prop :=
  ∀ (kind source : Byte) (body : List Byte) (f : Frame) (s : State), parseFrame kind source body = some f →
    s.station = .run → f.source = s.config.seat →
    ∃ t : State, exec (LinkFrame.received kind source body) s = .next t ∧ t.station = .clash ∧
      (t.link.voiceSlot = none ∧ t.link.queue = [] ∧ t.link.badFrames = s.link.badFrames ∧
        t.link.abandoned = s.link.abandoned ∧ t.link.voiceSkips = s.link.voiceSkips) ∧
      (∀ x : Sending, s.link.inSend = some x →
        t.link.inSend = some { x with voided := true } ∧ t.link.beaconSlot = some .clash) ∧
      (s.link.inSend = none → s.link.finishing = false → t.link.beaconSlot = none ∧
        t.link.inSend = some { frame := { source := s.config.seat, body := .beacon (composeClashBeacon s) }, attempt := 1,
                               clash := true, voided := false }) ∧
      (s.link.inSend = none → s.link.finishing = true → t.link.inSend = none ∧ t.link.beaconSlot = some .clash) ∧
      t.link.finishing = s.link.finishing ∧
      (t.floor.openSet = s.floor.openSet.filter (fun r => decide (r.seat ≠ s.config.seat)) ∧
        t.floor.queue = s.floor.queue.filter (fun r => decide (r.seat ≠ s.config.seat)) ∧
        t.floor.stamp = s.floor.stamp ∧ t.floor.priority = s.floor.priority) ∧
      t.mic = .reset ∧ t.capture = { s.capture with talking := false, hangover := 0, placing := false } ∧
      (t.share.screen1 = s.share.screen1.filter (fun p => decide (p.seat ≠ s.config.seat)) ∧
        t.share.screen2 = s.share.screen2.filter (fun p => decide (p.seat ≠ s.config.seat)) ∧
        t.share.claim = .none ∧ t.share.release = false) ∧
      (t.meeting = { s.meeting with endAsked := false } ∧ t.calendar = { s.calendar with ask := none }) ∧
      (t.presence = s.presence ∧ t.mix = s.mix ∧ t.config = s.config ∧ t.profiles = s.profiles) ∧
      (t.port.serving = false ∧
        t.port.notices = if s.port.notices.length < 16 then s.port.notices ++ [.seatClash s.config.seat]
                         else s.port.notices)

/-- R8: the filter passes exactly the frames that carry the active meeting's id while a meeting runs; one that it does
not pass leaves no trace but its sender's peer entry. R17: an outcome that it does not pass is not handed on;
SEND_FAILED is raised all the same (R16, R17), for a VOICE frame too, which is the model's reading
(notes/assumptions/8.md). A frame that the station composes carries the active meeting's id (R1). -/
def Obligations.MeetingFilterPassesTheActiveMeetingAlone : Prop :=
  (∀ (s : State) (id : Bid) (m : Option Bid), s.meeting.id = some id →
    (s.filterPasses m = true ↔ s.meeting.state ≠ .idle ∧ m = some id)) ∧
  (∀ (kind source : Byte) (body : List Byte) (k : Nat) (b : Body) (m : Option Bid) (s : State),
    Delivered s kind source body { source := k, body := b } → filteredId b = some m →
    s.meeting.state = .idle ∨ m ≠ s.meeting.id →
    exec (LinkFrame.received kind source body) s = .next (settle (heard k s))) ∧
  (∀ (x : Sending) (m : Option Bid) (s : State), s.link.finishing = false → s.link.inSend = some x → x.voided = false →
    filteredId x.frame.body = some m → s.meeting.state = .idle ∨ m ≠ s.meeting.id →
    exec .attemptClear s = .next (settle s.linkFreed) ∧
    (8 ≤ x.attempt → exec .attemptFailed s = .next (settle (countAbandoned x s).linkFreed))) ∧
  (∀ s : State, s.meetingId = if s.meeting.state = .idle then none else s.meeting.id) ∧
  (∀ (s : State) (m : Option Bid), s.meeting.id = none → s.filterPasses m = false) ∧
  (∀ (x : Sending) (s : State), countAbandoned x s = { s with
    link := { s.link with abandoned := if s.link.abandoned < 65535 then s.link.abandoned + 1 else s.link.abandoned },
    port := if x.clash then s.port else s.port.push (.sendFailed x.frame.body.kindCode.toNat) })

/-- R41: a WITHDRAW past the filter: the record leaves, later seats move up by one, the rest is as it was. -/
def Obligations.WithdrawLeavesTheQueue : Prop :=
  (∀ (source : Byte) (body : List Byte) (k : Nat) (m : Option Bid) (s u : State), u = heard k s →
    Delivered s 0x42#8 source body { source := k, body := .withdraw m } → s.filterPasses m = true →
    exec (.receiveWithdraw source body) s = .next (settle (evalMic { u with
      floor := { u.floor with queue := u.floor.queue.filter (fun r => decide (r.seat ≠ k)) } }))) ∧
  (∀ (f : Floor) (k j p q : Nat), ViewsSound f → f.position k = some p → f.position j = some q →
    (f.dropQueue k).position k = none ∧
    (q < p → (f.dropQueue k).position j = some q) ∧ (p < q → (f.dropQueue k).position j = some (q - 1))) ∧
  (∀ (f : Floor) (k : Nat), f.isQueued k = false → f.dropQueue k = f)

/-- R40, R42 and R43: REQUEST, OPEN and YIELD past the filter. A REQUEST joins a seat that is in neither collection;
an OPEN and a YIELD are steps of the view that are handed on. A YIELD takes its seat out of the open set and has it
queued with its stamp; a seat that is queued already keeps its record. -/
def Obligations.SeatFramesChangeTheView : Prop :=
  (∀ (source : Byte) (body : List Byte) (k q : Nat) (m : Option Bid) (s u : State), u = heard k s → s.filterPasses m = true →
    (Delivered s 0x41#8 source body { source := k, body := .request m q } →
      exec (.receiveRequest source body) s = .next (settle (evalMic { u with floor := { u.floor with
        stamp := max u.floor.stamp q,
        queue := if u.floor.isOpen k = true ∨ u.floor.isQueued k = true then u.floor.queue
                 else insertQueue { seat := k, requestStamp := q, granted := false } u.floor.queue } }))) ∧
    (∀ (o : Nat) (c d : OpenClass), Delivered s 0x43#8 source body { source := k, body := .opening m o q c } →
      (d = if c = .chair ∧ ¬ (k = s.meeting.chair ∧ k ≠ 0) then .delegate else c) →
      exec (.receiveOpen source body) s = .next (settle (floorStep
        (u.floor.opening k d o q u.blockNumber u.meeting.profile.limit) u))) ∧
    (Delivered s 0x45#8 source body { source := k, body := .yield m q } →
      exec (.receiveYield source body) s = .next (settle (floorStep
        { floor := (({ u.floor with stamp := max u.floor.stamp q } : Floor).dropOpen k).join k q,
          left := if u.floor.isOpen k then [(k, .displaced)] else [] } u)))) ∧
  (∀ (f : Floor) (k q : Nat),
    f.dropOpen k = { f with openSet := f.openSet.filter (fun r => decide (r.seat ≠ k)) } ∧
    (f.isQueued k = true → f.join k q = f) ∧
    (f.isQueued k = false →
      f.join k q = { f with queue := insertQueue { seat := k, requestStamp := q, granted := false } f.queue }))

/-- R44 to R48: the frames that act on another seat are taken from the chair seat alone (a CLOSE of the source's own
seat from any seat), and change nothing from another; the chair seat is that of the running meeting, and 0 is none.
R44 and R76: a CLOSE taken by the view, told to the own-microphone rules where it names the own seat, by their state;
R76: a CLEAR that finds the own seat queued, by their state; where its withdrawal of the OPEN empties the control
queue a FLUSH being served completes (R183). R36: an order to turn priority on that the profile does not allow changes
nothing in the view, and the own side is evaluated over it as it stands. The whole record at its reset values in
CLOSED is notes/assumptions/16.md, the FLOOR_ONLY release 15.md. -/
def Obligations.ChairFramesAreTakenFromTheChairAlone : Prop :=
  (∀ (source : Byte) (body : List Byte) (k target : Nat) (m : Option Bid) (s u : State), u = heard k s →
    s.filterPasses m = true →
    (∀ why : Reason, Delivered s 0x44#8 source body { source := k, body := .close m target why } →
      (target = k ∨ s.isChairSeat k = true →
        exec (.receiveClose source body) s = .next (settle (viewClose target why u))) ∧
      (target ≠ k → s.isChairSeat k = false → exec (.receiveClose source body) s = .next (settle u))) ∧
    (Delivered s 0x46#8 source body { source := k, body := .grant m target } →
      (s.isChairSeat k = true → exec (.receiveGrant source body) s = .next (settle (evalMic { u with floor := { u.floor with
        queue := u.floor.queue.map (fun r => if r.seat = target then { r with granted := true } else r) } }))) ∧
      (s.isChairSeat k = false → exec (.receiveGrant source body) s = .next (settle u))) ∧
    (Delivered s 0x47#8 source body { source := k, body := .clear m } →
      (s.isChairSeat k = true → u.floor.isQueued s.config.seat = false →
        exec (.receiveClear source body) s = .next (settle (evalMic { u with floor := { u.floor with queue := [] } }))) ∧
      (s.isChairSeat k = true → u.floor.isQueued s.config.seat = true → u.mic.state = .waiting →
        exec (.receiveClear source body) s = .next (settle { u with
          floor := { u.floor with queue := [] }, mic := .reset, capture := { u.capture with placing := false } })) ∧
      (s.isChairSeat k = true → u.floor.isQueued s.config.seat = true → u.mic.state = .opening →
        (∀ (q : List Frame) (p : Port), (∃ f ∈ u.link.queue, f.internalKind = some .mic) →
          q = u.link.queue.filter (fun f => decide (f.internalKind ≠ some .mic)) →
          p = (if u.port.serving = true ∧ q = [] then
            { u.port with serving := false, reply := { status := .ok, data := [] } } else u.port) →
          exec (.receiveClear source body) s = .next (settle { u with
            floor := { u.floor with queue := [] }, mic := .reset, capture := { u.capture with placing := false },
            link := { u.link with queue := q }, port := p })) ∧
        ((∀ f ∈ u.link.queue, f.internalKind ≠ some .mic) →
          exec (.receiveClear source body) s = .next (settle { u with floor := { u.floor with queue := [] } }))) ∧
      (s.isChairSeat k = false → exec (.receiveClear source body) s = .next (settle u))) ∧
    (∀ on : Bool, Delivered s 0x48#8 source body { source := k, body := .priority m on } →
      (s.isChairSeat k = true → on = false →
        exec (.receivePriority source body) s = .next (settle (evalMic { u with floor := { u.floor with priority := false } }))) ∧
      (s.isChairSeat k = true → on = true → s.meeting.profile.priorityAllowed = true → u.floor.priority = true ∨
          s.meeting.profile.priorityCloses = false ∨ u.mic.state ≠ .open ∨ u.mic.cls ≠ some .delegate →
        exec (.receivePriority source body) s = .next (settle (evalMic { u with floor := { u.floor with priority := true } }))) ∧
      (s.isChairSeat k = true → on = true → s.meeting.profile.priorityAllowed = true → u.floor.priority = false →
          s.meeting.profile.priorityCloses = true → u.mic.state = .open → u.mic.cls = some .delegate →
        exec (.receivePriority source body) s
          = .next (settle (evalMic (micClose .chair (settle { u with floor := { u.floor with priority := true } }))))) ∧
      (s.isChairSeat k = true → on = true → s.meeting.profile.priorityAllowed = false →
        exec (.receivePriority source body) s = .next (settle (evalMic u)) ∧
        (u.mic.state = .closed → exec (.receivePriority source body) s = .next (settle u))) ∧
      (s.isChairSeat k = false → exec (.receivePriority source body) s = .next (settle u))) ∧
    (∀ n : Nat, Delivered s 0x49#8 source body { source := k, body := .timeAdd m target n } →
      (s.isChairSeat k = true → target = s.config.seat → exec (.receiveTimeAdd source body) s = .next (settle (micTimeAdd n u))) ∧
      (s.isChairSeat k = false ∨ target ≠ s.config.seat → exec (.receiveTimeAdd source body) s = .next (settle u)))) ∧
  (∀ (target : Nat) (why : Reason) (s u : State),
    u = settle (storeStep { floor := { s.floor with openSet := s.floor.openSet.filter (fun r => decide (r.seat ≠ target)) },
                            left := if s.floor.isOpen target then [(target, why)] else [] } s) →
    (target ≠ s.config.seat ∨ s.mic.state = .closed ∨ s.mic.state = .waiting → viewClose target why s = evalMic u) ∧
    (target = s.config.seat → s.mic.state = .opening →
      (s.mic.closePending = none → viewClose target why s = evalMic (closeOpening why u)) ∧
      (s.mic.closePending ≠ none →
        viewClose target why s = evalMic { u with mic := { u.mic with closePending := some why } })) ∧
    (target = s.config.seat → s.mic.state = .open → viewClose target why s = evalMic (leaveOpenRelease
      { u with mic := .reset, capture := { u.capture with placing := false } }))) ∧
  (∀ (s : State) (k : Nat), s.isChairSeat k = true ↔ s.meeting.state ≠ .idle ∧ k = s.meeting.chair ∧ k ≠ 0)

/-- R22 and R28: a delivered frame's seat is heard: PRESENT with frame age 0, the own side evaluated where the chair
seat returns. The peer table has one entry for each seat 1 to 48. R51: a VOICE frame past the filter opens its seat,
with class CHAIR for the chair seat alone (notes/assumptions/11.md), and then reaches its slot; a SHARE claims, an
UNSHARE empties its seat's screen (R171). R25 and R26: a BEACON replaces what the entry holds and hands its parts on
in this order, each applied to the state as the parts before it left it: the sender time, adopted by R30 and R31; the
ended-early id (R159); the booking entry (R140); the floor state (R54) and the share state (R172), both for a beacon
of the active meeting. R54: reconciliation, part by part. Where `settle` stands between the parts is the model's
reading (notes/assumptions/4.md). The class of a record that a VOICE frame or a beacon updates is 11.md. -/
def Obligations.VoiceShareAndBeaconAreDelivered : Prop :=
  (∀ (k : Nat) (p : Peer) (s u : State), s.presence.peers.length = 48 → 1 ≤ k → k ≤ 48 → p = s.presence.peer k →
    u = { s with presence := { s.presence with peers := s.presence.peers.set (k - 1) { p with state := .present, frameAge := 0 } } } →
    (p.state = .present ∨ s.isChairSeat k = false → heard k s = u) ∧
    (p.state ≠ .present → s.isChairSeat k = true → heard k s = evalMic u)) ∧
  (∀ (source : Byte) (body : List Byte) (k : Nat) (m : Option Bid) (s u : State), u = heard k s →
    (∀ (o q n : Nat) (talking : Bool) (xs : List Int), s.filterPasses m = true →
      Delivered s 0x10#8 source body { source := k, body := .voice m o q n talking xs } →
      exec (.receiveVoice source body) s = .next (settle (mixReceive k { block := n, talking := talking, samples := xs }
        (floorStep (u.floor.implicit k (if k = s.meeting.chair ∧ k ≠ 0 then .chair else .delegate) o q u.blockNumber
          u.meeting.profile.limit) u)))) ∧
    (∀ screen stamp : Nat, s.filterPasses m = true →
      Delivered s 0x4A#8 source body { source := k, body := .share m screen stamp } →
      exec (.receiveShare source body) s = .next (settle (shareClaimed k screen stamp u))) ∧
    (s.filterPasses m = true → Delivered s 0x4B#8 source body { source := k, body := .unshare m } →
      exec (.receiveUnshare source body) s = .next (settle { u with share := { u.share with
        screen1 := u.share.screen1.filter (fun p => decide (p.seat ≠ k)),
        screen2 := u.share.screen2.filter (fun p => decide (p.seat ≠ k)) } }))) ∧
  (∀ (source : Byte) (body : List Byte) (k : Nat) (b : BeaconBody) (r : Peer) (adopted : Prop) (s u v0 v1 v2 v3 v4 v5 : State),
    s.presence.peers.length = 48 → u = heard k s → Delivered s 0x20#8 source body { source := k, body := .beacon b } →
    r = { state := .present, role := some b.role, name := b.name, frameAge := 0, beaconAge := 0, meeting := b.meeting,
          mic := b.mic, request := b.request, share := b.share, priority := b.priority } →
    v0 = { u with presence := { u.presence with peers := u.presence.peers.set (k - 1) r } } →
    (adopted ↔ s.config.follower = true ∧ b.role = .door ∧ ¬ (b.day = 65535 ∧ b.second = 86399) ∧
      (s.calendar.clock.set = false ∨
        s.calendar.clock.day * 86400 + s.calendar.clock.second + 2 ≤ b.day * 86400 + b.second ∨
        b.day * 86400 + b.second + 2 ≤ s.calendar.clock.day * 86400 + s.calendar.clock.second)) →
    (¬ adopted → v1 = v0) →
    (∀ w : State, adopted → w = settle { v0 with calendar := { v0.calendar with
        clock := { day := b.day, second := b.second, count := 0, set := true } } } →
      v1 = evaluate { w with calendar := { w.calendar with
        view := w.calendar.view.filter (fun e => e.active || decide (b.day * 1440 + b.second / 60 < e.wire.finish)) } }) →
    (b.endedEarly = none → v2 = v1) → (∀ id : Bid, b.endedEarly = some id → v2 = settle (endOrRemove id .endedEarly v1)) →
    (b.entry = none → v3 = v2) → (∀ w : WireEntry, b.entry = some w → v3 = settle (arriveEntry k w v2)) →
    v4 = (if v3.filterPasses b.meeting then
        floorStep (v3.floor.reconcile k b.mic b.request b.priority (v3.isChairSeat k) v3.blockNumber v3.meeting.profile.limit
          v3.meeting.profile.priorityAllowed) v3
      else v3) →
    v5 = (if v4.filterPasses b.meeting then shareSync k b.share v4 else v4) →
    exec (.receiveBeacon source body) s = .next (settle v5)) ∧
  (∀ (f g : Floor) (k : Nat) (mic : Option (Nat × Nat)) (request : Option Nat) (prio chair allowed : Bool) (n limit : Nat)
    (x : FloorStep), x = f.reconcile k mic request prio chair n limit allowed →
    g = { f with
      stamp := max (max f.stamp (max ((mic.map (fun p => p.1)).getD 0) ((mic.map (fun p => p.2)).getD 0))) (request.getD 0),
      priority := if chair then (if prio then f.priority || allowed else false) else f.priority } →
    (mic = none →
      x.left = (if f.isOpen k then [(k, .sync)] else []) ∧
      x.floor.openSet = f.openSet.filter (fun r => decide (r.seat ≠ k)) ∧
      x.floor.stamp = g.stamp ∧ x.floor.priority = g.priority ∧
      (request = none → x.floor.queue = f.queue.filter (fun r => decide (r.seat ≠ k))) ∧
      (∀ q : Nat, request = some q →
        (f.queueRecord k = none →
          x.floor.queue = insertQueue { seat := k, requestStamp := q, granted := false } f.queue) ∧
        (∀ r : QueueRecord, f.queueRecord k = some r → r.requestStamp = q → x.floor.queue = f.queue) ∧
        (∀ r : QueueRecord, f.queueRecord k = some r → r.requestStamp ≠ q → x.floor.queue
          = insertQueue { r with requestStamp := q } (f.queue.filter (fun r => decide (r.seat ≠ k)))))) ∧
    (∀ (o q : Nat) (r : OpenRecord), mic = some (o, q) → f.openRecord k = some r → r.openStamp = o → r.requestStamp = q →
      x.left = [] ∧ x.floor = { g with
        queue := if request = none then f.queue.filter (fun r => decide (r.seat ≠ k)) else f.queue }) ∧
    (∀ o q : Nat, mic = some (o, q) → (∀ r : OpenRecord, f.openRecord k = some r → r.openStamp ≠ o ∨ r.requestStamp ≠ q) →
      x = (g.enter k (if chair then .chair else .delegate) o q n).displaceStep limit)) ∧
  (∀ (t : Presence) (k : Nat) (p : Peer), t.peers.length = 48 → 1 ≤ k → k ≤ 48 →
    t.peers[k - 1]? = some (t.peer k) ∧ t.setPeer k p = { t with peers := t.peers.set (k - 1) p })

/-! ## The floor view -/

/-- R42 and R49: a seat that opens leaves the queue and has its record entered, or updated in place with its since
kept, and no other seat's record moves; displacement keeps the first L DELEGATE records and every CHAIR record, and
joins each displaced seat to the queue with its record's request stamp and its mark clear. R35 and R37: an opening's
stamps raise the counter first. R42 and R51: an OPEN with the record's own stamps and class, and a VOICE frame with
the record's own stamps, change nothing more; any other enters or updates the record, after which displacement runs,
each displaced seat recorded with reason DISPLACED in the order of the open set (R49). R33 and R34: the orders of both
collections, what reads a seat's record, its position and the delegates, and that a record enters the queue behind
every record before the first one it precedes. -/
def Obligations.OpeningEntersThenDisplaces : Prop :=
  (∀ (f g : Floor) (seat o q n : Nat) (c : OpenClass), ViewsSound f → g = f.enter seat c o q n →
    ViewsSound g ∧ g.isQueued seat = false ∧ g.stamp = f.stamp ∧ g.priority = f.priority ∧
    g.openRecord seat = some { seat := seat, cls := c, openStamp := o, requestStamp := q,
                               since := ((f.openRecord seat).map (fun r => r.since)).getD n } ∧
    (∀ k : Nat, k ≠ seat → g.openRecord k = f.openRecord k ∧ g.queueRecord k = f.queueRecord k)) ∧
  (∀ (f g : Floor) (limit : Nat), ViewsSound f → g = f.displace limit →
    ViewsSound g ∧ g.stamp = f.stamp ∧ g.priority = f.priority ∧
    g.delegates = f.delegates.take limit ∧
    g.openSet.filter (fun r => decide (r.cls = .chair)) = f.openSet.filter (fun r => decide (r.cls = .chair)) ∧
    (∀ r ∈ f.delegates.drop limit,
      g.queueRecord r.seat = some { seat := r.seat, requestStamp := r.requestStamp, granted := false }) ∧
    (∀ p ∈ f.queue, p ∈ g.queue) ∧
    g.queue.length = f.queue.length + (f.delegates.length - limit)) ∧
  (∀ (f g : Floor) (seat o q n limit : Nat) (c : OpenClass), ViewsSound f → g = { f with stamp := max (max f.stamp o) q } →
    (∀ r : OpenRecord, f.openRecord seat = some r → r.openStamp = o → r.requestStamp = q →
      f.implicit seat c o q n limit = { floor := g, left := [] } ∧
      (r.cls = c → f.opening seat c o q n limit = { floor := g, left := [] }) ∧
      (r.cls ≠ c → f.opening seat c o q n limit = (g.enter seat c o q n).displaceStep limit)) ∧
    ((∀ r : OpenRecord, f.openRecord seat = some r → r.openStamp ≠ o ∨ r.requestStamp ≠ q) →
      f.implicit seat c o q n limit = (g.enter seat c o q n).displaceStep limit ∧
      f.opening seat c o q n limit = (g.enter seat c o q n).displaceStep limit)) ∧
  (∀ (f : Floor) (limit : Nat), f.displaceStep limit = {
    floor := f.displace limit,
    left := ((f.openSet.filter (fun r => decide (r.cls = .delegate))).drop limit).map (fun r => (r.seat, .displaced)) }) ∧
  (∀ (a b : OpenRecord) (c d : QueueRecord),
    (a.before b = true ↔ a.openStamp < b.openStamp ∨ (a.openStamp = b.openStamp ∧ a.seat < b.seat)) ∧
    (c.before d = true ↔ c.requestStamp < d.requestStamp ∨ (c.requestStamp = d.requestStamp ∧ c.seat < d.seat))) ∧
  (∀ (c : QueueRecord) (v : List QueueRecord),
    (∃ l r : List QueueRecord, v = l ++ r ∧ insertQueue c v = l ++ c :: r ∧ (∀ x ∈ l, c.before x = false) ∧
      (∀ x : QueueRecord, r.head? = some x → c.before x = true)) ∧
    (v.Pairwise (fun a b => a.before b = true) → (∀ x ∈ v, x.seat ≠ c.seat) →
      (insertQueue c v).Pairwise (fun a b => a.before b = true))) ∧
  (∀ (f : Floor) (k : Nat),
    (f.isOpen k = true ↔ ∃ r ∈ f.openSet, r.seat = k) ∧ (f.isQueued k = true ↔ ∃ r ∈ f.queue, r.seat = k) ∧
    f.openRecord k = f.openSet.find? (fun r => decide (r.seat = k)) ∧
    f.queueRecord k = f.queue.find? (fun r => decide (r.seat = k)) ∧
    f.delegates = f.openSet.filter (fun r => decide (r.cls = .delegate)) ∧
    (f.isQueued k = false → f.position k = none) ∧
    (∀ (l r : List QueueRecord) (x : QueueRecord), f.queue = l ++ x :: r → x.seat = k → (∀ y ∈ l, y.seat ≠ k) →
      f.position k = some (l.length + 1)))

/-- 03_the_floor_view.md, section 3.4 and its first worked sequence: two seats that are not open may open in either order;
the view ends the same. -/
def Obligations.TwoOpeningsEndInTheSameView : Prop :=
  ∀ (f : Floor) (a b oa qa ob qb n limit : Nat) (ca cb : OpenClass), ViewsSound f → a ≠ b →
    f.isOpen a = false → f.isOpen b = false →
    ((f.opening a ca oa qa n limit).floor.opening b cb ob qb n limit).floor
      = ((f.opening b cb ob qb n limit).floor.opening a ca oa qa n limit).floor

/-- R37, R38 and R39: the third and fourth part of a step: the view is stored, the net change goes to the Host Port,
seats that left before seats that entered, and to the Mix Engine, which frees the slot of every seat that left and then
binds the lowest-numbered FREE slot to each seat that entered, in open-set order (R100, R101), and a VOICE frame that waits is dropped when the own
seat has left. Then the own-microphone rules: R50 and R72 where displacement removed the own seat, with its notice
behind the step's (notes/assumptions/34.md), R77 where the priority state turned on, and the evaluation (R66). The
record that returns to WAITING keeps its request stamp alone (16.md), and the FLOOR_ONLY release follows the YIELD
(15.md). -/
def Obligations.StepHandsOnItsNetChange : Prop :=
  (∀ (x : FloorStep) (s t : State), t = storeStep x s →
    t.floor = x.floor ∧
    (s.port.notices.length + (x.removals s.floor).length + (x.entries s.floor).length ≤ 16 →
      t.port.notices = s.port.notices ++ (x.removals s.floor).map (fun p => .closed p.1 p.2)
        ++ (x.entries s.floor).map (fun k => .opened k)) ∧
    (∀ k : Nat, k ∈ x.entries s.floor ↔ x.floor.isOpen k = true ∧ s.floor.isOpen k = false) ∧
    (∀ (k : Nat) (why : Reason), (k, why) ∈ x.removals s.floor ↔
      (k, why) ∈ x.left ∧ s.floor.isOpen k = true ∧ x.floor.isOpen k = false) ∧
    (x.removals s.floor = x.left.filter (fun p => s.floor.isOpen p.1 && !x.floor.isOpen p.1) ∧
      x.entries s.floor = (x.floor.openSet.filter (fun r => !s.floor.isOpen r.seat)).map (fun r => r.seat)) ∧
    (∀ freed : List Slot, s.config.role ≠ .door →
      freed = s.mix.slots.map (fun y =>
        if y.state ≠ .free ∧ y.seat ≠ s.config.seat ∧ (∃ p ∈ x.removals s.floor, p.1 = y.seat) then
          { seat := 0, state := .free, fifo := [], last := none, stale := 0, overflow := false } else y) →
      t.mix = { s.mix with
        slots := ((x.entries s.floor).filter (fun k => decide (k ≠ s.config.seat))).foldl (fun l k => bindFirst k l) freed }) ∧
    (s.config.role = .door → t.mix = s.mix) ∧
    (∀ (k : Nat) (why : Reason), s.config.role ≠ .door → x.removals s.floor = [(k, why)] → x.entries s.floor = [] →
      k ≠ s.config.seat →
      t.mix.slots = s.mix.slots.map (fun y => if y.state ≠ .free ∧ y.seat = k then
        { seat := 0, state := .free, fifo := [], last := none, stale := 0, overflow := false } else y)) ∧
    (∀ (k : Nat) (l r : List Slot) (y : Slot), s.config.role ≠ .door → x.removals s.floor = [] → x.entries s.floor = [k] →
      k ≠ s.config.seat → s.mix.slots = l ++ y :: r → (∀ z ∈ l, z.state ≠ .free) → y.state = .free →
      t.mix.slots = l ++ { seat := k, state := .filling, fifo := [], last := none, stale := 0, overflow := false } :: r) ∧
    ((∃ why : Reason, (s.config.seat, why) ∈ x.removals s.floor) → t.link.voiceSlot = none) ∧
    ((∀ why : Reason, (s.config.seat, why) ∉ x.removals s.floor) → t.link = s.link)) ∧
  (∀ (x : FloorStep) (s u v : State) (own on : Prop), u = settle (storeStep x s) →
    (own ↔ (s.config.seat, Reason.displaced) ∈ x.removals s.floor) → (on ↔ s.floor.priority = false ∧ x.floor.priority = true) →
    (¬ own → v = u) → (own → v = micDisplaced u) →
    (¬ on → floorStep x s = evalMic v) ∧
    (on → v.meeting.profile.priorityCloses = true → v.mic.state = .open → v.mic.cls = some .delegate →
      floorStep x s = evalMic (micClose .chair v)) ∧
    (on → v.meeting.profile.priorityCloses = false ∨ v.mic.state ≠ .open ∨ v.mic.cls ≠ some .delegate →
      floorStep x s = evalMic v)) ∧
  (∀ s v : State,
    v = showTransient (text "Floor full - requeued") (notify (.floorConflict s.config.seat)
      (settle (offerFrame (.yield s.meetingId s.mic.requestStamp) { s with
        mic := { state := .waiting, cls := none, requestStamp := s.mic.requestStamp, openStamp := 0, closePending := none,
                 remaining := none, secondCount := 0, warned := false, overrun := false, overrunCount := 0, silence := 0 },
        capture := { s.capture with placing := false } }))) →
    (s.mic.state = .open → micDisplaced s = leaveOpenRelease v) ∧ (s.mic.state ≠ .open → micDisplaced s = v)) ∧
  (∀ (x : List Byte) (s : State),
    showTransient x s = { s with screen := { s.screen with transient := { text := x, lifetime := 750 } } }) ∧
  (∀ (k : Nat) (l r : List Slot) (y : Slot), (∀ z ∈ l, z.state ≠ .free) →
    bindFirst k l = l ∧
    (y.state = .free → bindFirst k (l ++ y :: r)
      = l ++ { seat := k, state := .filling, fifo := [], last := none, stale := 0, overflow := false } :: r))

/-! ## The own microphone -/

/-- R66, R67, R68 and R74: the evaluation of the own side, state by state, and the test of eligibility. R28: the chair
counts as present where it is the own seat or a PRESENT peer. What follows the change before it, and the one it
decides on (R38), stand around it (notes/assumptions/4.md). A record that returns to WAITING is 16.md. -/
def Obligations.OwnSideIsEvaluatedByItsState : Prop :=
  (∀ s u : State, u = settle s →
    (s.meeting.state = .idle ∨ s.mic.state = .closed → evalMic s = u) ∧
    (s.meeting.state ≠ .idle →
      (∀ p : Nat, s.floor.position s.config.seat = some p → s.meeting.profile.mode ≠ .chairGrant ∨ s.chairPresent = false →
        (s.eligible = true ↔ p + s.floor.delegates.length ≤ s.meeting.profile.limit)) ∧
      (s.meeting.profile.mode = .chairGrant → s.chairPresent = true →
        (s.eligible = true ↔ ∃ r : QueueRecord, s.floor.queueRecord s.config.seat = some r ∧ r.granted = true)) ∧
      (s.mic.state = .waiting → s.eligible = false → evalMic s = u) ∧
      (s.mic.state = .waiting → s.eligible = true → ∀ k : Nat, k = min (s.floor.stamp + 1) maxStamp →
        s.floor.stamp ≤ maxStamp →
        evalMic s = settle (offerFrame (.opening s.meeting.id k s.mic.requestStamp .delegate)
          { u with floor := { u.floor with stamp := k },
                   mic := { u.mic with state := .opening, cls := some .delegate, openStamp := k, closePending := none } })) ∧
      (s.mic.state = .opening → s.mic.cls = some .delegate → s.mic.closePending = none → s.eligible = false →
        (∀ (q : List Frame) (p : Port), (∃ f ∈ s.link.queue, f.internalKind = some .mic) →
          q = s.link.queue.filter (fun f => decide (f.internalKind ≠ some .mic)) →
          p = (if s.port.serving = true ∧ q = [] then
            { s.port with serving := false, reply := { status := .ok, data := [] } } else s.port) →
          evalMic s = settle { u with
            link := { u.link with queue := q }, mic := { u.mic with state := .waiting, cls := none, openStamp := 0 },
            port := p }) ∧
        ((∀ f ∈ s.link.queue, f.internalKind ≠ some .mic) → evalMic s = u)) ∧
      (s.mic.state = .opening → s.mic.cls ≠ some .delegate ∨ s.mic.closePending ≠ none ∨ s.eligible = true →
        evalMic s = u) ∧
      (s.mic.state = .open →
        (∀ r : OpenRecord, s.mic.cls = some .delegate → s.meeting.profile.mode = .override →
          s.floor.delegates.length = s.meeting.profile.limit → s.floor.delegates.head? = some r →
          r.seat = s.config.seat → s.floor.queue ≠ [] → evalMic s = settle (micClose .override u)) ∧
        (s.mic.cls ≠ some .delegate ∨ s.meeting.profile.mode ≠ .override ∨
            s.floor.delegates.length ≠ s.meeting.profile.limit ∨
            (∀ r : OpenRecord, s.floor.delegates.head? = some r → r.seat ≠ s.config.seat) ∨ s.floor.queue = [] →
          evalMic s = u)))) ∧
  (∀ s : State, s.chairPresent = true ↔ s.meeting.chair ≠ 0 ∧
    (s.meeting.chair = s.config.seat ∨ (s.presence.peer s.meeting.chair).state = .present))

/-- R64, R65 and R73: PRESS and the MIC button are taken at a SEAT station in RUN in a meeting and then act by the
own-microphone state; the PRESS reply is the state after the press. Elsewhere PRESS is refused BAD_STATE, with a FLASH
in RUN without a meeting, and the button starts a FLASH but in CLASH (notes/assumptions/35.md); at a DOOR or WALL station
no button is sampled and MIC_PRESS changes nothing (R62). A press in OPENING
closes: the OPEN is withdrawn from the queue, the chair then CLOSED and a delegate out of the queue with a WITHDRAW, or
the close becomes pending. That a FLOOR_ONLY release follows the CLOSE frame (15.md), and that every entry into CLOSED
gives the whole record its reset values (16.md), are the model's readings. -/
def Obligations.PressAppliesTheTable : Prop :=
  (∀ s : State, s.config.role = .seat → s.station = .run → s.meeting.state ≠ .idle →
    (s.port.serving = false → exec .press s = .next (settle
      { takePress s with port := { (takePress s).port with
          reply := { status := .ok, data := [byte (takePress s).mic.state.code] } } })) ∧
    (∀ u : State, u = { s with controls := { s.controls with mic := { pressed := true, difference := 0 } } } →
      exec .micPress s = .next (settle (takePress u))) ∧
    (∀ k : Nat, s.mic.state = .closed → s.floor.stamp ≤ maxStamp → k = min (s.floor.stamp + 1) maxStamp →
      (s.isChair = true → takePress s = offerFrame (.opening s.meeting.id k k .chair)
        { s with floor := { s.floor with stamp := k },
                 mic := { OwnMic.reset with state := .opening, cls := some .chair, requestStamp := k, openStamp := k } }) ∧
      (∀ r : QueueRecord, r = { seat := s.config.seat, requestStamp := k, granted := false } →
        s.isChair = false → s.floor.isOpen s.config.seat = false → s.floor.isQueued s.config.seat = false →
        takePress s = evalMic (offerFrame (.request s.meeting.id k)
          { s with floor := { s.floor with stamp := k, queue := insertQueue r s.floor.queue },
                   mic := { OwnMic.reset with state := .waiting, requestStamp := k } }))) ∧
    (s.mic.state = .waiting → takePress s = offerFrame (.withdraw s.meeting.id)
      { s with floor := { s.floor with queue := s.floor.queue.filter (fun r => decide (r.seat ≠ s.config.seat)) },
               mic := .reset, capture := { s.capture with placing := false } }) ∧
    (∀ why : Reason, s.mic.state = .opening → s.mic.closePending = some why →
      takePress s = { s with mic := { s.mic with closePending := none } }) ∧
    (∀ x : Sending, s.mic.state = .opening → s.mic.closePending = none → (∀ f ∈ s.link.queue, f.internalKind ≠ some .mic) →
      s.link.inSend = some x → x.voided = false → x.frame.body.kindCode = 0x43#8 →
      takePress s = { s with mic := { s.mic with closePending := some .speaker } }) ∧
    (s.mic.state = .open → s.floor.isOpen s.config.seat = true → s.port.notices.length < 16 →
      takePress s = leaveOpenRelease (offerFrame (.close s.meeting.id s.config.seat .speaker)
        (settle { s with floor := { s.floor with openSet := s.floor.openSet.filter (fun r => decide (r.seat ≠ s.config.seat)) },
                         mic := .reset, capture := { s.capture with placing := false },
                         link := { s.link with voiceSlot := none },
                         port := { s.port with notices := s.port.notices ++ [.closed s.config.seat .speaker] } }))) ∧
    (s.mic.state = .opening → s.mic.closePending = none → takePress s = closeOpening .speaker s)) ∧
  (∀ (why : Reason) (s : State),
    (∀ x : Sending, (∀ f ∈ s.link.queue, f.internalKind ≠ some .mic) → s.link.inSend = some x → x.voided = false →
      x.frame.body.kindCode = 0x43#8 → closeOpening why s = { s with mic := { s.mic with closePending := some why } }) ∧
    ((∀ f ∈ s.link.queue, f.internalKind ≠ some .mic) →
        (∀ x : Sending, s.link.inSend = some x → x.voided = true ∨ x.frame.body.kindCode ≠ 0x43#8) →
      closeOpening why s = s) ∧
    (∀ (q : List Frame) (p : Port), (∃ f ∈ s.link.queue, f.internalKind = some .mic) →
      q = s.link.queue.filter (fun f => decide (f.internalKind ≠ some .mic)) →
      p = (if s.port.serving = true ∧ q = [] then
        { s.port with serving := false, reply := { status := .ok, data := [] } } else s.port) →
      (s.mic.cls = some .chair → closeOpening why s = { s with
        link := { s.link with queue := q }, port := p, mic := .reset, capture := { s.capture with placing := false } }) ∧
      (s.mic.cls ≠ some .chair → closeOpening why s = offerFrame (.withdraw s.meetingId) { s with
        link := { s.link with queue := q }, port := p,
        floor := { s.floor with queue := s.floor.queue.filter (fun r => decide (r.seat ≠ s.config.seat)) },
        mic := .reset, capture := { s.capture with placing := false } }))) ∧
  (∀ s : State, RunTaken s →
    (s.config.role ≠ .seat ∨ s.station = .clash → exec .press s = .next (s.answered .badState)) ∧
    (s.config.role = .seat → s.station = .run → s.meeting.state = .idle →
      exec .press s = .next (settle { s.answered .badState with controls := { s.controls with flash := 125 } }))) ∧
  (∀ s u : State, u = { s with controls := { s.controls with mic := { pressed := true, difference := 0 } } } →
    s.config.role = .seat →
    (s.station = .setup ∨ (s.station = .run ∧ s.meeting.state = .idle) →
      exec .micPress s = .next (settle { u with controls := { u.controls with flash := 125 } })) ∧
    (s.station = .clash → exec .micPress s = .next (settle u))) ∧
  (∀ s : State, s.config.role ≠ .seat → exec .micPress s = .next s)

/-- R78 to R81: a second of a limited budget with its warning test, its end under either kind, and the close for
silence, each as the event of its own row (notes/assumptions/2.md); the budget at the start of an opening, none for
the chair (R73); a time grant; a block of the second count and of the silence count. R55 and R65: a close of the own
accord: the own seat leaves the own open set with the CLOSED notice, a CLOSE is offered, and under FLOOR_ONLY the
claim is released after it (notes/assumptions/15.md). That the whole own-microphone record takes its reset values at
that close is the model's reading (16.md). -/
def Obligations.BudgetAndSilenceCloseTheMicrophone : Prop :=
  (∀ s : State, s.mic.state = .open →
    (∀ (n : Nat) (u : State), s.mic.remaining = some (n + 2) → s.mic.overrun = false →
      u = settle { s with mic := { s.mic with remaining := some (n + 1), secondCount := 0 } } →
      (0 < s.meeting.profile.warning → n + 1 ≤ s.meeting.profile.warning → s.mic.warned = false →
        exec .budgetSecond s = .next (settle (notify (.timeWarning s.config.seat)
          { u with mic := { u.mic with warned := true } }))) ∧
      (s.meeting.profile.warning < n + 1 →
        exec .budgetSecond s = .next (settle { u with mic := { u.mic with warned := false } })) ∧
      (s.mic.warned = true → n + 1 ≤ s.meeting.profile.warning → exec .budgetSecond s = .next u)) ∧
    (∀ n : Nat, s.mic.remaining = some n → n ≤ 1 → s.mic.overrun = false → exec .budgetSecond s
      = .next (settle (budgetExpires (warningTest { s with mic := { s.mic with remaining := some 0, secondCount := 0 } })))) ∧
    (∀ n : Nat, s.mic.remaining = some n → s.mic.overrun = true →
      exec .budgetSecond s = .next (settle { s with mic := { s.mic with
        secondCount := 0, overrunCount := if s.mic.overrunCount < 999 then s.mic.overrunCount + 1 else s.mic.overrunCount } })) ∧
    (∀ (n : Nat) (u : State), s.mic.remaining = some n → s.mic.overrun = false →
      s.meeting.profile.warning = 0 ∨ s.mic.warned = true →
      u = settle { s with mic := { s.mic with remaining := some 0, secondCount := 0 } } →
      (s.meeting.profile.budgetKind = .hard →
        exec .budgetExpiry s = .next (settle (notify (.timeExpired s.config.seat) (micClose .timeout u)))) ∧
      (s.meeting.profile.budgetKind = .soft →
        exec .budgetExpiry s = .next (settle (notify (.timeExpired s.config.seat)
          { u with mic := { u.mic with overrun := true, overrunCount := 0 } })))) ∧
    (∀ (n : Nat) (u v : State), s.mic.remaining = some n → s.mic.overrun = false →
      0 < s.meeting.profile.warning → s.mic.warned = false →
      u = settle { s with mic := { s.mic with remaining := some 0, secondCount := 0 } } →
      v = settle (notify (.timeWarning s.config.seat) { u with mic := { u.mic with warned := true } }) →
      (s.meeting.profile.budgetKind = .hard →
        exec .budgetExpiry s = .next (settle (notify (.timeExpired s.config.seat) (micClose .timeout v)))) ∧
      (s.meeting.profile.budgetKind = .soft →
        exec .budgetExpiry s = .next (settle (notify (.timeExpired s.config.seat)
          { v with mic := { v.mic with overrun := true, overrunCount := 0 } })))) ∧
    (s.mic.cls = some .delegate → s.capture.talking = false → 0 < s.meeting.profile.silence ∨ s.meeting.profile.mode = .voice →
      exec .silenceClose s = .next (settle (micClose .silence s)))) ∧
  (∀ s u : State, u = settle s →
    (s.mic.remaining = none → warningTest s = u) ∧
    (∀ n : Nat, s.mic.remaining = some n →
      (0 < s.meeting.profile.warning → n ≤ s.meeting.profile.warning → s.mic.warned = false →
        warningTest s = settle (notify (.timeWarning s.config.seat) { u with mic := { u.mic with warned := true } })) ∧
      (s.meeting.profile.warning < n → warningTest s = settle { u with mic := { u.mic with warned := false } }) ∧
      (n ≤ s.meeting.profile.warning → s.meeting.profile.warning = 0 ∨ s.mic.warned = true → warningTest s = u)) ∧
    startBudget s = warningTest { s with mic := { s.mic with
      remaining := if s.mic.cls = some .delegate ∧ 0 < s.meeting.profile.budget then some s.meeting.profile.budget else none,
      secondCount := 0, warned := false, overrun := false, overrunCount := 0 } } ∧
    (∀ k : Nat,
      (s.mic.state ≠ .open ∨ s.mic.cls ≠ some .delegate ∨ s.mic.remaining = none → micTimeAdd k s = s) ∧
      (∀ n : Nat, s.mic.state = .open → s.mic.cls = some .delegate → s.mic.remaining = some n →
        (s.mic.overrun = false →
          micTimeAdd k s = warningTest { s with mic := { s.mic with remaining := some (min 600 (n + k)) } }) ∧
        (s.mic.overrun = true → micTimeAdd k s
          = warningTest { s with mic := { s.mic with remaining := some k, overrun := false, overrunCount := 0 } }))) ∧
    (s.meeting.profile.budgetKind = .hard →
      budgetExpires s = notify (.timeExpired s.config.seat) (micClose .timeout s)) ∧
    (s.meeting.profile.budgetKind = .soft → budgetExpires s = notify (.timeExpired s.config.seat)
      { s with mic := { s.mic with overrun := true, overrunCount := 0 } }) ∧
    (∀ why : Reason, s.floor.isOpen s.config.seat = true → s.port.notices.length < 16 →
      micClose why s = leaveOpenRelease (offerFrame (.close s.meetingId s.config.seat why)
        (settle { s with floor := { s.floor with openSet := s.floor.openSet.filter (fun r => decide (r.seat ≠ s.config.seat)) },
                         mic := .reset, capture := { s.capture with placing := false },
                         link := { s.link with voiceSlot := none },
                         port := { s.port with notices := s.port.notices ++ [.closed s.config.seat why] } })))) ∧
  (∀ s : State,
    (s.mic.state ≠ .open ∨ s.mic.remaining = none → budgetBlock s = s) ∧
    (s.mic.state = .open → s.mic.remaining ≠ none →
      (s.mic.secondCount < 249 → budgetBlock s = { s with mic := { s.mic with secondCount := s.mic.secondCount + 1 } }) ∧
      (249 ≤ s.mic.secondCount → exec .budgetSecond s = .next (settle (budgetBlock s)))) ∧
    (s.mic.state ≠ .open ∨ s.mic.cls ≠ some .delegate ∨ s.capture.talking = true → silenceBlock s = s) ∧
    (∀ (n limit : Nat) (t : State), s.mic.state = .open → s.mic.cls = some .delegate → s.capture.talking = false →
      n = (if s.mic.silence < 15000 then s.mic.silence + 1 else s.mic.silence) →
      limit = (if 0 < s.meeting.profile.silence then s.meeting.profile.silence * 250 else 750) →
      t = { s with mic := { s.mic with silence := n } } →
      (n < limit ∨ (s.meeting.profile.silence = 0 ∧ s.meeting.profile.mode ≠ .voice) → silenceBlock s = t) ∧
      (limit ≤ n → 0 < s.meeting.profile.silence ∨ s.meeting.profile.mode = .voice → silenceBlock s = micClose .silence t)))

/-! ## Chair and screen commands -/

/-- R82 to R85: the checks of a chair's command in their order, and the frame that each offers; END_MEETING (R158) and
EXTEND_MEETING (R146) make the same first checks. R73: the station is the chair where its own seat is the chair seat
of the running meeting. The PRIORITY button at the chair is an order to turn priority on or off; where R85 does not
take it the button's own state alone changes, and at a DOOR or WALL station nothing (R62). -/
def Obligations.ChairCommandsCheckThenOffer : Prop :=
  (∀ (seat cond value : Byte) (seconds : BitVec 16) (s : State), RunTaken s →
    (seat.toNat = 0 ∨ 48 < seat.toNat →
      exec (.addTime seat seconds) s = .next (s.answered .badParam) ∧ exec (.grant seat cond) s = .next (s.answered .badParam) ∧
      exec (.closeSeat seat cond) s = .next (s.answered .badParam)) ∧
    (cond.toNat = 0 ∨ 3 < cond.toNat → exec (.grant seat cond) s = .next (s.answered .badParam)) ∧
    (cond.toNat = 0 ∨ 2 < cond.toNat → exec (.closeSeat seat cond) s = .next (s.answered .badParam)) ∧
    (1 < value.toNat → exec (.priority value) s = .next (s.answered .badParam)) ∧
    (∀ x : Status, (s.station = .clash ∧ x = .badState) ∨ (s.station = .run ∧ s.isChair = false ∧ x = .notChair) →
      (1 ≤ seat.toNat → seat.toNat ≤ 48 → exec (.addTime seat seconds) s = .next (s.answered x) ∧
        (1 ≤ cond.toNat → cond.toNat ≤ 3 → exec (.grant seat cond) s = .next (s.answered x)) ∧
        (1 ≤ cond.toNat → cond.toNat ≤ 2 → exec (.closeSeat seat cond) s = .next (s.answered x))) ∧
      (value.toNat ≤ 1 → exec (.priority value) s = .next (s.answered x)) ∧
      exec .clearQueue s = .next (s.answered x) ∧ exec .endMeeting s = .next (s.answered x) ∧
      (∀ minutes : Byte, exec (.extendMeeting minutes) s = .next (s.answered x)))) ∧
  (∀ (seat cond : Byte) (seconds : BitVec 16) (s : State) (out : Body → State), ChairTaken s → 1 ≤ seat.toNat → seat.toNat ≤ 48 →
    (∀ b : Body, out b = if hostFrames s.link.queue < 5 then settle (offerHost b (s.answered .ok)) else s.answered .queueFull) →
    exec (.addTime seat seconds) s = .next (out (.timeAdd s.meeting.id seat.toNat (max 1 (min seconds.toNat 600)))) ∧
    exec .clearQueue s = .next (out (.clear s.meeting.id)) ∧
    (∀ holds : Prop,
      (holds ↔ cond.toNat = 1 ∨ (cond.toNat = 2 ∧ s.floor.position seat.toNat = some 1) ∨
        (cond.toNat = 3 ∧ s.floor.isQueued seat.toNat = true)) → 1 ≤ cond.toNat → cond.toNat ≤ 3 →
      (¬ holds → exec (.grant seat cond) s = .next (s.answered .notMatched)) ∧
      (holds → s.meeting.profile.limit ≤ s.floor.delegates.length → exec (.grant seat cond) s = .next (s.answered .full)) ∧
      (holds → s.floor.delegates.length < s.meeting.profile.limit →
        exec (.grant seat cond) s = .next (out (.grant s.meeting.id seat.toNat)))) ∧
    (∀ holds : Prop,
      (holds ↔ cond.toNat = 1 ∨ (cond.toNat = 2 ∧ s.floor.delegates.head?.map (fun r => r.seat) = some seat.toNat)) →
      1 ≤ cond.toNat → cond.toNat ≤ 2 →
      (¬ holds → exec (.closeSeat seat cond) s = .next (s.answered .notMatched)) ∧
      (holds → seat.toNat = s.config.seat → exec (.closeSeat seat cond) s = .next (s.answered .badParam)) ∧
      (holds → seat.toNat ≠ s.config.seat →
        exec (.closeSeat seat cond) s = .next (out (.close s.meeting.id seat.toNat .chair))))) ∧
  (∀ (on : Bool) (s : State), ChairTaken s →
    (s.meeting.profile.priorityAllowed = false → exec (.priority (flagByte on)) s = .next (s.answered .badState)) ∧
    (s.meeting.profile.priorityAllowed = true →
      exec (.priority (flagByte on)) s = .next (settle (offerFrame (.priority s.meeting.id on) (s.answered .ok))))) ∧
  (∀ (on : Bool) (s u : State), s.config.role = .seat →
    u = { s with controls := { s.controls with priority := { pressed := on, difference := 0 } } } →
    (s.station = .run → s.isChair = true → s.meeting.profile.priorityAllowed = true →
      exec (if on then .priorityPress else .priorityRelease) s
        = .next (settle (offerFrame (.priority s.meeting.id on) u))) ∧
    (s.station ≠ .run ∨ s.isChair = false ∨ s.meeting.profile.priorityAllowed = false →
      exec (if on then .priorityPress else .priorityRelease) s = .next (settle u))) ∧
  (∀ (on : Bool) (s : State), s.config.role ≠ .seat → exec (if on then .priorityPress else .priorityRelease) s = .next s) ∧
  (∀ s : State, s.isChair = true ↔ s.meeting.state ≠ .idle ∧ s.config.seat = s.meeting.chair ∧ s.config.seat ≠ 0)

/-- R173 and R175: SHARE, the SHARE button and UNSHARE: the checks in their order, the claim and the release. A press
of the button that a check refuses, in CLASH, in SETUP and while no meeting runs as well, changes nothing but the
button's own state, and at a DOOR or WALL station nothing (R62). The release by the claim state: in CLAIMING with the
SHARE cancelled in the queue the map's own entry is emptied and the claim NONE, otherwise the release mark is set; in
SHARING the entry is emptied and the claim NONE. Under FLOOR_ONLY a station that is not the chair releases what it
claims when its own microphone leaves OPEN. Screen and stamp of a NONE claim are 0 (notes/assumptions/17.md), and the
release follows the frame of the close (15.md). -/
def Obligations.ShareCommandsClaimAndRelease : Prop :=
  (∀ (screen : Byte) (s : State), RunTaken s →
    (2 < screen.toNat → exec (.share screen) s = .next (s.answered .badParam)) ∧
    (screen.toNat ≤ 2 →
      (s.config.role ≠ .seat ∨ s.station = .clash ∨ s.meeting.state = .idle →
        exec (.share screen) s = .next (s.answered .badState)) ∧
      (s.config.role = .seat → s.station = .run → s.meeting.state ≠ .idle →
        (s.meeting.profile.shareRule = .floorOnly → s.mic.state ≠ .open → s.isChair = false →
          exec (.share screen) s = .next (s.answered .notOpen)) ∧
        (s.meeting.profile.shareRule = .free ∨ s.mic.state = .open ∨ s.isChair = true →
          (s.share.claim = .claiming → exec (.share screen) s = .next (s.answered .busy)) ∧
          (s.share.claim ≠ .claiming → ∀ n : Nat, n = (if screen.toNat = 0 then s.config.shareScreen else screen.toNat) →
            exec (.share screen) s = .next (settle (makeClaim n (s.answered .ok)))))))) ∧
  (∀ (s u : State), s.config.role = .seat → s.station = .run → s.meeting.state ≠ .idle →
    u = { s with controls := { s.controls with share := { pressed := true, difference := 0 } } } →
    (s.share.claim = .none → s.meeting.profile.shareRule = .free ∨ s.mic.state = .open ∨ s.isChair = true →
      exec .sharePress s = .next (settle (makeClaim s.config.shareScreen u))) ∧
    (s.share.claim = .none → s.meeting.profile.shareRule = .floorOnly → s.mic.state ≠ .open → s.isChair = false →
      exec .sharePress s = .next (settle u)) ∧
    (s.share.claim ≠ .none → exec .sharePress s = .next (settle (releaseClaim u)))) ∧
  (∀ s u : State, s.config.role = .seat →
    u = { s with controls := { s.controls with share := { pressed := true, difference := 0 } } } →
    s.station = .clash ∨ s.meeting.state = .idle ∨ (IdleEmpty s ∧ s.station = .setup) → exec .sharePress s = .next (settle u)) ∧
  (∀ s : State, s.config.role ≠ .seat → exec .sharePress s = .next s) ∧
  (∀ s : State, RunTaken s →
    (s.config.role ≠ .seat ∨ s.station = .clash ∨ s.meeting.state = .idle →
      exec .unshare s = .next (s.answered .badState)) ∧
    (s.config.role = .seat → s.station = .run → s.meeting.state ≠ .idle →
      exec .unshare s = .next (settle (releaseClaim (s.answered .ok))))) ∧
  (∀ (s : State) (n k : Nat), s.floor.stamp ≤ maxStamp → k = min (s.floor.stamp + 1) maxStamp →
    makeClaim n s = { offerFrame (.share s.meetingId n k) { s with floor := { s.floor with stamp := k } } with
      share := { s.share with claim := .claiming, claimScreen := n, claimStamp := k, release := false } }) ∧
  (∀ (s u : State) (x : Offered) (gone : Share), offer (.unshare s.meetingId) s = (u, x) →
    gone = { s.share with
      screen1 := s.share.screen1.filter (fun p => decide (p.seat ≠ s.config.seat)),
      screen2 := s.share.screen2.filter (fun p => decide (p.seat ≠ s.config.seat)),
      claim := .none, claimScreen := 0, claimStamp := 0, release := false } →
    (s.share.claim = .none → releaseClaim s = u) ∧
    (s.share.claim = .claiming → x = .cancelled → releaseClaim s = { u with share := gone }) ∧
    (s.share.claim = .claiming → x ≠ .cancelled → releaseClaim s = { u with share := { s.share with release := true } }) ∧
    (s.share.claim = .sharing → releaseClaim s = { u with share := gone }) ∧
    (s.meeting.profile.shareRule = .floorOnly → s.isChair = false → s.share.claim ≠ .none →
      leaveOpenRelease s = releaseClaim s) ∧
    (s.meeting.profile.shareRule = .free ∨ s.isChair = true ∨ s.share.claim = .none → leaveOpenRelease s = s))

/-- R171: the claim rule on each screen, which changes nothing but the map; and the note to R172: claims of two seats
on one screen, neither against a chair presenter nor by the chair, end alike in either order. R171 and R175: another
seat's claim: its stamp raises the counter, the rule runs, and where it takes the screen the own seat presents on,
SHARE_LOST is raised and an own claim in SHARING is NONE. R172: a beacon's share state. R174: SENT of the own SHARE,
which raises the counter where it does not have the stamp yet (notes/assumptions/22.md) and whose ignored renewal
names the own seat (24.md), and its ABANDONED. Screen and stamp of a NONE claim are 17.md, and those of a claim that
returns to SHARING, taken from the own map, are 43.md. -/
def Obligations.ClaimsOnAScreenEndAlikeInEitherOrder : Prop :=
  (∀ (h g : Share) (seat stamp chair : Nat), g = h.claimRule seat 1 stamp chair →
    (h.screen1 = none → g.screen1 = some { seat := seat, stamp := stamp }) ∧
    (∀ p : Presenter, h.screen1 = some p →
      (p.seat = chair → seat ≠ chair → g.screen1 = some p) ∧
      (p.seat ≠ chair ∨ seat = chair →
        (p.stamp < stamp ∨ (p.stamp = stamp ∧ p.seat < seat) → g.screen1 = some { seat := seat, stamp := stamp }) ∧
        (stamp < p.stamp ∨ (p.stamp = stamp ∧ seat ≤ p.seat) → g.screen1 = some p))) ∧
    (∀ p : Presenter, h.screen2 = some p → g.screen2 = if p.seat = seat then none else some p) ∧
    (h.screen2 = none → g.screen2 = none)) ∧
  (∀ (h g : Share) (seat stamp chair : Nat), g = h.claimRule seat 2 stamp chair →
    (h.screen2 = none → g.screen2 = some { seat := seat, stamp := stamp }) ∧
    (∀ p : Presenter, h.screen2 = some p →
      (p.seat = chair → seat ≠ chair → g.screen2 = some p) ∧
      (p.seat ≠ chair ∨ seat = chair →
        (p.stamp < stamp ∨ (p.stamp = stamp ∧ p.seat < seat) → g.screen2 = some { seat := seat, stamp := stamp }) ∧
        (stamp < p.stamp ∨ (p.stamp = stamp ∧ seat ≤ p.seat) → g.screen2 = some p))) ∧
    (∀ p : Presenter, h.screen1 = some p → g.screen1 = if p.seat = seat then none else some p) ∧
    (h.screen1 = none → g.screen1 = none)) ∧
  (∀ (h : Share) (seat screen stamp chair : Nat), h.claimRule seat screen stamp chair
    = { h with screen1 := (h.claimRule seat screen stamp chair).screen1,
               screen2 := (h.claimRule seat screen stamp chair).screen2 }) ∧
  (∀ (h : Share) (a b ka kb screen chair : Nat), screen = 1 ∨ screen = 2 → a ≠ b → a ≠ chair → b ≠ chair →
    (h.claimRule a screen ka chair).claimRule b screen kb chair
      = (h.claimRule b screen kb chair).claimRule a screen ka chair) ∧
  (∀ (k screen stamp : Nat) (s t : State) (g lostClaim : Share) (lost : Prop),
    t = floorStep { floor := { s.floor with stamp := max s.floor.stamp stamp }, left := [] } s →
    g = t.share.claimRule k screen stamp t.meeting.chair →
    lostClaim = { g with claim := .none, claimScreen := 0, claimStamp := 0, release := false } →
    (lost ↔ (∃ p : Presenter, t.share.presenter screen = some p ∧ p.seat = s.config.seat) ∧
      ∀ p : Presenter, g.presenter screen = some p → p.seat ≠ s.config.seat) →
    (¬ lost → shareClaimed k screen stamp s = { t with share := g }) ∧
    (lost → shareClaimed k screen stamp s = shareLost screen k
      (settle { t with share := if t.share.claim = .sharing then lostClaim else g }))) ∧
  (∀ (screen k : Nat) (m : Message) (s : State), screen = 1 ∨ screen = 2 →
    m = { lifetime := 750, text := if screen = 1 then text "Screen 1 taken" else text "Screen 2 taken" } →
    shareLost screen k s = { s with port := s.port.push (.shareLost screen k), screen := { s.screen with transient := m } }) ∧
  (∀ (k : Nat) (s : State),
    shareSync k none s = { s with share := { s.share with
      screen1 := s.share.screen1.filter (fun p => decide (p.seat ≠ k)),
      screen2 := s.share.screen2.filter (fun p => decide (p.seat ≠ k)) } } ∧
    (∀ screen stamp : Nat, screen = 1 ∨ screen = 2 → s.share.holds k = some (screen, stamp) →
      shareSync k (some (screen, stamp)) s
        = floorStep { floor := { s.floor with stamp := max s.floor.stamp stamp }, left := [] } s) ∧
    (∀ screen stamp : Nat, s.share.holds k ≠ some (screen, stamp) →
      shareSync k (some (screen, stamp)) s = shareClaimed k screen stamp s)) ∧
  (∀ (screen stamp : Nat) (s t : State) (g : Share), screen = 1 ∨ screen = 2 →
    g = s.share.claimRule s.config.seat screen stamp s.meeting.chair →
    t = { s with floor := { s.floor with stamp := max s.floor.stamp stamp }, share := g } →
    (s.share.release = true → shareSent screen stamp s = { t with share := { g with
      screen1 := g.screen1.filter (fun p => decide (p.seat ≠ s.config.seat)),
      screen2 := g.screen2.filter (fun p => decide (p.seat ≠ s.config.seat)),
      claim := .none, claimScreen := 0, claimStamp := 0, release := false } }) ∧
    (∀ p : Presenter, s.share.release = false → s.share.presenter screen = some p → p.seat = s.config.seat →
      stamp ≤ p.stamp → shareSent screen stamp s = shareLost screen s.config.seat (settle { t with share := { g with
        claim := .sharing, claimScreen := screen, claimStamp := p.stamp, release := false } })) ∧
    (s.share.release = false → g.presenter screen = some { seat := s.config.seat, stamp := stamp } →
        s.share.presenter screen ≠ some { seat := s.config.seat, stamp := stamp } →
      shareSent screen stamp s = { t with share := { g with
        claim := .sharing, claimScreen := screen, claimStamp := stamp, release := false } }) ∧
    (∀ p : Presenter, s.share.release = false → g.presenter screen = some p → p.seat ≠ s.config.seat →
      shareSent screen stamp s = shareLost screen p.seat (settle { t with share := { g with
        claim := .none, claimScreen := 0, claimStamp := 0, release := false } }))) ∧
  (∀ s : State,
    (s.share.claim ≠ .claiming → shareAbandoned s = s) ∧
    (s.share.claim = .claiming → s.share.release = true → shareAbandoned s = { s with share := { s.share with
      screen1 := s.share.screen1.filter (fun p => decide (p.seat ≠ s.config.seat)),
      screen2 := s.share.screen2.filter (fun p => decide (p.seat ≠ s.config.seat)),
      claim := .none, claimScreen := 0, claimStamp := 0, release := false } }) ∧
    (s.share.claim = .claiming → s.share.release = false →
      (∀ screen stamp : Nat, s.share.holds s.config.seat = some (screen, stamp) → shareAbandoned s = { s with
        share := { s.share with claim := .sharing, claimScreen := screen, claimStamp := stamp } }) ∧
      (s.share.holds s.config.seat = none → shareAbandoned s = { s with share := { s.share with
        claim := .none, claimScreen := 0, claimStamp := 0, release := false } }))) ∧
  (∀ h : Share, h.presenter 1 = h.screen1 ∧ h.presenter 2 = h.screen2)

/-! ## The link -/

/-- R16 and R17: the end of an attempt: another attempt, or SENT or ABANDONED with the effect at the frame's owner,
and the next selection, in the order of notes/assumptions/7.md, each outcome with the values that the frame carries
(notes/assumptions/12.md). SEND_FAILED for a VOICE frame that the filter withholds (8.md), and SENT of the own CLOSE,
GRANT, CLEAR and PRIORITY without a test that the station is the chair (29.md, R56), are the model's readings. A frame
that a reset or CLASH has voided ends with no outcome (R5, R18). R69 and R70: SENT of the own OPEN in its four cases,
and its ABANDONED. With a close pending SENT starts no budget (13.md), and ABANDONED at a seat no longer queued sends
nothing (14.md); CLOSED and WAITING leave the record as 16.md says. R18: the end of the attempt that a full reset left
on the link frees the link and does nothing else (6.md); with nothing in send there is no attempt to end. R56 with R45
to R47, R76 and R36: what SENT of the own GRANT, CLEAR and PRIORITY does in the own view and at the own seat. -/
def Obligations.AttemptsEndInSentOrAbandoned : Prop :=
  (∀ (s : State) (x : Sending), s.link.finishing = false → s.link.inSend = some x →
    (x.voided = true →
      exec .attemptClear s = .next (settle s.linkFreed) ∧ exec .attemptFailed s = .next (settle s.linkFreed)) ∧
    (x.voided = false →
      (∀ v : State, (∀ b : Body, b = x.frame.body →
          v = match b with
            | .opening m o q c => if s.filterPasses m then openSent o q c s else s
            | .close m target why =>
                if s.filterPasses m = true ∧ target ≠ x.frame.source then viewClose target why s else s
            | .grant m target => if s.filterPasses m then viewGrant target s else s
            | .clear m => if s.filterPasses m then viewClear s else s
            | .priority m on => if s.filterPasses m then viewPriority on s else s
            | .share m screen stamp => if s.filterPasses m then shareSent screen stamp s else s
            | .endNow id => endNowOutcome id s
            | _ => s) →
        exec .attemptClear s = .next (settle v.linkFreed)) ∧
      (x.attempt < 8 → exec .attemptFailed s = .next (settle { s with
        link := { s.link with inSend := some { x with attempt := x.attempt + 1 } } })) ∧
      (∀ u v : State, 8 ≤ x.attempt →
        u = { s with
          link := { s.link with abandoned := if s.link.abandoned < 65535 then s.link.abandoned + 1 else s.link.abandoned },
          port := if x.clash then s.port else s.port.push (.sendFailed x.frame.body.kindCode.toNat) } →
        (∀ b : Body, b = x.frame.body →
          v = match b with
            | .opening m _ _ _ => if s.filterPasses m then openAbandoned u else u
            | .share m _ _ => if s.filterPasses m then shareAbandoned u else u
            | .extendAsk id _ => extendAskAbandoned id u
            | .endNow id => endNowOutcome id u
            | _ => u) →
        exec .attemptFailed s = .next (settle v.linkFreed)))) ∧
  (∀ (o q : Nat) (c d : OpenClass) (x : FloorStep) (s u v : State),
    d = (if c = .chair ∧ s.isChairSeat s.config.seat = false then .delegate else c) →
    x = s.floor.opening s.config.seat d o q s.blockNumber s.meeting.profile.limit →
    u = { settle (storeStep x s) with
          mic := { s.mic with cls := some d, openStamp := o, requestStamp := q, closePending := none } } →
    v = { u with mic := { u.mic with state := .open, silence := 0 }, capture := { u.capture with placing := true } } →
    (x.floor.isOpen s.config.seat = true →
      (s.mic.closePending = none → openSent o q c s = evalMic (startBudget v)) ∧
      (∀ why : Reason, s.mic.closePending = some why → openSent o q c s = micClose why (settle v))) ∧
    (x.floor.isOpen s.config.seat = false →
      (s.mic.closePending = none → openSent o q c s = evalMic (micDisplaced u)) ∧
      (∀ (why : Reason) (w : State), s.mic.closePending = some why →
        w = offerFrame (.close s.meetingId s.config.seat why) u →
        openSent o q c s = offerFrame (.withdraw s.meetingId) { w with
          floor := { w.floor with queue := w.floor.queue.filter (fun r => decide (r.seat ≠ s.config.seat)) },
          mic := .reset, capture := { w.capture with placing := false } }))) ∧
  (∀ s u : State, u = { s with mic := .reset, capture := { s.capture with placing := false } } →
    (s.mic.state ≠ .opening → openAbandoned s = s) ∧
    (s.mic.state = .opening →
      (s.mic.cls = some .chair ∨ s.floor.isQueued s.config.seat = false → openAbandoned s = u) ∧
      (s.mic.cls ≠ some .chair → s.floor.isQueued s.config.seat = true →
        (s.mic.closePending = none → openAbandoned s
          = evalMic { s with mic := { s.mic with state := .waiting, cls := none, openStamp := 0 } }) ∧
        (s.mic.closePending ≠ none → openAbandoned s = offerFrame (.withdraw s.meetingId) { u with
          floor := { u.floor with queue := u.floor.queue.filter (fun r => decide (r.seat ≠ s.config.seat)) } })))) ∧
  (∀ s : State,
    (s.link.finishing = true →
      exec .attemptClear s = .next (settle (select { s with link := { s.link with finishing := false } })) ∧
      exec .attemptFailed s = .next (settle (select { s with link := { s.link with finishing := false } }))) ∧
    (s.link.finishing = false → s.link.inSend = none →
      exec .attemptClear s = .next (settle s) ∧ exec .attemptFailed s = .next (settle s))) ∧
  (∀ (target : Nat) (s : State), viewGrant target s = evalMic (settle { s with floor := { s.floor with
    queue := s.floor.queue.map (fun r => if r.seat = target then { r with granted := true } else r) } })) ∧
  (∀ s u : State, u = { s with floor := { s.floor with queue := [] } } →
    (s.floor.isQueued s.config.seat = false ∨ s.mic.state = .closed ∨ s.mic.state = .open → viewClear s = evalMic u) ∧
    (s.floor.isQueued s.config.seat = true →
      (s.mic.state = .waiting →
        viewClear s = evalMic { u with mic := .reset, capture := { u.capture with placing := false } }) ∧
      (s.mic.state = .opening →
        (∀ v : State, withdrawOpen u = (v, .withdrawn) →
          viewClear s = evalMic { v with mic := .reset, capture := { v.capture with placing := false } }) ∧
        (∀ (v : State) (x : Withdrawal), withdrawOpen u = (v, x) → x ≠ .withdrawn → viewClear s = evalMic v)))) ∧
  (∀ (on : Bool) (s u : State), u = settle { s with floor := { s.floor with
      priority := if on then s.floor.priority || s.meeting.profile.priorityAllowed else false } } →
    (on = true → s.meeting.profile.priorityAllowed = true → s.floor.priority = false →
      s.meeting.profile.priorityCloses = true → s.mic.state = .open → s.mic.cls = some .delegate →
      viewPriority on s = evalMic (micClose .chair u)) ∧
    (on = false ∨ s.meeting.profile.priorityAllowed = false ∨ s.floor.priority = true ∨
        s.meeting.profile.priorityCloses = false ∨ s.mic.state ≠ .open ∨ s.mic.cls ≠ some .delegate →
      viewPriority on s = evalMic u))

/-- R9, R10, R12 to R15: the holders. A selection takes the voice slot, then the oldest control frame, then the
pending beacon, and in CLASH the clash beacon alone (R6); a beacon is composed as it starts (R20), with the next held
booking after the rotation mark, which then moves (R139); an offered internal frame joins, replaces one of its kind in
its place, or cancels its inverse, by the internal kinds of R11 and the four inverse pairs of R12, and every other
control frame is host-originated; a VOICE frame replaces one that waits, which is counted, and starts at once on a
free link. After an offer a selection is made where the link is free; a FLUSH being served completes with an emptied
queue (R183). An admitted host frame joins the tail. R14: the three answers to a withdrawal. -/
def Obligations.HoldersReplaceCancelAndSelect : Prop :=
  (∀ s : State,
    (s.link.inSend ≠ none ∨ s.link.finishing = true ∨ s.station = .setup → select s = s) ∧
    (s.link.inSend = none → s.link.finishing = false → s.station = .run →
      (∀ f : Frame, s.link.voiceSlot = some f → select s = { s with link := { s.link with
        voiceSlot := none, inSend := some { frame := f, attempt := 1, clash := false, voided := false } } }) ∧
      (∀ (f : Frame) (rest : List Frame), s.link.voiceSlot = none → s.link.queue = f :: rest →
        (s.port.serving = false ∨ rest ≠ [] → select s = { s with link := { s.link with
          queue := rest, inSend := some { frame := f, attempt := 1, clash := false, voided := false } } }) ∧
        (s.port.serving = true → rest = [] → select s = { s with
          link := { s.link with queue := rest, inSend := some { frame := f, attempt := 1, clash := false, voided := false } },
          port := { s.port with serving := false, reply := { status := .ok, data := [] } } })) ∧
      (∀ x : Sending, s.link.voiceSlot = none → s.link.queue = [] → s.link.beaconSlot ≠ none →
        x = { frame := { source := s.config.seat, body := .beacon (composeBeacon s) }, attempt := 1, clash := false,
              voided := false } →
        select s = { s with
          link := { s.link with beaconSlot := none, inSend := some x },
          calendar := { s.calendar with rotation := markAfter s.calendar.rotation (composeBeacon s).entry } }) ∧
      (s.link.voiceSlot = none → s.link.queue = [] → s.link.beaconSlot = none → select s = s)) ∧
    (s.link.inSend = none → s.link.finishing = false → s.station = .clash →
      (s.link.beaconSlot = some .clash → select s = { s with link := { s.link with
        beaconSlot := none,
        inSend := some { frame := { source := s.config.seat, body := .beacon (composeClashBeacon s) }, attempt := 1,
                         clash := true, voided := false } } }) ∧
      (s.link.beaconSlot ≠ some .clash → select s = s))) ∧
  (∀ (s : State) (day second : Nat),
    (s.calendar.clock.set = true → day = s.calendar.clock.day ∧ second = s.calendar.clock.second) →
    (s.calendar.clock.set = false → day = 65535 ∧ second = 86399) →
    composeBeacon s = {
      role := s.config.role, name := s.config.name,
      meeting := if s.meeting.state = .idle then none else s.meeting.id, endedEarly := s.meeting.endedEarly,
      mic := (s.floor.openRecord s.config.seat).map (fun r => (r.openStamp, r.requestStamp)),
      request := (s.floor.queueRecord s.config.seat).map (fun r => r.requestStamp),
      share := s.share.holds s.config.seat, priority := s.floor.priority, day := day, second := second,
      entry := nextHeld s.calendar.view s.calendar.rotation } ∧
    composeClashBeacon s = {
      role := s.config.role, name := s.config.name, meeting := none, endedEarly := none, mic := none, request := none,
      share := none, priority := false, day := day, second := second, entry := none }) ∧
  (∀ (h : Share) (k : Nat),
    (∀ p : Presenter, h.screen1 = some p → p.seat = k → h.holds k = some (1, p.stamp)) ∧
    ((∀ p : Presenter, h.screen1 = some p → p.seat ≠ k) →
      (∀ p : Presenter, h.screen2 = some p → p.seat = k → h.holds k = some (2, p.stamp)) ∧
      ((∀ p : Presenter, h.screen2 = some p → p.seat ≠ k) → h.holds k = none))) ∧
  (∀ (v : List Entry) (mark : RotationMark) (start : Nat), start = mark.startDay * 1440 + mark.startMinute →
    nextHeld v none = (v.find? (fun e => e.held)).map (fun e => e.wire) ∧
    (∀ e : Entry, v.find? (fun e => e.held && viewKeyLt start mark.id e.wire.start e.wire.id) = some e →
      nextHeld v (some mark) = some e.wire) ∧
    ((∀ e ∈ v, e.held = true → viewKeyLt start mark.id e.wire.start e.wire.id = false) →
      nextHeld v (some mark) = (v.find? (fun e => e.held)).map (fun e => e.wire))) ∧
  (∀ (m n : Nat) (i j : Bid), viewKeyLt m i n j = true ↔
    m < n ∨ (m = n ∧ (i.holder < j.holder ∨ (i.holder = j.holder ∧ i.serial < j.serial)))) ∧
  (∀ (mark : Option RotationMark) (w : WireEntry), markAfter mark none = mark ∧
    markAfter mark (some w) = some { id := w.id, startDay := w.startDay, startMinute := w.startMinute }) ∧
  (∀ (f x : Frame) (l r : List Frame), f.internalKind ≠ none → (∀ y ∈ l, y.internalKind ≠ f.internalKind) →
    coalesce f l = (l ++ [f], .joined) ∧
    (x.internalKind = f.internalKind → inversePair x f = true → coalesce f (l ++ x :: r) = (l ++ r, .cancelled)) ∧
    (x.internalKind = f.internalKind → inversePair x f = false → coalesce f (l ++ x :: r) = (l ++ f :: r, .replaced))) ∧
  (∀ (b : Body) (s : State),
    (s.station = .clash → offer b s = (s, .refused) ∧ placeVoice b s = s) ∧
    (s.station ≠ .clash → s.link.inSend ≠ none ∨ s.link.finishing = true ∨ s.station = .setup → s.link.voiceSlot = none →
      placeVoice b s = { s with link := { s.link with voiceSlot := some { source := s.config.seat, body := b } } }) ∧
    (∀ f : Frame, s.station ≠ .clash → s.link.inSend ≠ none ∨ s.link.finishing = true ∨ s.station = .setup →
      s.link.voiceSlot = some f →
      placeVoice b s = { s with link := { s.link with
        voiceSlot := some { source := s.config.seat, body := b },
        voiceSkips := if s.link.voiceSkips < 65535 then s.link.voiceSkips + 1 else s.link.voiceSkips } }) ∧
    (s.station = .run → s.link.inSend = none → s.link.finishing = false → s.link.voiceSlot = none →
      placeVoice b s = { s with link := { s.link with
        inSend := some { frame := { source := s.config.seat, body := b }, attempt := 1, clash := false,
                         voided := false } } })) ∧
  (∀ (b : Body) (s : State) (f : Frame) (l : List Frame) (x : Offered), f = { source := s.config.seat, body := b } →
    (s.station ≠ .clash → coalesce f s.link.queue = (l, x) →
      (s.port.serving = false ∨ l ≠ [] → offer b s = (select { s with link := { s.link with queue := l } }, x)) ∧
      (s.port.serving = true → l = [] → offer b s = (select { s with
        link := { s.link with queue := l },
        port := { s.port with serving := false, reply := { status := .ok, data := [] } } }, x))) ∧
    offerFrame b s = (offer b s).1 ∧
    offerHost b s = select { s with link := { s.link with queue := s.link.queue ++ [f] } }) ∧
  (∀ s t : State, t = { s with link := { s.link with
      queue := s.link.queue.filter (fun f => decide (f.internalKind ≠ some .mic)) } } →
    ((∃ f ∈ s.link.queue, f.internalKind = some .mic) →
      (s.port.serving = false ∨ t.link.queue ≠ [] → withdrawOpen s = (t, .withdrawn)) ∧
      (s.port.serving = true → t.link.queue = [] → withdrawOpen s = ({ t with
        port := { s.port with serving := false, reply := { status := .ok, data := [] } } }, .withdrawn))) ∧
    ((∀ f ∈ s.link.queue, f.internalKind ≠ some .mic) →
      (∀ x : Sending, s.link.inSend = some x → x.voided = false → x.frame.body.kindCode = 0x43#8 →
        withdrawOpen s = (s, .started)) ∧
      ((∀ x : Sending, s.link.inSend = some x → x.voided = true ∨ x.frame.body.kindCode ≠ 0x43#8) →
        withdrawOpen s = (s, .none)))) ∧
  (∀ (source k o q n : Nat) (m : Option Bid) (id : Bid) (on : Bool) (why : Reason) (c : OpenClass) (e : WireEntry)
    (kind : Body → Option InternalKind), (∀ b : Body, kind b = Frame.internalKind { source := source, body := b }) →
    (kind (.opening m o q c) = some .mic ∧ kind (.yield m q) = some .mic ∧ kind (.close m source why) = some .mic) ∧
    (kind (.request m q) = some .req ∧ kind (.withdraw m) = some .req) ∧
    (kind (.share m k q) = some .share ∧ kind (.unshare m) = some .share) ∧ kind (.priority m on) = some .prio ∧
    kind (.extendAnswer id k on n e) = some .cal ∧
    (k ≠ source → kind (.close m k why) = none) ∧ kind (.grant m k) = none ∧ kind (.clear m) = none ∧
    kind (.timeAdd m k n) = none ∧ kind (.cancel id) = none ∧ kind (.extendAsk id n) = none ∧ kind (.endNow id) = none) ∧
  (∀ x f : Frame, inversePair x f = true ↔
    (∃ (m n : Option Bid) (o q : Nat) (c : OpenClass) (why : Reason),
      x.body = .opening m o q c ∧ f.body = .close n f.source why) ∨
    (∃ (m n : Option Bid) (q : Nat), x.body = .request m q ∧ f.body = .withdraw n) ∨
    (∃ (m n : Option Bid) (k q : Nat), x.body = .share m k q ∧ f.body = .unshare n) ∨
    (∃ m n : Option Bid, x.body = .priority m true ∧ f.body = .priority n false)) ∧
  (∀ q : List Frame, hostFrames q = (q.filter (fun f => decide (f.internalKind = none))).length)

/-- R19, R23, R24, R53, R176, R109 and R52: a block adds one to the cadence count, and the 250th requests a beacon; it
adds one to both ages of every PRESENT or ABSENT entry, and the PRESENT seats whose frame age reaches 1250 fall
absent, in ascending seat order, which is the model's choice (notes/assumptions/3.md). A beacon request returns the
cadence count to 0 and fills an empty slot; a seat that falls absent leaves the view, its screen and, as the chair,
the priority state; a slot's stale report takes its seat out of the open set, as events of their rows (2.md). -/
def Obligations.SilentSeatsLeaveAndBeaconsAreRequested : Prop :=
  (∀ (f : Floor) (k : Nat) (chair : Bool), f.departed k chair = {
    floor := { openSet := f.openSet.filter (fun r => decide (r.seat ≠ k)),
               queue := f.queue.filter (fun r => decide (r.seat ≠ k)), stamp := f.stamp,
               priority := if chair then false else f.priority },
    left := if f.isOpen k then [(k, .absent)] else [] }) ∧
  (∀ s : State,
    (s.presence.cadence < 249 →
      cadenceBlock s = { s with presence := { s.presence with cadence := s.presence.cadence + 1 } }) ∧
    (249 ≤ s.presence.cadence → s.station ≠ .setup → exec .beaconRequest s = .next (cadenceBlock s))) ∧
  (∀ (s t : State) (silent : List Nat), t = { s with presence := { s.presence with
      peers := s.presence.peers.map (fun p => if p.state = .unknown then p else { p with
        frameAge := if p.frameAge < 65535 then p.frameAge + 1 else p.frameAge,
        beaconAge := if p.beaconAge < 65535 then p.beaconAge + 1 else p.beaconAge }) } } →
    silent = (List.range' 1 48).filter (fun k =>
      decide ((t.presence.peer k).state = .present) && decide (1250 ≤ (t.presence.peer k).frameAge)) →
    presenceBlock s = silent.foldl (fun u k => settle (peerAbsent k u)) t) ∧
  (∀ (k : Nat) (s : State), s.station ≠ .setup → (s.presence.peer k).state = .present →
    exec (.absenceEvent k) s = .next (settle (peerAbsent k s))) ∧
  (∀ s u : State, u = { s with presence := { s.presence with cadence := 0 } } → s.station ≠ .setup →
    (s.station = .clash ∨ s.link.beaconSlot ≠ none → exec .beaconRequest s = .next u) ∧
    (s.station = .run → s.link.beaconSlot = none →
      exec .beaconRequest s = .next (select { u with link := { u.link with beaconSlot := some .normal } }))) ∧
  (∀ (k : Nat) (s u v : State), s.station ≠ .setup → (s.presence.peer k).state = .present →
    u = { s with presence := s.presence.setPeer k { s.presence.peer k with state := .absent, frameAge := 1250 } } →
    v = floorStep (u.floor.departed k (u.isChairSeat k)) u →
    exec (.absenceEvent k) s = .next (settle { v with share := { v.share with
      screen1 := v.share.screen1.filter (fun p => decide (p.seat ≠ k)),
      screen2 := v.share.screen2.filter (fun p => decide (p.seat ≠ k)) } })) ∧
  (∀ (i : Nat) (x : Slot) (s : State), s.config.role ≠ .door → s.station ≠ .setup → s.mix.slots[i]? = some x →
    x.state ≠ .free →
    exec (.staleSlot (i + 1)) s = .next (settle (floorStep
      { floor := { s.floor with openSet := s.floor.openSet.filter (fun r => decide (r.seat ≠ x.seat)) },
        left := if s.floor.isOpen x.seat then [(x.seat, .stale)] else [] } s))) ∧
  (∀ s : State, requestBeacon s = if s.station = .run ∧ s.link.beaconSlot = none then
      select { s with link := { s.link with beaconSlot := some .normal } } else s)

/-! ## Blocks, mix and counts -/

/-- R98, R88 to R90, R122 and R124: a block completion: the block number; at a SEAT station in RUN the trimmed samples
and their peak; at a SEAT or WALL station a loudspeaker block of 64 samples in range, one block late, and in SETUP
silence, the block the loudspeaker takes there included (notes/assumptions/19.md); a DOOR station in SETUP counts the
block and nothing else. The parts in the model's order (3.md), each of which a statement below or above says: the lamps,
R62: the three buttons with 5 differing blocks to an event; R88 to R95: trim, detector, onset (R75 and R81), the VOICE
frame with the meeting id, both stamps, the block number, the talk state and the trimmed samples, and the silence count;
the mix; then the budget, the peer ages, the cadence, the clock, the entry ages, the ended-early age, the ask, the
window and the lifetimes (R169), with `settle` between them (4.md). -/
def Obligations.BlockCompletionCapturesMixesAndCounts : Prop :=
  (∀ (xs : List Sample) (m p h : Bool) (s : State), ∃ t : State, exec (.blockCompletion xs m p h) s = .next t ∧
    t.blockNumber = (s.blockNumber + 1) % 65536 ∧
    (s.station = .setup → s.config.role = .door → t = settle { s with blockNumber := (s.blockNumber + 1) % 65536 }) ∧
    (s.station = .setup → s.config.role = .wall → t = settle { s with
      blockNumber := (s.blockNumber + 1) % 65536,
      mix := { s.mix with output := List.replicate 64 0, speaker := List.replicate 64 0 } }) ∧
    (s.station = .setup → s.config.role = .seat →
      t.mix = { s.mix with output := List.replicate 64 0, speaker := List.replicate 64 0 }) ∧
    (s.station = .run → s.config.role = .seat → xs.length = 64 →
      t.capture.outgoing = xs.map (fun x => (x.toInt * (coefficient s.config.trim : Int) + 16384).fdiv 32768) ∧
      t.capture.lastPeak = (t.capture.outgoing.map (fun x => x.natAbs)).foldl max 0) ∧
    (s.config.role ≠ .seat ∨ s.station ≠ .run → t.capture.outgoing = s.capture.outgoing ∧
      t.capture.lastPeak = s.capture.lastPeak) ∧
    (s.config.role ≠ .door → s.station ≠ .setup →
      t.mix.output.length = 64 ∧ (∀ x ∈ t.mix.output, -32768 ≤ x ∧ x ≤ 32767) ∧ t.mix.clipped ≤ 64 ∧
      t.mix.speaker = s.mix.output ∧ (t.mix.limitFlag = true ↔ s.mix.limitFlag = true ∨ 0 < t.mix.clipped)) ∧
    (s.config.role = .door → t.mix.output = s.mix.output ∧ t.mix.speaker = s.mix.speaker)) ∧
  (∀ (xs : List Sample) (m p h : Bool) (s v : State),
    v = mixEngineBlock (settle (captureBlock xs (sampleButtons m p h
      (tickLeds { s with blockNumber := (s.blockNumber + 1) % 65536 })))) →
    exec (.blockCompletion xs m p h) s = .next (settle (if s.station = .setup then v else runningCounts v))) ∧
  (∀ (b : Button) (x : Bool),
    (x = b.pressed → b.sample x = ({ b with difference := 0 }, .none)) ∧
    (x ≠ b.pressed → b.difference < 4 → b.sample x = ({ b with difference := b.difference + 1 }, .none)) ∧
    (x ≠ b.pressed → 4 ≤ b.difference →
      b.sample x = ({ pressed := x, difference := 0 }, if x then .press else .release))) ∧
  (∀ (m p h : Bool) (s u v w : State), s.config.role = .seat →
    u = { s with controls := { s.controls with mic := (s.controls.mic.sample m).1,
                                               priority := (s.controls.priority.sample p).1,
                                               share := (s.controls.share.sample h).1 } } →
    v = (if (s.controls.mic.sample m).2 = .press then settle (micPressed u) else u) →
    w = (if (s.controls.priority.sample p).2 = .press then priorityButton true v
         else if (s.controls.priority.sample p).2 = .release then priorityButton false v else v) →
    sampleButtons m p h s = (if (s.controls.share.sample h).2 = .press then sharePressed w else w)) ∧
  (∀ s : State, s.config.role = .seat →
    exec .micPress s = .next (settle (micPressed
      { s with controls := { s.controls with mic := { pressed := true, difference := 0 } } })) ∧
    (∀ on : Bool, exec (if on then .priorityPress else .priorityRelease) s = .next (settle (priorityButton on
      { s with controls := { s.controls with priority := { pressed := on, difference := 0 } } }))) ∧
    exec .sharePress s = .next (settle (sharePressed
      { s with controls := { s.controls with share := { pressed := true, difference := 0 } } }))) ∧
  (∀ (m p h : Bool) (xs : List Sample) (s : State),
    (s.config.role ≠ .seat → sampleButtons m p h s = s) ∧
    (s.config.role ≠ .seat ∨ s.station ≠ .run → captureBlock xs s = s)) ∧
  (∀ (xs : List Sample) (out : List Int) (c : Capture) (s u : State), s.config.role = .seat → s.station = .run →
    xs.length = 64 → out = xs.map (fun x => (x.toInt * (coefficient s.config.trim : Int) + 16384).fdiv 32768) →
    c = { s.capture with outgoing := out, lastPeak := (out.map (fun x => x.natAbs)).foldl max 0 } →
    u = { s with capture := (c.detect (decide (s.config.threshold ≤ c.lastPeak))).1 } →
    captureBlock xs s = silenceBlock (buildVoice
      (if (c.detect (decide (s.config.threshold ≤ c.lastPeak))).2 = .onset then talkOnset u else u))) ∧
  (∀ s : State,
    (s.mic.state = .open → talkOnset s = { s with mic := { s.mic with silence := 0 } }) ∧
    (s.mic.state = .closed → s.config.role = .seat → s.station = .run → s.meeting.state ≠ .idle →
      s.meeting.profile.mode = .voice → talkOnset s = takePress s) ∧
    (s.mic.state = .waiting ∨ s.mic.state = .opening ∨ (s.mic.state = .closed ∧ (s.config.role ≠ .seat ∨
        s.station ≠ .run ∨ s.meeting.state = .idle ∨ s.meeting.profile.mode ≠ .voice)) → talkOnset s = s) ∧
    (s.capture.placing = false → buildVoice s = s) ∧
    (s.capture.placing = true → buildVoice s = placeVoice (.voice s.meetingId s.mic.openStamp s.mic.requestStamp
      s.blockNumber s.capture.talking s.capture.outgoing) s)) ∧
  (∀ s a b c d e t : State, a = settle (budgetBlock s) → b = settle (presenceBlock a) →
    c = settle (clockBlock (cadenceBlock b)) → d = settle (ageEntries c) → e = settle (askBlock (endedEarlyBlock d)) →
    t = settle (windowBlock e) →
    runningCounts s = { t with screen := { t.screen with
      transient := { t.screen.transient with lifetime := t.screen.transient.lifetime - 1 },
      host := { t.screen.host with lifetime := t.screen.host.lifetime - 1 } } })

/-- R102 to R107: a block that reaches a bound slot joins its FIFO when it is newer than the newest held and the last
played block, is counted late otherwise, and overflows with one notice when the FIFO holds 4; the second held block
makes a FILLING slot PLAYING; a frame of an unbound seat is discarded. At each block of the station a slot yields
silence, its oldest block, or one halved repetition, in which each sample is halved and rounded down. R109 and R52:
after the mix each bound slot's stale count goes up to 50, and the seats whose count stands there leave the open set,
in slot order, which is the model's choice (notes/assumptions/3.md). A block is newer than another by 1 to 32767,
modulo 65536. -/
def Obligations.SlotsHoldPlayAndConceal : Prop :=
  (∀ (k : Nat) (h : HeldBlock) (s u : State) (l r : List Slot) (x : Slot) (put : Slot → State), s.config.role ≠ .door →
    s.mix.slots = l ++ x :: r → x.state ≠ .free → x.seat = k → (∀ z ∈ l ++ r, z.state = .free ∨ z.seat ≠ k) →
    (∀ y : Slot, put y = { s with mix := { s.mix with slots := l ++ y :: r } }) →
    ((∃ z : HeldBlock, (x.fifo.getLast? = some z ∨ x.last = some z) ∧ newerBlock h.block z.block = false) →
      mixReceive k h s = { put { x with stale := 0 } with mix := { (put { x with stale := 0 }).mix with
        lateBlocks := if s.mix.lateBlocks < 65535 then s.mix.lateBlocks + 1 else s.mix.lateBlocks } }) ∧
    ((∀ z : HeldBlock, x.fifo.getLast? = some z ∨ x.last = some z → newerBlock h.block z.block = true) →
      (x.fifo.length < 4 → mixReceive k h s = put { x with
        fifo := x.fifo ++ [h], stale := 0,
        state := if x.state = .filling ∧ x.fifo.length = 1 then .playing else x.state }) ∧
      (4 ≤ x.fifo.length → u = put { x with overflow := true, stale := 0 } →
        mixReceive k h s = if s.mix.overflowMark then u
          else notify (.jitterOverflow k) { u with mix := { u.mix with overflowMark := true } }))) ∧
  (∀ (k : Nat) (h : HeldBlock) (s : State),
    s.config.role = .door ∨ (∀ z ∈ s.mix.slots, z.state = .free ∨ z.seat ≠ k) → mixReceive k h s = s) ∧
  (∀ x : Slot,
    (x.state = .free ∨ x.state = .filling → x.yield = (none, x)) ∧
    (∀ (h : HeldBlock) (rest : List HeldBlock), x.state = .playing ∨ x.state = .concealing → x.fifo = h :: rest →
      x.yield = (some h.samples, { x with state := .playing, fifo := rest, last := some h })) ∧
    (∀ h : HeldBlock, x.state = .playing → x.fifo = [] → x.last = some h →
      x.yield = (some (halved h.samples), { x with state := .concealing })) ∧
    (x.state = .concealing → x.fifo = [] → x.yield = (none, { x with state := .filling }))) ∧
  (∀ l : List Int, (halved l).length = l.length ∧
    ∀ (i : Nat) (a b : Int), l[i]? = some a → (halved l)[i]? = some b → 2 * b ≤ a ∧ a ≤ 2 * b + 1) ∧
  (∀ s t : State, t = { mixBlock s with mix := { (mixBlock s).mix with slots := (mixBlock s).mix.slots.map (fun x =>
      if x.state = .free then x else { x with stale := if x.stale < 50 then x.stale + 1 else x.stale }) } } →
    (s.config.role = .door → mixEngineBlock s = s) ∧
    (s.config.role ≠ .door → s.station = .setup → mixEngineBlock s = { s with
      mix := { s.mix with output := List.replicate 64 0, speaker := List.replicate 64 0 } }) ∧
    (s.config.role ≠ .door → s.station ≠ .setup →
      mixEngineBlock s = ((t.mix.slots.filter (fun x => decide (x.state ≠ .free) && decide (50 ≤ x.stale))).map
        (fun x => x.seat)).foldl (fun u k => floorStep
          { floor := { u.floor with openSet := u.floor.openSet.filter (fun r => decide (r.seat ≠ k)) },
            left := if u.floor.isOpen k then [(k, .stale)] else [] } u) t)) ∧
  (∀ n r : Nat, n < 65536 → r < 65536 →
    (newerBlock n r = true ↔ ∃ d : Nat, 1 ≤ d ∧ d ≤ 32767 ∧ n = (r + d) % 65536))

/-- R91: the detector by its two states, the end with the 75th consecutive non-talking block and not before; and that each
block completed at a SEAT station in RUN passes through it, judged by its trimmed peak (R90), whatever else the block
does. -/
def Obligations.DetectorEndsWithTheSeventyFifthQuietBlock : Prop :=
  (∀ c : Capture,
    (c.talking = false → c.detect true = ({ c with talking := true, hangover := 0 }, .onset) ∧
      c.detect false = ({ c with hangover := 0 }, .none)) ∧
    (c.talking = true → c.detect true = ({ c with hangover := 0 }, .none)) ∧
    (c.talking = true → c.hangover = 0 →
      (∀ n : Nat, n < 75 → Nat.repeat (fun d => (d.detect false).1) n c = { c with hangover := n }) ∧
      (Nat.repeat (fun d => (d.detect false).1) 74 c).detect false = ({ c with talking := false, hangover := 0 }, .finish))) ∧
  (∀ (xs : List Sample) (m p h : Bool) (s : State), s.config.role = .seat → s.station = .run →
    ∃ t : State, exec (.blockCompletion xs m p h) s = .next t ∧
      ∀ d : Capture, d = (s.capture.detect (decide (s.config.threshold ≤ t.capture.lastPeak))).1 →
        t.capture.talking = d.talking ∧ t.capture.hangover = d.hangover)

/-- R114 with Table 7-1: the coefficient of index 0 is 32767, that of 63 is 0, and that of an index g from 1 to 62 is
32768 × 10^(−g/20) rounded half up (said in integers, by the twentieth power of both bounds); they never rise. R121,
R126 and R127: the term of a sample, rounded half up, lies in −32767..32766; the terms of a source's block are its
samples so scaled, and zeros for a muted source; the limiter adds one decibel for a block clipped heavily, holds for
one clipped lightly, and takes one away after 500 quiet blocks. R117 to R120: a source's coefficient: muted by volume
63, by a duck of 63 and by priority, otherwise of the index of volume, reduction, proximity and duck, 62 at most. R122
to R124: the mix of a block: the sums of the terms, position by position, of the blocks that the slots yield, clamped,
with the clipped count. A block completed at a SEAT or WALL station passes its clipped count through the limiter (in a
block in which no second of the clock passes, so that no meeting starts), and its output is made of the terms of the
blocks that its slots yield: at a WALL station, and at a SEAT station where nothing earlier in the block, in the
model's order of the parts (notes/assumptions/3.md), can open or close the own microphone. -/
def Obligations.TermsRoundHalfUpAndTheLimiterSteps : Prop :=
  (∀ (x : Int) (c : Nat), -32768 ≤ x → x ≤ 32767 → c ≤ 32767 →
    scale x c * 32768 ≤ x * c + 16384 ∧ x * c + 16384 < (scale x c + 1) * 32768 ∧
    -32767 ≤ scale x c ∧ scale x c ≤ 32766) ∧
  (∀ (c : Nat) (l : List Int), (c = 0 → terms c l = List.replicate l.length 0) ∧
    (c ≠ 0 → terms c l = l.map (fun x => scale x c))) ∧
  (coefficient 0 = 32767 ∧ coefficient 1 = 29205 ∧ coefficient 6 = 16423 ∧ coefficient 20 = 3277 ∧ coefficient 62 = 26 ∧
    coefficient 63 = 0 ∧
    (∀ g : Nat, 1 ≤ g → g ≤ 62 → (2 * coefficient g - 1) ^ 20 * 10 ^ g ≤ 65536 ^ 20 ∧
      65536 ^ 20 < (2 * coefficient g + 1) ^ 20 * 10 ^ g) ∧
    ∀ g h : Nat, g ≤ h → h ≤ 63 → coefficient h ≤ coefficient g) ∧
  (∀ l : List (List Int), sumBlocks l = (List.range 64).map (fun i => (l.map (fun b => b.getD i 0)).sum)) ∧
  (∀ x : Int, clampSample x = max (-32768) (min 32767 x)) ∧
  (∀ clipped r quiet : Nat, r ≤ 12 → quiet < 500 →
    (8 ≤ clipped → limiterStep clipped r quiet = (min 12 (r + 1), 0)) ∧
    (1 ≤ clipped → clipped ≤ 7 → limiterStep clipped r quiet = (r, 0)) ∧
    (quiet < 499 → limiterStep 0 r quiet = (r, quiet + 1)) ∧
    (quiet = 499 → limiterStep 0 r quiet = (r - 1, 0))) ∧
  (∀ r n : Nat, r ≤ 12 → Nat.repeat (fun p => limiterStep 0 p.1 p.2) (500 * n) (r, 0) = (r - n, 0)) ∧
  (∀ (s : State) (k a d : Nat),
    a = (if s.config.role = .seat ∧ 0 < s.config.span ∧ k ≤ s.config.seat + s.config.span ∧
      s.config.seat ≤ k + s.config.span then s.config.attenuation else 0) →
    d = (if s.config.role = .seat ∧ s.floor.isOpen s.config.seat = true then s.config.duck else 0) →
    (s.mix.volume = 63 ∨ d = 63 ∨ (s.floor.priority = true ∧ k ≠ s.meeting.chair) → s.sourceCoefficient k = 0) ∧
    (s.mix.volume ≠ 63 → d ≠ 63 → s.floor.priority = false ∨ k = s.meeting.chair →
      s.sourceCoefficient k = coefficient (min 62 (s.mix.volume + s.mix.reduction + a + d)))) ∧
  (∀ (s : State) (l : List (List Int)) (sums : List Int) (n : Nat),
    l = s.mix.slots.filterMap (fun x => x.yield.1.map (fun b => terms (s.sourceCoefficient x.seat) b)) →
    sums = (List.range 64).map (fun i => (l.map (fun b => b.getD i 0)).sum) →
    n = (sums.filter (fun x => decide (x < -32768 ∨ 32767 < x))).length →
    mixBlock s = { s with mix := { s.mix with
      slots := s.mix.slots.map (fun x => x.yield.2), output := sums.map (fun x => max (-32768) (min 32767 x)),
      speaker := s.mix.output, clipped := n, limitFlag := s.mix.limitFlag || decide (0 < n),
      reduction := (limiterStep n s.mix.reduction s.mix.quiet).1,
      quiet := (limiterStep n s.mix.reduction s.mix.quiet).2 } }) ∧
  (∀ (xs : List Sample) (m p h : Bool) (s : State), s.config.role ≠ .door → s.station ≠ .setup →
    ∃ t : State, exec (.blockCompletion xs m p h) s = .next t ∧
      (s.calendar.clock.set = false ∨ s.calendar.clock.count < 249 →
        (t.mix.reduction, t.mix.quiet) = limiterStep t.mix.clipped s.mix.reduction s.mix.quiet) ∧
      (s.config.role = .wall ∨ (m = s.controls.mic.pressed ∧ (s.mic.state = .open → s.mic.cls = some .chair) ∧
          (s.mic.state = .closed → s.meeting.profile.mode ≠ .voice ∨ s.meeting.state = .idle)) →
        t.mix.output = (sumBlocks (s.mix.slots.filterMap (fun x =>
          x.yield.1.map (fun l => terms (s.sourceCoefficient x.seat) l)))).map clampSample))

/-- R63, R165, R168, R169 and R176: what follows a change: each lamp's pattern by the table, a changed pattern at the
beginning of its on phase and an unchanged one as it was; the selector of a WALL station; four lines of 24 printable
cells; the window's start, 1 where no record stands at it; and the transfer that a dirty buffer starts with the cells
as they then are. Nothing else changes, and doing it twice changes nothing more. Where it stands between the changes
of a command is notes/assumptions/4.md. The phase of a pattern that does not blink is 20.md, and the countdown of a
time remaining below 0, written 00:00, is 42.md. R165 and R166: a field's cells, the name of a seat, a number, a time
of day and a duration. R167, R168 and R170: every line of every page: the speakers line, the own-state line and the
queue window of a SEAT station in a meeting, the page of a WALL station in a meeting, the IDLE page, the DOOR page and
the page in SETUP. R169: line 4 of each is the first present of the clash text, the countdown, the transient message,
the host message and the page's default. -/
def Obligations.LampsSelectorAndDisplayFollowTheState : Prop :=
  (∀ (s t : State), t = settle s →
    t = { s with
      controls := { s.controls with ring := t.controls.ring, request := t.controls.request },
      share := { s.share with selector := t.share.selector },
      screen := { s.screen with buffer := t.screen.buffer, dirty := t.screen.dirty, running := t.screen.running,
                                sent := t.screen.sent, windowStart := t.screen.windowStart } } ∧
    settle t = t ∧
    (s.config.role = .seat →
      (s.station ≠ .run → t.controls.ring.pattern = .off ∧
        t.controls.request.pattern = (if s.station = .clash then .fastBlink else .off)) ∧
      (s.station = .run →
        (s.mic.state = .closed → t.controls.ring.pattern = .off ∧ t.controls.request.pattern = .off) ∧
        (∀ r : QueueRecord, s.mic.state = .waiting → s.floor.queueRecord s.config.seat = some r →
          t.controls.ring.pattern = .slowBlink ∧ t.controls.request.pattern = (if r.granted then .on else .off)) ∧
        (s.mic.state = .opening → t.controls.ring.pattern = .on ∧ t.controls.request.pattern = .off) ∧
        (s.mic.state = .open → t.controls.request.pattern = .off ∧
          t.controls.ring.pattern = (if s.mic.warned = true ∨ s.mic.overrun = true then .fastBlink else .on)))) ∧
    (s.config.role ≠ .seat → t.controls.ring.pattern = .off ∧ t.controls.request.pattern = .off) ∧
    (t.controls.ring.pattern = s.controls.ring.pattern → t.controls.ring = s.controls.ring) ∧
    (t.controls.ring.pattern ≠ s.controls.ring.pattern →
      t.controls.ring.onPhase = true ∧ t.controls.ring.phaseCount = 0) ∧
    (t.controls.request.pattern = s.controls.request.pattern → t.controls.request = s.controls.request) ∧
    (t.controls.request.pattern ≠ s.controls.request.pattern →
      t.controls.request.onPhase = true ∧ t.controls.request.phaseCount = 0) ∧
    (∀ p : Presenter, s.config.role = .wall → s.station ≠ .setup →
      (if s.config.wallScreen = 1 then s.share.screen1 else s.share.screen2) = some p → t.share.selector = p.seat) ∧
    (s.config.role ≠ .wall ∨ (if s.config.wallScreen = 1 then s.share.screen1 else s.share.screen2) = none →
      t.share.selector = 0) ∧
    (t.screen.buffer = t.page ∧ t.screen.buffer.length = 4 ∧
      ∀ l ∈ t.screen.buffer, l.length = 24 ∧ ∀ c ∈ l, 0x20 ≤ c.toNat ∧ c.toNat ≤ 0x7E) ∧
    (s.station = .clash → t.screen.buffer[3]? = some (field 24 (text "SEAT NUMBER IN USE"))) ∧
    (s.station = .run → s.meeting.state = .ending → s.config.role = .seat →
      t.screen.buffer[3]? = some (field 24 (text "Meeting ends in " ++ durationText s.timeRemaining.toNat))) ∧
    (s.station ≠ .setup → s.meeting.state ≠ .idle → s.config.role = .seat →
      t.screen.windowStart = (if s.floor.queue.length < s.screen.windowStart then 1 else s.screen.windowStart) ∧
      (s.mic.state = .closed → t.screen.buffer[1]? = some (field 24 (text "Press to speak"))) ∧
      (s.mic.state = .opening → t.screen.buffer[1]? = some (field 24 (text "Opening"))) ∧
      (∀ n : Nat, s.mic.state = .open → s.mic.overrun = false → s.mic.remaining = some n →
        t.screen.buffer[1]? = some (field 24 (text "SPEAKING " ++ durationText n))) ∧
      (s.mic.state = .open → s.mic.overrun = true →
        t.screen.buffer[1]? = some (field 24 (text "OVER TIME +" ++ durationText s.mic.overrunCount)))) ∧
    (s.station = .setup ∨ s.meeting.state = .idle ∨ s.config.role ≠ .seat → t.screen.windowStart = s.screen.windowStart) ∧
    (s.screen.running = true → t.screen.running = true ∧ t.screen.sent = s.screen.sent ∧
      (t.screen.dirty = true ↔ s.screen.dirty = true ∨ t.screen.buffer ≠ s.screen.buffer)) ∧
    (s.screen.running = false → t.screen.dirty = false ∧
      (t.screen.running = true ↔ s.screen.dirty = true ∨ t.screen.buffer ≠ s.screen.buffer) ∧
      t.screen.sent = if t.screen.running then t.screen.buffer else s.screen.sent)) ∧
  (∀ (n : Nat) (x : List Byte), (field n x).length = n ∧
    (∀ i : Nat, i < n → (field n x)[i]? = some (match x[i]? with
      | some c => if 0x20 ≤ c.toNat ∧ c.toNat ≤ 0x7E then c else 0x3F#8
      | none => 0x20#8))) ∧
  (∀ n m : Nat, n < 100 → m < 60 →
    digits2 n = [byte (48 + n / 10), byte (48 + n % 10)] ∧
    decimal n = (if n < 10 then [byte (48 + n)] else digits2 n) ∧
    durationText (60 * n + m) = digits2 n ++ text ":" ++ digits2 m ∧
    clockText (60 * n + m) = digits2 n ++ text ":" ++ digits2 m) ∧
  durationText 999 = text "16:39" ∧
  (∀ n : Nat, n < 100000 → digits5 n = [byte (48 + n / 10000), byte (48 + n / 1000 % 10), byte (48 + n / 100 % 10),
    byte (48 + n / 10 % 10), byte (48 + n % 10)]) ∧
  (∀ (s : State) (k : Nat) (name : List Byte), name = (if k = s.config.seat then s.config.name else (s.presence.peer k).name) →
    (name ≠ [] → s.seatText k = name) ∧ (name = [] → s.seatText k = text "Seat " ++ digits2 k) ∧
    (∀ r : QueueRecord, r.seat = k → s.windowField (some r) = field 12 (digits2 k ++ text " " ++ name.take 9)) ∧
    s.windowField none = field 12 []) ∧
  (∀ (s : State) (seats : List Nat), s.speakersLine [] = text "Floor open" ∧
    (seats ≠ [] → s.speakersLine seats = List.intercalate (text " / ")
      (seats.map (fun k => (if k = s.meeting.chair then text "*" else []) ++ s.seatText k)))) ∧
  (∀ (s : State) (id : Bid) (e : Entry) (until_ : List Byte), s.meeting.id = some id → viewFind s.calendar.view id = some e →
    until_ = text "until " ++ clockText (s.meeting.finish % 1440) →
    s.meetingTitle = e.wire.title ∧
    s.meetingDefault = (if e.wire.title = [] then until_ else e.wire.title.take 12 ++ text " " ++ until_)) ∧
  (∀ x : Entry, doorEntry none = [] ∧ entryBrief x.wire = clockText x.wire.startMinute ++ text " " ++ x.wire.title ∧
    doorEntry (some x) = clockText x.wire.startMinute ++ text "-"
      ++ clockText ((x.wire.startDay * 1440 + x.wire.startMinute + x.wire.duration) % 1440)
      ++ (if x.active then text "*" else text " ") ++ x.wire.title.take 12) ∧
  (∀ (s : State) (default : List Byte),
    (s.station = .clash → s.lineFour default = text "SEAT NUMBER IN USE") ∧
    (s.station ≠ .clash →
      (s.meeting.state = .ending → s.lineFour default = text "Meeting ends in " ++ durationText s.timeRemaining.toNat) ∧
      (s.meeting.state ≠ .ending →
        (0 < s.screen.transient.lifetime → s.lineFour default = s.screen.transient.text) ∧
        (s.screen.transient.lifetime = 0 → 0 < s.screen.host.lifetime → s.lineFour default = s.screen.host.text) ∧
        (s.screen.transient.lifetime = 0 → s.screen.host.lifetime = 0 → s.lineFour default = default)))) ∧
  (∀ (s t : State) (v : List Entry), t = settle s → v = s.calendar.view →
    (s.station = .setup → t.screen.buffer = [text "SETUP", [], [], s.lineFour []].map (field 24)) ∧
    (s.station ≠ .setup → s.config.role = .seat → s.meeting.state ≠ .idle →
      t.screen.buffer[0]? = some (field 24 (s.speakersLine
        ((s.floor.openSet.map (fun r => r.seat)).filter (fun k => decide (k ≠ s.config.seat))))) ∧
      (∀ p : Nat, s.mic.state = .waiting → s.floor.position s.config.seat = some p →
        t.screen.buffer[1]? = some (field 24 (text "Waiting  #" ++ decimal p))) ∧
      (s.mic.state = .open → s.mic.overrun = false → s.mic.remaining = none →
        t.screen.buffer[1]? = some (field 24 (text "SPEAKING"))) ∧
      (s.floor.queue = [] → t.screen.buffer[2]? = some (field 24 (text "No requests"))) ∧
      (s.floor.queue ≠ [] → t.screen.buffer[2]? = some (field 24
        (s.windowField (s.floor.queue[t.screen.windowStart - 1]?) ++ s.windowField (s.floor.queue[t.screen.windowStart]?)))) ∧
      t.screen.buffer[3]? = some (field 24 (s.lineFour s.meetingDefault))) ∧
    (s.station ≠ .setup → s.config.role = .wall → s.meeting.state ≠ .idle →
      t.screen.buffer = [s.speakersLine (s.floor.openSet.map (fun r => r.seat)),
        if t.share.selector = 0 then text "No presentation" else text "Showing: " ++ s.seatText t.share.selector,
        s.meetingTitle, s.lineFour s.meetingDefault].map (field 24)) ∧
    (s.station ≠ .setup → s.config.role ≠ .door → s.meeting.state = .idle →
      t.screen.buffer = [s.seatText s.config.seat,
        match v[0]? with
          | some e => text "Next " ++ entryBrief e.wire
          | none => text "No meeting",
        match v[1]? with
          | some e => entryBrief e.wire
          | none => [],
        s.lineFour (if s.calendar.clock.set then clockText (s.calendar.clock.second / 60) else [])].map (field 24)) ∧
    (s.station ≠ .setup → s.config.role = .door →
      t.screen.buffer = [
        if s.calendar.clock.set then text "Day " ++ digits5 s.calendar.clock.day ++ text " "
          ++ clockText (s.calendar.clock.second / 60) else text "Time not set",
        if v = [] then text "No bookings" else doorEntry v[0]?, doorEntry v[1]?,
        s.lineFour (doorEntry v[2]?)].map (field 24)))

/-- R91 and R127: a talk end and a limiter recovery. R62, R63, R165, R168 and R169: releases, lamps, line 4 messages,
the queue window and the display transfer; and R143, R149 and R159: an entry that ages out leaves the view and nothing
else changes; an ask that is not answered becomes NONE with EXTEND_RESULT NO_ANSWER and its line 4 message; the
ended-early id is dropped. Each end of a count is the event of its row (notes/assumptions/2.md); an expired message
keeps its text (30.md), and a talk end sent by itself moves the detector alone (38.md). That the phase under a FLASH
runs on, and that a pattern that does not blink keeps its phase, is the model's choice (20.md), and so is that a FLASH
stands still at a DOOR or WALL station (40.md). What a block adds to these counts, and the count at which each ends: a
blink's phase at 50 or 250, the age of a HEARD entry that is not active at 15000, the ask's timer at 750, the
ended-early age at 15000, the window count at 500. -/
def Obligations.ControlsMessagesDisplayAndCountsMoveOn : Prop :=
  ∀ s : State,
    (s.config.role = .seat → s.station = .run → s.capture.talking = true →
      exec .talkEnd s = .next { s with capture := { s.capture with talking := false, hangover := 0 } }) ∧
    (s.config.role ≠ .door → s.station ≠ .setup →
      exec .limiterRecovery s = .next { s with mix := { s.mix with reduction := s.mix.reduction - 1, quiet := 0 } }) ∧
    (s.station ≠ .setup →
      (∀ (holder serial : Nat) (id : Bid) (e : Entry), id = { holder := holder, serial := serial } → e ∈ s.calendar.view →
        e.wire.id = id → e.held = false → e.active = false →
        exec (.entryAgedOut holder serial) s = .next (settle { s with calendar := { s.calendar with
          view := s.calendar.view.filter (fun x => decide (x.wire.id ≠ id)) } })) ∧
      (∀ a : ExtensionAsk, s.calendar.ask = some a →
        exec .extendTimeout s = .next (settle (showTransient (text "Extension: no answer")
          (notify (.extendResult a.id .noAnswer 0) { s with calendar := { s.calendar with ask := none } })))) ∧
      exec .endedEarlyExpiry s = .next { s with meeting := { s.meeting with endedEarly := none, endedEarlyAge := 0 } }) ∧
    (s.config.role = .seat →
      exec (.buttonRelease .mic) s = .next { s with controls := { s.controls with mic := { pressed := false, difference := 0 } } } ∧
      exec (.buttonRelease .share) s = .next { s with controls := { s.controls with share := { pressed := false, difference := 0 } } }) ∧
    exec .flashExpiry s = .next { s with controls := { s.controls with flash := 0 } } ∧
    (s.controls.ring.pattern = .slowBlink ∨ s.controls.ring.pattern = .fastBlink →
      exec (.ledBlinkPhase .ring) s = .next { s with controls := { s.controls with
        ring := { s.controls.ring with onPhase := !s.controls.ring.onPhase, phaseCount := 0 } } }) ∧
    (s.controls.request.pattern = .slowBlink ∨ s.controls.request.pattern = .fastBlink →
      exec (.ledBlinkPhase .request) s = .next { s with controls := { s.controls with
        request := { s.controls.request with onPhase := !s.controls.request.onPhase, phaseCount := 0 } } }) ∧
    (∀ (msg : List Byte) (n : BitVec 16), RunTaken s →
      (24 < msg.length → exec (.showMessage msg n) s = .next (s.answered .badParam)) ∧
      (msg ≠ [] → msg.length ≤ 24 → exec (.showMessage msg n) s = .next (settle { s.answered .ok with
        screen := { s.screen with host := { text := msg, lifetime := max 1 (min n.toNat 600) * 250 } } })) ∧
      (msg = [] → exec (.showMessage msg n) s = .next (settle { s.answered .ok with
        screen := { s.screen with host := { text := [], lifetime := 0 } } }))) ∧
    (s.station ≠ .setup →
      exec .transientMessageExpiry s = .next (settle { s with
        screen := { s.screen with transient := { s.screen.transient with lifetime := 0 } } }) ∧
      exec .hostMessageExpiry s = .next (settle { s with
        screen := { s.screen with host := { s.screen.host with lifetime := 0 } } }) ∧
      (∀ k : Nat, s.meeting.state ≠ .idle →
        k = (if s.screen.windowStart + 2 ≤ s.floor.queue.length then s.screen.windowStart + 2 else 1) →
        exec .queueWindowAdvance s = .next (settle { s with screen := { s.screen with windowStart := k, windowCount := 0 } }))) ∧
    (s.screen.running = true →
      (s.screen.dirty = false → exec .displayTransferComplete s = .next { s with screen := { s.screen with running := false } }) ∧
      (s.screen.dirty = true → exec .displayTransferComplete s = .next { s with
        screen := { s.screen with dirty := false, sent := s.screen.buffer } })) ∧
    (s.config.role ≠ .seat → tickLeds s = s) ∧
    (s.config.role = .seat → tickLeds s = { s with controls := { s.controls with
      ring := s.controls.ring.tick, request := s.controls.request.tick, flash := s.controls.flash - 1 } }) ∧
    (∀ (l : LedState) (n : Nat), n = (if l.pattern = .slowBlink then 250 else 50) →
      (l.pattern = .off ∨ l.pattern = .on → l.tick = l) ∧
      (l.pattern = .slowBlink ∨ l.pattern = .fastBlink →
        (l.phaseCount + 1 < n → l.tick = { l with phaseCount := l.phaseCount + 1 }) ∧
        (n ≤ l.phaseCount + 1 → l.tick = { l with onPhase := !l.onPhase, phaseCount := 0 }))) ∧
    (s.ringLit = true ↔ s.config.role = .seat ∧ (0 < s.controls.flash ∨ s.controls.ring.pattern = .on ∨
      (s.controls.ring.pattern ≠ .off ∧ s.controls.ring.onPhase = true))) ∧
    (s.requestLit = true ↔ s.config.role = .seat ∧ (s.controls.request.pattern = .on ∨
      (s.controls.request.pattern ≠ .off ∧ s.controls.request.onPhase = true))) ∧
    (∀ aged : List Entry,
      aged = s.calendar.view.map (fun e => if e.held = true ∨ e.active = true then e else { e with age := e.age + 1 }) →
      ageEntries s = { s with calendar := { s.calendar with
        view := aged.filter (fun e => e.held || e.active || decide (e.age < 15000)) } }) ∧
    (s.calendar.ask = none → askBlock s = s) ∧
    (∀ a : ExtensionAsk, s.calendar.ask = some a →
      (a.timer < 749 → askBlock s = { s with calendar := { s.calendar with ask := some { a with timer := a.timer + 1 } } }) ∧
      (749 ≤ a.timer → s.station ≠ .setup → exec .extendTimeout s = .next (settle (askBlock s)))) ∧
    (s.meeting.endedEarly = none → endedEarlyBlock s = s) ∧
    (s.meeting.endedEarly ≠ none →
      (s.meeting.endedEarlyAge < 14999 → endedEarlyBlock s
        = { s with meeting := { s.meeting with endedEarlyAge := s.meeting.endedEarlyAge + 1 } }) ∧
      (14999 ≤ s.meeting.endedEarlyAge → s.station ≠ .setup → exec .endedEarlyExpiry s = .next (endedEarlyBlock s))) ∧
    (s.meeting.state = .idle → windowBlock s = s) ∧
    (s.meeting.state ≠ .idle →
      (s.screen.windowCount < 499 → windowBlock s
        = { s with screen := { s.screen with windowCount := s.screen.windowCount + 1 } }) ∧
      (499 ≤ s.screen.windowCount → s.station ≠ .setup → exec .queueWindowAdvance s = .next (settle (windowBlock s))))
end

