-- ==== Sys2Proof/Laws/FloorView.lean ====
section
/-! SUPPORT. The floor view's operations: orders, distinct seats, stamps under the counter and classes are kept by each
(R33 to R35), and the counter never falls. -/

namespace Sys2Proof.Machine

/-- What every operation of the view keeps under a chair seat, the limit on delegates apart. -/
structure FloorCore (f : Floor) (chair : Nat) : Prop where
  views : ViewsSound f
  stamps : StampsSound f
  chairs : ∀ r ∈ f.openSet, r.cls = .chair → r.seat = chair

/-! ## Orders -/

theorem OpenRecord.before_trans {a b c : OpenRecord} (h : a.before b = true) (k : b.before c = true) :
    a.before c = true := by
  simp only [OpenRecord.before, Bool.or_eq_true, Bool.and_eq_true, decide_eq_true_eq] at *
  omega

theorem QueueRecord.before_trans {a b c : QueueRecord} (h : a.before b = true) (k : b.before c = true) :
    a.before c = true := by
  simp only [QueueRecord.before, Bool.or_eq_true, Bool.and_eq_true, decide_eq_true_eq] at *
  omega

theorem OpenRecord.before_of_not {a b : OpenRecord} (h : ¬ a.before b = true) (k : a.seat ≠ b.seat) :
    b.before a = true := by
  simp only [OpenRecord.before, Bool.or_eq_true, Bool.and_eq_true, decide_eq_true_eq] at *
  omega

theorem QueueRecord.before_of_not {a b : QueueRecord} (h : ¬ a.before b = true) (k : a.seat ≠ b.seat) :
    b.before a = true := by
  simp only [QueueRecord.before, Bool.or_eq_true, Bool.and_eq_true, decide_eq_true_eq] at *
  omega

theorem mem_insertOpen {r x : OpenRecord} {l : List OpenRecord} : x ∈ insertOpen r l ↔ x = r ∨ x ∈ l := by
  induction l with
  | nil => simp [insertOpen]
  | cons y ys ih => simp only [insertOpen]; split <;> simp [ih]; grind

theorem mem_insertQueue {r x : QueueRecord} {l : List QueueRecord} : x ∈ insertQueue r l ↔ x = r ∨ x ∈ l := by
  induction l with
  | nil => simp [insertQueue]
  | cons y ys ih => simp only [insertQueue]; split <;> simp [ih]; grind

theorem insertOpen_order {r : OpenRecord} {l : List OpenRecord} (h : l.Pairwise (fun a b => a.before b = true))
    (k : ∀ x ∈ l, x.seat ≠ r.seat) : (insertOpen r l).Pairwise (fun a b => a.before b = true) := by
  induction l with
  | nil => simp [insertOpen]
  | cons y ys ih =>
    simp only [insertOpen]
    rw [List.pairwise_cons] at h
    split
    · rename_i hy
      refine List.pairwise_cons.2 ⟨?_, List.pairwise_cons.2 h⟩
      intro a ha
      rcases List.mem_cons.1 ha with rfl | ha
      · exact hy
      · exact OpenRecord.before_trans hy (h.1 a ha)
    · rename_i hy
      refine List.pairwise_cons.2 ⟨?_, ih h.2 (fun x hx => k x (List.mem_cons_of_mem _ hx))⟩
      intro a ha
      rcases mem_insertOpen.1 ha with rfl | ha
      · exact OpenRecord.before_of_not hy (fun e => k y (List.mem_cons_self) e.symm)
      · exact h.1 a ha

theorem insertQueue_order {r : QueueRecord} {l : List QueueRecord} (h : l.Pairwise (fun a b => a.before b = true))
    (k : ∀ x ∈ l, x.seat ≠ r.seat) : (insertQueue r l).Pairwise (fun a b => a.before b = true) := by
  induction l with
  | nil => simp [insertQueue]
  | cons y ys ih =>
    simp only [insertQueue]
    rw [List.pairwise_cons] at h
    split
    · rename_i hy
      refine List.pairwise_cons.2 ⟨?_, List.pairwise_cons.2 h⟩
      intro a ha
      rcases List.mem_cons.1 ha with rfl | ha
      · exact hy
      · exact QueueRecord.before_trans hy (h.1 a ha)
    · rename_i hy
      refine List.pairwise_cons.2 ⟨?_, ih h.2 (fun x hx => k x (List.mem_cons_of_mem _ hx))⟩
      intro a ha
      rcases mem_insertQueue.1 ha with rfl | ha
      · exact QueueRecord.before_of_not hy (fun e => k y (List.mem_cons_self) e.symm)
      · exact h.1 a ha

theorem insertOpen_nodup {r : OpenRecord} {l : List OpenRecord} (h : (l.map (fun x => x.seat)).Nodup)
    (k : ∀ x ∈ l, x.seat ≠ r.seat) : ((insertOpen r l).map (fun x => x.seat)).Nodup := by
  induction l with
  | nil => simp [insertOpen]
  | cons y ys ih =>
    simp only [insertOpen]
    have hy := List.nodup_cons.1 (by simpa using h : (y.seat :: ys.map (fun x => x.seat)).Nodup)
    split
    · simp only [List.map_cons, List.nodup_cons]
      refine ⟨?_, by simpa using h⟩
      simp only [List.mem_cons, List.mem_map, not_or, not_exists, not_and]
      exact ⟨fun e => k y List.mem_cons_self e.symm, fun x hx => k x (List.mem_cons_of_mem _ hx)⟩
    · simp only [List.map_cons, List.nodup_cons]
      refine ⟨?_, ih hy.2 (fun x hx => k x (List.mem_cons_of_mem _ hx))⟩
      simp only [List.mem_map, not_exists, not_and]
      intro x hx e
      rcases mem_insertOpen.1 hx with rfl | hx
      · exact k y List.mem_cons_self e.symm
      · exact hy.1 (List.mem_map.2 ⟨x, hx, e⟩)

theorem insertQueue_nodup {r : QueueRecord} {l : List QueueRecord} (h : (l.map (fun x => x.seat)).Nodup)
    (k : ∀ x ∈ l, x.seat ≠ r.seat) : ((insertQueue r l).map (fun x => x.seat)).Nodup := by
  induction l with
  | nil => simp [insertQueue]
  | cons y ys ih =>
    simp only [insertQueue]
    have hy := List.nodup_cons.1 (by simpa using h : (y.seat :: ys.map (fun x => x.seat)).Nodup)
    split
    · simp only [List.map_cons, List.nodup_cons]
      refine ⟨?_, by simpa using h⟩
      simp only [List.mem_cons, List.mem_map, not_or, not_exists, not_and]
      exact ⟨fun e => k y List.mem_cons_self e.symm, fun x hx => k x (List.mem_cons_of_mem _ hx)⟩
    · simp only [List.map_cons, List.nodup_cons]
      refine ⟨?_, ih hy.2 (fun x hx => k x (List.mem_cons_of_mem _ hx))⟩
      simp only [List.mem_map, not_exists, not_and]
      intro x hx e
      rcases mem_insertQueue.1 hx with rfl | hx
      · exact k y List.mem_cons_self e.symm
      · exact hy.1 (List.mem_map.2 ⟨x, hx, e⟩)

theorem eq_of_seat {l : List OpenRecord} {a b : OpenRecord} (h : (l.map (fun r => r.seat)).Nodup) (ha : a ∈ l)
    (hb : b ∈ l) (e : a.seat = b.seat) : a = b := by
  induction l with
  | nil => cases ha
  | cons x xs ih =>
    have hx := List.nodup_cons.1 (by simpa using h : (x.seat :: xs.map (fun r => r.seat)).Nodup)
    rcases List.mem_cons.1 ha with rfl | ha <;> rcases List.mem_cons.1 hb with rfl | hb
    · rfl
    · exact (hx.1 (List.mem_map.2 ⟨b, hb, e.symm⟩)).elim
    · exact (hx.1 (List.mem_map.2 ⟨a, by assumption, e⟩)).elim
    · exact ih hx.2 ha hb

/-! ## Readers -/

theorem Floor.isOpen_iff {f : Floor} {k : Nat} : f.isOpen k = true ↔ ∃ r ∈ f.openSet, r.seat = k := by
  simp [Floor.isOpen]

theorem Floor.isQueued_iff {f : Floor} {k : Nat} : f.isQueued k = true ↔ ∃ r ∈ f.queue, r.seat = k := by
  simp [Floor.isQueued]

theorem Floor.isQueued_false {f : Floor} {k : Nat} : f.isQueued k = false ↔ ∀ r ∈ f.queue, r.seat ≠ k := by
  simp [Floor.isQueued]

theorem Floor.isOpen_false {f : Floor} {k : Nat} : f.isOpen k = false ↔ ∀ r ∈ f.openSet, r.seat ≠ k := by
  simp [Floor.isOpen]

/-! ## Single changes -/

theorem Floor.raise_core {f : Floor} {c k : Nat} (h : FloorCore f c) : FloorCore (f.raise k) c := by
  refine ⟨⟨h.views.1, h.views.2, h.views.3, h.views.4, h.views.5⟩, ⟨?_, ?_⟩, h.chairs⟩
  · intro r hr
    have := h.stamps.1 r hr
    simp only [Floor.raise]; omega
  · intro r hr
    have := h.stamps.2 r hr
    simp only [Floor.raise]; omega

theorem Floor.issued_core {f : Floor} {c : Nat} (h : FloorCore f c) : FloorCore f.issued c := Floor.raise_core h

theorem Floor.dropOpen_core {f : Floor} {c k : Nat} (h : FloorCore f c) : FloorCore (f.dropOpen k) c := by
  refine ⟨⟨h.views.1.filter _, h.views.2, ?_, h.views.4, ?_⟩, ⟨?_, h.stamps.2⟩, ?_⟩
  · exact h.views.3.sublist ((List.filter_sublist).map _)
  · intro r hr; exact h.views.5 r ((List.mem_filter.1 hr).1)
  · intro r hr; exact h.stamps.1 r ((List.mem_filter.1 hr).1)
  · intro r hr; exact h.chairs r ((List.mem_filter.1 hr).1)

theorem Floor.dropQueue_core {f : Floor} {c k : Nat} (h : FloorCore f c) : FloorCore (f.dropQueue k) c := by
  refine ⟨⟨h.views.1, h.views.2.filter _, h.views.3, ?_, ?_⟩, ⟨h.stamps.1, ?_⟩, h.chairs⟩
  · exact h.views.4.sublist ((List.filter_sublist).map _)
  · intro r hr
    rw [Floor.isQueued_false]
    intro x hx
    exact (Floor.isQueued_false.1 (h.views.5 r hr)) x ((List.mem_filter.1 hx).1)
  · intro r hr; exact h.stamps.2 r ((List.mem_filter.1 hr).1)

theorem Floor.clearQueue_core {f : Floor} {c : Nat} (h : FloorCore f c) : FloorCore { f with queue := [] } c :=
  ⟨⟨h.views.1, List.Pairwise.nil, h.views.3, List.nodup_nil, fun _ _ => rfl⟩, ⟨h.stamps.1, by simp⟩, h.chairs⟩

theorem Floor.priority_core {f : Floor} {c : Nat} {on : Bool} (h : FloorCore f c) :
    FloorCore { f with priority := on } c :=
  ⟨⟨h.views.1, h.views.2, h.views.3, h.views.4, h.views.5⟩, ⟨h.stamps.1, h.stamps.2⟩, h.chairs⟩

theorem Floor.join_core {f : Floor} {c k q : Nat} (h : FloorCore f c) (ho : f.isOpen k = false) (hq : q ≤ f.stamp) :
    FloorCore (f.join k q) c := by
  unfold Floor.join
  split
  · exact h
  · rename_i hn
    have hn' : ∀ x ∈ f.queue, x.seat ≠ k := Floor.isQueued_false.1 (by simpa using hn)
    refine ⟨⟨h.views.1, insertQueue_order h.views.2 hn', h.views.3, insertQueue_nodup h.views.4 hn', ?_⟩,
      ⟨h.stamps.1, ?_⟩, h.chairs⟩
    · intro r hr
      rw [Floor.isQueued_false]
      intro x hx
      rcases mem_insertQueue.1 hx with rfl | hx
      · exact fun e => Floor.isOpen_false.1 ho r hr e.symm
      · exact Floor.isQueued_false.1 (h.views.5 r hr) x hx
    · intro r hr
      rcases mem_insertQueue.1 hr with rfl | hr
      · exact hq
      · exact h.stamps.2 r hr

@[simp] theorem Floor.join_openSet (f : Floor) (k q : Nat) : (f.join k q).openSet = f.openSet := by
  unfold Floor.join; split <;> rfl

@[simp] theorem Floor.join_stamp (f : Floor) (k q : Nat) : (f.join k q).stamp = f.stamp := by
  unfold Floor.join; split <;> rfl

@[simp] theorem Floor.join_priority (f : Floor) (k q : Nat) : (f.join k q).priority = f.priority := by
  unfold Floor.join; split <;> rfl

theorem Floor.grant_core {f : Floor} {c k : Nat} (h : FloorCore f c) : FloorCore (f.grant k) c := by
  refine ⟨⟨h.views.1, ?_, h.views.3, ?_, ?_⟩, ⟨h.stamps.1, ?_⟩, h.chairs⟩
  · simp only [Floor.grant]
    rw [List.pairwise_map]
    refine h.views.2.imp ?_
    intro a b hab
    simp only [QueueRecord.before] at *
    split <;> split <;> exact hab
  · have e : (f.grant k).queue.map (fun r => r.seat) = f.queue.map (fun r => r.seat) := by
      simp only [Floor.grant, List.map_map]
      apply List.map_congr_left
      intro r _
      simp only [Function.comp]; split <;> rfl
    rw [e]; exact h.views.4
  · intro r hr
    rw [Floor.isQueued_false]
    intro x hx
    simp only [Floor.grant, List.mem_map] at hx
    obtain ⟨y, hy, rfl⟩ := hx
    have := Floor.isQueued_false.1 (h.views.5 r hr) y hy
    split <;> exact this
  · intro r hr
    simp only [Floor.grant, List.mem_map] at hr
    obtain ⟨y, hy, rfl⟩ := hr
    have := h.stamps.2 y hy
    split <;> exact this

/-- R42: entering a seat, before displacement. -/
theorem Floor.enter_core {f : Floor} {c k o q b : Nat} {cls : OpenClass} (h : FloorCore f c) (ho : o ≤ f.stamp)
    (hq : q ≤ f.stamp) (hc : cls = .chair → k = c) : FloorCore (f.enter k cls o q b) c := by
  have h1 : FloorCore ((f.dropQueue k).dropOpen k) c := Floor.dropOpen_core (Floor.dropQueue_core h)
  have hs : ∀ x ∈ ((f.dropQueue k).dropOpen k).openSet, x.seat ≠ k := by
    intro x hx
    simpa using (List.mem_filter.1 hx).2
  refine ⟨⟨insertOpen_order h1.views.1 hs, h1.views.2, insertOpen_nodup h1.views.3 hs, h1.views.4, ?_⟩, ⟨?_, h1.stamps.2⟩, ?_⟩
  · intro r hr
    rw [Floor.isQueued_false]
    rcases mem_insertOpen.1 hr with rfl | hr
    · intro x hx
      simpa using (List.mem_filter.1 hx).2
    · exact Floor.isQueued_false.1 (h1.views.5 r hr)
  · intro r hr
    rcases mem_insertOpen.1 hr with rfl | hr
    · exact ⟨ho, hq⟩
    · exact h1.stamps.1 r hr
  · intro r hr
    rcases mem_insertOpen.1 hr with rfl | hr
    · exact hc
    · exact h1.chairs r hr

@[simp] theorem Floor.enter_stamp (f : Floor) (k : Nat) (cls : OpenClass) (o q b : Nat) :
    (f.enter k cls o q b).stamp = f.stamp := rfl

/-! ## Displacement (R49) -/

theorem Floor.requeue_core {l : List OpenRecord} {f : Floor} {c : Nat} (h : FloorCore f c)
    (hl : ∀ r ∈ l, f.isOpen r.seat = false ∧ r.requestStamp ≤ f.stamp) : FloorCore (f.requeue l) c := by
  induction l generalizing f with
  | nil => exact h
  | cons r rs ih =>
    have hr := hl r List.mem_cons_self
    refine ih (Floor.join_core h hr.1 hr.2) ?_
    intro x hx
    have := hl x (List.mem_cons_of_mem _ hx)
    refine ⟨?_, by simpa using this.2⟩
    rw [Floor.isOpen_false] at *
    simpa using this.1

theorem Floor.requeue_openSet (l : List OpenRecord) (f : Floor) : (f.requeue l).openSet = f.openSet := by
  induction l generalizing f with
  | nil => rfl
  | cons r rs ih => exact (ih (f.join r.seat r.requestStamp)).trans (by simp)

theorem Floor.requeue_stamp (l : List OpenRecord) (f : Floor) : (f.requeue l).stamp = f.stamp := by
  induction l generalizing f with
  | nil => rfl
  | cons r rs ih => exact (ih (f.join r.seat r.requestStamp)).trans (by simp)

theorem Floor.requeue_priority (l : List OpenRecord) (f : Floor) : (f.requeue l).priority = f.priority := by
  induction l generalizing f with
  | nil => rfl
  | cons r rs ih => exact (ih (f.join r.seat r.requestStamp)).trans (by simp)

/-- The open set after displacement: what stood beyond the first L delegates is gone. -/
theorem Floor.displace_openSet (f : Floor) (limit : Nat) :
    (f.displace limit).openSet = f.openSet.filter (fun r => !(f.excess limit).contains r) :=
  Floor.requeue_openSet _ _

@[simp] theorem Floor.displace_stamp (f : Floor) (limit : Nat) : (f.displace limit).stamp = f.stamp :=
  Floor.requeue_stamp _ _

@[simp] theorem Floor.displace_priority (f : Floor) (limit : Nat) : (f.displace limit).priority = f.priority :=
  Floor.requeue_priority _ _

theorem Floor.mem_excess {f : Floor} {limit : Nat} {r : OpenRecord} (h : r ∈ f.excess limit) : r ∈ f.openSet :=
  (List.mem_filter.1 (List.mem_of_mem_drop h)).1

/-- R49: displacement keeps the view sound. -/
theorem Floor.displace_core {f : Floor} {c limit : Nat} (h : FloorCore f c) : FloorCore (f.displace limit) c := by
  have h1 : FloorCore { f with openSet := f.openSet.filter (fun r => !(f.excess limit).contains r) } c := by
    refine ⟨⟨h.views.1.filter _, h.views.2, ?_, h.views.4, ?_⟩, ⟨?_, h.stamps.2⟩, ?_⟩
    · exact h.views.3.sublist ((List.filter_sublist).map _)
    · intro r hr; exact h.views.5 r ((List.mem_filter.1 hr).1)
    · intro r hr; exact h.stamps.1 r ((List.mem_filter.1 hr).1)
    · intro r hr; exact h.chairs r ((List.mem_filter.1 hr).1)
  refine Floor.requeue_core h1 ?_
  intro r hr
  refine ⟨?_, (h.stamps.1 r (Floor.mem_excess hr)).2⟩
  rw [Floor.isOpen_false]
  intro x hx e
  have hx1 := List.mem_filter.1 hx
  have hxr : x = r := eq_of_seat h.views.3 hx1.1 (Floor.mem_excess hr) e
  subst hxr
  simp [hr] at hx1

/-- R49: after displacement at most L delegates are open. -/
theorem Floor.displace_delegates (f : Floor) (limit : Nat) : (f.displace limit).delegates.length ≤ limit := by
  have e : (f.displace limit).delegates = f.delegates.filter (fun r => !(f.excess limit).contains r) := by
    simp only [Floor.delegates, Floor.displace_openSet, List.filter_filter]
    congr 1; funext r; exact Bool.and_comm _ _
  have d : f.delegates = f.delegates.take limit ++ f.excess limit := (List.take_append_drop _ _).symm
  rw [e]
  generalize hx : f.excess limit = x at *
  rw [d, List.filter_append]
  have z : x.filter (fun r => !x.contains r) = [] := by simp
  rw [z, List.append_nil]
  exact Nat.le_trans (List.length_filter_le _ _) (by rw [List.length_take]; exact Nat.min_le_left _ _)

end Sys2Proof.Machine
end

