-- ==== Sys2Proof/Laws/FloorSteps.lean ====
section
/-! SUPPORT. The rules that change the floor view (R40 to R47, R51 to R55): each keeps the view sound and the limit on
delegates, and none lowers the counter. -/

namespace Sys2Proof.Machine

/-- What every rule of the view does to it under a limit and a chair seat. -/
structure FloorKeeps (f g : Floor) (limit chair : Nat) : Prop where
  stamp : f.stamp ≤ g.stamp
  core : FloorCore f chair → FloorCore g chair
  delegates : f.delegates.length ≤ limit → g.delegates.length ≤ limit

theorem FloorKeeps.rfl' {f : Floor} {l c : Nat} : FloorKeeps f f l c := ⟨Nat.le_refl _, id, id⟩

theorem FloorKeeps.trans {f g h : Floor} {l c : Nat} (a : FloorKeeps f g l c) (b : FloorKeeps g h l c) :
    FloorKeeps f h l c := ⟨Nat.le_trans a.1 b.1, b.2 ∘ a.2, b.3 ∘ a.3⟩

theorem Floor.raise_keeps (f : Floor) (k l c : Nat) : FloorKeeps f (f.raise k) l c :=
  ⟨Nat.le_max_left _ _, Floor.raise_core, id⟩

theorem Floor.issued_keeps (f : Floor) (l c : Nat) : FloorKeeps f f.issued l c := Floor.raise_keeps _ _ _ _

theorem Floor.le_raise (f : Floor) (k : Nat) : k ≤ (f.raise k).stamp := Nat.le_max_right _ _

theorem Floor.dropOpen_keeps (f : Floor) (k l c : Nat) : FloorKeeps f (f.dropOpen k) l c := by
  refine ⟨Nat.le_refl _, Floor.dropOpen_core, fun h => Nat.le_trans ?_ h⟩
  simp only [Floor.delegates, Floor.dropOpen, List.filter_filter]
  rw [show (fun r : OpenRecord => decide (r.cls = .delegate) && decide (r.seat ≠ k))
      = (fun r => decide (r.seat ≠ k) && decide (r.cls = .delegate)) from funext fun _ => Bool.and_comm _ _,
    ← List.filter_filter]
  exact List.length_filter_le _ _

theorem Floor.dropQueue_keeps (f : Floor) (k l c : Nat) : FloorKeeps f (f.dropQueue k) l c :=
  ⟨Nat.le_refl _, Floor.dropQueue_core, id⟩

theorem Floor.clearQueue_keeps (f : Floor) (l c : Nat) : FloorKeeps f { f with queue := [] } l c :=
  ⟨Nat.le_refl _, Floor.clearQueue_core, id⟩

theorem Floor.grant_keeps (f : Floor) (k l c : Nat) : FloorKeeps f (f.grant k) l c :=
  ⟨Nat.le_refl _, Floor.grant_core, id⟩

theorem Floor.delegates_of_openSet {f g : Floor} (h : g.openSet = f.openSet) : g.delegates = f.delegates := by
  simp [Floor.delegates, h]

/-- A seat joins the queue: it is not open, and its stamp has raised the counter. -/
theorem Floor.join_keeps {f : Floor} {k q : Nat} (l c : Nat) (ho : f.isOpen k = false) (hq : q ≤ f.stamp) :
    FloorKeeps f (f.join k q) l c :=
  ⟨by simp, fun h => Floor.join_core h ho hq, by simp [Floor.delegates_of_openSet (Floor.join_openSet f k q)]⟩

/-- R40. -/
theorem Floor.request_keeps (f : Floor) (k q l c : Nat) : FloorKeeps f (f.request k q) l c := by
  unfold Floor.request
  refine (Floor.raise_keeps f q l c).trans ?_
  dsimp only
  split
  · exact FloorKeeps.rfl'
  · rename_i h
    exact Floor.join_keeps l c (by simpa using h) (Floor.le_raise f q)

/-- R36. -/
theorem Floor.setPriority_keeps (f : Floor) (on allowed : Bool) (l c : Nat) : FloorKeeps f (f.setPriority on allowed) l c := by
  unfold Floor.setPriority
  split
  · split
    · exact ⟨Nat.le_refl _, Floor.priority_core, id⟩
    · exact FloorKeeps.rfl'
  · exact ⟨Nat.le_refl _, Floor.priority_core, id⟩

@[simp] theorem Floor.setPriority_stamp (f : Floor) (on allowed : Bool) : (f.setPriority on allowed).stamp = f.stamp := by
  unfold Floor.setPriority; split <;> (try split) <;> rfl

/-- R44, R52 and R55: a seat leaves the open set. -/
theorem Floor.removed_keeps (f : Floor) (k : Nat) (why : Reason) (l c : Nat) : FloorKeeps f (f.removed k why).floor l c :=
  Floor.dropOpen_keeps f k l c

/-- R43. -/
theorem Floor.yielded_keeps (f : Floor) (k q l c : Nat) : FloorKeeps f (f.yielded k q).floor l c := by
  unfold Floor.yielded
  refine ((Floor.raise_keeps f q l c).trans (Floor.dropOpen_keeps _ k l c)).trans (Floor.join_keeps l c ?_ ?_)
  · rw [Floor.isOpen_false]
    intro r hr
    simpa using (List.mem_filter.1 hr).2
  · exact Floor.le_raise f q

/-- R53. -/
theorem Floor.departed_keeps (f : Floor) (k : Nat) (chair : Bool) (l c : Nat) :
    FloorKeeps f (f.departed k chair).floor l c := by
  unfold Floor.departed
  refine ((Floor.dropOpen_keeps f k l c).trans (Floor.dropQueue_keeps _ k l c)).trans ?_
  dsimp only
  split
  · exact ⟨Nat.le_refl _, Floor.priority_core, id⟩
  · exact FloorKeeps.rfl'

/-- R42 and R49: a seat enters under a class that its chair allows, and displacement runs. -/
theorem Floor.enterStep_keeps {f : Floor} {k o q : Nat} {cls : OpenClass} (b l c : Nat) (ho : o ≤ f.stamp) (hq : q ≤ f.stamp)
    (hc : cls = .chair → k = c) : FloorKeeps f ((f.enter k cls o q b).displaceStep l).floor l c :=
  ⟨by simp [Floor.displaceStep], fun h => Floor.displace_core (Floor.enter_core h ho hq hc),
   fun _ => Floor.displace_delegates _ _⟩

theorem Floor.raise2_keeps (f : Floor) (o q l c : Nat) : FloorKeeps f ((f.raise o).raise q) l c :=
  (Floor.raise_keeps f o l c).trans (Floor.raise_keeps _ q l c)

theorem Floor.raise2_left (f : Floor) (o q : Nat) : o ≤ ((f.raise o).raise q).stamp :=
  Nat.le_trans (Floor.le_raise f o) (Nat.le_max_left _ _)

/-- R42. -/
theorem Floor.opening_keeps {f : Floor} {k : Nat} {cls : OpenClass} (o q b l c : Nat) (hc : cls = .chair → k = c) :
    FloorKeeps f (f.opening k cls o q b l).floor l c := by
  have h0 := Floor.raise2_keeps f o q l c
  have h1 : FloorKeeps ((f.raise o).raise q) ((((f.raise o).raise q).enter k cls o q b).displaceStep l).floor l c :=
    Floor.enterStep_keeps b l c (Floor.raise2_left f o q) (Floor.le_raise _ q) hc
  unfold Floor.opening
  dsimp only
  split
  · split
    · exact h0
    · exact h0.trans h1
  · exact h0.trans h1

/-- R51. -/
theorem Floor.implicit_keeps {f : Floor} {k : Nat} {cls : OpenClass} (o q b l c : Nat) (hc : cls = .chair → k = c) :
    FloorKeeps f (f.implicit k cls o q b l).floor l c := by
  have h0 := Floor.raise2_keeps f o q l c
  have h1 : FloorKeeps ((f.raise o).raise q) ((((f.raise o).raise q).enter k cls o q b).displaceStep l).floor l c :=
    Floor.enterStep_keeps b l c (Floor.raise2_left f o q) (Floor.le_raise _ q) hc
  unfold Floor.implicit
  dsimp only
  split
  · split
    · exact h0
    · exact h0.trans h1
  · exact h0.trans h1

/-- R54: the request part, for a stamp that has raised the counter. -/
theorem Floor.reconcileRequest_core {f : Floor} {k c : Nat} {request : Option Nat} (h : FloorCore f c)
    (hq : ∀ q, request = some q → q ≤ f.stamp) : FloorCore (f.reconcileRequest k request) c := by
  unfold Floor.reconcileRequest
  split
  · exact Floor.dropQueue_core h
  · rename_i q
    split
    · exact h
    · rename_i ho
      have ho' : f.isOpen k = false := by simpa using ho
      split
      · exact Floor.join_core h ho' (hq q rfl)
      · rename_i r hr
        split
        · exact h
        · have h1 : FloorCore (f.dropQueue k) c := Floor.dropQueue_core h
          have hs : ∀ x ∈ (f.dropQueue k).queue, x.seat ≠ k := by
            intro x hx; simpa using (List.mem_filter.1 hx).2
          have hk : r.seat = k := by
            have := List.find?_some hr; simpa using this
          have hs' : ∀ x ∈ (f.dropQueue k).queue, x.seat ≠ ({ r with requestStamp := q } : QueueRecord).seat := by
            intro x hx; rw [show ({ r with requestStamp := q } : QueueRecord).seat = k from hk]; exact hs x hx
          refine ⟨⟨h.views.1, insertQueue_order h1.views.2 hs', h.views.3, insertQueue_nodup h1.views.4 hs', ?_⟩,
            ⟨h.stamps.1, ?_⟩, h.chairs⟩
          · intro y hy
            rw [Floor.isQueued_false]
            intro x hx
            rcases mem_insertQueue.1 hx with rfl | hx
            · exact fun e => Floor.isOpen_false.1 ho' y hy (e.symm.trans hk)
            · exact Floor.isQueued_false.1 (h1.views.5 y hy) x hx
          · intro x hx
            rcases mem_insertQueue.1 hx with rfl | hx
            · exact hq q rfl
            · exact h1.stamps.2 x hx

@[simp] theorem Floor.reconcileRequest_openSet (f : Floor) (k : Nat) (request : Option Nat) :
    (f.reconcileRequest k request).openSet = f.openSet := by
  unfold Floor.reconcileRequest; repeat' split
  all_goals simp [Floor.dropQueue]

@[simp] theorem Floor.reconcileRequest_stamp (f : Floor) (k : Nat) (request : Option Nat) :
    (f.reconcileRequest k request).stamp = f.stamp := by
  unfold Floor.reconcileRequest; repeat' split
  all_goals simp [Floor.dropQueue]

theorem Floor.reconcileRequest_keeps {f : Floor} {k : Nat} {request : Option Nat} (l c : Nat)
    (hq : ∀ q, request = some q → q ≤ f.stamp) : FloorKeeps f (f.reconcileRequest k request) l c :=
  ⟨by simp, fun h => Floor.reconcileRequest_core h hq, by simp [Floor.delegates_of_openSet (Floor.reconcileRequest_openSet f k request)]⟩

/-- R49: displacement of a sound view. -/
theorem Floor.displace_keeps (f : Floor) (l c : Nat) : FloorKeeps f (f.displaceStep l).floor l c :=
  ⟨by simp [Floor.displaceStep], Floor.displace_core, fun _ => Floor.displace_delegates _ _⟩

theorem Floor.raiseReported_keeps (f : Floor) (mic : Option (Nat × Nat)) (request : Option Nat) (l c : Nat) :
    FloorKeeps f (f.raiseReported mic request) l c := by
  unfold Floor.raiseReported
  rcases mic with _ | ⟨o, q⟩ <;> rcases request with _ | r
  · exact FloorKeeps.rfl'
  · exact Floor.raise_keeps f r l c
  · exact Floor.raise2_keeps f o q l c
  · exact (Floor.raise2_keeps f o q l c).trans (Floor.raise_keeps _ r l c)

theorem Floor.raiseReported_request (f : Floor) (mic : Option (Nat × Nat)) (r : Nat) :
    r ≤ (f.raiseReported mic (some r)).stamp := Floor.le_raise _ r

theorem Floor.raiseReported_mic (f : Floor) (o q : Nat) (request : Option Nat) :
    o ≤ (f.raiseReported (some (o, q)) request).stamp ∧ q ≤ (f.raiseReported (some (o, q)) request).stamp := by
  unfold Floor.raiseReported
  rcases request with _ | r
  · exact ⟨Floor.raise2_left f o q, Floor.le_raise _ q⟩
  · exact ⟨Nat.le_trans (Floor.raise2_left f o q) (Nat.le_max_left _ _),
      Nat.le_trans (Floor.le_raise _ q) (Nat.le_max_left _ _)⟩

theorem Floor.reconcilePriority_keeps (f : Floor) (p chair a : Bool) (l c : Nat) :
    FloorKeeps f (f.reconcilePriority p chair a) l c := by
  unfold Floor.reconcilePriority
  split
  · exact Floor.setPriority_keeps f p a l c
  · exact FloorKeeps.rfl'

@[simp] theorem Floor.reconcilePriority_stamp (f : Floor) (p chair a : Bool) :
    (f.reconcilePriority p chair a).stamp = f.stamp := by
  unfold Floor.reconcilePriority; split <;> simp

theorem implicitClass_chair {chair : Bool} (h : implicitClass chair = .chair) : chair = true := by
  cases chair
  · cases h
  · rfl

/-- R54. -/
theorem Floor.reconcile_keeps {f : Floor} {k : Nat} {mic : Option (Nat × Nat)} {request : Option Nat} {priority chair : Bool}
    {b : Nat} {allowed : Bool} (l c : Nat) (hc : chair = true → k = c) :
    FloorKeeps f (f.reconcile k mic request priority chair b l allowed).floor l c := by
  have kg := Floor.raiseReported_keeps f mic request l c
  have hreq : ∀ q, request = some q → q ≤ (f.raiseReported mic request).stamp := by
    intro q e; subst e; exact Floor.raiseReported_request f mic q
  unfold Floor.reconcile
  dsimp only
  rcases mic with _ | ⟨o, q⟩
  · exact (kg.trans ((Floor.dropOpen_keeps _ k l c).trans (Floor.reconcileRequest_keeps l c hreq))).trans
      (Floor.reconcilePriority_keeps _ priority chair allowed l c)
  · dsimp only
    split
    · exact (kg.trans (Floor.reconcileRequest_keeps l c hreq)).trans
        (Floor.reconcilePriority_keeps _ priority chair allowed l c)
    · have hm := Floor.raiseReported_mic f o q request
      refine ⟨?_, fun h => ?_, fun _ => Floor.displace_delegates _ _⟩
      · simpa [Floor.displaceStep] using kg.stamp
      · refine Floor.displace_core ((Floor.reconcilePriority_keeps _ priority chair allowed l c).core
          (Floor.reconcileRequest_core (Floor.enter_core (kg.core h) hm.1 hm.2
            (fun e => hc (implicitClass_chair e))) ?_))
        simpa using hreq

end Sys2Proof.Machine
end

