-- ==== Sys2Proof/Laws/Queue.lean ====
section
/-! SUPPORT. The control queue (R11 to R14): coalescing, admission, withdrawal and selection keep at most one frame per
internal kind and at most five host-originated frames; a sound queue has at most ten. -/

namespace Sys2Proof.Machine

theorem ofKind_cons (f : Frame) (q : List Frame) (k : InternalKind) :
    ofKind (f :: q) k = if f.internalKind = some k then f :: ofKind q k else ofKind q k := by
  unfold ofKind
  rw [List.filter_cons]
  simp

theorem hostFrames_cons (f : Frame) (q : List Frame) :
    hostFrames (f :: q) = (if f.internalKind = none then 1 else 0) + hostFrames q := by
  unfold hostFrames
  rw [List.filter_cons]
  cases f.internalKind <;> simp [Nat.add_comm]

/-- R12: an offered frame leaves at most as many frames of its kind as there were, and one at the least where none was;
frames of other kinds are left as they are. -/
theorem coalesce_ofKind (f : Frame) (q : List Frame) (k : InternalKind) :
    (ofKind (coalesce f q).1 k).length ≤ max (ofKind q k).length (if f.internalKind = some k then 1 else 0) := by
  induction q with
  | nil => simp [coalesce, ofKind_cons]; split <;> simp [ofKind]
  | cons x xs ih =>
    simp only [coalesce]
    split
    · rename_i e
      split
      · rw [ofKind_cons]; split <;> simp <;> omega
      · rw [ofKind_cons, ofKind_cons, e]; split <;> simp <;> omega
    · rename_i e
      rw [ofKind_cons, ofKind_cons]
      split
      · rename_i hx
        have : ¬ f.internalKind = some k := fun h => e (hx.trans h.symm)
        simp only [this, if_false] at ih ⊢
        simp only [List.length_cons]; omega
      · exact ih

/-- R12: coalescing does not touch host-originated frames. -/
theorem coalesce_hosts {f : Frame} (q : List Frame) (h : f.internalKind ≠ none) :
    hostFrames (coalesce f q).1 = hostFrames q := by
  induction q with
  | nil => simp [coalesce, hostFrames_cons, h]
  | cons x xs ih =>
    simp only [coalesce]
    split
    · rename_i e
      have hx : x.internalKind ≠ none := e ▸ h
      split
      · simp [hostFrames_cons, hx]
      · simp [hostFrames_cons, hx, h]
    · simp [hostFrames_cons, ih]

/-- R12 keeps a sound queue. -/
theorem coalesce_sound {f : Frame} {q : List Frame} (h : f.internalKind ≠ none) (hq : QueueSound q) :
    QueueSound (coalesce f q).1 := by
  refine ⟨fun k => ?_, Nat.le_trans (Nat.le_of_eq (coalesce_hosts q h)) hq.hosts⟩
  have := hq.onePerKind k
  exact Nat.le_trans (coalesce_ofKind f q k) (Nat.max_le.2 ⟨this, by split <;> omega⟩)

theorem QueueSound.nil : QueueSound [] := ⟨fun _ => by simp [ofKind], by simp [hostFrames]⟩

/-- R15: the oldest frame leaves the queue. -/
theorem QueueSound.tail {f : Frame} {q : List Frame} (h : QueueSound (f :: q)) : QueueSound q := by
  refine ⟨fun k => ?_, ?_⟩
  · have := h.onePerKind k
    rw [ofKind_cons] at this
    split at this
    · rw [List.length_cons] at this; omega
    · exact this
  · have := h.hosts
    rw [hostFrames_cons] at this
    omega

/-- R14: a withdrawal keeps a sound queue. -/
theorem QueueSound.filter {q : List Frame} (p : Frame → Bool) (h : QueueSound q) : QueueSound (q.filter p) := by
  refine ⟨fun k => Nat.le_trans ?_ (h.onePerKind k), Nat.le_trans ?_ h.hosts⟩
  · exact (List.Sublist.filter _ List.filter_sublist).length_le
  · exact (List.Sublist.filter _ List.filter_sublist).length_le

theorem ofKind_append (a b : List Frame) (k : InternalKind) : ofKind (a ++ b) k = ofKind a k ++ ofKind b k :=
  List.filter_append _ _

theorem hostFrames_append (a b : List Frame) : hostFrames (a ++ b) = hostFrames a + hostFrames b := by
  simp [hostFrames, List.filter_append]

/-- R13: an admitted host-originated frame keeps a sound queue. -/
theorem QueueSound.host {f : Frame} {q : List Frame} (h : QueueSound q) (hf : f.internalKind = none)
    (hn : hostFrames q < Config.maxHostFrames) : QueueSound (q ++ [f]) := by
  refine ⟨fun k => ?_, ?_⟩
  · rw [ofKind_append]
    have : ofKind [f] k = [] := by simp [ofKind, hf]
    rw [this, List.append_nil]
    exact h.onePerKind k
  · rw [hostFrames_append]
    have : hostFrames [f] ≤ 1 := by simp [hostFrames, hf]
    omega

end Sys2Proof.Machine
end

