-- ==== Sys2Proof/Laws/State.lean ====
section
/-! SUPPORT. One lemma for each field that an operation leaves as it was, so that no proof unfolds a record update, and
one equation for each operation that places a frame: it moves the link, the rotation mark and a FLUSH being served, and
nothing else. -/

namespace Sys2Proof.Machine

/-! ## Replies, notices, messages -/

@[simp] theorem reply_pending (x : Status) (d : List Byte) (s : State) : (reply x d s).pending = s.pending := rfl
@[simp] theorem reply_station (x : Status) (d : List Byte) (s : State) : (reply x d s).station = s.station := rfl
@[simp] theorem reply_config (x : Status) (d : List Byte) (s : State) : (reply x d s).config = s.config := rfl
@[simp] theorem reply_profiles (x : Status) (d : List Byte) (s : State) : (reply x d s).profiles = s.profiles := rfl
@[simp] theorem reply_blockNumber (x : Status) (d : List Byte) (s : State) : (reply x d s).blockNumber = s.blockNumber := rfl
@[simp] theorem reply_link (x : Status) (d : List Byte) (s : State) : (reply x d s).link = s.link := rfl
@[simp] theorem reply_presence (x : Status) (d : List Byte) (s : State) : (reply x d s).presence = s.presence := rfl
@[simp] theorem reply_floor (x : Status) (d : List Byte) (s : State) : (reply x d s).floor = s.floor := rfl
@[simp] theorem reply_mic (x : Status) (d : List Byte) (s : State) : (reply x d s).mic = s.mic := rfl
@[simp] theorem reply_controls (x : Status) (d : List Byte) (s : State) : (reply x d s).controls = s.controls := rfl
@[simp] theorem reply_capture (x : Status) (d : List Byte) (s : State) : (reply x d s).capture = s.capture := rfl
@[simp] theorem reply_mix (x : Status) (d : List Byte) (s : State) : (reply x d s).mix = s.mix := rfl
@[simp] theorem reply_calendar (x : Status) (d : List Byte) (s : State) : (reply x d s).calendar = s.calendar := rfl
@[simp] theorem reply_meeting (x : Status) (d : List Byte) (s : State) : (reply x d s).meeting = s.meeting := rfl
@[simp] theorem reply_screen (x : Status) (d : List Byte) (s : State) : (reply x d s).screen = s.screen := rfl
@[simp] theorem reply_share (x : Status) (d : List Byte) (s : State) : (reply x d s).share = s.share := rfl
@[simp] theorem reply_port_serving (x : Status) (d : List Byte) (s : State) : (reply x d s).port.serving = s.port.serving := rfl
@[simp] theorem reply_port_notices (x : Status) (d : List Byte) (s : State) : (reply x d s).port.notices = s.port.notices := rfl
@[simp] theorem reply_port_overflow (x : Status) (d : List Byte) (s : State) : (reply x d s).port.overflow = s.port.overflow := rfl
@[simp] theorem reply_port_framing (x : Status) (d : List Byte) (s : State) : (reply x d s).port.framing = s.port.framing := rfl
@[simp] theorem reply_port_threshold (x : Status) (d : List Byte) (s : State) : (reply x d s).port.threshold = s.port.threshold := rfl
@[simp] theorem answer_pending (x : Status) (s : State) : (answer x s).pending = s.pending := rfl
@[simp] theorem answer_station (x : Status) (s : State) : (answer x s).station = s.station := rfl
@[simp] theorem answer_config (x : Status) (s : State) : (answer x s).config = s.config := rfl
@[simp] theorem answer_profiles (x : Status) (s : State) : (answer x s).profiles = s.profiles := rfl
@[simp] theorem answer_blockNumber (x : Status) (s : State) : (answer x s).blockNumber = s.blockNumber := rfl
@[simp] theorem answer_link (x : Status) (s : State) : (answer x s).link = s.link := rfl
@[simp] theorem answer_presence (x : Status) (s : State) : (answer x s).presence = s.presence := rfl
@[simp] theorem answer_floor (x : Status) (s : State) : (answer x s).floor = s.floor := rfl
@[simp] theorem answer_mic (x : Status) (s : State) : (answer x s).mic = s.mic := rfl
@[simp] theorem answer_controls (x : Status) (s : State) : (answer x s).controls = s.controls := rfl
@[simp] theorem answer_capture (x : Status) (s : State) : (answer x s).capture = s.capture := rfl
@[simp] theorem answer_mix (x : Status) (s : State) : (answer x s).mix = s.mix := rfl
@[simp] theorem answer_calendar (x : Status) (s : State) : (answer x s).calendar = s.calendar := rfl
@[simp] theorem answer_meeting (x : Status) (s : State) : (answer x s).meeting = s.meeting := rfl
@[simp] theorem answer_screen (x : Status) (s : State) : (answer x s).screen = s.screen := rfl
@[simp] theorem answer_share (x : Status) (s : State) : (answer x s).share = s.share := rfl
@[simp] theorem answer_port_serving (x : Status) (s : State) : (answer x s).port.serving = s.port.serving := rfl
@[simp] theorem answer_port_notices (x : Status) (s : State) : (answer x s).port.notices = s.port.notices := rfl
@[simp] theorem answer_port_overflow (x : Status) (s : State) : (answer x s).port.overflow = s.port.overflow := rfl
@[simp] theorem answer_port_framing (x : Status) (s : State) : (answer x s).port.framing = s.port.framing := rfl
@[simp] theorem answer_port_threshold (x : Status) (s : State) : (answer x s).port.threshold = s.port.threshold := rfl
@[simp] theorem showTransient_pending (x : List Byte) (s : State) : (showTransient x s).pending = s.pending := rfl
@[simp] theorem showTransient_station (x : List Byte) (s : State) : (showTransient x s).station = s.station := rfl
@[simp] theorem showTransient_config (x : List Byte) (s : State) : (showTransient x s).config = s.config := rfl
@[simp] theorem showTransient_profiles (x : List Byte) (s : State) : (showTransient x s).profiles = s.profiles := rfl
@[simp] theorem showTransient_blockNumber (x : List Byte) (s : State) : (showTransient x s).blockNumber = s.blockNumber := rfl
@[simp] theorem showTransient_link (x : List Byte) (s : State) : (showTransient x s).link = s.link := rfl
@[simp] theorem showTransient_presence (x : List Byte) (s : State) : (showTransient x s).presence = s.presence := rfl
@[simp] theorem showTransient_floor (x : List Byte) (s : State) : (showTransient x s).floor = s.floor := rfl
@[simp] theorem showTransient_mic (x : List Byte) (s : State) : (showTransient x s).mic = s.mic := rfl
@[simp] theorem showTransient_controls (x : List Byte) (s : State) : (showTransient x s).controls = s.controls := rfl
@[simp] theorem showTransient_capture (x : List Byte) (s : State) : (showTransient x s).capture = s.capture := rfl
@[simp] theorem showTransient_mix (x : List Byte) (s : State) : (showTransient x s).mix = s.mix := rfl
@[simp] theorem showTransient_calendar (x : List Byte) (s : State) : (showTransient x s).calendar = s.calendar := rfl
@[simp] theorem showTransient_meeting (x : List Byte) (s : State) : (showTransient x s).meeting = s.meeting := rfl
@[simp] theorem showTransient_share (x : List Byte) (s : State) : (showTransient x s).share = s.share := rfl
@[simp] theorem showTransient_port (x : List Byte) (s : State) : (showTransient x s).port = s.port := rfl
@[simp] theorem showTransient_screen_buffer (x : List Byte) (s : State) : (showTransient x s).screen.buffer = s.screen.buffer := rfl
@[simp] theorem showTransient_screen_dirty (x : List Byte) (s : State) : (showTransient x s).screen.dirty = s.screen.dirty := rfl
@[simp] theorem showTransient_screen_running (x : List Byte) (s : State) : (showTransient x s).screen.running = s.screen.running := rfl
@[simp] theorem showTransient_screen_sent (x : List Byte) (s : State) : (showTransient x s).screen.sent = s.screen.sent := rfl
@[simp] theorem showTransient_screen_windowStart (x : List Byte) (s : State) : (showTransient x s).screen.windowStart = s.screen.windowStart := rfl
@[simp] theorem showTransient_screen_windowCount (x : List Byte) (s : State) : (showTransient x s).screen.windowCount = s.screen.windowCount := rfl
@[simp] theorem showTransient_screen_host (x : List Byte) (s : State) : (showTransient x s).screen.host = s.screen.host := rfl
@[simp] theorem notify_pending (n : Notice) (s : State) : (notify n s).pending = s.pending := rfl
@[simp] theorem notify_station (n : Notice) (s : State) : (notify n s).station = s.station := rfl
@[simp] theorem notify_config (n : Notice) (s : State) : (notify n s).config = s.config := rfl
@[simp] theorem notify_profiles (n : Notice) (s : State) : (notify n s).profiles = s.profiles := rfl
@[simp] theorem notify_blockNumber (n : Notice) (s : State) : (notify n s).blockNumber = s.blockNumber := rfl
@[simp] theorem notify_link (n : Notice) (s : State) : (notify n s).link = s.link := rfl
@[simp] theorem notify_presence (n : Notice) (s : State) : (notify n s).presence = s.presence := rfl
@[simp] theorem notify_floor (n : Notice) (s : State) : (notify n s).floor = s.floor := rfl
@[simp] theorem notify_mic (n : Notice) (s : State) : (notify n s).mic = s.mic := rfl
@[simp] theorem notify_controls (n : Notice) (s : State) : (notify n s).controls = s.controls := rfl
@[simp] theorem notify_capture (n : Notice) (s : State) : (notify n s).capture = s.capture := rfl
@[simp] theorem notify_mix (n : Notice) (s : State) : (notify n s).mix = s.mix := rfl
@[simp] theorem notify_calendar (n : Notice) (s : State) : (notify n s).calendar = s.calendar := rfl
@[simp] theorem notify_meeting (n : Notice) (s : State) : (notify n s).meeting = s.meeting := rfl
@[simp] theorem notify_screen (n : Notice) (s : State) : (notify n s).screen = s.screen := rfl
@[simp] theorem notify_share (n : Notice) (s : State) : (notify n s).share = s.share := rfl

/-- A notice changes the FIFO and the overflow flag alone. -/
theorem Port.push_eq (p : Port) (n : Notice) :
    p.push n = { p with notices := (p.push n).notices, overflow := (p.push n).overflow } := by
  unfold Port.push; split <;> rfl

@[simp] theorem notify_port_serving (n : Notice) (s : State) : (notify n s).port.serving = s.port.serving := by
  have h := congrArg Port.serving (Port.push_eq s.port n); exact h
@[simp] theorem notify_port_reply (n : Notice) (s : State) : (notify n s).port.reply = s.port.reply := by
  have h := congrArg Port.reply (Port.push_eq s.port n); exact h
@[simp] theorem notify_port_framing (n : Notice) (s : State) : (notify n s).port.framing = s.port.framing := by
  have h := congrArg Port.framing (Port.push_eq s.port n); exact h
@[simp] theorem notify_port_threshold (n : Notice) (s : State) : (notify n s).port.threshold = s.port.threshold := by
  have h := congrArg Port.threshold (Port.push_eq s.port n); exact h

/-- Several notices change the FIFO and the overflow flag alone. -/
theorem notifyAll_eq (l : List Notice) (s : State) :
    notifyAll l s = { s with port := { s.port with
      notices := (notifyAll l s).port.notices, overflow := (notifyAll l s).port.overflow } } := by
  induction l generalizing s with
  | nil => rfl
  | cons n rest ih =>
      have h := ih (notify n s)
      simp only [notifyAll, List.foldl_cons] at h ⊢
      rw [h]
      simp

@[simp] theorem notifyAll_pending (l : List Notice) (s : State) : (notifyAll l s).pending = s.pending := by
  have h := congrArg State.pending (notifyAll_eq l s); exact h
@[simp] theorem notifyAll_station (l : List Notice) (s : State) : (notifyAll l s).station = s.station := by
  have h := congrArg State.station (notifyAll_eq l s); exact h
@[simp] theorem notifyAll_config (l : List Notice) (s : State) : (notifyAll l s).config = s.config := by
  have h := congrArg State.config (notifyAll_eq l s); exact h
@[simp] theorem notifyAll_profiles (l : List Notice) (s : State) : (notifyAll l s).profiles = s.profiles := by
  have h := congrArg State.profiles (notifyAll_eq l s); exact h
@[simp] theorem notifyAll_blockNumber (l : List Notice) (s : State) : (notifyAll l s).blockNumber = s.blockNumber := by
  have h := congrArg State.blockNumber (notifyAll_eq l s); exact h
@[simp] theorem notifyAll_link (l : List Notice) (s : State) : (notifyAll l s).link = s.link := by
  have h := congrArg State.link (notifyAll_eq l s); exact h
@[simp] theorem notifyAll_presence (l : List Notice) (s : State) : (notifyAll l s).presence = s.presence := by
  have h := congrArg State.presence (notifyAll_eq l s); exact h
@[simp] theorem notifyAll_floor (l : List Notice) (s : State) : (notifyAll l s).floor = s.floor := by
  have h := congrArg State.floor (notifyAll_eq l s); exact h
@[simp] theorem notifyAll_mic (l : List Notice) (s : State) : (notifyAll l s).mic = s.mic := by
  have h := congrArg State.mic (notifyAll_eq l s); exact h
@[simp] theorem notifyAll_controls (l : List Notice) (s : State) : (notifyAll l s).controls = s.controls := by
  have h := congrArg State.controls (notifyAll_eq l s); exact h
@[simp] theorem notifyAll_capture (l : List Notice) (s : State) : (notifyAll l s).capture = s.capture := by
  have h := congrArg State.capture (notifyAll_eq l s); exact h
@[simp] theorem notifyAll_mix (l : List Notice) (s : State) : (notifyAll l s).mix = s.mix := by
  have h := congrArg State.mix (notifyAll_eq l s); exact h
@[simp] theorem notifyAll_calendar (l : List Notice) (s : State) : (notifyAll l s).calendar = s.calendar := by
  have h := congrArg State.calendar (notifyAll_eq l s); exact h
@[simp] theorem notifyAll_meeting (l : List Notice) (s : State) : (notifyAll l s).meeting = s.meeting := by
  have h := congrArg State.meeting (notifyAll_eq l s); exact h
@[simp] theorem notifyAll_screen (l : List Notice) (s : State) : (notifyAll l s).screen = s.screen := by
  have h := congrArg State.screen (notifyAll_eq l s); exact h
@[simp] theorem notifyAll_share (l : List Notice) (s : State) : (notifyAll l s).share = s.share := by
  have h := congrArg State.share (notifyAll_eq l s); exact h
@[simp] theorem notifyAll_port_serving (l : List Notice) (s : State) : (notifyAll l s).port.serving = s.port.serving := by
  have h := congrArg (fun t => t.port.serving) (notifyAll_eq l s); exact h
@[simp] theorem notifyAll_port_reply (l : List Notice) (s : State) : (notifyAll l s).port.reply = s.port.reply := by
  have h := congrArg (fun t => t.port.reply) (notifyAll_eq l s); exact h
@[simp] theorem notifyAll_port_framing (l : List Notice) (s : State) : (notifyAll l s).port.framing = s.port.framing := by
  have h := congrArg (fun t => t.port.framing) (notifyAll_eq l s); exact h
@[simp] theorem notifyAll_port_threshold (l : List Notice) (s : State) : (notifyAll l s).port.threshold = s.port.threshold := by
  have h := congrArg (fun t => t.port.threshold) (notifyAll_eq l s); exact h

/-! ## Single fields -/

@[simp] theorem setPlacing_pending (on : Bool) (s : State) : (setPlacing on s).pending = s.pending := rfl
@[simp] theorem setPlacing_station (on : Bool) (s : State) : (setPlacing on s).station = s.station := rfl
@[simp] theorem setPlacing_config (on : Bool) (s : State) : (setPlacing on s).config = s.config := rfl
@[simp] theorem setPlacing_profiles (on : Bool) (s : State) : (setPlacing on s).profiles = s.profiles := rfl
@[simp] theorem setPlacing_blockNumber (on : Bool) (s : State) : (setPlacing on s).blockNumber = s.blockNumber := rfl
@[simp] theorem setPlacing_link (on : Bool) (s : State) : (setPlacing on s).link = s.link := rfl
@[simp] theorem setPlacing_presence (on : Bool) (s : State) : (setPlacing on s).presence = s.presence := rfl
@[simp] theorem setPlacing_floor (on : Bool) (s : State) : (setPlacing on s).floor = s.floor := rfl
@[simp] theorem setPlacing_mic (on : Bool) (s : State) : (setPlacing on s).mic = s.mic := rfl
@[simp] theorem setPlacing_controls (on : Bool) (s : State) : (setPlacing on s).controls = s.controls := rfl
@[simp] theorem setPlacing_mix (on : Bool) (s : State) : (setPlacing on s).mix = s.mix := rfl
@[simp] theorem setPlacing_calendar (on : Bool) (s : State) : (setPlacing on s).calendar = s.calendar := rfl
@[simp] theorem setPlacing_meeting (on : Bool) (s : State) : (setPlacing on s).meeting = s.meeting := rfl
@[simp] theorem setPlacing_screen (on : Bool) (s : State) : (setPlacing on s).screen = s.screen := rfl
@[simp] theorem setPlacing_share (on : Bool) (s : State) : (setPlacing on s).share = s.share := rfl
@[simp] theorem setPlacing_port (on : Bool) (s : State) : (setPlacing on s).port = s.port := rfl
@[simp] theorem setPlacing_capture_talking (on : Bool) (s : State) : (setPlacing on s).capture.talking = s.capture.talking := rfl
@[simp] theorem setPlacing_capture_hangover (on : Bool) (s : State) : (setPlacing on s).capture.hangover = s.capture.hangover := rfl
@[simp] theorem setPlacing_capture_lastPeak (on : Bool) (s : State) : (setPlacing on s).capture.lastPeak = s.capture.lastPeak := rfl
@[simp] theorem setPlacing_capture_outgoing (on : Bool) (s : State) : (setPlacing on s).capture.outgoing = s.capture.outgoing := rfl
@[simp] theorem setPlacing_capture_placing (on : Bool) (s : State) : (setPlacing on s).capture.placing = on := rfl
@[simp] theorem micOff_pending (s : State) : (micOff s).pending = s.pending := rfl
@[simp] theorem micOff_station (s : State) : (micOff s).station = s.station := rfl
@[simp] theorem micOff_config (s : State) : (micOff s).config = s.config := rfl
@[simp] theorem micOff_profiles (s : State) : (micOff s).profiles = s.profiles := rfl
@[simp] theorem micOff_blockNumber (s : State) : (micOff s).blockNumber = s.blockNumber := rfl
@[simp] theorem micOff_link (s : State) : (micOff s).link = s.link := rfl
@[simp] theorem micOff_presence (s : State) : (micOff s).presence = s.presence := rfl
@[simp] theorem micOff_floor (s : State) : (micOff s).floor = s.floor := rfl
@[simp] theorem micOff_controls (s : State) : (micOff s).controls = s.controls := rfl
@[simp] theorem micOff_mix (s : State) : (micOff s).mix = s.mix := rfl
@[simp] theorem micOff_calendar (s : State) : (micOff s).calendar = s.calendar := rfl
@[simp] theorem micOff_meeting (s : State) : (micOff s).meeting = s.meeting := rfl
@[simp] theorem micOff_screen (s : State) : (micOff s).screen = s.screen := rfl
@[simp] theorem micOff_share (s : State) : (micOff s).share = s.share := rfl
@[simp] theorem micOff_port (s : State) : (micOff s).port = s.port := rfl
@[simp] theorem micOff_capture_talking (s : State) : (micOff s).capture.talking = s.capture.talking := rfl
@[simp] theorem micOff_capture_hangover (s : State) : (micOff s).capture.hangover = s.capture.hangover := rfl
@[simp] theorem micOff_capture_lastPeak (s : State) : (micOff s).capture.lastPeak = s.capture.lastPeak := rfl
@[simp] theorem micOff_capture_outgoing (s : State) : (micOff s).capture.outgoing = s.capture.outgoing := rfl
@[simp] theorem micOff_mic (s : State) : (micOff s).mic = .reset := rfl
@[simp] theorem micOff_capture_placing (s : State) : (micOff s).capture.placing = false := rfl
@[simp] theorem emptyVoice_pending (s : State) : (emptyVoice s).pending = s.pending := rfl
@[simp] theorem emptyVoice_station (s : State) : (emptyVoice s).station = s.station := rfl
@[simp] theorem emptyVoice_config (s : State) : (emptyVoice s).config = s.config := rfl
@[simp] theorem emptyVoice_profiles (s : State) : (emptyVoice s).profiles = s.profiles := rfl
@[simp] theorem emptyVoice_blockNumber (s : State) : (emptyVoice s).blockNumber = s.blockNumber := rfl
@[simp] theorem emptyVoice_presence (s : State) : (emptyVoice s).presence = s.presence := rfl
@[simp] theorem emptyVoice_floor (s : State) : (emptyVoice s).floor = s.floor := rfl
@[simp] theorem emptyVoice_mic (s : State) : (emptyVoice s).mic = s.mic := rfl
@[simp] theorem emptyVoice_controls (s : State) : (emptyVoice s).controls = s.controls := rfl
@[simp] theorem emptyVoice_capture (s : State) : (emptyVoice s).capture = s.capture := rfl
@[simp] theorem emptyVoice_mix (s : State) : (emptyVoice s).mix = s.mix := rfl
@[simp] theorem emptyVoice_calendar (s : State) : (emptyVoice s).calendar = s.calendar := rfl
@[simp] theorem emptyVoice_meeting (s : State) : (emptyVoice s).meeting = s.meeting := rfl
@[simp] theorem emptyVoice_screen (s : State) : (emptyVoice s).screen = s.screen := rfl
@[simp] theorem emptyVoice_share (s : State) : (emptyVoice s).share = s.share := rfl
@[simp] theorem emptyVoice_port (s : State) : (emptyVoice s).port = s.port := rfl
@[simp] theorem emptyVoice_link_queue (s : State) : (emptyVoice s).link.queue = s.link.queue := rfl
@[simp] theorem emptyVoice_link_beaconSlot (s : State) : (emptyVoice s).link.beaconSlot = s.link.beaconSlot := rfl
@[simp] theorem emptyVoice_link_inSend (s : State) : (emptyVoice s).link.inSend = s.link.inSend := rfl
@[simp] theorem emptyVoice_link_finishing (s : State) : (emptyVoice s).link.finishing = s.link.finishing := rfl
@[simp] theorem countBadFrame_pending (s : State) : (countBadFrame s).pending = s.pending := rfl
@[simp] theorem countBadFrame_station (s : State) : (countBadFrame s).station = s.station := rfl
@[simp] theorem countBadFrame_config (s : State) : (countBadFrame s).config = s.config := rfl
@[simp] theorem countBadFrame_profiles (s : State) : (countBadFrame s).profiles = s.profiles := rfl
@[simp] theorem countBadFrame_blockNumber (s : State) : (countBadFrame s).blockNumber = s.blockNumber := rfl
@[simp] theorem countBadFrame_presence (s : State) : (countBadFrame s).presence = s.presence := rfl
@[simp] theorem countBadFrame_floor (s : State) : (countBadFrame s).floor = s.floor := rfl
@[simp] theorem countBadFrame_mic (s : State) : (countBadFrame s).mic = s.mic := rfl
@[simp] theorem countBadFrame_controls (s : State) : (countBadFrame s).controls = s.controls := rfl
@[simp] theorem countBadFrame_capture (s : State) : (countBadFrame s).capture = s.capture := rfl
@[simp] theorem countBadFrame_mix (s : State) : (countBadFrame s).mix = s.mix := rfl
@[simp] theorem countBadFrame_calendar (s : State) : (countBadFrame s).calendar = s.calendar := rfl
@[simp] theorem countBadFrame_meeting (s : State) : (countBadFrame s).meeting = s.meeting := rfl
@[simp] theorem countBadFrame_screen (s : State) : (countBadFrame s).screen = s.screen := rfl
@[simp] theorem countBadFrame_share (s : State) : (countBadFrame s).share = s.share := rfl
@[simp] theorem countBadFrame_port (s : State) : (countBadFrame s).port = s.port := rfl
@[simp] theorem countBadFrame_link_queue (s : State) : (countBadFrame s).link.queue = s.link.queue := rfl
@[simp] theorem countBadFrame_link_beaconSlot (s : State) : (countBadFrame s).link.beaconSlot = s.link.beaconSlot := rfl
@[simp] theorem countBadFrame_link_inSend (s : State) : (countBadFrame s).link.inSend = s.link.inSend := rfl
@[simp] theorem countBadFrame_link_finishing (s : State) : (countBadFrame s).link.finishing = s.link.finishing := rfl
@[simp] theorem countBadFrame_link_voiceSlot (s : State) : (countBadFrame s).link.voiceSlot = s.link.voiceSlot := rfl
@[simp] theorem setView_pending (v : List Entry) (s : State) : (setView v s).pending = s.pending := rfl
@[simp] theorem setView_station (v : List Entry) (s : State) : (setView v s).station = s.station := rfl
@[simp] theorem setView_config (v : List Entry) (s : State) : (setView v s).config = s.config := rfl
@[simp] theorem setView_profiles (v : List Entry) (s : State) : (setView v s).profiles = s.profiles := rfl
@[simp] theorem setView_blockNumber (v : List Entry) (s : State) : (setView v s).blockNumber = s.blockNumber := rfl
@[simp] theorem setView_link (v : List Entry) (s : State) : (setView v s).link = s.link := rfl
@[simp] theorem setView_presence (v : List Entry) (s : State) : (setView v s).presence = s.presence := rfl
@[simp] theorem setView_floor (v : List Entry) (s : State) : (setView v s).floor = s.floor := rfl
@[simp] theorem setView_mic (v : List Entry) (s : State) : (setView v s).mic = s.mic := rfl
@[simp] theorem setView_controls (v : List Entry) (s : State) : (setView v s).controls = s.controls := rfl
@[simp] theorem setView_capture (v : List Entry) (s : State) : (setView v s).capture = s.capture := rfl
@[simp] theorem setView_mix (v : List Entry) (s : State) : (setView v s).mix = s.mix := rfl
@[simp] theorem setView_meeting (v : List Entry) (s : State) : (setView v s).meeting = s.meeting := rfl
@[simp] theorem setView_screen (v : List Entry) (s : State) : (setView v s).screen = s.screen := rfl
@[simp] theorem setView_share (v : List Entry) (s : State) : (setView v s).share = s.share := rfl
@[simp] theorem setView_port (v : List Entry) (s : State) : (setView v s).port = s.port := rfl
@[simp] theorem setView_calendar_clock (v : List Entry) (s : State) : (setView v s).calendar.clock = s.calendar.clock := rfl
@[simp] theorem setView_calendar_serial (v : List Entry) (s : State) : (setView v s).calendar.serial = s.calendar.serial := rfl
@[simp] theorem setView_calendar_rotation (v : List Entry) (s : State) : (setView v s).calendar.rotation = s.calendar.rotation := rfl
@[simp] theorem setView_calendar_ask (v : List Entry) (s : State) : (setView v s).calendar.ask = s.calendar.ask := rfl
@[simp] theorem setView_calendar_view (v : List Entry) (s : State) : (setView v s).calendar.view = v := rfl
@[simp] theorem clearAsk_pending (s : State) : (clearAsk s).pending = s.pending := rfl
@[simp] theorem clearAsk_station (s : State) : (clearAsk s).station = s.station := rfl
@[simp] theorem clearAsk_config (s : State) : (clearAsk s).config = s.config := rfl
@[simp] theorem clearAsk_profiles (s : State) : (clearAsk s).profiles = s.profiles := rfl
@[simp] theorem clearAsk_blockNumber (s : State) : (clearAsk s).blockNumber = s.blockNumber := rfl
@[simp] theorem clearAsk_link (s : State) : (clearAsk s).link = s.link := rfl
@[simp] theorem clearAsk_presence (s : State) : (clearAsk s).presence = s.presence := rfl
@[simp] theorem clearAsk_floor (s : State) : (clearAsk s).floor = s.floor := rfl
@[simp] theorem clearAsk_mic (s : State) : (clearAsk s).mic = s.mic := rfl
@[simp] theorem clearAsk_controls (s : State) : (clearAsk s).controls = s.controls := rfl
@[simp] theorem clearAsk_capture (s : State) : (clearAsk s).capture = s.capture := rfl
@[simp] theorem clearAsk_mix (s : State) : (clearAsk s).mix = s.mix := rfl
@[simp] theorem clearAsk_meeting (s : State) : (clearAsk s).meeting = s.meeting := rfl
@[simp] theorem clearAsk_screen (s : State) : (clearAsk s).screen = s.screen := rfl
@[simp] theorem clearAsk_share (s : State) : (clearAsk s).share = s.share := rfl
@[simp] theorem clearAsk_port (s : State) : (clearAsk s).port = s.port := rfl
@[simp] theorem clearAsk_calendar_clock (s : State) : (clearAsk s).calendar.clock = s.calendar.clock := rfl
@[simp] theorem clearAsk_calendar_serial (s : State) : (clearAsk s).calendar.serial = s.calendar.serial := rfl
@[simp] theorem clearAsk_calendar_rotation (s : State) : (clearAsk s).calendar.rotation = s.calendar.rotation := rfl
@[simp] theorem clearAsk_calendar_view (s : State) : (clearAsk s).calendar.view = s.calendar.view := rfl
@[simp] theorem clearShare_pending (s : State) : (clearShare s).pending = s.pending := rfl
@[simp] theorem clearShare_station (s : State) : (clearShare s).station = s.station := rfl
@[simp] theorem clearShare_config (s : State) : (clearShare s).config = s.config := rfl
@[simp] theorem clearShare_profiles (s : State) : (clearShare s).profiles = s.profiles := rfl
@[simp] theorem clearShare_blockNumber (s : State) : (clearShare s).blockNumber = s.blockNumber := rfl
@[simp] theorem clearShare_link (s : State) : (clearShare s).link = s.link := rfl
@[simp] theorem clearShare_presence (s : State) : (clearShare s).presence = s.presence := rfl
@[simp] theorem clearShare_floor (s : State) : (clearShare s).floor = s.floor := rfl
@[simp] theorem clearShare_mic (s : State) : (clearShare s).mic = s.mic := rfl
@[simp] theorem clearShare_controls (s : State) : (clearShare s).controls = s.controls := rfl
@[simp] theorem clearShare_capture (s : State) : (clearShare s).capture = s.capture := rfl
@[simp] theorem clearShare_mix (s : State) : (clearShare s).mix = s.mix := rfl
@[simp] theorem clearShare_calendar (s : State) : (clearShare s).calendar = s.calendar := rfl
@[simp] theorem clearShare_meeting (s : State) : (clearShare s).meeting = s.meeting := rfl
@[simp] theorem clearShare_screen (s : State) : (clearShare s).screen = s.screen := rfl
@[simp] theorem clearShare_port (s : State) : (clearShare s).port = s.port := rfl
@[simp] theorem shareReleased_pending (k : Nat) (s : State) : (shareReleased k s).pending = s.pending := rfl
@[simp] theorem shareReleased_station (k : Nat) (s : State) : (shareReleased k s).station = s.station := rfl
@[simp] theorem shareReleased_config (k : Nat) (s : State) : (shareReleased k s).config = s.config := rfl
@[simp] theorem shareReleased_profiles (k : Nat) (s : State) : (shareReleased k s).profiles = s.profiles := rfl
@[simp] theorem shareReleased_blockNumber (k : Nat) (s : State) : (shareReleased k s).blockNumber = s.blockNumber := rfl
@[simp] theorem shareReleased_link (k : Nat) (s : State) : (shareReleased k s).link = s.link := rfl
@[simp] theorem shareReleased_presence (k : Nat) (s : State) : (shareReleased k s).presence = s.presence := rfl
@[simp] theorem shareReleased_floor (k : Nat) (s : State) : (shareReleased k s).floor = s.floor := rfl
@[simp] theorem shareReleased_mic (k : Nat) (s : State) : (shareReleased k s).mic = s.mic := rfl
@[simp] theorem shareReleased_controls (k : Nat) (s : State) : (shareReleased k s).controls = s.controls := rfl
@[simp] theorem shareReleased_capture (k : Nat) (s : State) : (shareReleased k s).capture = s.capture := rfl
@[simp] theorem shareReleased_mix (k : Nat) (s : State) : (shareReleased k s).mix = s.mix := rfl
@[simp] theorem shareReleased_calendar (k : Nat) (s : State) : (shareReleased k s).calendar = s.calendar := rfl
@[simp] theorem shareReleased_meeting (k : Nat) (s : State) : (shareReleased k s).meeting = s.meeting := rfl
@[simp] theorem shareReleased_screen (k : Nat) (s : State) : (shareReleased k s).screen = s.screen := rfl
@[simp] theorem shareReleased_port (k : Nat) (s : State) : (shareReleased k s).port = s.port := rfl
@[simp] theorem claimReleased_pending (s : State) : (claimReleased s).pending = s.pending := rfl
@[simp] theorem claimReleased_station (s : State) : (claimReleased s).station = s.station := rfl
@[simp] theorem claimReleased_config (s : State) : (claimReleased s).config = s.config := rfl
@[simp] theorem claimReleased_profiles (s : State) : (claimReleased s).profiles = s.profiles := rfl
@[simp] theorem claimReleased_blockNumber (s : State) : (claimReleased s).blockNumber = s.blockNumber := rfl
@[simp] theorem claimReleased_link (s : State) : (claimReleased s).link = s.link := rfl
@[simp] theorem claimReleased_presence (s : State) : (claimReleased s).presence = s.presence := rfl
@[simp] theorem claimReleased_floor (s : State) : (claimReleased s).floor = s.floor := rfl
@[simp] theorem claimReleased_mic (s : State) : (claimReleased s).mic = s.mic := rfl
@[simp] theorem claimReleased_controls (s : State) : (claimReleased s).controls = s.controls := rfl
@[simp] theorem claimReleased_capture (s : State) : (claimReleased s).capture = s.capture := rfl
@[simp] theorem claimReleased_mix (s : State) : (claimReleased s).mix = s.mix := rfl
@[simp] theorem claimReleased_calendar (s : State) : (claimReleased s).calendar = s.calendar := rfl
@[simp] theorem claimReleased_meeting (s : State) : (claimReleased s).meeting = s.meeting := rfl
@[simp] theorem claimReleased_screen (s : State) : (claimReleased s).screen = s.screen := rfl
@[simp] theorem claimReleased_port (s : State) : (claimReleased s).port = s.port := rfl
@[simp] theorem startFlash_pending (s : State) : (startFlash s).pending = s.pending := rfl
@[simp] theorem startFlash_station (s : State) : (startFlash s).station = s.station := rfl
@[simp] theorem startFlash_config (s : State) : (startFlash s).config = s.config := rfl
@[simp] theorem startFlash_profiles (s : State) : (startFlash s).profiles = s.profiles := rfl
@[simp] theorem startFlash_blockNumber (s : State) : (startFlash s).blockNumber = s.blockNumber := rfl
@[simp] theorem startFlash_link (s : State) : (startFlash s).link = s.link := rfl
@[simp] theorem startFlash_presence (s : State) : (startFlash s).presence = s.presence := rfl
@[simp] theorem startFlash_floor (s : State) : (startFlash s).floor = s.floor := rfl
@[simp] theorem startFlash_mic (s : State) : (startFlash s).mic = s.mic := rfl
@[simp] theorem startFlash_capture (s : State) : (startFlash s).capture = s.capture := rfl
@[simp] theorem startFlash_mix (s : State) : (startFlash s).mix = s.mix := rfl
@[simp] theorem startFlash_calendar (s : State) : (startFlash s).calendar = s.calendar := rfl
@[simp] theorem startFlash_meeting (s : State) : (startFlash s).meeting = s.meeting := rfl
@[simp] theorem startFlash_screen (s : State) : (startFlash s).screen = s.screen := rfl
@[simp] theorem startFlash_share (s : State) : (startFlash s).share = s.share := rfl
@[simp] theorem startFlash_port (s : State) : (startFlash s).port = s.port := rfl
@[simp] theorem advanceWindow_pending (s : State) : (advanceWindow s).pending = s.pending := rfl
@[simp] theorem advanceWindow_station (s : State) : (advanceWindow s).station = s.station := rfl
@[simp] theorem advanceWindow_config (s : State) : (advanceWindow s).config = s.config := rfl
@[simp] theorem advanceWindow_profiles (s : State) : (advanceWindow s).profiles = s.profiles := rfl
@[simp] theorem advanceWindow_blockNumber (s : State) : (advanceWindow s).blockNumber = s.blockNumber := rfl
@[simp] theorem advanceWindow_link (s : State) : (advanceWindow s).link = s.link := rfl
@[simp] theorem advanceWindow_presence (s : State) : (advanceWindow s).presence = s.presence := rfl
@[simp] theorem advanceWindow_floor (s : State) : (advanceWindow s).floor = s.floor := rfl
@[simp] theorem advanceWindow_mic (s : State) : (advanceWindow s).mic = s.mic := rfl
@[simp] theorem advanceWindow_controls (s : State) : (advanceWindow s).controls = s.controls := rfl
@[simp] theorem advanceWindow_capture (s : State) : (advanceWindow s).capture = s.capture := rfl
@[simp] theorem advanceWindow_mix (s : State) : (advanceWindow s).mix = s.mix := rfl
@[simp] theorem advanceWindow_calendar (s : State) : (advanceWindow s).calendar = s.calendar := rfl
@[simp] theorem advanceWindow_meeting (s : State) : (advanceWindow s).meeting = s.meeting := rfl
@[simp] theorem advanceWindow_share (s : State) : (advanceWindow s).share = s.share := rfl
@[simp] theorem advanceWindow_port (s : State) : (advanceWindow s).port = s.port := rfl
@[simp] theorem clearView_pending (s : State) : (clearView s).pending = s.pending := rfl
@[simp] theorem clearView_station (s : State) : (clearView s).station = s.station := rfl
@[simp] theorem clearView_config (s : State) : (clearView s).config = s.config := rfl
@[simp] theorem clearView_profiles (s : State) : (clearView s).profiles = s.profiles := rfl
@[simp] theorem clearView_blockNumber (s : State) : (clearView s).blockNumber = s.blockNumber := rfl
@[simp] theorem clearView_link (s : State) : (clearView s).link = s.link := rfl
@[simp] theorem clearView_presence (s : State) : (clearView s).presence = s.presence := rfl
@[simp] theorem clearView_mic (s : State) : (clearView s).mic = s.mic := rfl
@[simp] theorem clearView_controls (s : State) : (clearView s).controls = s.controls := rfl
@[simp] theorem clearView_capture (s : State) : (clearView s).capture = s.capture := rfl
@[simp] theorem clearView_calendar (s : State) : (clearView s).calendar = s.calendar := rfl
@[simp] theorem clearView_meeting (s : State) : (clearView s).meeting = s.meeting := rfl
@[simp] theorem clearView_screen (s : State) : (clearView s).screen = s.screen := rfl
@[simp] theorem clearView_share (s : State) : (clearView s).share = s.share := rfl
@[simp] theorem clearView_port (s : State) : (clearView s).port = s.port := rfl
@[simp] theorem recordStart_pending (e : Entry) (s : State) : (recordStart e s).pending = s.pending := rfl
@[simp] theorem recordStart_station (e : Entry) (s : State) : (recordStart e s).station = s.station := rfl
@[simp] theorem recordStart_config (e : Entry) (s : State) : (recordStart e s).config = s.config := rfl
@[simp] theorem recordStart_profiles (e : Entry) (s : State) : (recordStart e s).profiles = s.profiles := rfl
@[simp] theorem recordStart_blockNumber (e : Entry) (s : State) : (recordStart e s).blockNumber = s.blockNumber := rfl
@[simp] theorem recordStart_link (e : Entry) (s : State) : (recordStart e s).link = s.link := rfl
@[simp] theorem recordStart_presence (e : Entry) (s : State) : (recordStart e s).presence = s.presence := rfl
@[simp] theorem recordStart_floor (e : Entry) (s : State) : (recordStart e s).floor = s.floor := rfl
@[simp] theorem recordStart_mic (e : Entry) (s : State) : (recordStart e s).mic = s.mic := rfl
@[simp] theorem recordStart_controls (e : Entry) (s : State) : (recordStart e s).controls = s.controls := rfl
@[simp] theorem recordStart_capture (e : Entry) (s : State) : (recordStart e s).capture = s.capture := rfl
@[simp] theorem recordStart_mix (e : Entry) (s : State) : (recordStart e s).mix = s.mix := rfl
@[simp] theorem recordStart_screen (e : Entry) (s : State) : (recordStart e s).screen = s.screen := rfl
@[simp] theorem recordStart_share (e : Entry) (s : State) : (recordStart e s).share = s.share := rfl
@[simp] theorem recordStart_port (e : Entry) (s : State) : (recordStart e s).port = s.port := rfl
@[simp] theorem mixAtStart_pending (s : State) : (mixAtStart s).pending = s.pending := rfl
@[simp] theorem mixAtStart_station (s : State) : (mixAtStart s).station = s.station := rfl
@[simp] theorem mixAtStart_config (s : State) : (mixAtStart s).config = s.config := rfl
@[simp] theorem mixAtStart_profiles (s : State) : (mixAtStart s).profiles = s.profiles := rfl
@[simp] theorem mixAtStart_blockNumber (s : State) : (mixAtStart s).blockNumber = s.blockNumber := rfl
@[simp] theorem mixAtStart_link (s : State) : (mixAtStart s).link = s.link := rfl
@[simp] theorem mixAtStart_presence (s : State) : (mixAtStart s).presence = s.presence := rfl
@[simp] theorem mixAtStart_floor (s : State) : (mixAtStart s).floor = s.floor := rfl
@[simp] theorem mixAtStart_mic (s : State) : (mixAtStart s).mic = s.mic := rfl
@[simp] theorem mixAtStart_controls (s : State) : (mixAtStart s).controls = s.controls := rfl
@[simp] theorem mixAtStart_capture (s : State) : (mixAtStart s).capture = s.capture := rfl
@[simp] theorem mixAtStart_calendar (s : State) : (mixAtStart s).calendar = s.calendar := rfl
@[simp] theorem mixAtStart_meeting (s : State) : (mixAtStart s).meeting = s.meeting := rfl
@[simp] theorem mixAtStart_screen (s : State) : (mixAtStart s).screen = s.screen := rfl
@[simp] theorem mixAtStart_share (s : State) : (mixAtStart s).share = s.share := rfl
@[simp] theorem mixAtStart_port (s : State) : (mixAtStart s).port = s.port := rfl
@[simp] theorem screenAtStart_pending (s : State) : (screenAtStart s).pending = s.pending := rfl
@[simp] theorem screenAtStart_station (s : State) : (screenAtStart s).station = s.station := rfl
@[simp] theorem screenAtStart_config (s : State) : (screenAtStart s).config = s.config := rfl
@[simp] theorem screenAtStart_profiles (s : State) : (screenAtStart s).profiles = s.profiles := rfl
@[simp] theorem screenAtStart_blockNumber (s : State) : (screenAtStart s).blockNumber = s.blockNumber := rfl
@[simp] theorem screenAtStart_link (s : State) : (screenAtStart s).link = s.link := rfl
@[simp] theorem screenAtStart_presence (s : State) : (screenAtStart s).presence = s.presence := rfl
@[simp] theorem screenAtStart_floor (s : State) : (screenAtStart s).floor = s.floor := rfl
@[simp] theorem screenAtStart_mic (s : State) : (screenAtStart s).mic = s.mic := rfl
@[simp] theorem screenAtStart_controls (s : State) : (screenAtStart s).controls = s.controls := rfl
@[simp] theorem screenAtStart_capture (s : State) : (screenAtStart s).capture = s.capture := rfl
@[simp] theorem screenAtStart_mix (s : State) : (screenAtStart s).mix = s.mix := rfl
@[simp] theorem screenAtStart_calendar (s : State) : (screenAtStart s).calendar = s.calendar := rfl
@[simp] theorem screenAtStart_meeting (s : State) : (screenAtStart s).meeting = s.meeting := rfl
@[simp] theorem screenAtStart_port (s : State) : (screenAtStart s).port = s.port := rfl
@[simp] theorem dropEndedEarly_pending (s : State) : (dropEndedEarly s).pending = s.pending := rfl
@[simp] theorem dropEndedEarly_station (s : State) : (dropEndedEarly s).station = s.station := rfl
@[simp] theorem dropEndedEarly_config (s : State) : (dropEndedEarly s).config = s.config := rfl
@[simp] theorem dropEndedEarly_profiles (s : State) : (dropEndedEarly s).profiles = s.profiles := rfl
@[simp] theorem dropEndedEarly_blockNumber (s : State) : (dropEndedEarly s).blockNumber = s.blockNumber := rfl
@[simp] theorem dropEndedEarly_link (s : State) : (dropEndedEarly s).link = s.link := rfl
@[simp] theorem dropEndedEarly_presence (s : State) : (dropEndedEarly s).presence = s.presence := rfl
@[simp] theorem dropEndedEarly_floor (s : State) : (dropEndedEarly s).floor = s.floor := rfl
@[simp] theorem dropEndedEarly_mic (s : State) : (dropEndedEarly s).mic = s.mic := rfl
@[simp] theorem dropEndedEarly_controls (s : State) : (dropEndedEarly s).controls = s.controls := rfl
@[simp] theorem dropEndedEarly_capture (s : State) : (dropEndedEarly s).capture = s.capture := rfl
@[simp] theorem dropEndedEarly_mix (s : State) : (dropEndedEarly s).mix = s.mix := rfl
@[simp] theorem dropEndedEarly_calendar (s : State) : (dropEndedEarly s).calendar = s.calendar := rfl
@[simp] theorem dropEndedEarly_screen (s : State) : (dropEndedEarly s).screen = s.screen := rfl
@[simp] theorem dropEndedEarly_share (s : State) : (dropEndedEarly s).share = s.share := rfl
@[simp] theorem dropEndedEarly_port (s : State) : (dropEndedEarly s).port = s.port := rfl

/-! ## The link -/

/-- A step that moves the link, the rotation mark and a FLUSH being served, and nothing else. -/
def linkOnly (s t : State) : Prop :=
  t = { s with
    link := t.link, calendar := { s.calendar with rotation := t.calendar.rotation },
    port := { s.port with serving := t.port.serving, reply := t.port.reply } }

/-- A changed link alone. -/
theorem linkOnly_link (s : State) (l : Link) : linkOnly s { s with link := l } := rfl

/-- One link step after another. -/
theorem linkOnly.trans {s t u : State} (h : linkOnly s t) (k : linkOnly t u) : linkOnly s u := by
  unfold linkOnly at *
  rw [k, h]

theorem flushCheck_linkOnly (s : State) : linkOnly s (flushCheck s) := by
  unfold flushCheck linkOnly
  split <;> rfl

theorem select_linkOnly (s : State) : linkOnly s (select s) := by
  unfold select
  split
  · split
    · rfl
    · unfold selectRun
      split
      · rfl
      · split
        · exact (linkOnly_link s _).trans (flushCheck_linkOnly _)
        · split <;> rfl
    · split <;> rfl
  · rfl

theorem offer_linkOnly (b : Body) (s : State) : linkOnly s (offer b s).1 := by
  unfold offer
  split
  · rfl
  · exact ((linkOnly_link s _).trans (flushCheck_linkOnly _)).trans (select_linkOnly _)

theorem offerFrame_linkOnly (b : Body) (s : State) : linkOnly s (offerFrame b s) := offer_linkOnly b s

theorem offerHost_linkOnly (b : Body) (s : State) : linkOnly s (offerHost b s) :=
  (linkOnly_link s _).trans (select_linkOnly _)

theorem withdrawOpen_linkOnly (s : State) : linkOnly s (withdrawOpen s).1 := by
  unfold withdrawOpen
  split
  · exact (linkOnly_link s _).trans (flushCheck_linkOnly _)
  · split
    · split
      · split <;> rfl
      · rfl
    · rfl

theorem placeVoice_linkOnly (b : Body) (s : State) : linkOnly s (placeVoice b s) := by
  unfold placeVoice
  split
  · rfl
  · exact (linkOnly_link s _).trans (select_linkOnly _)

theorem requestBeacon_linkOnly (s : State) : linkOnly s (requestBeacon s) := by
  unfold requestBeacon
  split
  · split
    · rfl
    · exact (linkOnly_link s _).trans (select_linkOnly _)
  · rfl

theorem freeLink_linkOnly (s : State) : linkOnly s (freeLink s) := (linkOnly_link s _).trans (select_linkOnly _)

theorem finishAttempt_linkOnly (s : State) : linkOnly s (finishAttempt s) :=
  (linkOnly_link s _).trans (select_linkOnly _)

@[simp] theorem flushCheck_pending (s : State) : (flushCheck s).pending = s.pending := by
  have h := congrArg State.pending (flushCheck_linkOnly s); exact h
@[simp] theorem flushCheck_station (s : State) : (flushCheck s).station = s.station := by
  have h := congrArg State.station (flushCheck_linkOnly s); exact h
@[simp] theorem flushCheck_config (s : State) : (flushCheck s).config = s.config := by
  have h := congrArg State.config (flushCheck_linkOnly s); exact h
@[simp] theorem flushCheck_profiles (s : State) : (flushCheck s).profiles = s.profiles := by
  have h := congrArg State.profiles (flushCheck_linkOnly s); exact h
@[simp] theorem flushCheck_blockNumber (s : State) : (flushCheck s).blockNumber = s.blockNumber := by
  have h := congrArg State.blockNumber (flushCheck_linkOnly s); exact h
@[simp] theorem flushCheck_presence (s : State) : (flushCheck s).presence = s.presence := by
  have h := congrArg State.presence (flushCheck_linkOnly s); exact h
@[simp] theorem flushCheck_floor (s : State) : (flushCheck s).floor = s.floor := by
  have h := congrArg State.floor (flushCheck_linkOnly s); exact h
@[simp] theorem flushCheck_mic (s : State) : (flushCheck s).mic = s.mic := by
  have h := congrArg State.mic (flushCheck_linkOnly s); exact h
@[simp] theorem flushCheck_controls (s : State) : (flushCheck s).controls = s.controls := by
  have h := congrArg State.controls (flushCheck_linkOnly s); exact h
@[simp] theorem flushCheck_capture (s : State) : (flushCheck s).capture = s.capture := by
  have h := congrArg State.capture (flushCheck_linkOnly s); exact h
@[simp] theorem flushCheck_mix (s : State) : (flushCheck s).mix = s.mix := by
  have h := congrArg State.mix (flushCheck_linkOnly s); exact h
@[simp] theorem flushCheck_meeting (s : State) : (flushCheck s).meeting = s.meeting := by
  have h := congrArg State.meeting (flushCheck_linkOnly s); exact h
@[simp] theorem flushCheck_screen (s : State) : (flushCheck s).screen = s.screen := by
  have h := congrArg State.screen (flushCheck_linkOnly s); exact h
@[simp] theorem flushCheck_share (s : State) : (flushCheck s).share = s.share := by
  have h := congrArg State.share (flushCheck_linkOnly s); exact h
@[simp] theorem flushCheck_calendar_clock (s : State) : (flushCheck s).calendar.clock = s.calendar.clock := by
  have h := congrArg (fun t => t.calendar.clock) (flushCheck_linkOnly s); exact h
@[simp] theorem flushCheck_calendar_view (s : State) : (flushCheck s).calendar.view = s.calendar.view := by
  have h := congrArg (fun t => t.calendar.view) (flushCheck_linkOnly s); exact h
@[simp] theorem flushCheck_calendar_serial (s : State) : (flushCheck s).calendar.serial = s.calendar.serial := by
  have h := congrArg (fun t => t.calendar.serial) (flushCheck_linkOnly s); exact h
@[simp] theorem flushCheck_calendar_ask (s : State) : (flushCheck s).calendar.ask = s.calendar.ask := by
  have h := congrArg (fun t => t.calendar.ask) (flushCheck_linkOnly s); exact h
@[simp] theorem flushCheck_port_notices (s : State) : (flushCheck s).port.notices = s.port.notices := by
  have h := congrArg (fun t => t.port.notices) (flushCheck_linkOnly s); exact h
@[simp] theorem flushCheck_port_overflow (s : State) : (flushCheck s).port.overflow = s.port.overflow := by
  have h := congrArg (fun t => t.port.overflow) (flushCheck_linkOnly s); exact h
@[simp] theorem flushCheck_port_framing (s : State) : (flushCheck s).port.framing = s.port.framing := by
  have h := congrArg (fun t => t.port.framing) (flushCheck_linkOnly s); exact h
@[simp] theorem flushCheck_port_threshold (s : State) : (flushCheck s).port.threshold = s.port.threshold := by
  have h := congrArg (fun t => t.port.threshold) (flushCheck_linkOnly s); exact h
@[simp] theorem select_pending (s : State) : (select s).pending = s.pending := by
  have h := congrArg State.pending (select_linkOnly s); exact h
@[simp] theorem select_station (s : State) : (select s).station = s.station := by
  have h := congrArg State.station (select_linkOnly s); exact h
@[simp] theorem select_config (s : State) : (select s).config = s.config := by
  have h := congrArg State.config (select_linkOnly s); exact h
@[simp] theorem select_profiles (s : State) : (select s).profiles = s.profiles := by
  have h := congrArg State.profiles (select_linkOnly s); exact h
@[simp] theorem select_blockNumber (s : State) : (select s).blockNumber = s.blockNumber := by
  have h := congrArg State.blockNumber (select_linkOnly s); exact h
@[simp] theorem select_presence (s : State) : (select s).presence = s.presence := by
  have h := congrArg State.presence (select_linkOnly s); exact h
@[simp] theorem select_floor (s : State) : (select s).floor = s.floor := by
  have h := congrArg State.floor (select_linkOnly s); exact h
@[simp] theorem select_mic (s : State) : (select s).mic = s.mic := by
  have h := congrArg State.mic (select_linkOnly s); exact h
@[simp] theorem select_controls (s : State) : (select s).controls = s.controls := by
  have h := congrArg State.controls (select_linkOnly s); exact h
@[simp] theorem select_capture (s : State) : (select s).capture = s.capture := by
  have h := congrArg State.capture (select_linkOnly s); exact h
@[simp] theorem select_mix (s : State) : (select s).mix = s.mix := by
  have h := congrArg State.mix (select_linkOnly s); exact h
@[simp] theorem select_meeting (s : State) : (select s).meeting = s.meeting := by
  have h := congrArg State.meeting (select_linkOnly s); exact h
@[simp] theorem select_screen (s : State) : (select s).screen = s.screen := by
  have h := congrArg State.screen (select_linkOnly s); exact h
@[simp] theorem select_share (s : State) : (select s).share = s.share := by
  have h := congrArg State.share (select_linkOnly s); exact h
@[simp] theorem select_calendar_clock (s : State) : (select s).calendar.clock = s.calendar.clock := by
  have h := congrArg (fun t => t.calendar.clock) (select_linkOnly s); exact h
@[simp] theorem select_calendar_view (s : State) : (select s).calendar.view = s.calendar.view := by
  have h := congrArg (fun t => t.calendar.view) (select_linkOnly s); exact h
@[simp] theorem select_calendar_serial (s : State) : (select s).calendar.serial = s.calendar.serial := by
  have h := congrArg (fun t => t.calendar.serial) (select_linkOnly s); exact h
@[simp] theorem select_calendar_ask (s : State) : (select s).calendar.ask = s.calendar.ask := by
  have h := congrArg (fun t => t.calendar.ask) (select_linkOnly s); exact h
@[simp] theorem select_port_notices (s : State) : (select s).port.notices = s.port.notices := by
  have h := congrArg (fun t => t.port.notices) (select_linkOnly s); exact h
@[simp] theorem select_port_overflow (s : State) : (select s).port.overflow = s.port.overflow := by
  have h := congrArg (fun t => t.port.overflow) (select_linkOnly s); exact h
@[simp] theorem select_port_framing (s : State) : (select s).port.framing = s.port.framing := by
  have h := congrArg (fun t => t.port.framing) (select_linkOnly s); exact h
@[simp] theorem select_port_threshold (s : State) : (select s).port.threshold = s.port.threshold := by
  have h := congrArg (fun t => t.port.threshold) (select_linkOnly s); exact h
@[simp] theorem offer_fst_pending (b : Body) (s : State) : ((offer b s).1).pending = s.pending := by
  have h := congrArg State.pending (offer_linkOnly b s); exact h
@[simp] theorem offer_fst_station (b : Body) (s : State) : ((offer b s).1).station = s.station := by
  have h := congrArg State.station (offer_linkOnly b s); exact h
@[simp] theorem offer_fst_config (b : Body) (s : State) : ((offer b s).1).config = s.config := by
  have h := congrArg State.config (offer_linkOnly b s); exact h
@[simp] theorem offer_fst_profiles (b : Body) (s : State) : ((offer b s).1).profiles = s.profiles := by
  have h := congrArg State.profiles (offer_linkOnly b s); exact h
@[simp] theorem offer_fst_blockNumber (b : Body) (s : State) : ((offer b s).1).blockNumber = s.blockNumber := by
  have h := congrArg State.blockNumber (offer_linkOnly b s); exact h
@[simp] theorem offer_fst_presence (b : Body) (s : State) : ((offer b s).1).presence = s.presence := by
  have h := congrArg State.presence (offer_linkOnly b s); exact h
@[simp] theorem offer_fst_floor (b : Body) (s : State) : ((offer b s).1).floor = s.floor := by
  have h := congrArg State.floor (offer_linkOnly b s); exact h
@[simp] theorem offer_fst_mic (b : Body) (s : State) : ((offer b s).1).mic = s.mic := by
  have h := congrArg State.mic (offer_linkOnly b s); exact h
@[simp] theorem offer_fst_controls (b : Body) (s : State) : ((offer b s).1).controls = s.controls := by
  have h := congrArg State.controls (offer_linkOnly b s); exact h
@[simp] theorem offer_fst_capture (b : Body) (s : State) : ((offer b s).1).capture = s.capture := by
  have h := congrArg State.capture (offer_linkOnly b s); exact h
@[simp] theorem offer_fst_mix (b : Body) (s : State) : ((offer b s).1).mix = s.mix := by
  have h := congrArg State.mix (offer_linkOnly b s); exact h
@[simp] theorem offer_fst_meeting (b : Body) (s : State) : ((offer b s).1).meeting = s.meeting := by
  have h := congrArg State.meeting (offer_linkOnly b s); exact h
@[simp] theorem offer_fst_screen (b : Body) (s : State) : ((offer b s).1).screen = s.screen := by
  have h := congrArg State.screen (offer_linkOnly b s); exact h
@[simp] theorem offer_fst_share (b : Body) (s : State) : ((offer b s).1).share = s.share := by
  have h := congrArg State.share (offer_linkOnly b s); exact h
@[simp] theorem offer_fst_calendar_clock (b : Body) (s : State) : ((offer b s).1).calendar.clock = s.calendar.clock := by
  have h := congrArg (fun t => t.calendar.clock) (offer_linkOnly b s); exact h
@[simp] theorem offer_fst_calendar_view (b : Body) (s : State) : ((offer b s).1).calendar.view = s.calendar.view := by
  have h := congrArg (fun t => t.calendar.view) (offer_linkOnly b s); exact h
@[simp] theorem offer_fst_calendar_serial (b : Body) (s : State) : ((offer b s).1).calendar.serial = s.calendar.serial := by
  have h := congrArg (fun t => t.calendar.serial) (offer_linkOnly b s); exact h
@[simp] theorem offer_fst_calendar_ask (b : Body) (s : State) : ((offer b s).1).calendar.ask = s.calendar.ask := by
  have h := congrArg (fun t => t.calendar.ask) (offer_linkOnly b s); exact h
@[simp] theorem offer_fst_port_notices (b : Body) (s : State) : ((offer b s).1).port.notices = s.port.notices := by
  have h := congrArg (fun t => t.port.notices) (offer_linkOnly b s); exact h
@[simp] theorem offer_fst_port_overflow (b : Body) (s : State) : ((offer b s).1).port.overflow = s.port.overflow := by
  have h := congrArg (fun t => t.port.overflow) (offer_linkOnly b s); exact h
@[simp] theorem offer_fst_port_framing (b : Body) (s : State) : ((offer b s).1).port.framing = s.port.framing := by
  have h := congrArg (fun t => t.port.framing) (offer_linkOnly b s); exact h
@[simp] theorem offer_fst_port_threshold (b : Body) (s : State) : ((offer b s).1).port.threshold = s.port.threshold := by
  have h := congrArg (fun t => t.port.threshold) (offer_linkOnly b s); exact h
@[simp] theorem offerFrame_pending (b : Body) (s : State) : (offerFrame b s).pending = s.pending := by
  have h := congrArg State.pending (offerFrame_linkOnly b s); exact h
@[simp] theorem offerFrame_station (b : Body) (s : State) : (offerFrame b s).station = s.station := by
  have h := congrArg State.station (offerFrame_linkOnly b s); exact h
@[simp] theorem offerFrame_config (b : Body) (s : State) : (offerFrame b s).config = s.config := by
  have h := congrArg State.config (offerFrame_linkOnly b s); exact h
@[simp] theorem offerFrame_profiles (b : Body) (s : State) : (offerFrame b s).profiles = s.profiles := by
  have h := congrArg State.profiles (offerFrame_linkOnly b s); exact h
@[simp] theorem offerFrame_blockNumber (b : Body) (s : State) : (offerFrame b s).blockNumber = s.blockNumber := by
  have h := congrArg State.blockNumber (offerFrame_linkOnly b s); exact h
@[simp] theorem offerFrame_presence (b : Body) (s : State) : (offerFrame b s).presence = s.presence := by
  have h := congrArg State.presence (offerFrame_linkOnly b s); exact h
@[simp] theorem offerFrame_floor (b : Body) (s : State) : (offerFrame b s).floor = s.floor := by
  have h := congrArg State.floor (offerFrame_linkOnly b s); exact h
@[simp] theorem offerFrame_mic (b : Body) (s : State) : (offerFrame b s).mic = s.mic := by
  have h := congrArg State.mic (offerFrame_linkOnly b s); exact h
@[simp] theorem offerFrame_controls (b : Body) (s : State) : (offerFrame b s).controls = s.controls := by
  have h := congrArg State.controls (offerFrame_linkOnly b s); exact h
@[simp] theorem offerFrame_capture (b : Body) (s : State) : (offerFrame b s).capture = s.capture := by
  have h := congrArg State.capture (offerFrame_linkOnly b s); exact h
@[simp] theorem offerFrame_mix (b : Body) (s : State) : (offerFrame b s).mix = s.mix := by
  have h := congrArg State.mix (offerFrame_linkOnly b s); exact h
@[simp] theorem offerFrame_meeting (b : Body) (s : State) : (offerFrame b s).meeting = s.meeting := by
  have h := congrArg State.meeting (offerFrame_linkOnly b s); exact h
@[simp] theorem offerFrame_screen (b : Body) (s : State) : (offerFrame b s).screen = s.screen := by
  have h := congrArg State.screen (offerFrame_linkOnly b s); exact h
@[simp] theorem offerFrame_share (b : Body) (s : State) : (offerFrame b s).share = s.share := by
  have h := congrArg State.share (offerFrame_linkOnly b s); exact h
@[simp] theorem offerFrame_calendar_clock (b : Body) (s : State) : (offerFrame b s).calendar.clock = s.calendar.clock := by
  have h := congrArg (fun t => t.calendar.clock) (offerFrame_linkOnly b s); exact h
@[simp] theorem offerFrame_calendar_view (b : Body) (s : State) : (offerFrame b s).calendar.view = s.calendar.view := by
  have h := congrArg (fun t => t.calendar.view) (offerFrame_linkOnly b s); exact h
@[simp] theorem offerFrame_calendar_serial (b : Body) (s : State) : (offerFrame b s).calendar.serial = s.calendar.serial := by
  have h := congrArg (fun t => t.calendar.serial) (offerFrame_linkOnly b s); exact h
@[simp] theorem offerFrame_calendar_ask (b : Body) (s : State) : (offerFrame b s).calendar.ask = s.calendar.ask := by
  have h := congrArg (fun t => t.calendar.ask) (offerFrame_linkOnly b s); exact h
@[simp] theorem offerFrame_port_notices (b : Body) (s : State) : (offerFrame b s).port.notices = s.port.notices := by
  have h := congrArg (fun t => t.port.notices) (offerFrame_linkOnly b s); exact h
@[simp] theorem offerFrame_port_overflow (b : Body) (s : State) : (offerFrame b s).port.overflow = s.port.overflow := by
  have h := congrArg (fun t => t.port.overflow) (offerFrame_linkOnly b s); exact h
@[simp] theorem offerFrame_port_framing (b : Body) (s : State) : (offerFrame b s).port.framing = s.port.framing := by
  have h := congrArg (fun t => t.port.framing) (offerFrame_linkOnly b s); exact h
@[simp] theorem offerFrame_port_threshold (b : Body) (s : State) : (offerFrame b s).port.threshold = s.port.threshold := by
  have h := congrArg (fun t => t.port.threshold) (offerFrame_linkOnly b s); exact h
@[simp] theorem offerHost_pending (b : Body) (s : State) : (offerHost b s).pending = s.pending := by
  have h := congrArg State.pending (offerHost_linkOnly b s); exact h
@[simp] theorem offerHost_station (b : Body) (s : State) : (offerHost b s).station = s.station := by
  have h := congrArg State.station (offerHost_linkOnly b s); exact h
@[simp] theorem offerHost_config (b : Body) (s : State) : (offerHost b s).config = s.config := by
  have h := congrArg State.config (offerHost_linkOnly b s); exact h
@[simp] theorem offerHost_profiles (b : Body) (s : State) : (offerHost b s).profiles = s.profiles := by
  have h := congrArg State.profiles (offerHost_linkOnly b s); exact h
@[simp] theorem offerHost_blockNumber (b : Body) (s : State) : (offerHost b s).blockNumber = s.blockNumber := by
  have h := congrArg State.blockNumber (offerHost_linkOnly b s); exact h
@[simp] theorem offerHost_presence (b : Body) (s : State) : (offerHost b s).presence = s.presence := by
  have h := congrArg State.presence (offerHost_linkOnly b s); exact h
@[simp] theorem offerHost_floor (b : Body) (s : State) : (offerHost b s).floor = s.floor := by
  have h := congrArg State.floor (offerHost_linkOnly b s); exact h
@[simp] theorem offerHost_mic (b : Body) (s : State) : (offerHost b s).mic = s.mic := by
  have h := congrArg State.mic (offerHost_linkOnly b s); exact h
@[simp] theorem offerHost_controls (b : Body) (s : State) : (offerHost b s).controls = s.controls := by
  have h := congrArg State.controls (offerHost_linkOnly b s); exact h
@[simp] theorem offerHost_capture (b : Body) (s : State) : (offerHost b s).capture = s.capture := by
  have h := congrArg State.capture (offerHost_linkOnly b s); exact h
@[simp] theorem offerHost_mix (b : Body) (s : State) : (offerHost b s).mix = s.mix := by
  have h := congrArg State.mix (offerHost_linkOnly b s); exact h
@[simp] theorem offerHost_meeting (b : Body) (s : State) : (offerHost b s).meeting = s.meeting := by
  have h := congrArg State.meeting (offerHost_linkOnly b s); exact h
@[simp] theorem offerHost_screen (b : Body) (s : State) : (offerHost b s).screen = s.screen := by
  have h := congrArg State.screen (offerHost_linkOnly b s); exact h
@[simp] theorem offerHost_share (b : Body) (s : State) : (offerHost b s).share = s.share := by
  have h := congrArg State.share (offerHost_linkOnly b s); exact h
@[simp] theorem offerHost_calendar_clock (b : Body) (s : State) : (offerHost b s).calendar.clock = s.calendar.clock := by
  have h := congrArg (fun t => t.calendar.clock) (offerHost_linkOnly b s); exact h
@[simp] theorem offerHost_calendar_view (b : Body) (s : State) : (offerHost b s).calendar.view = s.calendar.view := by
  have h := congrArg (fun t => t.calendar.view) (offerHost_linkOnly b s); exact h
@[simp] theorem offerHost_calendar_serial (b : Body) (s : State) : (offerHost b s).calendar.serial = s.calendar.serial := by
  have h := congrArg (fun t => t.calendar.serial) (offerHost_linkOnly b s); exact h
@[simp] theorem offerHost_calendar_ask (b : Body) (s : State) : (offerHost b s).calendar.ask = s.calendar.ask := by
  have h := congrArg (fun t => t.calendar.ask) (offerHost_linkOnly b s); exact h
@[simp] theorem offerHost_port_notices (b : Body) (s : State) : (offerHost b s).port.notices = s.port.notices := by
  have h := congrArg (fun t => t.port.notices) (offerHost_linkOnly b s); exact h
@[simp] theorem offerHost_port_overflow (b : Body) (s : State) : (offerHost b s).port.overflow = s.port.overflow := by
  have h := congrArg (fun t => t.port.overflow) (offerHost_linkOnly b s); exact h
@[simp] theorem offerHost_port_framing (b : Body) (s : State) : (offerHost b s).port.framing = s.port.framing := by
  have h := congrArg (fun t => t.port.framing) (offerHost_linkOnly b s); exact h
@[simp] theorem offerHost_port_threshold (b : Body) (s : State) : (offerHost b s).port.threshold = s.port.threshold := by
  have h := congrArg (fun t => t.port.threshold) (offerHost_linkOnly b s); exact h
@[simp] theorem withdrawOpen_fst_pending (s : State) : ((withdrawOpen s).1).pending = s.pending := by
  have h := congrArg State.pending (withdrawOpen_linkOnly s); exact h
@[simp] theorem withdrawOpen_fst_station (s : State) : ((withdrawOpen s).1).station = s.station := by
  have h := congrArg State.station (withdrawOpen_linkOnly s); exact h
@[simp] theorem withdrawOpen_fst_config (s : State) : ((withdrawOpen s).1).config = s.config := by
  have h := congrArg State.config (withdrawOpen_linkOnly s); exact h
@[simp] theorem withdrawOpen_fst_profiles (s : State) : ((withdrawOpen s).1).profiles = s.profiles := by
  have h := congrArg State.profiles (withdrawOpen_linkOnly s); exact h
@[simp] theorem withdrawOpen_fst_blockNumber (s : State) : ((withdrawOpen s).1).blockNumber = s.blockNumber := by
  have h := congrArg State.blockNumber (withdrawOpen_linkOnly s); exact h
@[simp] theorem withdrawOpen_fst_presence (s : State) : ((withdrawOpen s).1).presence = s.presence := by
  have h := congrArg State.presence (withdrawOpen_linkOnly s); exact h
@[simp] theorem withdrawOpen_fst_floor (s : State) : ((withdrawOpen s).1).floor = s.floor := by
  have h := congrArg State.floor (withdrawOpen_linkOnly s); exact h
@[simp] theorem withdrawOpen_fst_mic (s : State) : ((withdrawOpen s).1).mic = s.mic := by
  have h := congrArg State.mic (withdrawOpen_linkOnly s); exact h
@[simp] theorem withdrawOpen_fst_controls (s : State) : ((withdrawOpen s).1).controls = s.controls := by
  have h := congrArg State.controls (withdrawOpen_linkOnly s); exact h
@[simp] theorem withdrawOpen_fst_capture (s : State) : ((withdrawOpen s).1).capture = s.capture := by
  have h := congrArg State.capture (withdrawOpen_linkOnly s); exact h
@[simp] theorem withdrawOpen_fst_mix (s : State) : ((withdrawOpen s).1).mix = s.mix := by
  have h := congrArg State.mix (withdrawOpen_linkOnly s); exact h
@[simp] theorem withdrawOpen_fst_meeting (s : State) : ((withdrawOpen s).1).meeting = s.meeting := by
  have h := congrArg State.meeting (withdrawOpen_linkOnly s); exact h
@[simp] theorem withdrawOpen_fst_screen (s : State) : ((withdrawOpen s).1).screen = s.screen := by
  have h := congrArg State.screen (withdrawOpen_linkOnly s); exact h
@[simp] theorem withdrawOpen_fst_share (s : State) : ((withdrawOpen s).1).share = s.share := by
  have h := congrArg State.share (withdrawOpen_linkOnly s); exact h
@[simp] theorem withdrawOpen_fst_calendar_clock (s : State) : ((withdrawOpen s).1).calendar.clock = s.calendar.clock := by
  have h := congrArg (fun t => t.calendar.clock) (withdrawOpen_linkOnly s); exact h
@[simp] theorem withdrawOpen_fst_calendar_view (s : State) : ((withdrawOpen s).1).calendar.view = s.calendar.view := by
  have h := congrArg (fun t => t.calendar.view) (withdrawOpen_linkOnly s); exact h
@[simp] theorem withdrawOpen_fst_calendar_serial (s : State) : ((withdrawOpen s).1).calendar.serial = s.calendar.serial := by
  have h := congrArg (fun t => t.calendar.serial) (withdrawOpen_linkOnly s); exact h
@[simp] theorem withdrawOpen_fst_calendar_ask (s : State) : ((withdrawOpen s).1).calendar.ask = s.calendar.ask := by
  have h := congrArg (fun t => t.calendar.ask) (withdrawOpen_linkOnly s); exact h
@[simp] theorem withdrawOpen_fst_port_notices (s : State) : ((withdrawOpen s).1).port.notices = s.port.notices := by
  have h := congrArg (fun t => t.port.notices) (withdrawOpen_linkOnly s); exact h
@[simp] theorem withdrawOpen_fst_port_overflow (s : State) : ((withdrawOpen s).1).port.overflow = s.port.overflow := by
  have h := congrArg (fun t => t.port.overflow) (withdrawOpen_linkOnly s); exact h
@[simp] theorem withdrawOpen_fst_port_framing (s : State) : ((withdrawOpen s).1).port.framing = s.port.framing := by
  have h := congrArg (fun t => t.port.framing) (withdrawOpen_linkOnly s); exact h
@[simp] theorem withdrawOpen_fst_port_threshold (s : State) : ((withdrawOpen s).1).port.threshold = s.port.threshold := by
  have h := congrArg (fun t => t.port.threshold) (withdrawOpen_linkOnly s); exact h
@[simp] theorem placeVoice_pending (b : Body) (s : State) : (placeVoice b s).pending = s.pending := by
  have h := congrArg State.pending (placeVoice_linkOnly b s); exact h
@[simp] theorem placeVoice_station (b : Body) (s : State) : (placeVoice b s).station = s.station := by
  have h := congrArg State.station (placeVoice_linkOnly b s); exact h
@[simp] theorem placeVoice_config (b : Body) (s : State) : (placeVoice b s).config = s.config := by
  have h := congrArg State.config (placeVoice_linkOnly b s); exact h
@[simp] theorem placeVoice_profiles (b : Body) (s : State) : (placeVoice b s).profiles = s.profiles := by
  have h := congrArg State.profiles (placeVoice_linkOnly b s); exact h
@[simp] theorem placeVoice_blockNumber (b : Body) (s : State) : (placeVoice b s).blockNumber = s.blockNumber := by
  have h := congrArg State.blockNumber (placeVoice_linkOnly b s); exact h
@[simp] theorem placeVoice_presence (b : Body) (s : State) : (placeVoice b s).presence = s.presence := by
  have h := congrArg State.presence (placeVoice_linkOnly b s); exact h
@[simp] theorem placeVoice_floor (b : Body) (s : State) : (placeVoice b s).floor = s.floor := by
  have h := congrArg State.floor (placeVoice_linkOnly b s); exact h
@[simp] theorem placeVoice_mic (b : Body) (s : State) : (placeVoice b s).mic = s.mic := by
  have h := congrArg State.mic (placeVoice_linkOnly b s); exact h
@[simp] theorem placeVoice_controls (b : Body) (s : State) : (placeVoice b s).controls = s.controls := by
  have h := congrArg State.controls (placeVoice_linkOnly b s); exact h
@[simp] theorem placeVoice_capture (b : Body) (s : State) : (placeVoice b s).capture = s.capture := by
  have h := congrArg State.capture (placeVoice_linkOnly b s); exact h
@[simp] theorem placeVoice_mix (b : Body) (s : State) : (placeVoice b s).mix = s.mix := by
  have h := congrArg State.mix (placeVoice_linkOnly b s); exact h
@[simp] theorem placeVoice_meeting (b : Body) (s : State) : (placeVoice b s).meeting = s.meeting := by
  have h := congrArg State.meeting (placeVoice_linkOnly b s); exact h
@[simp] theorem placeVoice_screen (b : Body) (s : State) : (placeVoice b s).screen = s.screen := by
  have h := congrArg State.screen (placeVoice_linkOnly b s); exact h
@[simp] theorem placeVoice_share (b : Body) (s : State) : (placeVoice b s).share = s.share := by
  have h := congrArg State.share (placeVoice_linkOnly b s); exact h
@[simp] theorem placeVoice_calendar_clock (b : Body) (s : State) : (placeVoice b s).calendar.clock = s.calendar.clock := by
  have h := congrArg (fun t => t.calendar.clock) (placeVoice_linkOnly b s); exact h
@[simp] theorem placeVoice_calendar_view (b : Body) (s : State) : (placeVoice b s).calendar.view = s.calendar.view := by
  have h := congrArg (fun t => t.calendar.view) (placeVoice_linkOnly b s); exact h
@[simp] theorem placeVoice_calendar_serial (b : Body) (s : State) : (placeVoice b s).calendar.serial = s.calendar.serial := by
  have h := congrArg (fun t => t.calendar.serial) (placeVoice_linkOnly b s); exact h
@[simp] theorem placeVoice_calendar_ask (b : Body) (s : State) : (placeVoice b s).calendar.ask = s.calendar.ask := by
  have h := congrArg (fun t => t.calendar.ask) (placeVoice_linkOnly b s); exact h
@[simp] theorem placeVoice_port_notices (b : Body) (s : State) : (placeVoice b s).port.notices = s.port.notices := by
  have h := congrArg (fun t => t.port.notices) (placeVoice_linkOnly b s); exact h
@[simp] theorem placeVoice_port_overflow (b : Body) (s : State) : (placeVoice b s).port.overflow = s.port.overflow := by
  have h := congrArg (fun t => t.port.overflow) (placeVoice_linkOnly b s); exact h
@[simp] theorem placeVoice_port_framing (b : Body) (s : State) : (placeVoice b s).port.framing = s.port.framing := by
  have h := congrArg (fun t => t.port.framing) (placeVoice_linkOnly b s); exact h
@[simp] theorem placeVoice_port_threshold (b : Body) (s : State) : (placeVoice b s).port.threshold = s.port.threshold := by
  have h := congrArg (fun t => t.port.threshold) (placeVoice_linkOnly b s); exact h
@[simp] theorem requestBeacon_pending (s : State) : (requestBeacon s).pending = s.pending := by
  have h := congrArg State.pending (requestBeacon_linkOnly s); exact h
@[simp] theorem requestBeacon_station (s : State) : (requestBeacon s).station = s.station := by
  have h := congrArg State.station (requestBeacon_linkOnly s); exact h
@[simp] theorem requestBeacon_config (s : State) : (requestBeacon s).config = s.config := by
  have h := congrArg State.config (requestBeacon_linkOnly s); exact h
@[simp] theorem requestBeacon_profiles (s : State) : (requestBeacon s).profiles = s.profiles := by
  have h := congrArg State.profiles (requestBeacon_linkOnly s); exact h
@[simp] theorem requestBeacon_blockNumber (s : State) : (requestBeacon s).blockNumber = s.blockNumber := by
  have h := congrArg State.blockNumber (requestBeacon_linkOnly s); exact h
@[simp] theorem requestBeacon_presence (s : State) : (requestBeacon s).presence = s.presence := by
  have h := congrArg State.presence (requestBeacon_linkOnly s); exact h
@[simp] theorem requestBeacon_floor (s : State) : (requestBeacon s).floor = s.floor := by
  have h := congrArg State.floor (requestBeacon_linkOnly s); exact h
@[simp] theorem requestBeacon_mic (s : State) : (requestBeacon s).mic = s.mic := by
  have h := congrArg State.mic (requestBeacon_linkOnly s); exact h
@[simp] theorem requestBeacon_controls (s : State) : (requestBeacon s).controls = s.controls := by
  have h := congrArg State.controls (requestBeacon_linkOnly s); exact h
@[simp] theorem requestBeacon_capture (s : State) : (requestBeacon s).capture = s.capture := by
  have h := congrArg State.capture (requestBeacon_linkOnly s); exact h
@[simp] theorem requestBeacon_mix (s : State) : (requestBeacon s).mix = s.mix := by
  have h := congrArg State.mix (requestBeacon_linkOnly s); exact h
@[simp] theorem requestBeacon_meeting (s : State) : (requestBeacon s).meeting = s.meeting := by
  have h := congrArg State.meeting (requestBeacon_linkOnly s); exact h
@[simp] theorem requestBeacon_screen (s : State) : (requestBeacon s).screen = s.screen := by
  have h := congrArg State.screen (requestBeacon_linkOnly s); exact h
@[simp] theorem requestBeacon_share (s : State) : (requestBeacon s).share = s.share := by
  have h := congrArg State.share (requestBeacon_linkOnly s); exact h
@[simp] theorem requestBeacon_calendar_clock (s : State) : (requestBeacon s).calendar.clock = s.calendar.clock := by
  have h := congrArg (fun t => t.calendar.clock) (requestBeacon_linkOnly s); exact h
@[simp] theorem requestBeacon_calendar_view (s : State) : (requestBeacon s).calendar.view = s.calendar.view := by
  have h := congrArg (fun t => t.calendar.view) (requestBeacon_linkOnly s); exact h
@[simp] theorem requestBeacon_calendar_serial (s : State) : (requestBeacon s).calendar.serial = s.calendar.serial := by
  have h := congrArg (fun t => t.calendar.serial) (requestBeacon_linkOnly s); exact h
@[simp] theorem requestBeacon_calendar_ask (s : State) : (requestBeacon s).calendar.ask = s.calendar.ask := by
  have h := congrArg (fun t => t.calendar.ask) (requestBeacon_linkOnly s); exact h
@[simp] theorem requestBeacon_port_notices (s : State) : (requestBeacon s).port.notices = s.port.notices := by
  have h := congrArg (fun t => t.port.notices) (requestBeacon_linkOnly s); exact h
@[simp] theorem requestBeacon_port_overflow (s : State) : (requestBeacon s).port.overflow = s.port.overflow := by
  have h := congrArg (fun t => t.port.overflow) (requestBeacon_linkOnly s); exact h
@[simp] theorem requestBeacon_port_framing (s : State) : (requestBeacon s).port.framing = s.port.framing := by
  have h := congrArg (fun t => t.port.framing) (requestBeacon_linkOnly s); exact h
@[simp] theorem requestBeacon_port_threshold (s : State) : (requestBeacon s).port.threshold = s.port.threshold := by
  have h := congrArg (fun t => t.port.threshold) (requestBeacon_linkOnly s); exact h
@[simp] theorem freeLink_pending (s : State) : (freeLink s).pending = s.pending := by
  have h := congrArg State.pending (freeLink_linkOnly s); exact h
@[simp] theorem freeLink_station (s : State) : (freeLink s).station = s.station := by
  have h := congrArg State.station (freeLink_linkOnly s); exact h
@[simp] theorem freeLink_config (s : State) : (freeLink s).config = s.config := by
  have h := congrArg State.config (freeLink_linkOnly s); exact h
@[simp] theorem freeLink_profiles (s : State) : (freeLink s).profiles = s.profiles := by
  have h := congrArg State.profiles (freeLink_linkOnly s); exact h
@[simp] theorem freeLink_blockNumber (s : State) : (freeLink s).blockNumber = s.blockNumber := by
  have h := congrArg State.blockNumber (freeLink_linkOnly s); exact h
@[simp] theorem freeLink_presence (s : State) : (freeLink s).presence = s.presence := by
  have h := congrArg State.presence (freeLink_linkOnly s); exact h
@[simp] theorem freeLink_floor (s : State) : (freeLink s).floor = s.floor := by
  have h := congrArg State.floor (freeLink_linkOnly s); exact h
@[simp] theorem freeLink_mic (s : State) : (freeLink s).mic = s.mic := by
  have h := congrArg State.mic (freeLink_linkOnly s); exact h
@[simp] theorem freeLink_controls (s : State) : (freeLink s).controls = s.controls := by
  have h := congrArg State.controls (freeLink_linkOnly s); exact h
@[simp] theorem freeLink_capture (s : State) : (freeLink s).capture = s.capture := by
  have h := congrArg State.capture (freeLink_linkOnly s); exact h
@[simp] theorem freeLink_mix (s : State) : (freeLink s).mix = s.mix := by
  have h := congrArg State.mix (freeLink_linkOnly s); exact h
@[simp] theorem freeLink_meeting (s : State) : (freeLink s).meeting = s.meeting := by
  have h := congrArg State.meeting (freeLink_linkOnly s); exact h
@[simp] theorem freeLink_screen (s : State) : (freeLink s).screen = s.screen := by
  have h := congrArg State.screen (freeLink_linkOnly s); exact h
@[simp] theorem freeLink_share (s : State) : (freeLink s).share = s.share := by
  have h := congrArg State.share (freeLink_linkOnly s); exact h
@[simp] theorem freeLink_calendar_clock (s : State) : (freeLink s).calendar.clock = s.calendar.clock := by
  have h := congrArg (fun t => t.calendar.clock) (freeLink_linkOnly s); exact h
@[simp] theorem freeLink_calendar_view (s : State) : (freeLink s).calendar.view = s.calendar.view := by
  have h := congrArg (fun t => t.calendar.view) (freeLink_linkOnly s); exact h
@[simp] theorem freeLink_calendar_serial (s : State) : (freeLink s).calendar.serial = s.calendar.serial := by
  have h := congrArg (fun t => t.calendar.serial) (freeLink_linkOnly s); exact h
@[simp] theorem freeLink_calendar_ask (s : State) : (freeLink s).calendar.ask = s.calendar.ask := by
  have h := congrArg (fun t => t.calendar.ask) (freeLink_linkOnly s); exact h
@[simp] theorem freeLink_port_notices (s : State) : (freeLink s).port.notices = s.port.notices := by
  have h := congrArg (fun t => t.port.notices) (freeLink_linkOnly s); exact h
@[simp] theorem freeLink_port_overflow (s : State) : (freeLink s).port.overflow = s.port.overflow := by
  have h := congrArg (fun t => t.port.overflow) (freeLink_linkOnly s); exact h
@[simp] theorem freeLink_port_framing (s : State) : (freeLink s).port.framing = s.port.framing := by
  have h := congrArg (fun t => t.port.framing) (freeLink_linkOnly s); exact h
@[simp] theorem freeLink_port_threshold (s : State) : (freeLink s).port.threshold = s.port.threshold := by
  have h := congrArg (fun t => t.port.threshold) (freeLink_linkOnly s); exact h
@[simp] theorem finishAttempt_pending (s : State) : (finishAttempt s).pending = s.pending := by
  have h := congrArg State.pending (finishAttempt_linkOnly s); exact h
@[simp] theorem finishAttempt_station (s : State) : (finishAttempt s).station = s.station := by
  have h := congrArg State.station (finishAttempt_linkOnly s); exact h
@[simp] theorem finishAttempt_config (s : State) : (finishAttempt s).config = s.config := by
  have h := congrArg State.config (finishAttempt_linkOnly s); exact h
@[simp] theorem finishAttempt_profiles (s : State) : (finishAttempt s).profiles = s.profiles := by
  have h := congrArg State.profiles (finishAttempt_linkOnly s); exact h
@[simp] theorem finishAttempt_blockNumber (s : State) : (finishAttempt s).blockNumber = s.blockNumber := by
  have h := congrArg State.blockNumber (finishAttempt_linkOnly s); exact h
@[simp] theorem finishAttempt_presence (s : State) : (finishAttempt s).presence = s.presence := by
  have h := congrArg State.presence (finishAttempt_linkOnly s); exact h
@[simp] theorem finishAttempt_floor (s : State) : (finishAttempt s).floor = s.floor := by
  have h := congrArg State.floor (finishAttempt_linkOnly s); exact h
@[simp] theorem finishAttempt_mic (s : State) : (finishAttempt s).mic = s.mic := by
  have h := congrArg State.mic (finishAttempt_linkOnly s); exact h
@[simp] theorem finishAttempt_controls (s : State) : (finishAttempt s).controls = s.controls := by
  have h := congrArg State.controls (finishAttempt_linkOnly s); exact h
@[simp] theorem finishAttempt_capture (s : State) : (finishAttempt s).capture = s.capture := by
  have h := congrArg State.capture (finishAttempt_linkOnly s); exact h
@[simp] theorem finishAttempt_mix (s : State) : (finishAttempt s).mix = s.mix := by
  have h := congrArg State.mix (finishAttempt_linkOnly s); exact h
@[simp] theorem finishAttempt_meeting (s : State) : (finishAttempt s).meeting = s.meeting := by
  have h := congrArg State.meeting (finishAttempt_linkOnly s); exact h
@[simp] theorem finishAttempt_screen (s : State) : (finishAttempt s).screen = s.screen := by
  have h := congrArg State.screen (finishAttempt_linkOnly s); exact h
@[simp] theorem finishAttempt_share (s : State) : (finishAttempt s).share = s.share := by
  have h := congrArg State.share (finishAttempt_linkOnly s); exact h
@[simp] theorem finishAttempt_calendar_clock (s : State) : (finishAttempt s).calendar.clock = s.calendar.clock := by
  have h := congrArg (fun t => t.calendar.clock) (finishAttempt_linkOnly s); exact h
@[simp] theorem finishAttempt_calendar_view (s : State) : (finishAttempt s).calendar.view = s.calendar.view := by
  have h := congrArg (fun t => t.calendar.view) (finishAttempt_linkOnly s); exact h
@[simp] theorem finishAttempt_calendar_serial (s : State) : (finishAttempt s).calendar.serial = s.calendar.serial := by
  have h := congrArg (fun t => t.calendar.serial) (finishAttempt_linkOnly s); exact h
@[simp] theorem finishAttempt_calendar_ask (s : State) : (finishAttempt s).calendar.ask = s.calendar.ask := by
  have h := congrArg (fun t => t.calendar.ask) (finishAttempt_linkOnly s); exact h
@[simp] theorem finishAttempt_port_notices (s : State) : (finishAttempt s).port.notices = s.port.notices := by
  have h := congrArg (fun t => t.port.notices) (finishAttempt_linkOnly s); exact h
@[simp] theorem finishAttempt_port_overflow (s : State) : (finishAttempt s).port.overflow = s.port.overflow := by
  have h := congrArg (fun t => t.port.overflow) (finishAttempt_linkOnly s); exact h
@[simp] theorem finishAttempt_port_framing (s : State) : (finishAttempt s).port.framing = s.port.framing := by
  have h := congrArg (fun t => t.port.framing) (finishAttempt_linkOnly s); exact h
@[simp] theorem finishAttempt_port_threshold (s : State) : (finishAttempt s).port.threshold = s.port.threshold := by
  have h := congrArg (fun t => t.port.threshold) (finishAttempt_linkOnly s); exact h

/-! ## What follows a change -/

/-- What `settle` writes: the two LED patterns, the selector output and the display. -/
theorem settle_eq (s : State) :
    settle s = { s with
      controls := (refreshLeds s).controls, share := (refreshSelector s).share, screen := (settle s).screen } := by
  unfold settle startTransfer compose fixWindow refreshSelector refreshLeds
  rfl

@[simp] theorem settle_pending (s : State) : (settle s).pending = s.pending := by
  have h := congrArg State.pending (settle_eq s); exact h
@[simp] theorem settle_station (s : State) : (settle s).station = s.station := by
  have h := congrArg State.station (settle_eq s); exact h
@[simp] theorem settle_config (s : State) : (settle s).config = s.config := by
  have h := congrArg State.config (settle_eq s); exact h
@[simp] theorem settle_profiles (s : State) : (settle s).profiles = s.profiles := by
  have h := congrArg State.profiles (settle_eq s); exact h
@[simp] theorem settle_blockNumber (s : State) : (settle s).blockNumber = s.blockNumber := by
  have h := congrArg State.blockNumber (settle_eq s); exact h
@[simp] theorem settle_link (s : State) : (settle s).link = s.link := by
  have h := congrArg State.link (settle_eq s); exact h
@[simp] theorem settle_presence (s : State) : (settle s).presence = s.presence := by
  have h := congrArg State.presence (settle_eq s); exact h
@[simp] theorem settle_floor (s : State) : (settle s).floor = s.floor := by
  have h := congrArg State.floor (settle_eq s); exact h
@[simp] theorem settle_mic (s : State) : (settle s).mic = s.mic := by
  have h := congrArg State.mic (settle_eq s); exact h
@[simp] theorem settle_capture (s : State) : (settle s).capture = s.capture := by
  have h := congrArg State.capture (settle_eq s); exact h
@[simp] theorem settle_mix (s : State) : (settle s).mix = s.mix := by
  have h := congrArg State.mix (settle_eq s); exact h
@[simp] theorem settle_calendar (s : State) : (settle s).calendar = s.calendar := by
  have h := congrArg State.calendar (settle_eq s); exact h
@[simp] theorem settle_meeting (s : State) : (settle s).meeting = s.meeting := by
  have h := congrArg State.meeting (settle_eq s); exact h
@[simp] theorem settle_port (s : State) : (settle s).port = s.port := by
  have h := congrArg State.port (settle_eq s); exact h
@[simp] theorem settle_controls_mic (s : State) : (settle s).controls.mic = s.controls.mic := by
  have h := congrArg (fun t => t.controls.mic) (settle_eq s); exact h
@[simp] theorem settle_controls_priority (s : State) : (settle s).controls.priority = s.controls.priority := by
  have h := congrArg (fun t => t.controls.priority) (settle_eq s); exact h
@[simp] theorem settle_controls_share (s : State) : (settle s).controls.share = s.controls.share := by
  have h := congrArg (fun t => t.controls.share) (settle_eq s); exact h
@[simp] theorem settle_controls_flash (s : State) : (settle s).controls.flash = s.controls.flash := by
  have h := congrArg (fun t => t.controls.flash) (settle_eq s); exact h
@[simp] theorem settle_share_screen1 (s : State) : (settle s).share.screen1 = s.share.screen1 := by
  have h := congrArg (fun t => t.share.screen1) (settle_eq s); exact h
@[simp] theorem settle_share_screen2 (s : State) : (settle s).share.screen2 = s.share.screen2 := by
  have h := congrArg (fun t => t.share.screen2) (settle_eq s); exact h
@[simp] theorem settle_share_claim (s : State) : (settle s).share.claim = s.share.claim := by
  have h := congrArg (fun t => t.share.claim) (settle_eq s); exact h
@[simp] theorem settle_share_claimScreen (s : State) : (settle s).share.claimScreen = s.share.claimScreen := by
  have h := congrArg (fun t => t.share.claimScreen) (settle_eq s); exact h
@[simp] theorem settle_share_claimStamp (s : State) : (settle s).share.claimStamp = s.share.claimStamp := by
  have h := congrArg (fun t => t.share.claimStamp) (settle_eq s); exact h
@[simp] theorem settle_share_release (s : State) : (settle s).share.release = s.share.release := by
  have h := congrArg (fun t => t.share.release) (settle_eq s); exact h

/-- What the transfer's start leaves of the display. -/
theorem Screen.start_page (d : Screen) :
    d.start.windowCount = d.windowCount ∧ d.start.host = d.host ∧ d.start.transient = d.transient ∧
      d.start.windowStart = d.windowStart ∧ d.start.buffer = d.buffer := by
  unfold Screen.start
  split <;> exact ⟨rfl, rfl, rfl, rfl, rfl⟩

@[simp] theorem settle_screen_windowCount (s : State) : (settle s).screen.windowCount = s.screen.windowCount :=
  (Screen.start_page _).1

@[simp] theorem settle_screen_host (s : State) : (settle s).screen.host = s.screen.host := (Screen.start_page _).2.1

@[simp] theorem settle_screen_transient (s : State) : (settle s).screen.transient = s.screen.transient :=
  (Screen.start_page _).2.2.1

@[simp] theorem settle_screen_windowStart (s : State) : (settle s).screen.windowStart = s.windowShown :=
  (Screen.start_page _).2.2.2.1

@[simp] theorem settle_screen_buffer (s : State) : (settle s).screen.buffer = (fixWindow s).page :=
  (Screen.start_page _).2.2.2.2

/-! ## Settled stations -/

/-- Lamps, selector output, window and buffer as the state gives them, with no transfer to start. -/
structure Settled (s : State) : Prop where
  lamps : refreshLeds s = s
  selector : refreshSelector s = s
  window : s.windowShown = s.screen.windowStart
  page : s.page = s.screen.buffer
  transfer : s.screen.start = s.screen

/-- A settled station needs nothing more. -/
theorem Settled.eq {s : State} (h : Settled s) : settle s = s := by
  have w : fixWindow s = s := by unfold fixWindow; rw [h.window]
  have c : compose s = s := by
    unfold compose Screen.write
    rw [h.page]
    simp
  have t : startTransfer s = s := by unfold startTransfer; rw [h.transfer]
  unfold settle
  rw [h.lamps, h.selector, w, c, t]

theorem LedState.set_set (l : LedState) (p : LedPattern) : (l.set p).set p = l.set p := by
  unfold LedState.set
  by_cases h : l.pattern = p
  · rw [if_pos h, if_pos h]
  · rw [if_neg h, if_pos rfl]

theorem Screen.start_start (d : Screen) : d.start.start = d.start := by
  unfold Screen.start
  cases h : (d.dirty && !d.running)
  · simp [h]
  · simp

/-- The page reads three parts of the display: window start and both messages. -/
theorem page_screen {s : State} {d e : Screen} (w : d.windowStart = e.windowStart) (t : d.transient = e.transient)
    (h : d.host = e.host) : { s with screen := d }.page = { s with screen := e }.page := by
  cases d
  cases e
  cases w
  cases t
  cases h
  rfl

/-- The page reads neither lamps nor selector output. -/
theorem page_outputs (s : State) (c : Controls) (n : Nat) (d : Screen) :
    { s with controls := c, share := { s.share with selector := n }, screen := d }.page = { s with screen := d }.page := rfl

/-- What a settled station is made of. -/
theorem Settled.of {s : State} {c : Controls} {n : Nat} {d : Screen}
    (hc : c = { s.controls with ring := s.controls.ring.set s.ringPattern, request := s.controls.request.set s.requestPattern })
    (hn : n = if s.config.role = .wall ∧ s.station ≠ .setup then s.shownSeat else 0) (hw : d.windowStart = s.windowShown)
    (hb : { s with screen := d }.page = d.buffer) (ht : d.start = d) :
    Settled { s with controls := c, share := { s.share with selector := n }, screen := d } := by
  refine ⟨?_, ?_, ?_, hb, ht⟩
  · show { s with
      controls := { c with ring := c.ring.set s.ringPattern, request := c.request.set s.requestPattern },
      share := { s.share with selector := n }, screen := d } = _
    rw [hc]
    simp only [LedState.set_set]
  · rw [hn]; rfl
  · show (if s.config.role = .seat ∧ s.station ≠ .setup ∧ s.inMeeting = true ∧ s.floor.queue.length < d.windowStart then 1
      else d.windowStart) = d.windowStart
    rw [hw]
    unfold State.windowShown
    split
    · rw [ite_self]
    · rfl

theorem settle_outputs (s : State) :
    settle s = { s with
      controls := (refreshLeds s).controls,
      share := { s.share with selector := (refreshSelector s).share.selector },
      screen := (settle s).screen } :=
  settle_eq s

/-- After `settle` a station is settled. -/
theorem settle_settled (s : State) : Settled (settle s) := by
  have w := settle_screen_windowStart s
  have b := settle_screen_buffer s
  have t := settle_screen_transient s
  have h := settle_screen_host s
  have st : (settle s).screen.start = (settle s).screen := Screen.start_start _
  rw [settle_outputs]
  revert w b t h st
  generalize (settle s).screen = d
  intro w b t h st
  exact Settled.of (s := s) (d := d) rfl rfl w ((page_screen (e := (fixWindow s).screen) w t h).trans b.symm) st

@[simp] theorem settle_settle (s : State) : settle (settle s) = settle s := (settle_settled s).eq

end Sys2Proof.Machine
end

