-- ==== Sys2Proof/Laws/Speaking.lean ====
section
/-! SUPPORT. What the operations of the table can do: one lemma for each operation of the floor view, the own microphone
and the own claim, of one form, `TableStep`. -/

namespace Sys2Proof.Machine

/-- The fields that the operations of the table write; every other field stays as it was. -/
def tableOnly (s t : State) : Prop :=
  t = { s with
    link := t.link, floor := t.floor, mic := t.mic, capture := { s.capture with placing := t.capture.placing },
    controls := { s.controls with ring := t.controls.ring, request := t.controls.request },
    mix := { s.mix with slots := t.mix.slots }, calendar := { s.calendar with rotation := t.calendar.rotation },
    screen := { t.screen with windowCount := s.screen.windowCount, host := s.screen.host }, share := t.share,
    port := { s.port with serving := t.port.serving, reply := t.port.reply, notices := t.port.notices,
                          overflow := t.port.overflow } }

/-- What an operation of the table leaves: every other field as it was, the stamp counter not lower, and every bound, order
and agreement of a sound station kept. -/
structure TableStep (s t : State) : Prop where
  frame : tableOnly s t
  queue : QueueSound s.link.queue → QueueSound t.link.queue
  clash : ClashSilent s → ClashSilent t
  floor : FloorKeeps s.floor t.floor s.meeting.profile.limit s.meeting.chair
  stamps : shareStampsSound s.share s.floor.stamp → shareStampsSound t.share t.floor.stamp
  share : shareSound s.share → shareSound t.share
  mix : MixSound s.mix → MixSound t.mix
  notices : s.port.notices.length ≤ Config.noticeEntries → t.port.notices.length ≤ Config.noticeEntries

/-! ## Fields that stay -/

theorem tableOnly.pending {s t : State} (h : tableOnly s t) : t.pending = s.pending := by
  have k := congrArg State.pending h; exact k
theorem tableOnly.station {s t : State} (h : tableOnly s t) : t.station = s.station := by
  have k := congrArg State.station h; exact k
theorem tableOnly.config {s t : State} (h : tableOnly s t) : t.config = s.config := by
  have k := congrArg State.config h; exact k
theorem tableOnly.profiles {s t : State} (h : tableOnly s t) : t.profiles = s.profiles := by
  have k := congrArg State.profiles h; exact k
theorem tableOnly.blockNumber {s t : State} (h : tableOnly s t) : t.blockNumber = s.blockNumber := by
  have k := congrArg State.blockNumber h; exact k
theorem tableOnly.presence {s t : State} (h : tableOnly s t) : t.presence = s.presence := by
  have k := congrArg State.presence h; exact k
theorem tableOnly.flash {s t : State} (h : tableOnly s t) : t.controls.flash = s.controls.flash := by
  have k := congrArg (fun u : State => u.controls.flash) h; exact k
theorem tableOnly.host {s t : State} (h : tableOnly s t) : t.screen.host = s.screen.host := by
  have k := congrArg (fun u : State => u.screen.host) h; exact k
theorem tableOnly.meeting {s t : State} (h : tableOnly s t) : t.meeting = s.meeting := by
  have k := congrArg State.meeting h; exact k
theorem tableOnly.ownSeat {s t : State} (h : tableOnly s t) : t.ownSeat = s.ownSeat := by
  have k := congrArg (fun u : State => u.config.seat) h; exact k
theorem tableOnly.clock {s t : State} (h : tableOnly s t) : t.calendar.clock = s.calendar.clock := by
  have k := congrArg (fun u : State => u.calendar.clock) h; exact k
theorem tableOnly.view {s t : State} (h : tableOnly s t) : t.calendar.view = s.calendar.view := by
  have k := congrArg (fun u : State => u.calendar.view) h; exact k
theorem tableOnly.ask {s t : State} (h : tableOnly s t) : t.calendar.ask = s.calendar.ask := by
  have k := congrArg (fun u : State => u.calendar.ask) h; exact k
theorem tableOnly.serial {s t : State} (h : tableOnly s t) : t.calendar.serial = s.calendar.serial := by
  have k := congrArg (fun u : State => u.calendar.serial) h; exact k
theorem tableOnly.volume {s t : State} (h : tableOnly s t) : t.mix.volume = s.mix.volume := by
  have k := congrArg (fun u : State => u.mix.volume) h; exact k
theorem tableOnly.threshold {s t : State} (h : tableOnly s t) : t.port.threshold = s.port.threshold := by
  have k := congrArg (fun u : State => u.port.threshold) h; exact k
theorem tableOnly.hasMix {s t : State} (h : tableOnly s t) : t.hasMix = s.hasMix := by
  unfold State.hasMix; rw [h.config]
theorem tableOnly.isChair {s t : State} (h : tableOnly s t) : t.isChair = s.isChair := by
  unfold State.isChair State.isChairSeat State.inMeeting State.ownSeat; rw [h.config, h.meeting]
theorem tableOnly.isChairSeat {s t : State} (h : tableOnly s t) (k : Nat) : t.isChairSeat k = s.isChairSeat k := by
  unfold State.isChairSeat State.inMeeting; rw [h.meeting]

theorem tableOnly.trans {s t u : State} (h : tableOnly s t) (k : tableOnly t u) : tableOnly s u := by
  unfold tableOnly at *
  rw [k, h]

theorem linkOnly.table {s t : State} (h : linkOnly s t) : tableOnly s t := by
  unfold linkOnly tableOnly at *
  rw [h]

theorem TableStep.refl (s : State) : TableStep s s := ⟨rfl, id, id, FloorKeeps.rfl', id, id, id, id⟩

theorem TableStep.trans {s t u : State} (h : TableStep s t) (k : TableStep t u) : TableStep s u :=
  ⟨h.frame.trans k.frame, k.queue ∘ h.queue, k.clash ∘ h.clash,
    h.floor.trans (by have := k.floor; rwa [h.frame.meeting] at this),
    k.stamps ∘ h.stamps, k.share ∘ h.share, k.mix ∘ h.mix, k.notices ∘ h.notices⟩

/-- A step that is one of two. -/
theorem TableStep.ite {s t u : State} {p : Prop} [Decidable p] (h : p → TableStep s t) (k : ¬ p → TableStep s u) :
    TableStep s (if p then t else u) := by
  split
  · exact h ‹_›
  · exact k ‹_›

/-! ## Changes of one part -/

/-- A link step. -/
theorem TableStep.link {s t : State} (h : linkOnly s t) (hq : QueueSound s.link.queue → QueueSound t.link.queue)
    (hc : ClashSilent s → ClashSilent t) : TableStep s t := by
  have e := h
  unfold linkOnly at e
  refine ⟨h.table, hq, hc, ?_, ?_, ?_, ?_, ?_⟩
  · rw [e]; exact FloorKeeps.rfl'
  · rw [e]; exact id
  · rw [e]; exact id
  · rw [e]; exact id
  · rw [e]; exact id

/-- The link of a station in RUN or SETUP is bound by no rule of CLASH. -/
theorem ClashSilent.of_station {s t : State} (h : t.station = s.station) (k : s.station ≠ .clash) : ClashSilent t :=
  ⟨fun c => absurd (h ▸ c) k, fun c => absurd (h ▸ c) k, fun c => absurd (h ▸ c) k, fun c => absurd (h ▸ c) k⟩

/-- A step that leaves station state and link as they were. -/
theorem ClashSilent.of_link {s t : State} (h : t.station = s.station) (k : t.link = s.link) (c : ClashSilent s) :
    ClashSilent t := by
  refine ⟨?_, ?_, ?_, ?_⟩ <;> rw [h, k]
  · exact c.queue
  · exact c.voice
  · exact c.beacon
  · exact c.sending

/-- The own-microphone record and placing. -/
theorem TableStep.mic (s : State) (m : OwnMic) (p : Bool) :
    TableStep s { s with mic := m, capture := { s.capture with placing := p } } :=
  ⟨rfl, id, ClashSilent.of_link rfl rfl, FloorKeeps.rfl', id, id, id, id⟩

/-- The own-microphone record. -/
theorem TableStep.mic' (s : State) (m : OwnMic) : TableStep s { s with mic := m } :=
  ⟨rfl, id, ClashSilent.of_link rfl rfl, FloorKeeps.rfl', id, id, id, id⟩

/-- The floor view and the own-microphone record. -/
theorem TableStep.floorMic {s : State} {f : Floor} (h : FloorKeeps s.floor f s.meeting.profile.limit s.meeting.chair)
    (m : OwnMic) : TableStep s { s with floor := f, mic := m } :=
  ⟨rfl, id, ClashSilent.of_link rfl rfl, h, fun k =>
    ⟨fun p e => Nat.le_trans (k.1 p e) h.stamp, fun p e => Nat.le_trans (k.2 p e) h.stamp⟩, id, id, id⟩

/-- The share map and the own claim. -/
theorem TableStep.share' {s : State} {h : Share}
    (a : shareStampsSound s.share s.floor.stamp → shareStampsSound h s.floor.stamp)
    (b : shareSound s.share → shareSound h) : TableStep s { s with share := h } :=
  ⟨rfl, id, ClashSilent.of_link rfl rfl, FloorKeeps.rfl', a, b, id, id⟩

theorem Port.push_bound {p : Port} {n : Notice} (h : p.notices.length ≤ Config.noticeEntries) :
    (p.push n).notices.length ≤ Config.noticeEntries := by
  unfold Port.push
  split
  · rw [List.length_append]; exact ‹_›
  · exact h

theorem notify_table (n : Notice) (s : State) : TableStep s (notify n s) := by
  refine ⟨?_, id, ClashSilent.of_link rfl rfl, FloorKeeps.rfl', id, id, id, Port.push_bound⟩
  unfold tableOnly notify
  rw [Port.push_eq]

theorem notifyAll_table (l : List Notice) (s : State) : TableStep s (notifyAll l s) := by
  induction l generalizing s with
  | nil => exact TableStep.refl s
  | cons n rest ih => exact (notify_table n s).trans (ih _)

theorem showTransient_table (x : List Byte) (s : State) : TableStep s (showTransient x s) :=
  ⟨rfl, id, ClashSilent.of_link rfl rfl, FloorKeeps.rfl', id, id, id, id⟩

/-- What follows a change: lamps, selector output and display. -/
theorem settle_table (s : State) : TableStep s (settle s) := by
  refine ⟨?_, by rw [settle_link]; exact id, ClashSilent.of_link (settle_station s) (settle_link s),
    by rw [settle_floor]; exact FloorKeeps.rfl', ?_, ?_, by rw [settle_mix]; exact id, by rw [settle_port]; exact id⟩
  · have h := settle_eq s
    have a := settle_screen_windowCount s
    have b := settle_screen_host s
    revert h a b
    generalize settle s = t
    intro h a b
    unfold tableOnly
    rw [← a, ← b]
    rw [h]
    rfl
  · unfold shareStampsSound
    rw [settle_share_screen1, settle_share_screen2, settle_floor]
    exact id
  · unfold shareSound
    rw [settle_share_screen1, settle_share_screen2]
    exact id

/-- A change and what follows it. -/
theorem TableStep.settled {s t : State} (h : TableStep s t) : TableStep s (settle t) := h.trans (settle_table t)

theorem micOff_table (s : State) : TableStep s (micOff s) := TableStep.mic s .reset false

theorem setPlacing_table (on : Bool) (s : State) : TableStep s (setPlacing on s) := TableStep.mic s s.mic on

/-! ## The link -/

theorem select_queue (s : State) (h : QueueSound s.link.queue) : QueueSound (select s).link.queue := by
  unfold select
  split
  · split
    · exact h
    · unfold selectRun
      split
      · exact h
      · split
        · rename_i f rest e
          rw [e] at h
          unfold flushCheck
          split <;> exact h.tail
        · split <;> exact h
    · split <;> exact h
  · exact h

theorem select_clash (s : State) (h : ClashSilent s) : ClashSilent (select s) := by
  by_cases hc : s.station = .clash
  · unfold select
    split
    · split
      · exact h
      · rename_i e
        exact absurd (e.symm.trans hc) (by decide)
      · split
        · refine ⟨h.queue, h.voice, fun _ => nofun, fun _ x e => .inl ?_⟩
          cases e
          rfl
        · exact h
    · exact h
  · exact ClashSilent.of_station (select_station s) hc

theorem select_table (s : State) : TableStep s (select s) :=
  .link (select_linkOnly s) (select_queue s) (select_clash s)

theorem flushCheck_link (s : State) : (flushCheck s).link = s.link := by unfold flushCheck; split <;> rfl

theorem flushCheck_table (s : State) : TableStep s (flushCheck s) :=
  .link (flushCheck_linkOnly s) (by rw [flushCheck_link]; exact id)
    (ClashSilent.of_link (flushCheck_station s) (flushCheck_link s))

theorem emptyVoice_table (s : State) : TableStep s (emptyVoice s) :=
  .link rfl id fun c => ⟨c.queue, fun _ => rfl, c.beacon, c.sending⟩

/-- An offered frame of an internal kind. -/
theorem offer_table {b : Body} {s : State} (h : (s.own b).internalKind ≠ none) : TableStep s (offer b s).1 := by
  refine .link (offer_linkOnly b s) (fun hq => ?_) (fun hc => ?_)
  · unfold offer
    split
    · exact hq
    · refine select_queue _ ?_
      rw [flushCheck_link]
      exact coalesce_sound h hq
  · by_cases k : s.station = .clash
    · unfold offer; rw [if_pos k]; exact hc
    · exact ClashSilent.of_station (offer_fst_station b s) k

theorem offerFrame_table {b : Body} {s : State} (h : (s.own b).internalKind ≠ none) : TableStep s (offerFrame b s) :=
  offer_table h

theorem close_kind {s : State} {k : Nat} (h : s.ownSeat = k) (m : Option Bid) (why : Reason) :
    (s.own (.close m k why)).internalKind ≠ none := by
  simp [State.own, Frame.internalKind, h]

/-- An admitted host-originated frame, outside CLASH. -/
theorem offerHost_table {b : Body} {s : State} (h : (s.own b).internalKind = none)
    (ha : hostFrames s.link.queue < Config.maxHostFrames) (hc : s.station ≠ .clash) : TableStep s (offerHost b s) :=
  .link (offerHost_linkOnly b s) (fun hq => select_queue _ (hq.host h ha))
    (fun _ => ClashSilent.of_station (offerHost_station b s) hc)

theorem withdrawOpen_table (s : State) : TableStep s (withdrawOpen s).1 := by
  refine .link (withdrawOpen_linkOnly s) (fun hq => ?_) (fun hc => ?_)
  · unfold withdrawOpen
    split
    · rw [flushCheck_link]; exact hq.filter _
    · split
      · split
        · split <;> exact hq
        · exact hq
      · exact hq
  · by_cases k : s.station = .clash
    · unfold withdrawOpen
      rw [hc.queue k]
      simp only [List.any_nil, Bool.false_eq_true, if_false]
      split
      · split
        · split <;> exact hc
        · exact hc
      · exact hc
    · exact ClashSilent.of_station (withdrawOpen_fst_station s) k

theorem placeVoice_table (b : Body) (s : State) : TableStep s (placeVoice b s) := by
  refine .link (placeVoice_linkOnly b s) (fun hq => ?_) (fun hc => ?_)
  · unfold placeVoice
    split
    · exact hq
    · exact select_queue _ hq
  · by_cases k : s.station = .clash
    · unfold placeVoice; rw [if_pos k]; exact hc
    · exact ClashSilent.of_station (placeVoice_station b s) k

theorem requestBeacon_table (s : State) : TableStep s (requestBeacon s) := by
  refine .link (requestBeacon_linkOnly s) (fun hq => ?_) (fun hc => ?_)
  · unfold requestBeacon
    split
    · split
      · exact hq
      · exact select_queue _ hq
    · exact hq
  · by_cases k : s.station = .run
    · exact ClashSilent.of_station (requestBeacon_station s) (by rw [k]; nofun)
    · unfold requestBeacon; rw [if_neg k]; exact hc

theorem freeLink_table (s : State) : TableStep s (freeLink s) :=
  .link (freeLink_linkOnly s) (fun hq => select_queue _ hq)
    (fun hc => select_clash _ ⟨hc.queue, hc.voice, hc.beacon, fun _ => nofun⟩)

theorem finishAttempt_table (s : State) : TableStep s (finishAttempt s) :=
  .link (finishAttempt_linkOnly s) (fun hq => select_queue _ hq)
    (fun hc => select_clash _ ⟨hc.queue, hc.voice, hc.beacon, hc.sending⟩)

/-! ## Slots -/

theorem freeSeat_length (k : Nat) (l : List Slot) : (freeSeat k l).length = l.length := by simp [freeSeat]

theorem bindFirst_length (k : Nat) (l : List Slot) : (bindFirst k l).length = l.length := by
  induction l with
  | nil => rfl
  | cons x xs ih => unfold bindFirst; split <;> simp [ih]

theorem freeSeat_fifos {k : Nat} {l : List Slot} (h : ∀ x ∈ l, x.fifo.length ≤ Config.fifoDepth) :
    ∀ x ∈ freeSeat k l, x.fifo.length ≤ Config.fifoDepth := by
  intro x hx
  obtain ⟨y, hy, rfl⟩ := List.mem_map.1 hx
  split
  · exact Nat.zero_le _
  · exact h y hy

theorem bindFirst_fifos {k : Nat} {l : List Slot} (h : ∀ x ∈ l, x.fifo.length ≤ Config.fifoDepth) :
    ∀ x ∈ bindFirst k l, x.fifo.length ≤ Config.fifoDepth := by
  induction l with
  | nil => exact h
  | cons y ys ih =>
      unfold bindFirst
      split
      · intro x hx
        rcases List.mem_cons.1 hx with rfl | hx
        · exact Nat.zero_le _
        · exact h x (List.mem_cons_of_mem _ hx)
      · intro x hx
        rcases List.mem_cons.1 hx with rfl | hx
        · exact h _ List.mem_cons_self
        · exact ih (fun z hz => h z (List.mem_cons_of_mem _ hz)) x hx

/-- Slots and FIFOs keep their number and their bound. -/
structure SlotsBound (l : List Slot) : Prop where
  count : l.length = Config.slots
  fifos : ∀ x ∈ l, x.fifo.length ≤ Config.fifoDepth

theorem SlotsBound.foldl {l : List Slot} {α : Type} {g : List Slot → α → List Slot}
    (hg : ∀ m a, SlotsBound m → SlotsBound (g m a)) (k : List α) (h : SlotsBound l) : SlotsBound (k.foldl g l) := by
  induction k generalizing l with
  | nil => exact h
  | cons a rest ih => exact ih (hg _ _ h)

theorem bindNet_bound {own : Nat} {r e : List Nat} {l : List Slot} (h : SlotsBound l) : SlotsBound (bindNet own r e l) :=
  .foldl (fun _ _ k => ⟨(bindFirst_length _ _).trans k.1, bindFirst_fifos k.2⟩) _
    (.foldl (fun _ _ k => ⟨(freeSeat_length _ _).trans k.1, freeSeat_fifos k.2⟩) _ h)

theorem MixSound.slots' {m : Mix} {l : List Slot} (h : MixSound m) (k : SlotsBound m.slots → SlotsBound l) :
    MixSound { m with slots := l } :=
  ⟨(k ⟨h.slots, h.fifos⟩).1, (k ⟨h.slots, h.fifos⟩).2, h.reduction, h.volume⟩

/-! ## Steps of the view -/

/-- R37 to R39: a step of the view whose floor keeps what a sound view has. -/
theorem storeStep_table {x : FloorStep} {s : State}
    (h : FloorKeeps s.floor x.floor s.meeting.profile.limit s.meeting.chair) : TableStep s (storeStep x s) := by
  unfold storeStep
  refine TableStep.trans (t := { s with
    floor := x.floor, mix := { s.mix with
      slots := if s.hasMix then bindNet s.ownSeat ((x.removals s.floor).map (fun p => p.1)) (x.entries s.floor) s.mix.slots
               else s.mix.slots } })
    ⟨rfl, id, ClashSilent.of_link rfl rfl, h,
      fun k => ⟨fun p e => Nat.le_trans (k.1 p e) h.stamp, fun p e => Nat.le_trans (k.2 p e) h.stamp⟩, id, fun m => m.slots' (fun k => ?_), id⟩
    ?_
  · split
    · exact bindNet_bound k
    · exact k
  · refine TableStep.ite (fun _ => ?_) (fun _ => ?_)
    · exact (notifyAll_table _ _).trans (emptyVoice_table _)
    · exact notifyAll_table _ _

theorem storeView_table {f : Floor} {s : State} (h : FloorKeeps s.floor f s.meeting.profile.limit s.meeting.chair) :
    TableStep s (storeView f s) := storeStep_table h

/-- What the stored view is. -/
@[simp] theorem storeStep_floor (x : FloorStep) (s : State) : (storeStep x s).floor = x.floor := by
  unfold storeStep
  dsimp only
  split <;> simp

/-! ## Releasing -/

theorem clearSeat_stamps {h : Share} {k n : Nat} (a : shareStampsSound h n) : shareStampsSound (h.clearSeat k) n := by
  refine ⟨fun p e => a.1 p ?_, fun p e => a.2 p ?_⟩
  · exact (Option.filter_eq_some_iff.1 e).1
  · exact (Option.filter_eq_some_iff.1 e).1

theorem clearSeat_sound {h : Share} {k : Nat} (a : shareSound h) : shareSound (h.clearSeat k) :=
  fun p q hp hq => a p q (Option.filter_eq_some_iff.1 hp).1 (Option.filter_eq_some_iff.1 hq).1

theorem shareReleased_table (k : Nat) (s : State) : TableStep s (shareReleased k s) :=
  .share' clearSeat_stamps clearSeat_sound

theorem claimReleased_table (s : State) : TableStep s (claimReleased s) := .share' clearSeat_stamps clearSeat_sound

theorem releaseClaim_table (s : State) : TableStep s (releaseClaim s) := by
  have h : TableStep s (offer (.unshare s.meetingId) s).1 := offer_table (by simp [State.own, Frame.internalKind])
  unfold releaseClaim
  split
  · exact h
  · exact .ite (fun _ => h.trans (.share' clearSeat_stamps clearSeat_sound)) (fun _ => h.trans (.share' id id))
  · exact h.trans (.share' clearSeat_stamps clearSeat_sound)

theorem leaveOpenRelease_table (s : State) : TableStep s (leaveOpenRelease s) :=
  .ite (fun _ => releaseClaim_table s) (fun _ => .refl s)

/-! ## Closing -/

theorem micClose_table (why : Reason) (s : State) : TableStep s (micClose why s) := by
  have a : TableStep s (storeStep (s.floor.removed s.ownSeat why) (micOff s)) :=
    (micOff_table s).trans (storeStep_table (Floor.removed_keeps _ _ _ _ _))
  exact (a.settled.trans (offerFrame_table (close_kind a.settled.frame.ownSeat _ _))).trans (leaveOpenRelease_table _)

theorem micWithdraw_table (s : State) : TableStep s (micWithdraw s) :=
  ((micOff_table s).trans (storeView_table (Floor.dropQueue_keeps _ _ _ _))).trans
    (offerFrame_table (by simp [State.own, Frame.internalKind]))

/-! ## The evaluation of the own side -/

theorem offerOpen_table (s : State) : TableStep s (offerOpen s) :=
  (TableStep.floorMic (Floor.issued_keeps _ _ _) _).trans (offerFrame_table (by simp [State.own, Frame.internalKind]))

theorem withdrawLostOpen_table (s : State) : TableStep s (withdrawLostOpen s) := by
  have h := withdrawOpen_table s
  unfold withdrawLostOpen
  revert h
  generalize withdrawOpen s = r
  intro h
  match r, h with
  | (t, .withdrawn), h => exact TableStep.trans (t := t) h (.mic' _ _)
  | (_, .started), h => exact h
  | (_, .none), h => exact h

theorem ownSide_table (s : State) : TableStep s (ownSide s) := by
  unfold ownSide
  split
  · split
    · exact .refl s
    · exact .ite (fun _ => offerOpen_table s) (fun _ => .refl s)
    · exact .ite (fun _ => withdrawLostOpen_table s) (fun _ => .refl s)
    · exact .ite (fun _ => micClose_table _ s) (fun _ => .refl s)
  · exact .refl s

theorem evalMic_table (s : State) : TableStep s (evalMic s) := ((settle_table s).trans (ownSide_table _)).settled

/-! ## The speaking budget -/

theorem warn_table (s : State) : TableStep s (warn s) := by
  unfold warn
  split
  · exact .refl s
  · exact .ite (fun _ => (TableStep.mic' s _).trans (notify_table _ _))
      (fun _ => .ite (fun _ => .mic' s _) (fun _ => .refl s))

theorem warningTest_table (s : State) : TableStep s (warningTest s) := ((settle_table s).trans (warn_table _)).settled

theorem startBudget_table (s : State) : TableStep s (startBudget s) := (TableStep.mic' s _).trans (warningTest_table _)

theorem budgetExpires_table (s : State) : TableStep s (budgetExpires s) := by
  unfold budgetExpires
  split
  · exact (micClose_table _ s).trans (notify_table _ _)
  · exact (TableStep.mic' s _).trans (notify_table _ _)

theorem budgetSecondPasses_table (s : State) : TableStep s (budgetSecondPasses s) := by
  unfold budgetSecondPasses
  split
  · exact .refl s
  · split
    · exact .mic' s _
    · exact TableStep.ite
        (fun _ => ((TableStep.mic' s _).trans (warningTest_table _)).trans (budgetExpires_table _))
        (fun _ => (TableStep.mic' s _).trans (warningTest_table _))

theorem micTimeAdd_table (n : Nat) (s : State) : TableStep s (micTimeAdd n s) := by
  unfold micTimeAdd
  split
  · split
    · exact .refl s
    · split <;> exact (TableStep.mic' s _).trans (warningTest_table _)
  · exact .refl s

/-! ## Displacement, priority and the chair's frames at the own seat -/

theorem micDisplaced_table (s : State) : TableStep s (micDisplaced s) := by
  have h := (((TableStep.mic s { OwnMic.reset with state := .waiting, requestStamp := s.mic.requestStamp } false).trans
      (offerFrame_table (b := .yield s.meetingId s.mic.requestStamp) (by simp [State.own, Frame.internalKind]))).settled.trans
      (notify_table (.floorConflict s.ownSeat) _)).trans (showTransient_table (text "Floor full - requeued") _)
  exact .ite (fun _ => h.trans (leaveOpenRelease_table _)) (fun _ => h)

theorem micPriorityOn_table (s : State) : TableStep s (micPriorityOn s) :=
  .ite (fun _ => micClose_table _ s) (fun _ => .refl s)

/-- A step of the view with all that takes it. -/
theorem floorStep_table {x : FloorStep} {s : State}
    (h : FloorKeeps s.floor x.floor s.meeting.profile.limit s.meeting.chair) : TableStep s (floorStep x s) := by
  have a := (storeStep_table h).settled
  unfold floorStep
  have b : TableStep s (if (x.removals s.floor).contains (s.ownSeat, .displaced) then micDisplaced (settle (storeStep x s))
      else settle (storeStep x s)) := .ite (fun _ => a.trans (micDisplaced_table _)) (fun _ => a)
  exact TableStep.trans (.ite (fun _ => b.trans (micPriorityOn_table _)) (fun _ => b)) (evalMic_table _)

theorem closeOpening_table (why : Reason) (s : State) : TableStep s (closeOpening why s) := by
  have h := withdrawOpen_table s
  unfold closeOpening
  revert h
  generalize withdrawOpen s = r
  intro h
  match r, h with
  | (t, .withdrawn), h =>
      exact TableStep.ite (fun _ => TableStep.trans (t := t) h (micOff_table _))
        (fun _ => TableStep.trans (t := t) h (micWithdraw_table _))
  | (t, .started), h => exact TableStep.trans (t := t) h (.mic' _ _)
  | (_, .none), h => exact h

theorem micChairClose_table (why : Reason) (s : State) : TableStep s (micChairClose why s) := by
  unfold micChairClose
  split
  · exact .refl s
  · exact .refl s
  · split
    · exact closeOpening_table why s
    · exact .mic' s _
  · exact (micOff_table s).trans (leaveOpenRelease_table _)

theorem micCleared_table (s : State) : TableStep s (micCleared s) := by
  have h := withdrawOpen_table s
  unfold micCleared
  split
  · exact micOff_table s
  · revert h
    generalize withdrawOpen s = r
    intro h
    match r, h with
    | (t, .withdrawn), h => exact TableStep.trans (t := t) h (micOff_table _)
    | (_, .started), h => exact h
    | (_, .none), h => exact h
  · exact .refl s

/-! ## A press and a talk onset -/

theorem requestFloor_table (s : State) : TableStep s (requestFloor s) :=
  (((TableStep.mic' s _).trans (storeView_table (Floor.request_keeps _ _ _ _ _))).trans
    (offerFrame_table (by simp [State.own, Frame.internalKind]))).trans (evalMic_table _)

theorem chairOpens_table (s : State) : TableStep s (chairOpens s) :=
  (TableStep.floorMic (Floor.issued_keeps _ _ _) _).trans (offerFrame_table (by simp [State.own, Frame.internalKind]))

theorem takePress_table (s : State) : TableStep s (takePress s) := by
  unfold takePress
  split
  · exact .ite (fun _ => chairOpens_table s) (fun _ => requestFloor_table s)
  · exact micWithdraw_table s
  · split
    · exact closeOpening_table _ s
    · exact .mic' s _
  · exact micClose_table _ s

theorem talkOnset_table (s : State) : TableStep s (talkOnset s) := by
  unfold talkOnset
  split
  · exact .mic' s _
  · exact .ite (fun _ => takePress_table s) (fun _ => .refl s)
  · exact .refl s

/-! ## Outcomes of the own OPEN -/

/-- R42: a view enters class CHAIR for the chair seat alone. -/
theorem classTaken_chair {s : State} {k : Nat} {c : OpenClass} (h : s.classTaken k c = .chair) : k = s.meeting.chair := by
  unfold State.classTaken at h
  split at h
  · exact absurd h (by decide)
  · rename_i hn
    subst h
    have : s.isChairSeat k = true := by
      cases e : s.isChairSeat k
      · exact absurd ⟨rfl, e⟩ hn
      · rfl
    unfold State.isChairSeat at this
    simp only [Bool.and_eq_true, decide_eq_true_eq] at this
    exact this.1.2

theorem openSent_table (o q : Nat) (c : OpenClass) (s : State) : TableStep s (openSent o q c s) := by
  have a : TableStep s (settle (storeStep (s.floor.opening s.ownSeat (s.classTaken s.ownSeat c) o q s.blockNumber s.limit) s)) :=
    (storeStep_table (Floor.opening_keeps _ _ _ _ _ classTaken_chair)).settled
  unfold openSent
  dsimp only
  revert a
  generalize settle (storeStep (s.floor.opening s.ownSeat (s.classTaken s.ownSeat c) o q s.blockNumber s.limit) s) = t0
  intro a
  refine .ite (fun _ => ?_) (fun _ => ?_)
  · split
    · exact (a.trans ((TableStep.mic' t0 _).trans (setPlacing_table true _))).trans
        ((startBudget_table _).trans (evalMic_table _))
    · exact (a.trans ((TableStep.mic' t0 _).trans (setPlacing_table true _))).settled.trans (micClose_table _ _)
  · have b := a.trans (.mic' t0 { t0.mic with
      cls := some (s.classTaken s.ownSeat c), openStamp := o, requestStamp := q, closePending := none })
    split
    · exact b.trans ((micDisplaced_table _).trans (evalMic_table _))
    · exact (b.trans (offerFrame_table (close_kind b.frame.ownSeat _ _))).trans (micWithdraw_table _)

theorem openAbandoned_table (s : State) : TableStep s (openAbandoned s) := by
  unfold openAbandoned
  split
  · split
    · exact micOff_table s
    · split
      · split
        · exact (TableStep.mic' s _).trans (evalMic_table _)
        · exact micWithdraw_table s
      · exact micOff_table s
  · exact .refl s

theorem micMeetingEnd_table (s : State) : TableStep s (micMeetingEnd s) := by
  unfold micMeetingEnd
  split
  · have a : TableStep s (storeStep (s.floor.removed s.ownSeat .meetingEnd) (micOff s)) :=
      (micOff_table s).trans (storeStep_table (Floor.removed_keeps _ _ _ _ _))
    exact a.trans (offerFrame_table (close_kind a.frame.ownSeat _ _))
  · exact (micOff_table s).trans (offerFrame_table (close_kind (micOff_table s).frame.ownSeat _ _))
  · exact .refl s

/-! ## Chair frames in the view -/

theorem viewClose_table (target : Nat) (why : Reason) (s : State) : TableStep s (viewClose target why s) := by
  have a : TableStep s (settle (storeStep (s.floor.removed target why) s)) :=
    (storeStep_table (Floor.removed_keeps _ _ _ _ _)).settled
  exact (TableStep.ite (fun _ => a.trans (micChairClose_table _ _)) (fun _ => a)).trans (evalMic_table _)

theorem viewGrant_table (target : Nat) (s : State) : TableStep s (viewGrant target s) :=
  floorStep_table (Floor.grant_keeps _ _ _ _)

theorem viewClear_table (s : State) : TableStep s (viewClear s) := by
  have a : TableStep s (storeView { s.floor with queue := [] } s) := storeView_table (Floor.clearQueue_keeps _ _ _)
  exact (TableStep.ite (fun _ => a.trans (micCleared_table _)) (fun _ => a)).trans (evalMic_table _)

theorem viewPriority_table (on : Bool) (s : State) : TableStep s (viewPriority on s) :=
  floorStep_table (Floor.setPriority_keeps _ _ _ _ _)

end Sys2Proof.Machine
end

