-- ==== Sys2Proof/Laws/Sharing.lean ====
section
/-! SUPPORT. What the operations of the share map, of beacon state and of replay can do, in the form `TableStep`. -/

namespace Sys2Proof.Machine

/-- After a step of the view the counter is not below the step's. -/
theorem floorStep_stamp (x : FloorStep) (s : State) : x.floor.stamp ≤ (floorStep x s).floor.stamp := by
  have a : x.floor.stamp = (storeStep x s).floor.stamp := by rw [storeStep_floor]
  rw [a]
  unfold floorStep
  have b : TableStep (storeStep x s) (if (x.removals s.floor).contains (s.ownSeat, .displaced) then
      micDisplaced (settle (storeStep x s)) else settle (storeStep x s)) :=
    .ite (fun _ => (settle_table _).trans (micDisplaced_table _)) (fun _ => settle_table _)
  exact (TableStep.trans (.ite (fun _ => b.trans (micPriorityOn_table _)) (fun _ => b)) (evalMic_table _)).floor.stamp

/-! ## The claim rule (R171) -/

theorem claimRule_stamps {h : Share} {seat screen stamp chair n : Nat} (a : shareStampsSound h n) (k : stamp ≤ n) :
    shareStampsSound (h.claimRule seat screen stamp chair) n := by
  obtain ⟨a1, a2⟩ := a
  unfold Share.claimRule Share.leaveOther Share.setScreen shareStampsSound
  grind

theorem claimRule_sound {h : Share} {seat screen stamp chair : Nat} (a : shareSound h) :
    shareSound (h.claimRule seat screen stamp chair) := by
  unfold shareSound at a
  unfold Share.claimRule Share.leaveOther Share.setScreen Share.presents Share.presenter otherScreen shareSound
  grind

/-! ## Claims -/

theorem shareLost_table (screen seat : Nat) (s : State) : TableStep s (shareLost screen seat s) :=
  (notify_table _ _).trans (showTransient_table _ _)

theorem shareClaimed_table (seat screen stamp : Nat) (s : State) : TableStep s (shareClaimed seat screen stamp s) := by
  have a : TableStep s (floorStep (.plain (s.floor.raise stamp)) s) := floorStep_table (Floor.raise_keeps _ _ _ _)
  have b : stamp ≤ (floorStep (.plain (s.floor.raise stamp)) s).floor.stamp :=
    Nat.le_trans (Floor.le_raise _ _) (floorStep_stamp (.plain (s.floor.raise stamp)) s)
  revert a b
  unfold shareClaimed
  dsimp only
  generalize floorStep (.plain (s.floor.raise stamp)) s = t
  intro a b
  have c : TableStep t { t with share := t.share.claimRule seat screen stamp t.meeting.chair } :=
    .share' (fun k => claimRule_stamps k b) claimRule_sound
  refine .ite (fun _ => ?_) (fun _ => a.trans c)
  refine TableStep.trans (TableStep.settled (TableStep.ite (fun _ => ?_) (fun _ => a.trans c))) (shareLost_table _ _ _)
  exact (a.trans c).trans (.share' id id)

theorem shareSync_table (seat : Nat) (reported : Option (Nat × Nat)) (s : State) :
    TableStep s (shareSync seat reported s) := by
  unfold shareSync
  split
  · exact shareReleased_table _ _
  · exact .ite (fun _ => floorStep_table (Floor.raise_keeps _ _ _ _)) (fun _ => shareClaimed_table _ _ _ _)

theorem makeClaim_table (screen : Nat) (s : State) : TableStep s (makeClaim screen s) := by
  have a : TableStep s { s with floor := s.floor.issued } := .floorMic (Floor.issued_keeps _ _ _) s.mic
  exact (a.trans (offerFrame_table (by simp [State.own, Frame.internalKind]))).trans (.share' id id)

theorem claimFromMap_screens (h : Share) (seat screen : Nat) :
    (h.claimFromMap seat screen).screen1 = h.screen1 ∧ (h.claimFromMap seat screen).screen2 = h.screen2 := by
  unfold Share.claimFromMap Share.noClaim; grind

theorem shareSent_table (screen stamp : Nat) (s : State) : TableStep s (shareSent screen stamp s) := by
  have a : TableStep s { s with floor := s.floor.raise stamp } := .floorMic (Floor.raise_keeps _ _ _ _) s.mic
  have c : TableStep { s with floor := s.floor.raise stamp } { s with
      floor := s.floor.raise stamp,
      share := (s.share.claimRule s.ownSeat screen stamp s.meeting.chair).claimFromMap s.ownSeat screen } := by
    refine .share' (fun k => ?_) (fun k => ?_)
    · have r := claimRule_stamps (seat := s.ownSeat) (screen := screen) (chair := s.meeting.chair) k
        (Floor.le_raise s.floor stamp)
      unfold shareStampsSound
      rw [(claimFromMap_screens _ _ _).1, (claimFromMap_screens _ _ _).2]
      exact r
    · unfold shareSound
      rw [(claimFromMap_screens _ _ _).1, (claimFromMap_screens _ _ _).2]
      exact claimRule_sound k
  have d := a.trans c
  unfold shareSent
  dsimp only
  refine .ite (fun _ => d.trans (claimReleased_table _)) (fun _ => .ite (fun _ => d) (fun _ => ?_))
  split
  · exact d.settled.trans (shareLost_table _ _ _)
  · exact d

theorem shareAbandoned_table (s : State) : TableStep s (shareAbandoned s) := by
  unfold shareAbandoned
  refine .ite (fun _ => .ite (fun _ => claimReleased_table s) (fun _ => ?_)) (fun _ => .refl s)
  split <;> exact .share' id id

theorem sharePressed_table (s : State) : TableStep s (sharePressed s) := by
  unfold sharePressed
  refine .ite (fun _ => ?_) (fun _ => .ite (fun _ => .refl s) (fun _ => releaseClaim_table s))
  split
  · exact .refl s
  · exact makeClaim_table _ s

/-! ## Beacon state and replay -/

theorem isChairSeat_eq {s : State} {k : Nat} (h : s.isChairSeat k = true) : k = s.meeting.chair := by
  unfold State.isChairSeat at h
  simp only [Bool.and_eq_true, decide_eq_true_eq] at h
  exact h.1.2

theorem reconcileBeacon_table (seat : Nat) (m : Option Bid) (mic : Option (Nat × Nat)) (request : Option Nat) (prio : Bool)
    (s : State) : TableStep s (reconcileBeacon seat m mic request prio s) :=
  .ite (fun _ => floorStep_table (Floor.reconcile_keeps _ _ isChairSeat_eq)) (fun _ => .refl s)

theorem shareBeacon_table (seat : Nat) (m : Option Bid) (reported : Option (Nat × Nat)) (s : State) :
    TableStep s (shareBeacon seat m reported s) := .ite (fun _ => shareSync_table _ _ s) (fun _ => .refl s)

theorem replaySeat_table (id : Bid) (s : State) (seat : Nat) : TableStep s (replaySeat id s seat) := by
  unfold replaySeat
  exact .ite (fun _ => ((reconcileBeacon_table _ _ _ _ _ s).trans (shareBeacon_table _ _ _ _)).settled) (fun _ => .refl s)

theorem foldl_table {α : Type} {g : State → α → State} (hg : ∀ s a, TableStep s (g s a)) (l : List α) (s : State) :
    TableStep s (l.foldl g s) := by
  induction l generalizing s with
  | nil => exact .refl s
  | cons a rest ih => exact (hg s a).trans (ih _)

theorem replay_table (id : Bid) (s : State) : TableStep s (replay id s) := foldl_table (replaySeat_table id) _ s

/-! ## Stale slots, absent seats, arrivals of floor kinds -/

theorem staleReport_table (seat : Nat) (s : State) : TableStep s (staleReport seat s) :=
  floorStep_table (Floor.removed_keeps _ _ _ _ _)

theorem onRequest_table (k q : Nat) (s : State) : TableStep s (onRequest k q s) :=
  floorStep_table (Floor.request_keeps _ _ _ _ _)

theorem onWithdraw_table (k : Nat) (s : State) : TableStep s (onWithdraw k s) :=
  floorStep_table (Floor.dropQueue_keeps _ _ _ _)

theorem onOpening_table (k o q : Nat) (c : OpenClass) (s : State) : TableStep s (onOpening k o q c s) :=
  floorStep_table (Floor.opening_keeps _ _ _ _ _ classTaken_chair)

theorem onYield_table (k q : Nat) (s : State) : TableStep s (onYield k q s) :=
  floorStep_table (Floor.yielded_keeps _ _ _ _ _)

theorem onClose_table (k target : Nat) (why : Reason) (s : State) : TableStep s (onClose k target why s) :=
  .ite (fun _ => viewClose_table _ _ s) (fun _ => .refl s)

theorem onGrant_table (k target : Nat) (s : State) : TableStep s (onGrant k target s) :=
  .ite (fun _ => viewGrant_table _ s) (fun _ => .refl s)

theorem onClear_table (k : Nat) (s : State) : TableStep s (onClear k s) :=
  .ite (fun _ => viewClear_table s) (fun _ => .refl s)

theorem onPriority_table (k : Nat) (on : Bool) (s : State) : TableStep s (onPriority k on s) :=
  .ite (fun _ => viewPriority_table _ s) (fun _ => .refl s)

theorem onTimeAdd_table (k target n : Nat) (s : State) : TableStep s (onTimeAdd k target n s) :=
  .ite (fun _ => micTimeAdd_table _ s) (fun _ => .refl s)

theorem filtered_table {m : Option Bid} {k : State → State} {s : State} (h : TableStep s (k s)) :
    TableStep s (filtered m k s) := .ite (fun _ => h) (fun _ => .refl s)

theorem priorityButton_table (on : Bool) (s : State) : TableStep s (priorityButton on s) :=
  .ite (fun _ => offerFrame_table (by simp [State.own, Frame.internalKind])) (fun _ => .refl s)

theorem silenceBlock_table (s : State) : TableStep s (silenceBlock s) := by
  unfold silenceBlock
  split
  · dsimp only
    split
    · exact .ite (fun _ => (TableStep.mic' s _).trans (micClose_table _ _)) (fun _ => .mic' s _)
    · exact .mic' s _
  · exact .refl s

theorem buildVoice_table (s : State) : TableStep s (buildVoice s) :=
  .ite (fun _ => placeVoice_table _ s) (fun _ => .refl s)

theorem budgetBlock_table (s : State) : TableStep s (budgetBlock s) := by
  unfold budgetBlock
  refine .ite (fun _ => .ite (fun _ => .mic' s _) (fun _ => ?_)) (fun _ => .refl s)
  exact (TableStep.mic' s _).trans (budgetSecondPasses_table _)

end Sys2Proof.Machine
end

