-- ==== Sys2Proof/Laws/Views.lean ====
section
/-! SUPPORT. The calendar view (R135 to R142, R145): order, distinct ids and entries apart from one another are kept by
insertion, removal, resolution, eviction and extension. -/

namespace Sys2Proof.Machine

/-! ## Order and overlap -/

theorem viewKeyLt_trans {a b c : Nat} {x y z : Bid} (h : viewKeyLt a x b y = true) (k : viewKeyLt b y c z = true) :
    viewKeyLt a x c z = true := by
  simp only [viewKeyLt, Bool.or_eq_true, Bool.and_eq_true, decide_eq_true_eq] at *
  omega

theorem viewKeyLt_of_not {a b : Nat} {x y : Bid} (h : ¬ viewKeyLt a x b y = true) (k : x ≠ y) : viewKeyLt b y a x = true := by
  have hk : x.holder ≠ y.holder ∨ x.serial ≠ y.serial := by
    by_contra e
    rw [not_or, not_not, not_not] at e
    exact k (by cases x; cases y; simp_all)
  simp only [viewKeyLt, Bool.or_eq_true, Bool.and_eq_true, decide_eq_true_eq] at *
  omega

theorem viewKeyLt_start {a b : Nat} {x y : Bid} (h : viewKeyLt a x b y = true) : a ≤ b := by
  simp only [viewKeyLt, Bool.or_eq_true, Bool.and_eq_true, decide_eq_true_eq] at h
  omega

theorem overlaps_comm (a b : WireEntry) : a.overlaps b = b.overlaps a := by
  unfold WireEntry.overlaps; exact Bool.and_comm _ _

theorem mem_insertEntry {e x : Entry} {v : List Entry} : x ∈ insertEntry e v ↔ x = e ∨ x ∈ v := by
  induction v with
  | nil => simp [insertEntry]
  | cons y ys ih => simp only [insertEntry]; split <;> simp [ih]; tauto

theorem insertEntry_perm (e : Entry) (v : List Entry) : (insertEntry e v).Perm (e :: v) := by
  induction v with
  | nil => exact List.Perm.refl _
  | cons y ys ih =>
    simp only [insertEntry]
    split
    · exact List.Perm.refl _
    · exact (ih.cons y).trans (List.Perm.swap e y ys)

/-- An entry that overlaps none and bears a new id takes its place by order. -/
theorem insertEntry_apart {e : Entry} {v : List Entry} (h : v.Pairwise entryApart)
    (ho : ∀ x ∈ v, e.wire.overlaps x.wire = false) (hi : ∀ x ∈ v, x.wire.id ≠ e.wire.id) :
    (insertEntry e v).Pairwise entryApart := by
  induction v with
  | nil => simp [insertEntry]
  | cons y ys ih =>
    simp only [insertEntry]
    rw [List.pairwise_cons] at h
    split
    · rename_i hy
      refine List.pairwise_cons.2 ⟨?_, List.pairwise_cons.2 h⟩
      intro a ha
      refine ⟨?_, ho a ha⟩
      rcases List.mem_cons.1 ha with rfl | ha
      · exact hy
      · exact viewKeyLt_trans hy (h.1 a ha).1
    · rename_i hy
      refine List.pairwise_cons.2 ⟨?_, ih h.2 (fun x hx => ho x (List.mem_cons_of_mem _ hx))
        (fun x hx => hi x (List.mem_cons_of_mem _ hx))⟩
      intro a ha
      rcases mem_insertEntry.1 ha with rfl | ha
      · exact ⟨viewKeyLt_of_not hy (fun e => hi y List.mem_cons_self e.symm), (overlaps_comm _ _).trans (ho y List.mem_cons_self)⟩
      · exact h.1 a ha

theorem insertEntry_ids {e : Entry} {v : List Entry} (h : (v.map (fun x => x.wire.id)).Nodup)
    (hi : ∀ x ∈ v, x.wire.id ≠ e.wire.id) : ((insertEntry e v).map (fun x => x.wire.id)).Nodup := by
  refine ((insertEntry_perm e v).map _).nodup_iff.2 ?_
  rw [List.map_cons, List.nodup_cons]
  refine ⟨?_, h⟩
  rw [List.mem_map]
  rintro ⟨x, hx, hxe⟩
  exact hi x hx hxe

theorem insertEntry_length (e : Entry) (v : List Entry) : (insertEntry e v).length = v.length + 1 :=
  (insertEntry_perm e v).length_eq

theorem insertEntry_held (e : Entry) (v : List Entry) :
    heldCount (insertEntry e v) = (if e.held then 1 else 0) + heldCount v := by
  unfold heldCount
  rw [((insertEntry_perm e v).filter _).length_eq, List.filter_cons]
  split <;> simp [Nat.add_comm]

/-! ## Removal and marks -/

/-- Any removal keeps a sound view. -/
theorem CalendarSound.filter {v : List Entry} (p : Entry → Bool) (h : CalendarSound v) : CalendarSound (v.filter p) :=
  ⟨h.apart.filter _, h.ids.sublist (List.filter_sublist.map _),
   Nat.le_trans (List.length_filter_le _ _) h.entries,
   Nat.le_trans (List.Sublist.filter _ List.filter_sublist).length_le h.held⟩

/-- A change of active marks and ages alone keeps a sound view. -/
theorem CalendarSound.map {v : List Entry} {g : Entry → Entry} (hw : ∀ e, (g e).wire = e.wire) (hh : ∀ e, (g e).held = e.held)
    (h : CalendarSound v) : CalendarSound (v.map g) := by
  refine ⟨?_, ?_, by simpa using h.entries, ?_⟩
  · rw [List.pairwise_map]
    exact h.apart.imp (fun {a b} hab => by unfold entryApart at *; rw [hw, hw]; exact hab)
  · rw [List.map_map]
    have : ((fun e : Entry => e.wire.id) ∘ g) = fun e => e.wire.id := funext fun e => by simp [hw]
    rw [this]; exact h.ids
  · unfold heldCount at *
    rw [List.filter_map, List.length_map]
    have : ((fun e : Entry => e.held) ∘ g) = fun e => e.held := funext fun e => by simp [hh]
    rw [this]; exact h.held

theorem CalendarSound.nil : CalendarSound [] :=
  ⟨List.Pairwise.nil, List.nodup_nil, by simp, by simp [heldCount]⟩

theorem viewFind_none {v : List Entry} {id : Bid} (h : viewFind v id = none) : ∀ x ∈ v, x.wire.id ≠ id := by
  intro x hx
  have := List.find?_eq_none.1 h x hx
  simpa using this

theorem viewFind_some {v : List Entry} {id : Bid} {e : Entry} (h : viewFind v id = some e) : e ∈ v ∧ e.wire.id = id :=
  ⟨List.mem_of_find?_eq_some h, by simpa using List.find?_some h⟩

theorem mem_viewDrop {v : List Entry} {id : Bid} {x : Entry} : x ∈ viewDrop v id ↔ x ∈ v ∧ x.wire.id ≠ id := by
  simp [viewDrop]

/-! ## Resolution and room (R141, R142, R136) -/

/-- R141: what resolution answers: the entries that do not overlap the candidate. -/
theorem resolve_some {c : Entry} {v w : List Entry} {lost : List Bid} (h : resolve c v = some (w, lost)) :
    w = v.filter (fun e => !c.wire.overlaps e.wire) := by
  unfold resolve at h
  split at h
  · simp only [Option.some.injEq, Prod.mk.injEq] at h; exact h.1.symm
  · cases h

theorem resolve_apart {c : Entry} {v w : List Entry} {lost : List Bid} (h : resolve c v = some (w, lost)) :
    ∀ x ∈ w, c.wire.overlaps x.wire = false := by
  intro x hx
  rw [resolve_some h] at hx
  simpa using (List.mem_filter.1 hx).2

theorem resolve_mem {c : Entry} {v w : List Entry} {lost : List Bid} (h : resolve c v = some (w, lost)) :
    ∀ x ∈ w, x ∈ v := by
  intro x hx
  rw [resolve_some h] at hx
  exact (List.mem_filter.1 hx).1

theorem resolve_sound {c : Entry} {v w : List Entry} {lost : List Bid} (h : resolve c v = some (w, lost))
    (hv : CalendarSound v) : CalendarSound w := by
  rw [resolve_some h]; exact hv.filter _

theorem viewDrop_lt {v : List Entry} {e : Entry} (h : e ∈ v) : (viewDrop v e.wire.id).length < v.length := by
  unfold viewDrop
  refine List.length_filter_lt_length_iff_exists.2 ⟨e, h, by simp⟩

theorem lastEvictable_mem {v : List Entry} {e : Entry} (h : lastEvictable v = some e) : e ∈ v ∧ e.held = false := by
  have := List.mem_of_getLast? h
  have h2 := List.mem_filter.1 this
  refine ⟨h2.1, ?_⟩
  have := h2.2
  simp at this
  exact this.1

/-- R142: where there is room, a view that can take one more entry. -/
theorem makeRoom_some {c : WireEntry} {v w : List Entry} (h : makeRoom c v = some w) :
    (∀ x ∈ w, x ∈ v) ∧ (v.length ≤ Config.viewEntries → w.length < Config.viewEntries) ∧
      (CalendarSound v → CalendarSound w) := by
  unfold makeRoom at h
  split at h
  · cases h; exact ⟨fun _ hx => hx, fun _ => by assumption, id⟩
  · split at h
    · rename_i e he
      split at h
      · cases h
        refine ⟨fun x hx => (List.mem_filter.1 hx).1, fun hl => ?_, fun hv => hv.filter _⟩
        exact lt_of_lt_of_le (viewDrop_lt (lastEvictable_mem he).1) hl
      · cases h
    · cases h

/-- An entry that overlaps none and bears a new id joins a sound view that has room for it. -/
theorem CalendarSound.insert {v : List Entry} {e : Entry} (h : CalendarSound v)
    (ho : ∀ x ∈ v, e.wire.overlaps x.wire = false) (hi : ∀ x ∈ v, x.wire.id ≠ e.wire.id)
    (hl : v.length < Config.viewEntries) (hh : e.held = true → heldCount v < Config.heldEntries) :
    CalendarSound (insertEntry e v) := by
  refine ⟨insertEntry_apart h.apart ho hi, insertEntry_ids h.ids hi, by rw [insertEntry_length]; omega, ?_⟩
  rw [insertEntry_held]
  have := h.held
  split
  · have := hh ‹_›; omega
  · omega

/-- At most one entry is active. -/
theorem active_count {v : List Entry} {m : Meeting} (h : CalendarSound v) (ha : activeSound v m) :
    (v.filter (fun e => e.active)).length ≤ 1 := by
  by_contra hc
  have h2 : 2 ≤ (v.filter (fun e => e.active)).length := by omega
  obtain ⟨a, b, l, hl⟩ : ∃ a b l, v.filter (fun e => e.active) = a :: b :: l := by
    rcases hv : v.filter (fun e => e.active) with _ | ⟨a, _ | ⟨b, l⟩⟩
    · rw [hv] at h2; simp at h2
    · rw [hv] at h2; simp at h2
    · exact ⟨a, b, l, hv⟩
  have hn := h.ids.sublist ((List.filter_sublist (p := fun e : Entry => e.active) (l := v)).map (fun e => e.wire.id))
  rw [hl] at hn
  have ma : a ∈ v.filter (fun e => e.active) := by rw [hl]; simp
  have mb : b ∈ v.filter (fun e => e.active) := by rw [hl]; simp
  have ea := (ha a (List.mem_filter.1 ma).1 (by simpa using (List.mem_filter.1 ma).2)).2
  have eb := (ha b (List.mem_filter.1 mb).1 (by simpa using (List.mem_filter.1 mb).2)).2
  have : a.wire.id = b.wire.id := by rw [ea] at eb; exact (Option.some.inj eb)
  simp [this] at hn

/-- R136: room for an own booking: with fewer than 8 HELD entries and at most one active, a full view has a HEARD entry
that is not active. -/
theorem evictForOwn_room {v : List Entry} {m : Meeting} (h : CalendarSound v) (ha : activeSound v m)
    (hh : heldCount v < Config.heldEntries) : (evictForOwn v).length < Config.viewEntries := by
  unfold evictForOwn
  split
  · assumption
  · rename_i hl
    split
    · rename_i e he
      exact lt_of_lt_of_le (viewDrop_lt (lastEvictable_mem he).1) h.entries
    · rename_i he
      exfalso
      have h0 : v.filter (fun e => !e.held && !e.active) = [] := by
        simpa [lastEvictable] using he
      have hac := active_count h ha
      have hsum : v.length ≤ heldCount v + (v.filter (fun e => e.active)).length := by
        have hall : ∀ e ∈ v, (e.held || e.active) = true := by
          intro e hev
          by_contra hne
          have : e ∈ v.filter (fun e => !e.held && !e.active) := by
            rw [List.mem_filter]; refine ⟨hev, ?_⟩; simpa using hne
          rw [h0] at this; cases this
        unfold heldCount
        clear h0 hac he hl ha h hh
        induction v with
        | nil => simp
        | cons x xs ih =>
          have hx := hall x List.mem_cons_self
          have := ih (fun e he => hall e (List.mem_cons_of_mem _ he))
          cases h1 : x.held <;> cases h2 : x.active <;> simp_all <;> omega
      simp only [Config.viewEntries, Config.heldEntries] at *
      omega

theorem evictForOwn_mem {v : List Entry} : ∀ x ∈ evictForOwn v, x ∈ v := by
  intro x hx
  unfold evictForOwn at hx
  split at hx
  · exact hx
  · split at hx
    · exact (List.mem_filter.1 hx).1
    · exact hx

theorem evictForOwn_sound {v : List Entry} (h : CalendarSound v) : CalendarSound (evictForOwn v) := by
  unfold evictForOwn
  split
  · exact h
  · split
    · exact h.filter _
    · exact h

theorem evictForOwn_held {v : List Entry} : heldCount (evictForOwn v) ≤ heldCount v := by
  unfold evictForOwn
  split
  · exact le_refl _
  · split
    · exact (List.Sublist.filter _ List.filter_sublist).length_le
    · exact le_refl _

/-! ## Serials (R137) -/

theorem freeSerial_free {v : List Entry} {seat : Nat} (n k : Nat)
    (h : ∃ j, j < n ∧ viewFind v { holder := seat, serial := (k + j) % 256 } = none) :
    viewFind v { holder := seat, serial := freeSerial v seat n k } = none := by
  induction n generalizing k with
  | zero => obtain ⟨j, hj, _⟩ := h; omega
  | succ n ih =>
    unfold freeSerial
    split
    · rename_i hk; simpa using hk
    · rename_i hk
      refine ih (k + 1) ?_
      obtain ⟨j, hj, hv⟩ := h
      rcases j with _ | j
      · rw [Nat.add_zero] at hv; rw [hv] at hk; exact absurd rfl hk
      · exact ⟨j, by omega, by rw [show k + 1 + j = k + (j + 1) by omega]; exact hv⟩

/-- R137: a free serial is found in a view of at most 32 entries. -/
theorem exists_freeSerial {v : List Entry} (h : v.length ≤ Config.viewEntries) (seat k : Nat) :
    ∃ j, j < 256 ∧ viewFind v { holder := seat, serial := (k + j) % 256 } = none := by
  by_contra hc
  have hall : ∀ j, j < 256 → ∃ e ∈ v, e.wire.id = { holder := seat, serial := (k + j) % 256 } := by
    intro j hj
    by_contra hne
    refine hc ⟨j, hj, List.find?_eq_none.2 ?_⟩
    intro x hx
    have := fun e => hne ⟨x, hx, e⟩
    simpa using this
  have hsub : (List.range 256).map (fun s => ({ holder := seat, serial := s } : Bid)) ⊆ v.map (fun e => e.wire.id) := by
    intro b hb
    obtain ⟨s, hs, rfl⟩ := List.mem_map.1 hb
    have hs' : s < 256 := List.mem_range.1 hs
    obtain ⟨e, he, hid⟩ := hall ((s + (256 - k % 256)) % 256) (Nat.mod_lt _ (by omega))
    refine List.mem_map.2 ⟨e, he, hid.trans ?_⟩
    have : (k + (s + (256 - k % 256)) % 256) % 256 = s := by omega
    rw [this]
  have hnd : ((List.range 256).map (fun s => ({ holder := seat, serial := s } : Bid))).Nodup :=
    List.Nodup.map (fun a b hab => by simpa using hab) List.nodup_range
  have := (hnd.subperm hsub).length_le
  simp only [List.length_map, List.length_range, Config.viewEntries] at *
  omega

/-- R137: the next serial names no entry of a sound view. -/
theorem nextSerial_free {s : State} (h : CalendarSound s.calendar.view) :
    ∀ x ∈ s.calendar.view, x.wire.id ≠ { holder := s.ownSeat, serial := s.nextSerial } :=
  viewFind_none (freeSerial_free 256 s.calendar.serial (exists_freeSerial h.entries s.ownSeat s.calendar.serial))

/-! ## Extension (R145) -/

/-- R145: the grant does not reach the first entry that starts at or after the end. -/
theorem grantFor_le {v : List Entry} {w : WireEntry} {asked f : Nat} (h : freeAfter v w.finish = some f) :
    grantFor v w asked ≤ f := by
  unfold grantFor
  rw [h]
  dsimp only
  exact Nat.le_trans (Nat.div_mul_le_self _ _) (Nat.min_le_right _ _)

/-- R145: in a view in order, no entry starts between the end and the end as the grant moves it. -/
theorem grant_clear {v : List Entry} {w : WireEntry} {asked : Nat} (h : v.Pairwise entryApart) {x : Entry} (hx : x ∈ v)
    (hf : w.finish ≤ x.wire.start) : (w.extended (grantFor v w asked)).finish ≤ x.wire.start := by
  have hfin : (w.extended (grantFor v w asked)).finish = w.finish + grantFor v w asked := by
    simp [WireEntry.extended, WireEntry.finish, WireEntry.start, Nat.add_assoc]
  rw [hfin]
  cases hfa : v.find? (fun e => decide (w.finish ≤ e.wire.start)) with
  | none =>
    have := List.find?_eq_none.1 hfa x hx
    simp at this; omega
  | some y =>
    have hy : w.finish ≤ y.wire.start := by simpa using List.find?_some hfa
    have hg : grantFor v w asked ≤ y.wire.start - w.finish := grantFor_le (by simp [freeAfter, hfa])
    have hyx : y.wire.start ≤ x.wire.start := by
      obtain ⟨l, r, hl, hn⟩ := (List.find?_eq_some_iff_append.1 hfa).2
      rw [hl] at hx h
      rcases List.mem_append.1 hx with hx | hx
      · have := hn x hx; simp at this; omega
      · rcases List.mem_cons.1 hx with rfl | hx
        · exact Nat.le_refl _
        · exact viewKeyLt_start ((List.pairwise_cons.1 (List.pairwise_append.1 h).2.1).1 x hx).1
    omega

theorem extended_apart {v : List Entry} {e x : Entry} {asked : Nat} (h : v.Pairwise entryApart) (hx : x ∈ v)
    (ho : e.wire.overlaps x.wire = false) : (e.wire.extended (grantFor v e.wire asked)).overlaps x.wire = false := by
  by_cases hf : e.wire.finish ≤ x.wire.start
  · have := grant_clear (asked := asked) h hx hf
    simp only [WireEntry.overlaps, Bool.and_eq_false_iff, decide_eq_false_iff_not]
    right; omega
  · simp only [WireEntry.overlaps, Bool.and_eq_false_iff, decide_eq_false_iff_not] at *
    left
    rcases ho with ho | ho
    · simpa [WireEntry.extended, WireEntry.start] using ho
    · exact absurd (Nat.le_of_not_lt ho) hf

/-- R145: an extension bounded by the next start keeps a sound view. -/
theorem extend_sound {v : List Entry} {e : Entry} {asked : Nat} (h : CalendarSound v) (he : e ∈ v) :
    CalendarSound (v.map (fun x => if x.wire.id = e.wire.id then { e with wire := e.wire.extended (grantFor v e.wire asked) }
      else x)) := by
  have huniq : ∀ x ∈ v, x.wire.id = e.wire.id → x = e := fun x hx hi => List.inj_on_of_nodup_map h.ids hx he hi
  refine ⟨?_, ?_, by simpa using h.entries, ?_⟩
  · rw [List.pairwise_map]
    refine h.apart.imp_of_mem ?_
    intro a b ha hb hab
    have hne : a ≠ b := by
      rintro rfl
      have := hab.1
      simp [viewKeyLt] at this
    by_cases h1 : a.wire.id = e.wire.id
    · have := huniq a ha h1; subst this
      have h2 : b.wire.id ≠ a.wire.id := fun hh => hne (huniq b hb hh).symm
      rw [if_pos rfl, if_neg h2]
      exact ⟨hab.1, extended_apart h.apart hb hab.2⟩
    · rw [if_neg h1]
      by_cases h2 : b.wire.id = e.wire.id
      · have := huniq b hb h2; subst this
        rw [if_pos rfl]
        refine ⟨hab.1, ?_⟩
        rw [overlaps_comm]
        exact extended_apart h.apart ha ((overlaps_comm _ _).trans hab.2)
      · rw [if_neg h2]; exact hab
  · rw [List.map_map]
    have : ∀ x ∈ v, ((fun e : Entry => e.wire.id) ∘ fun x => if x.wire.id = e.wire.id then
        { e with wire := e.wire.extended (grantFor v e.wire asked) } else x) x = x.wire.id := by
      intro x _
      simp only [Function.comp]
      split
      · rename_i hh; rw [hh]; rfl
      · rfl
    rw [List.map_congr_left this]; exact h.ids
  · unfold heldCount
    rw [List.filter_map, List.length_map]
    have : ∀ x ∈ v, ((fun e : Entry => e.held) ∘ fun x => if x.wire.id = e.wire.id then
        { e with wire := e.wire.extended (grantFor v e.wire asked) } else x) x = x.held := by
      intro x hx
      simp only [Function.comp]
      split
      · rename_i hh; rw [huniq x hx hh]
      · rfl
    rw [List.filter_congr this]
    exact h.held

end Sys2Proof.Machine
end

