-- ==== Sys2Proof/Laws/Meetings.lean ====
section
/-! SUPPORT. What the operations of the meeting record and of the calendar view can do: one lemma for each, of one form,
`Evolves`. -/

namespace Sys2Proof.Machine

/-- What an operation of a running station leaves: the setup as it was, a sound station sound, and a station in CLASH
silent. -/
structure Evolves (s t : State) : Prop where
  same : SameSetup s t
  sound : s.Sound → t.Sound
  clash : ClashSilent s → ClashSilent t

theorem Evolves.refl (s : State) : Evolves s s := ⟨⟨rfl, rfl, rfl, rfl, rfl, rfl, rfl⟩, id, id⟩

theorem SameSetup.trans {s t u : State} (h : SameSetup s t) (k : SameSetup t u) : SameSetup s u :=
  ⟨k.1.trans h.1, k.2.trans h.2, k.3.trans h.3, k.4.trans h.4, k.5.trans h.5, k.6.trans h.6, k.7.trans h.7⟩

theorem Evolves.trans {s t u : State} (h : Evolves s t) (k : Evolves t u) : Evolves s u :=
  ⟨h.same.trans k.same, k.sound ∘ h.sound, k.clash ∘ h.clash⟩

theorem Evolves.ite {s t u : State} {p : Prop} [Decidable p] (h : p → Evolves s t) (k : ¬ p → Evolves s u) :
    Evolves s (if p then t else u) := by
  split
  · exact h ‹_›
  · exact k ‹_›

theorem tableOnly.same {s t : State} (h : tableOnly s t) : SameSetup s t :=
  ⟨h.pending, h.station, h.config, h.profiles, h.blockNumber, h.volume, h.threshold⟩

/-- What a sound view and its stamps and classes are together. -/
theorem State.Sound.core {s : State} (h : s.Sound) : FloorCore s.floor s.meeting.chair :=
  ⟨h.views, h.stamps, h.classes.chairs⟩

theorem TableStep.evolves {s t : State} (h : TableStep s t) : Evolves s t := by
  refine ⟨h.frame.same, fun k => ?_, h.clash⟩
  have c := h.floor.core k.core
  refine ⟨h.queue k.queue, c.views, c.stamps, h.stamps k.shareStamps, ⟨?_, ?_⟩, ?_, ?_, h.share k.share, h.mix k.mix,
    ⟨?_, ?_, ?_, ?_⟩, h.notices k.port.notices, ?_⟩
  · rw [h.frame.meeting]; exact h.floor.delegates k.classes.delegates
  · rw [h.frame.meeting]; exact c.chairs
  · rw [h.frame.view]; exact k.calendar
  · rw [h.frame.view, h.frame.meeting]; exact k.active
  · rw [h.frame.presence]; exact k.tables.peers
  · rw [h.frame.profiles]; exact k.tables.profiles
  · rw [h.frame.profiles]; exact k.tables.limits
  · rw [h.frame.meeting]; exact k.tables.limit
  · rw [h.frame.threshold]; exact k.port.threshold

/-- A change and what follows it. -/
theorem Evolves.settled {s t : State} (h : Evolves s t) : Evolves s (settle t) := h.trans (settle_table t).evolves

theorem foldl_evolves {α : Type} {g : State → α → State} (hg : ∀ s a, Evolves s (g s a)) (l : List α) (s : State) :
    Evolves s (l.foldl g s) := by
  induction l generalizing s with
  | nil => exact .refl s
  | cons a rest ih => exact (hg s a).trans (ih _)

/-! ## Changes of one part -/

/-- The calendar, with a sound view whose active entries the record names. -/
theorem Evolves.calendar {s : State} {c : Calendar} (h : CalendarSound s.calendar.view → CalendarSound c.view)
    (k : activeSound s.calendar.view s.meeting → activeSound c.view s.meeting) : Evolves s { s with calendar := c } :=
  ⟨⟨rfl, rfl, rfl, rfl, rfl, rfl, rfl⟩,
    fun x => { x with calendar := h x.calendar, active := k x.active },
    ClashSilent.of_link rfl rfl⟩

/-- A view of which entries were removed. -/
theorem Evolves.viewFilter (s : State) (p : Entry → Bool) : Evolves s (setView (s.calendar.view.filter p) s) :=
  .calendar (fun h => h.filter p) (fun h e he => h e (List.mem_of_mem_filter he))

/-- The meeting record, where profile, chair, state and id stay. -/
theorem Evolves.meeting {s : State} {m : Meeting} (hp : m.profile = s.meeting.profile) (hc : m.chair = s.meeting.chair)
    (hs : m.state = s.meeting.state ∨ (s.meeting.state ≠ .idle ∧ m.state ≠ .idle)) (hi : m.id = s.meeting.id) :
    Evolves s { s with meeting := m } := by
  refine ⟨⟨rfl, rfl, rfl, rfl, rfl, rfl, rfl⟩, fun x => ?_, ClashSilent.of_link rfl rfl⟩
  refine { x with classes := ⟨?_, ?_⟩, active := fun e he ha => ?_, tables := ⟨x.tables.peers, x.tables.profiles, x.tables.limits, ?_⟩ }
  · show _ ≤ m.profile.limit
    rw [hp]; exact x.classes.delegates
  · intro r hr hk
    show _ = m.chair
    rw [hc]; exact x.classes.chairs r hr hk
  · have a := x.active e he ha
    refine ⟨?_, hi.trans a.2⟩
    rcases hs with hs | hs
    · show m.state ≠ _
      rw [hs]; exact a.1
    · exact hs.2
  · show 1 ≤ m.profile.limit ∧ _
    rw [hp]; exact x.tables.limit

/-- Display, presence, capture and controls bear on no invariant but the number of peer entries. -/
theorem Evolves.rest (s : State) (p : Presence) (c : Controls) (k : Capture) (d : Screen)
    (h : p.peers.length = s.presence.peers.length) :
    Evolves s { s with presence := p, controls := c, capture := k, screen := d } :=
  ⟨⟨rfl, rfl, rfl, rfl, rfl, rfl, rfl⟩,
    fun x => { x with tables := ⟨h.trans x.tables.peers, x.tables.profiles, x.tables.limits, x.tables.limit⟩ },
    ClashSilent.of_link rfl rfl⟩

/-! ## The warning -/

theorem meetingWarningTest_evolves (s : State) : Evolves s (meetingWarningTest s) := by
  unfold meetingWarningTest
  dsimp only
  split
  · split
    · exact .refl s
    · rename_i e
      refine .ite (fun _ => ?_) (fun _ => .refl s)
      have a : Evolves s { s with meeting := { s.meeting with state := .ending } } :=
        .meeting rfl rfl (.inr ⟨by rw [e]; nofun, nofun⟩) rfl
      split
      · exact a.trans (notify_table _ _).evolves
      · exact a
    · rename_i e
      exact .ite (fun _ => .refl s) (fun _ => .meeting rfl rfl (.inr ⟨by rw [e]; nofun, nofun⟩) rfl)
  · exact .refl s

theorem meetingWarningTest_state (s : State) : (meetingWarningTest s).meeting.id = s.meeting.id ∧
    ((meetingWarningTest s).meeting.state = .idle ↔ s.meeting.state = .idle) := by
  unfold meetingWarningTest
  dsimp only
  split
  · split
    · exact ⟨rfl, Iff.rfl⟩
    · rename_i e
      split
      · split <;> simp [e]
      · exact ⟨rfl, Iff.rfl⟩
    · rename_i e
      split
      · exact ⟨rfl, Iff.rfl⟩
      · simp [e]
  · exact ⟨rfl, Iff.rfl⟩

/-! ## Starting and ending -/

theorem profileAt_limit {s : State} (h : TablesSound s.presence.peers s.profiles s.meeting) (k : Nat) : 1 ≤ (s.profileAt k).limit ∧ (s.profileAt k).limit ≤ 6 := by
  unfold State.profileAt
  rw [List.getD_eq_getElem?_getD]
  cases e : s.profiles[k]? with
  | none => exact ⟨by decide, by decide⟩
  | some p => exact h.limits p (List.mem_of_getElem? e)

theorem FloorCore.cleared (c : Nat) : FloorCore .cleared c :=
  ⟨⟨.nil, .nil, .nil, .nil, nofun⟩, ⟨nofun, nofun⟩, nofun⟩

/-- R154: a start from IDLE, up to the record, the cleared table and the limiter at rest. -/
theorem startRecord_evolves {e : Entry} {s : State} (hi : s.meeting.state = .idle) :
    Evolves s (screenAtStart (mixAtStart (clearView (recordStart e s)))) := by
  refine ⟨⟨rfl, rfl, rfl, rfl, rfl, rfl, rfl⟩, fun x => ?_, ClashSilent.of_link rfl rfl⟩
  have m := MixSound.slots' x.mix (l := bindNet s.ownSeat (s.floor.openSet.map (fun r => r.seat)) [] s.mix.slots)
    bindNet_bound
  refine ⟨x.queue, (FloorCore.cleared 0).views, (FloorCore.cleared 0).stamps, ⟨nofun, nofun⟩,
    ⟨Nat.zero_le _, (FloorCore.cleared _).chairs⟩, ?_, ?_, nofun,
    ⟨m.slots, m.fifos, Nat.zero_le _, m.volume⟩,
    ⟨x.tables.peers, x.tables.profiles, x.tables.limits, profileAt_limit x.tables _⟩, x.port⟩
  · exact x.calendar.map (fun y => by split <;> rfl) (fun y => by split <;> rfl)
  · intro y hy ha
    refine ⟨nofun, ?_⟩
    obtain ⟨z, hz, rfl⟩ := List.mem_map.1 hy
    by_cases q : z.wire.id = e.wire.id
    · rw [if_pos q] at ha ⊢
      exact congrArg some q.symm
    · rw [if_neg q] at ha
      exact absurd hi (x.active z hz ha).1

theorem startMeetingFor_evolves {e : Entry} {s : State} (hi : s.meeting.state = .idle) :
    Evolves s (startMeetingFor e s) := by
  unfold startMeetingFor
  exact ((startRecord_evolves hi).trans (((settle_table _).trans (replay_table _ _)).trans (notify_table _ _)).evolves).trans
    ((meetingWarningTest_evolves _).trans (evalMic_table _).evolves)

theorem startDue_evolves (s : State) : Evolves s (startDue s) := by
  unfold startDue
  split
  · rename_i h
    split
    · exact startMeetingFor_evolves h.2
    · exact .refl s
  · exact .refl s

/-- R160: an end of the meeting that the record names. -/
theorem closeMeeting_evolves {id : Bid} {why : EndReason} {s : State} (h : s.meeting.id = some id) :
    Evolves s (closeMeeting id why s) := by
  have a := ((settle_table s).trans (micMeetingEnd_table _)).settled
  have h' : (settle (micMeetingEnd (settle s))).meeting.id = some id := by rw [a.frame.meeting]; exact h
  refine a.evolves.trans ?_
  revert h'
  unfold closeMeeting
  generalize settle (micMeetingEnd (settle s)) = t
  intro h'
  refine Evolves.trans ?_ (notify_table _ _).evolves
  have b : ∀ (c : Controls) (h : Share) (d : Screen), h.screen1 = none → h.screen2 = none → Evolves t { t with
      meeting := { t.meeting with state := .idle, id := none, chair := 0, endAsked := false },
      floor := .cleared,
      mix := { t.mix with slots := bindNet t.ownSeat (t.floor.openSet.map (fun r => r.seat)) [] t.mix.slots },
      mic := .reset, capture := { t.capture with placing := false },
      controls := c, share := h, screen := d,
      calendar := { t.calendar with view := viewDrop t.calendar.view id, ask := none } } := by
    intro c h d h1 h2
    refine ⟨⟨rfl, rfl, rfl, rfl, rfl, rfl, rfl⟩, fun x => ?_, ClashSilent.of_link rfl rfl⟩
    have m := MixSound.slots' x.mix (l := bindNet t.ownSeat (t.floor.openSet.map (fun r => r.seat)) [] t.mix.slots)
      bindNet_bound
    refine ⟨x.queue, (FloorCore.cleared 0).views, (FloorCore.cleared 0).stamps,
      ⟨by rw [h1]; nofun, by rw [h2]; nofun⟩,
      ⟨Nat.zero_le _, (FloorCore.cleared _).chairs⟩, x.calendar.filter _, ?_, (fun p q e => by rw [h1] at e; cases e), m,
      ⟨x.tables.peers, x.tables.profiles, x.tables.limits, x.tables.limit⟩, x.port⟩
    intro y hy ha
    have z := mem_viewDrop.1 hy
    have k := (x.active y z.1 ha).2
    rw [h'] at k
    injection k with k
    exact absurd k.symm z.2
  dsimp only
  have k : ∀ u : State, { settle u with
      calendar := { (settle u).calendar with view := viewDrop (settle u).calendar.view id, ask := none } } =
      { u with controls := (settle u).controls, share := (settle u).share, screen := (settle u).screen,
               calendar := { u.calendar with view := viewDrop u.calendar.view id, ask := none } } := by
    intro u
    have h := settle_eq u
    revert h
    generalize settle u = v
    intro h
    rw [h]
  rw [k]
  have h1 := fun u : State => settle_share_screen1 (clearShare u)
  have h2 := fun u : State => settle_share_screen2 (clearShare u)
  have c := fun (w : State) h h' => (b w.controls w.share w.screen h h').settled
  refine .ite (fun _ => ?_) (fun _ => ?_)
  · exact c (settle _) ((h1 _).trans rfl) ((h2 _).trans rfl)
  · exact Evolves.trans (c (settle _) ((h1 _).trans rfl) ((h2 _).trans rfl)) (.meeting rfl rfl (.inl rfl) rfl)

theorem endMeetingFor_evolves (why : EndReason) (s : State) : Evolves s (endMeetingFor why s) := by
  unfold endMeetingFor
  split
  · rename_i id e
    have : s.meeting.id = some id := by
      unfold State.meetingId at e
      split at e
      · exact e
      · exact absurd e (by simp)
    exact (closeMeeting_evolves this).trans (startDue_evolves _)
  · exact .refl s

theorem runRecord_evolves (s : State) : Evolves s (runRecord s) := by
  unfold runRecord
  refine .ite (fun _ => .refl s) (fun _ => .ite (fun _ => startDue_evolves s) (fun _ => ?_))
  exact (meetingWarningTest_evolves s).trans (.ite (fun _ => endMeetingFor_evolves _ _) (fun _ => .refl _))

theorem evaluate_evolves (s : State) : Evolves s (evaluate s) :=
  ((settle_table s).evolves.trans (runRecord_evolves _)).settled

/-! ## The clock and the view -/

theorem timeTest_evolves (s : State) : Evolves s (timeTest s) :=
  .ite (fun _ => .viewFilter s _) (fun _ => .refl s)

theorem clockChanged_evolves (s : State) : Evolves s (clockChanged s) :=
  ((settle_table s).evolves.trans (timeTest_evolves _)).trans (evaluate_evolves _)

theorem setClock_evolves (day second : Nat) (s : State) : Evolves s (setClock day second s) :=
  Evolves.trans (t := { s with calendar := { s.calendar with clock := { day := day, second := second, count := 0, set := true } } })
    (.calendar id id) (clockChanged_evolves _)

theorem clockSecondPasses_evolves (s : State) : Evolves s (clockSecondPasses s) :=
  .ite (fun _ => .calendar id id) (fun _ => by
    refine Evolves.trans ?_ (clockChanged_evolves _)
    exact .calendar id id)

theorem removeEntry_evolves (id : Bid) (s : State) : Evolves s (removeEntry id s) := .viewFilter s _

theorem endOrRemove_evolves (id : Bid) (why : EndReason) (s : State) : Evolves s (endOrRemove id why s) := by
  unfold endOrRemove
  split
  · exact .ite (fun _ => endMeetingFor_evolves _ _) (fun _ => removeEntry_evolves _ _)
  · exact .refl s

theorem clearAsk_evolves (s : State) : Evolves s (clearAsk s) := .calendar id id

theorem extendResult_evolves (id : Bid) (r : AskResult) (g : Nat) (s : State) : Evolves s (extendResult id r g s) :=
  ((notify_table _ _).trans (showTransient_table _ _)).evolves

theorem askUnanswered_evolves (s : State) : Evolves s (askUnanswered s) := by
  unfold askUnanswered
  split
  · exact (clearAsk_evolves s).trans (extendResult_evolves _ _ _ _)
  · exact .refl s

theorem refreshAge_evolves (id : Bid) (s : State) : Evolves s (refreshAge id s) := by
  refine .calendar (fun h => h.map (fun y => by split <;> rfl) (fun y => by split <;> rfl)) (fun h e he ha => ?_)
  obtain ⟨z, hz, rfl⟩ := List.mem_map.1 he
  by_cases q : z.wire.id = id
  · rw [if_pos q] at ha ⊢; exact h z hz ha
  · rw [if_neg q] at ha ⊢; exact h z hz ha

theorem handOnEntry_evolves (e : Entry) (s : State) : Evolves s (handOnEntry e s) := by
  have a := (settle_table s).evolves
  unfold handOnEntry
  dsimp only
  revert a
  generalize settle s = t
  intro a
  refine (a.trans ?_).trans (evaluate_evolves _)
  exact .ite (fun _ => .meeting rfl rfl (.inl rfl) rfl) (fun _ => .refl t)

theorem notifyLost_evolves (l : List Bid) (s : State) : Evolves s (notifyLost l s) := (notifyAll_table _ _).evolves

/-- A candidate whose id the view does not have. -/
theorem newEntry_evolves {w : WireEntry} {s : State} (h : viewFind s.calendar.view w.id = none) :
    Evolves s (newEntry w s) := by
  unfold newEntry
  dsimp only
  split
  · rename_i v lost e
    have hm := resolve_mem e
    have a : Evolves s (setView v (notifyLost lost s)) := by
      refine (notifyLost_evolves lost s).trans (.calendar (fun k => ?_) (fun k x hx => k x ?_))
      · exact resolve_sound e (by simpa [notifyLost] using k)
      · simpa [notifyLost] using hm x hx
    split
    · rename_i v' e'
      have r := makeRoom_some e'
      refine (a.trans (.calendar (fun k => ?_) (fun k => ?_))).trans (handOnEntry_evolves _ _)
      · have k' : CalendarSound v := k
        exact (r.2.2 k').insert (fun x hx => resolve_apart e x (r.1 x hx))
          (fun x hx => viewFind_none h x (hm x (r.1 x hx))) (r.2.1 k'.entries) nofun
      · intro x hx ha
        rcases mem_insertEntry.1 hx with rfl | hx
        · exact absurd ha (by simp)
        · exact k x (r.1 x hx) ha
    · exact a
  · exact .refl s

theorem viewDrop_sound {v : List Entry} {id : Bid} (h : CalendarSound v) : CalendarSound (viewDrop v id) := h.filter _

theorem replaceEntry_evolves {old : Entry} {w : WireEntry} {s : State} (h : viewFind s.calendar.view w.id = some old) :
    Evolves s (replaceEntry old w s) := by
  have ho := viewFind_some h
  unfold replaceEntry
  dsimp only
  split
  · rename_i v lost e
    have hm := resolve_mem e
    refine ((notifyLost_evolves lost s).trans (.calendar (fun k => ?_) (fun k => ?_))).trans (handOnEntry_evolves _ _)
    · have k' : CalendarSound s.calendar.view := by simpa [notifyLost] using k
      have hl : v.length < Config.viewEntries := by
        have a := viewDrop_lt ho.1
        rw [ho.2] at a
        have b : v.length ≤ (viewDrop s.calendar.view w.id).length := by
          rw [resolve_some e]; exact List.length_filter_le _ _
        exact Nat.lt_of_le_of_lt b (Nat.lt_of_lt_of_le a k'.entries)
      exact (resolve_sound e (viewDrop_sound k')).insert (resolve_apart e)
        (fun x hx => (mem_viewDrop.1 (hm x hx)).2) hl nofun
    · have k' : activeSound s.calendar.view s.meeting := by simpa [notifyLost] using k
      intro x hx ha
      show (notifyLost lost s).meeting.state ≠ _ ∧ (notifyLost lost s).meeting.id = _
      simp only [notifyLost, notifyAll_meeting]
      rcases mem_insertEntry.1 hx with rfl | hx
      · have := k' old ho.1 ha
        rw [ho.2] at this
        exact this
      · exact k' x (mem_viewDrop.1 (hm x hx)).1 ha
  · exact .viewFilter s _

theorem arriveEntry_evolves (source : Nat) (w : WireEntry) (s : State) : Evolves s (arriveEntry source w s) := by
  unfold arriveEntry
  refine .ite (fun _ => ?_) (fun _ => .refl s)
  split
  · exact .ite (fun _ => replaceEntry_evolves ‹_›) (fun _ => refreshAge_evolves _ s)
  · exact newEntry_evolves ‹_›

/-! ## Own bookings and extension -/

/-- R136 and R162: a booking where fewer than 8 are HELD and its minutes are free. -/
theorem createBooking_evolves {day minute n profile chair : Nat} {title : List Byte} {s : State}
    (hh : heldCount s.calendar.view < Config.heldEntries)
    (hf : ∀ e ∈ s.calendar.view, e.wire.finish ≤ day * Config.dayMinutes + minute ∨
      day * Config.dayMinutes + minute + n ≤ e.wire.start) :
    Evolves s (createBooking day minute n profile chair title s) := by
  unfold createBooking
  dsimp only
  refine Evolves.trans ?_ (handOnEntry_evolves _ _)
  refine ⟨⟨rfl, rfl, rfl, rfl, rfl, rfl, rfl⟩, fun x => ?_, ClashSilent.of_link rfl rfl⟩
  refine { x with calendar := ?_, active := fun y hy ha => ?_ }
  · refine (evictForOwn_sound x.calendar).insert (fun y hy => ?_) (fun y hy => ?_) (evictForOwn_room x.calendar x.active hh)
      (fun _ => Nat.lt_of_le_of_lt evictForOwn_held hh)
    · have k := hf y (evictForOwn_mem y hy)
      unfold WireEntry.overlaps
      rw [Bool.and_eq_false_iff, decide_eq_false_iff_not, decide_eq_false_iff_not]
      rcases k with k | k
      · exact .inl (Nat.not_lt.2 k)
      · exact .inr (Nat.not_lt.2 k)
    · exact nextSerial_free x.calendar y (evictForOwn_mem y hy)
  · rcases mem_insertEntry.1 hy with rfl | hy
    · exact absurd ha (by simp)
    · exact x.active y (evictForOwn_mem y hy) ha

theorem holderDecision_evolves {e : Entry} {asker asked : Nat} {s : State} (h : e ∈ s.calendar.view) :
    Evolves s (holderDecision e asker asked s) := by
  unfold holderDecision
  dsimp only
  refine .ite (fun _ => ?_) (fun _ => (offerFrame_table (by simp [State.own, Frame.internalKind])).evolves)
  refine Evolves.trans ?_ ((offerFrame_table (by simp [State.own, Frame.internalKind])).evolves.trans (handOnEntry_evolves _ _))
  refine .calendar (fun k => extend_sound k h) (fun k x hx ha => ?_)
  obtain ⟨z, hz, rfl⟩ := List.mem_map.1 hx
  by_cases q : z.wire.id = e.wire.id
  · rw [if_pos q] at ha ⊢
    exact k e h ha
  · rw [if_neg q] at ha ⊢
    exact k z hz ha

/-- R138: a restored entry of a new id where fewer than 8 are HELD, from its resolution on. -/
theorem restoreInsert_evolves {w : WireEntry} {s : State} {v v' : List Entry} {lost : List Bid} {c : Entry}
    (hc : c = { wire := w, held := true, active := false, age := 0 }) (e : resolve c s.calendar.view = some (v, lost))
    (e' : makeRoom w v = some v') (hi : viewFind s.calendar.view w.id = none)
    (hh : heldCount s.calendar.view < Config.heldEntries) (k : Nat) :
    Evolves s { s with calendar := { s.calendar with serial := k, view := insertEntry c v' } } := by
  have hm := resolve_mem e
  have r := makeRoom_some e'
  have hv : v'.Sublist s.calendar.view := by
    refine List.Sublist.trans (l₂ := v) ?_ (by rw [resolve_some e]; exact List.filter_sublist)
    unfold makeRoom at e'
    split at e'
    · injection e' with e'; rw [e']
    · split at e'
      · split at e'
        · injection e' with e'; rw [← e']; exact List.filter_sublist
        · exact absurd e' (by simp)
      · exact absurd e' (by simp)
  refine .calendar (fun q => ?_) (fun q x hx ha => ?_)
  · have q' : CalendarSound v := resolve_sound e q
    refine (r.2.2 q').insert (fun x hx => resolve_apart e x (r.1 x hx)) (fun x hx => ?_) (r.2.1 q'.entries) (fun _ => ?_)
    · rw [hc]; exact viewFind_none hi x (hm x (r.1 x hx))
    · refine Nat.lt_of_le_of_lt ?_ hh
      exact (hv.filter _).length_le
  · rcases mem_insertEntry.1 hx with rfl | hx
    · rw [hc] at ha; exact absurd ha (by simp)
    · exact q x (hm x (r.1 x hx)) ha

/-! ## Blocks and the end of a step -/

theorem mixReceive_evolves (seat : Nat) (h : HeldBlock) (s : State) : Evolves s (mixReceive seat h s) := by
  have upd : ∀ (y : Slot) (m : Mix), (y.fifo.length ≤ Config.fifoDepth) → m.reduction = s.mix.reduction →
      m.volume = s.mix.volume →
      m.slots = s.mix.slots.map (fun z => if z.state ≠ .free ∧ z.seat = seat then y else z) →
      Evolves s { s with mix := m } := by
    intro y m hy h1 h2 h3
    refine ⟨⟨rfl, rfl, rfl, rfl, rfl, h2, rfl⟩, fun x => { x with mix := ⟨?_, ?_, ?_, ?_⟩ }, ClashSilent.of_link rfl rfl⟩
    · show m.slots.length = _
      rw [h3, List.length_map]; exact x.mix.slots
    · show ∀ z ∈ m.slots, _
      rw [h3]
      intro z hz
      obtain ⟨q, hq, rfl⟩ := List.mem_map.1 hz
      by_cases c : q.state ≠ .free ∧ q.seat = seat
      · rw [if_pos c]; exact hy
      · rw [if_neg c]; exact x.mix.fifos q hq
    · show m.reduction ≤ _
      rw [h1]; exact x.mix.reduction
    · show m.volume ≤ _
      rw [h2]; exact x.mix.volume
  unfold mixReceive
  refine .ite (fun _ => ?_) (fun _ => .refl s)
  split
  · exact .refl s
  · rename_i x e
    dsimp only
    by_cases hx : x.fifo.length ≤ Config.fifoDepth
    · refine .ite (fun _ => ?_) (fun _ => upd { x with stale := 0 } _ hx rfl rfl rfl)
      have ht : (x.take h).fifo.length ≤ Config.fifoDepth := by
        unfold Slot.take
        split
        · simp only [List.length_append, List.length_cons, List.length_nil]; omega
        · exact hx
      refine .ite (fun _ => upd (x.take h) _ ht rfl rfl rfl) (fun _ => .ite (fun _ => upd (x.take h) _ ht rfl rfl rfl) (fun _ => ?_))
      exact (upd (x.take h) { s.mix with
        slots := s.mix.slots.map (fun z => if z.state ≠ .free ∧ z.seat = seat then x.take h else z), overflowMark := true }
        ht rfl rfl rfl).trans (notify_table _ _).evolves
    · have hm : x ∈ s.mix.slots := List.mem_of_find?_eq_some e
      have no : ¬ s.Sound := fun q => hx (q.mix.fifos x hm)
      have any : ∀ m : Mix, m.volume = s.mix.volume → Evolves s { s with mix := m } := fun m hv =>
        ⟨⟨rfl, rfl, rfl, rfl, rfl, hv, rfl⟩, fun q => absurd q no, ClashSilent.of_link rfl rfl⟩
      refine .ite (fun _ => .ite (fun _ => any _ rfl) (fun _ => .ite (fun _ => any _ rfl) (fun _ => ?_))) (fun _ => any _ rfl)
      exact (any { s.mix with
        slots := s.mix.slots.map (fun z => if z.state ≠ .free ∧ z.seat = seat then x.take h else z), overflowMark := true }
        rfl).trans (notify_table _ _).evolves

theorem heard_evolves (seat : Nat) (s : State) : Evolves s (heard seat s) := by
  have a : ∀ p : Peer, Evolves s { s with presence := s.presence.setPeer seat p } := fun p =>
    .rest s _ s.controls s.capture s.screen (by unfold Presence.setPeer; split <;> simp)
  unfold heard
  exact .ite (fun _ => (a _).trans (evalMic_table _).evolves) (fun _ => a _)

theorem peerAbsent_evolves (seat : Nat) (s : State) : Evolves s (peerAbsent seat s) := by
  have a : ∀ p : Peer, Evolves s { s with presence := s.presence.setPeer seat p } := fun p =>
    .rest s _ s.controls s.capture s.screen (by unfold Presence.setPeer; split <;> simp)
  unfold peerAbsent
  exact (a _).trans ((floorStep_table (Floor.departed_keeps _ _ _ _ _)).trans (shareReleased_table _ _)).evolves

theorem settle_evolves (s : State) : Evolves s (settle s) := (settle_table s).evolves

theorem reply_evolves (x : Status) (d : List Byte) (s : State) : Evolves s (reply x d s) :=
  ⟨⟨rfl, rfl, rfl, rfl, rfl, rfl, rfl⟩, fun q => { q with port := ⟨q.port.notices, q.port.threshold⟩ },
    ClashSilent.of_link rfl rfl⟩

theorem onBeacon_evolves (source : Nat) (b : BeaconBody) (s : State) : Evolves s (onBeacon source b s) := by
  unfold onBeacon
  dsimp only
  have a : ∀ p : Peer, Evolves s { s with presence := s.presence.setPeer source p } := fun p =>
    .rest s _ s.controls s.capture s.screen (by unfold Presence.setPeer; split <;> simp)
  have c : ∀ t : State, Evolves t (match b.endedEarly with
      | some id => settle (endOrRemove id .endedEarly t)
      | none => t) := by
    intro t; split
    · exact (endOrRemove_evolves _ _ _).settled
    · exact .refl t
  have d : ∀ t : State, Evolves t (match b.entry with
      | some w => settle (arriveEntry source w t)
      | none => t) := by
    intro t; split
    · exact (arriveEntry_evolves _ _ _).settled
    · exact .refl t
  refine Evolves.trans (Evolves.trans (Evolves.trans ?_ (c _)) (d _))
    ((reconcileBeacon_table _ _ _ _ _ _).trans (shareBeacon_table _ _ _ _)).evolves
  exact .ite (fun _ => (a _).trans (setClock_evolves _ _ _)) (fun _ => a _)

end Sys2Proof.Machine
end

