-- ==== Sys2Proof/Tests/Slice0.lean ====
section
/-! SUPPORT. Tests: values written out in the manual, frames spelled byte by byte from its tables, ill-formed commands
that each check of WellFormed.lean refuses, single steps of the manual's worked sequences, and a witness for every
statement that has hypotheses. -/

namespace Sys2Proof.Tests

open Sys2Proof Sys2Proof.Machine

-- One test after the other: tests that wait for the kernel side by side each hold a thread.
set_option Elab.async false

/-! ## Small stations -/

/-- The booking id of the manual's worked meetings. -/
def bid52 : Bid := { holder := 5, serial := 2 }

/-- Its entry: day 812, 10:00 to 11:00, chair seat 3. -/
def entry52 : WireEntry :=
  { id := bid52, version := 0, startDay := 812, startMinute := 600, duration := 60, profile := 0, chair := 3,
    createdDay := 812, createdSecond := 35000, title := [] }

/-- A station in RUN at day 812, 10:00:00, with nothing booked. -/
def idleAt (role : Role) (seat : Nat) : State :=
  { State.reset with
    station := .run, config := { StationConfig.powerOn with configured := true, role := role, seat := seat },
    calendar := { Calendar.powerOn with clock := { day := 812, second := 36000, count := 0, set := true } } }

/-- The profile of the worked meetings, L = 2. -/
def profile52 : Profile := { Profile.powerOn with limit := 2 }

/-- The meeting (5, 2) with its chair at seat 3. -/
def record52 : Meeting :=
  { Meeting.powerOn with
    state := .active, id := some bid52, profile := profile52, chair := 3, start := 1169880, finish := 1169940 }

/-- The calendar of a station in the meeting (5, 2). -/
def calendar52 (seat : Nat) : Calendar :=
  { Calendar.powerOn with
    clock := { day := 812, second := 36000, count := 0, set := true },
    view := [{ wire := entry52, held := decide (seat = 5), active := true, age := 0 }] }

/-- A SEAT station in the meeting (5, 2). -/
def meetingAt (seat : Nat) : State := { idleAt .seat seat with meeting := record52, calendar := calendar52 seat }

/-- One open record. -/
def openAt (seat o q : Nat) (cls : OpenClass) : OpenRecord :=
  { seat := seat, cls := cls, openStamp := o, requestStamp := q, since := 0 }

/-- One queue record. -/
def queuedAt (seat q : Nat) : QueueRecord := { seat := seat, requestStamp := q, granted := false }

/-- A station whose own microphone is OPEN as a delegate, with seat 5 of the view behind it. -/
def speakingAt (seat : Nat) : State :=
  { meetingAt seat with
    floor := { openSet := [openAt seat 40 31 .delegate], queue := [queuedAt 8 42], stamp := 44, priority := false },
    mic := { OwnMic.reset with state := .open, cls := some .delegate, requestStamp := 31, openStamp := 40,
                               remaining := some 31 },
    capture := { Capture.powerOn with placing := true } }

/-- A frame of the station's own in send, so that what is offered waits. -/
def sendingAt (seat : Nat) (b : Body) (attempt : Nat) (s : State) : State :=
  { s with link := { s.link with
      inSend := some { frame := { source := seat, body := b }, attempt := attempt, clash := false, voided := false } } }

/-- A WITHDRAW of the worked meeting. -/
def withdraw52 : Body := .withdraw (some bid52)

/-- What a command leaves, where it completes. -/
def after (c : Instr) (s : State) : Option State :=
  match exec c s with
  | .next t => some t
  | .fault _ => none
  | .refused _ => none

/-! ## Values that the manual writes out -/

/-- Section 7.4 and the worked case "halves and the limit of 62". -/
theorem test_scale_halves :
    scale 16384 29205 = 14603 ∧ scale (-16384) 29205 = -14602 ∧ scale (-3) 16423 = -2 ∧ scale (-32768) 32767 = -32767 ∧
    scale 20000 26 = 16 := by decide

/-- The worked case "two sources, then the own microphone opens". -/
theorem test_scale_two_sources :
    (coefficient 18, coefficient 6, coefficient 36, coefficient 24) = (4125, 16423, 519, 2068) ∧
    scale 20000 4125 = 2518 ∧ scale 15000 16423 = 7518 ∧ scale 20000 519 = 317 ∧ scale 15000 2068 = 947 := by decide

/-- Both ends of Table 7-1 and the index above the last one that is heard. -/
theorem test_gain_table : (coefficient 0, coefficient 62, coefficient 63, (coefficientsLow ++ coefficientsHigh).length)
    = (32767, 26, 0, 64) := by decide

/-- The worked case "clipping at a wall station" and Table 7-2. -/
theorem test_limiter_table :
    (clampSample 89997, clampSample (-89997)) = (32767, -32768) ∧ limiterStep 23 0 0 = (1, 0) ∧ limiterStep 17 1 0 = (2, 0) ∧
    limiterStep 5 2 0 = (2, 0) ∧ limiterStep 0 2 498 = (2, 499) ∧ limiterStep 0 2 499 = (1, 0) := by decide

/-- R136: 7 becomes 15, 43 becomes 45 and 900 becomes 720. -/
theorem test_booking_durations : (bookingDuration 7, bookingDuration 43, bookingDuration 900) = (15, 45, 720) := by decide

/-- 00_scope.md, Time: newer than across the wrap. -/
theorem test_newer_than :
    newerBlock 0 65535 = true ∧ newerBlock 65535 0 = false ∧ newerBlock 32768 0 = false ∧ newerVersion 0 255 = true ∧
    newerVersion 128 0 = false := by decide

/-- R106: an odd negative sample halves toward minus infinity. -/
theorem test_halved_rounds_down : halved [-3, 3, -32768] = [-2, 1, -16384] := by decide

/-- R166: names and durations as lines show them. -/
theorem test_display_texts :
    (idleAt .seat 9).seatText 7 = text "Seat 07" ∧ durationText 120 = text "02:00" ∧ clockText 915 = text "15:15" := by decide

/-! ## Frames spelled byte by byte -/

/-- R2: the check value that the manual gives for the nine characters 1 to 9, and a REQUEST of seat 9 in meeting (5, 2)
with stamp 58. -/
theorem test_crc_values :
    crc16 (text "123456789") = 0x29B1#16 ∧
    LinkFrame.decode [0x41#8, 0x09#8, 0x06#8, 0x05#8, 0x02#8, 0x00#8, 0x00#8, 0x00#8, 0x3A#8, 0xC4#8, 0x3F#8]
      = .receiveRequest 0x09#8 [0x05#8, 0x02#8, 0x00#8, 0x00#8, 0x00#8, 0x3A#8] := by decide +kernel

/-- R3: WITHDRAW of seat 30 in meeting (5, 2), and the same with its last byte altered. -/
theorem test_link_frame_altered :
    LinkFrame.decode [0x42#8, 0x1E#8, 0x02#8, 0x05#8, 0x02#8, 0x4C#8, 0xCD#8] = .receiveWithdraw 0x1E#8 [0x05#8, 0x02#8] ∧
    LinkFrame.decode [0x42#8, 0x1E#8, 0x02#8, 0x05#8, 0x02#8, 0x4C#8, 0xCC#8]
      = .frameCheckFailed [0x42#8, 0x1E#8, 0x02#8, 0x05#8, 0x02#8, 0x4C#8, 0xCC#8] := by decide +kernel

/-- Table 1-2: OPEN, CLOSE and SHARE bodies read field by field. -/
theorem test_parse_floor_bodies :
    parseFrame 0x43#8 26#8 [5#8, 2#8, 0#8, 0#8, 0#8, 45#8, 0#8, 0#8, 0#8, 44#8, 2#8]
      = some { source := 26, body := .opening (some bid52) 45 44 .delegate } ∧
    parseFrame 0x44#8 5#8 [5#8, 2#8, 5#8, 1#8] = some { source := 5, body := .close (some bid52) 5 .speaker } ∧
    parseFrame 0x4A#8 9#8 [5#8, 2#8, 1#8, 0#8, 0#8, 0#8, 61#8] = some { source := 9, body := .share (some bid52) 1 61 } := by
  decide

/-- R4: a source seat above 48, an OPEN class of no code, a body too long and a CLOSE reason of no code are malformed. -/
theorem test_parse_malformed :
    parseFrame 0x42#8 49#8 [5#8, 2#8] = none ∧ parseFrame 0x42#8 0#8 [5#8, 2#8] = none ∧
    parseFrame 0x43#8 26#8 [5#8, 2#8, 0#8, 0#8, 0#8, 45#8, 0#8, 0#8, 0#8, 44#8, 3#8] = none ∧
    parseFrame 0x42#8 9#8 [5#8, 2#8, 0#8] = none ∧ parseFrame 0x44#8 5#8 [5#8, 2#8, 5#8, 7#8] = none := by decide

/-- Tables 11-1, 11-2 and 11-4: SET_VOLUME 63, GRANT seat 9 IF_HEAD, SET_TIME day 812 second 36000, RESET SOFT, and a
frame one byte too short. -/
theorem test_host_frames :
    HostFrame.decode [0x21#8, 0x01#8, 0x3F#8] = .setVolume 0x3F#8 ∧
    HostFrame.decode [0x24#8, 0x02#8, 0x09#8, 0x02#8] = .grant 0x09#8 0x02#8 ∧
    HostFrame.decode [0x20#8, 0x06#8, 0x03#8, 0x2C#8, 0x00#8, 0x00#8, 0x8C#8, 0xA0#8] = .setTime 812#16 36000#32 ∧
    HostFrame.decode [0x10#8, 0x01#8, 0x02#8] = .resetSoft ∧
    HostFrame.decode [0x21#8, 0x01#8] = .cutShortCommandFrame [0x21#8, 0x01#8] := by decide

/-- R178: a BOOK whose title length byte is not what follows it, and a code of no command. -/
theorem test_host_frames_of_no_command :
    HostFrame.decode [0x34#8, 0x05#8, 0x00#8, 0x1E#8, 0x00#8, 0x02#8, 0x41#8]
      = .unknownCommandFrame 0x34#8 [0x00#8, 0x1E#8, 0x00#8, 0x02#8, 0x41#8] ∧
    HostFrame.decode [0x44#8, 0x00#8] = .unknownCommandFrame 0x44#8 [] := by decide

/-! ## Ill-formed commands -/

/-- Each check of `Instr.wellFormed` refuses one. -/
theorem test_ill_formed_host :
    Instr.wellFormed (.configure 1#8 1#8 (List.replicate 244 0x41#8) 0#8 0#16 0#8 0#8 0#8 0#8 1#8 1#8) = false ∧
    Instr.wellFormed (.book 0#16 0#16 0#16 0#8 0#8 (List.replicate 247 0x41#8)) = false ∧
    Instr.wellFormed (.restoreBooking 0#16 0#16 0#16 0#8 0#8 (List.replicate 239 0x41#8) 0#8 0#8 0#16 0#32) = false ∧
    Instr.wellFormed (.startMeeting 0#16 0#8 (List.replicate 252 0x41#8)) = false ∧
    Instr.wellFormed (.showMessage (List.replicate 253 0x41#8) 0#16) = false ∧
    Instr.wellFormed (.unknownCommandFrame 0x22#8 []) = false ∧
    Instr.wellFormed (.unknownCommandFrame 0x44#8 (List.replicate 256 0#8)) = false ∧
    Instr.wellFormed (.commandWhileServing 0x10#8 [1#8]) = false ∧
    Instr.wellFormed (.commandWhileServing 0x22#8 (List.replicate 256 0#8)) = false ∧
    Instr.wellFormed (.cutShortCommandFrame [0x22#8, 0#8]) = false := by decide +kernel

theorem test_ill_formed_link :
    Instr.wellFormed (.frameCheckFailed [0x42#8, 0x1E#8, 0x02#8, 0x05#8, 0x02#8, 0x4C#8, 0xCD#8]) = false ∧
    Instr.wellFormed (.receiveVoice 9#8 (List.replicate 256 0#8)) = false ∧
    Instr.wellFormed (.receiveEndNow 9#8 (List.replicate 256 0#8)) = false ∧
    Instr.wellFormed (.unknownKindCodeFrame 0x42#8 9#8 []) = false ∧
    Instr.wellFormed (.unknownKindCodeFrame 0x50#8 9#8 (List.replicate 256 0#8)) = false := by decide +kernel

theorem test_ill_formed_events :
    Instr.wellFormed (.blockCompletion [0#16] false false false) = false ∧ Instr.wellFormed (.staleSlot 0) = false ∧
    Instr.wellFormed (.staleSlot 8) = false ∧ Instr.wellFormed (.absenceEvent 0) = false ∧
    Instr.wellFormed (.absenceEvent 49) = false ∧ Instr.wellFormed (.entryAgedOut 0 1) = false ∧
    Instr.wellFormed (.entryAgedOut 1 256) = false := by decide

/-- The frame checks, field by field. -/
theorem test_ill_formed_frames :
    Frame.wellFormed { source := 0, body := withdraw52 } = false ∧ Frame.wellFormed { source := 49, body := withdraw52 } = false ∧
    Body.wellFormed (.withdraw (some { holder := 49, serial := 0 })) = false ∧
    Body.wellFormed (.withdraw (some { holder := 5, serial := 256 })) = false ∧
    Body.wellFormed (.request (some bid52) 4294967296) = false ∧
    Body.wellFormed (.voice (some bid52) 0 0 0 false [0]) = false ∧
    Body.wellFormed (.voice (some bid52) 0 0 0 false (List.replicate 64 32768)) = false ∧
    Body.wellFormed (.voice (some bid52) 0 0 65536 false (List.replicate 64 0)) = false ∧
    Body.wellFormed (.close (some bid52) 0 .speaker) = false ∧ Body.wellFormed (.close (some bid52) 9 .displaced) = false ∧
    Body.wellFormed (.grant (some bid52) 49) = false ∧ Body.wellFormed (.timeAdd (some bid52) 9 0) = false ∧
    Body.wellFormed (.timeAdd (some bid52) 9 601) = false ∧ Body.wellFormed (.share (some bid52) 3 0) = false ∧
    Body.wellFormed (.extendAsk bid52 7) = false ∧ Body.wellFormed (.extendAsk bid52 65) = false ∧
    Body.wellFormed (.extendAnswer bid52 9 true 61 entry52) = false ∧
    WireEntry.wellFormed { entry52 with duration := 10 } = false ∧ WireEntry.wellFormed { entry52 with duration := 62 } = false ∧
    WireEntry.wellFormed { entry52 with startMinute := 1440 } = false ∧
    WireEntry.wellFormed { entry52 with createdSecond := 86400 } = false ∧
    WireEntry.wellFormed { entry52 with title := List.replicate 25 0x41#8 } = false := by decide

/-! ## Single steps of the worked sequences -/

/-- "Three openings for two places", the OPEN from seat 8: seat 26 is displaced and the notices follow in order. -/
theorem test_open_displaces :
    (after (.receiveOpen 8#8 [5#8, 2#8, 0#8, 0#8, 0#8, 45#8, 0#8, 0#8, 0#8, 42#8, 2#8]) { meetingAt 30 with
      floor := { openSet := [openAt 23 45 43 .delegate, openAt 26 45 44 .delegate], queue := [queuedAt 8 42],
                 stamp := 45, priority := false } }).map (fun t => (t.floor, t.port.notices))
      = some ({ openSet := [openAt 8 45 42 .delegate, openAt 23 45 43 .delegate], queue := [queuedAt 26 44], stamp := 45,
                priority := false }, [.closed 26 .displaced, .opened 8]) := by decide +kernel

/-- The same sequence, the late VOICE of seat 26: it enters, is displaced again, and leaves no trace. -/
theorem test_late_voice_leaves_no_trace :
    (Floor.implicit { openSet := [openAt 8 45 42 .delegate, openAt 23 45 43 .delegate], queue := [queuedAt 26 44], stamp := 45,
                      priority := false } 26 .delegate 45 44 0 2).floor
      = { openSet := [openAt 8 45 42 .delegate, openAt 23 45 43 .delegate], queue := [queuedAt 26 44], stamp := 45,
          priority := false } := by decide

/-- The same sequence, the YIELD of seat 26. -/
theorem test_yield_after_displacement :
    (after (.receiveYield 26#8 [5#8, 2#8, 0#8, 0#8, 0#8, 44#8]) { meetingAt 30 with
      floor := { openSet := [openAt 8 45 42 .delegate, openAt 23 45 43 .delegate], queue := [queuedAt 26 44], stamp := 45,
                 priority := false } }).map (fun t => (t.floor.openSet.length, t.floor.queue, t.port.notices))
      = some (2, [queuedAt 26 44], []) := by decide +kernel

/-- "An opening lost twice": the OPEN from seat 11 makes seat 9 lose its eligibility, and its own OPEN is withdrawn. -/
theorem test_open_withdrawn :
    (after (.receiveOpen 11#8 [5#8, 2#8, 0#8, 0#8, 0#8, 61#8, 0#8, 0#8, 0#8, 59#8, 2#8])
      (sendingAt 9 withdraw52 1 { meetingAt 9 with
        meeting := { record52 with profile := { profile52 with limit := 1 } },
        floor := { openSet := [], queue := [queuedAt 9 58, queuedAt 11 59, queuedAt 6 60], stamp := 61, priority := false },
        mic := { OwnMic.reset with state := .opening, cls := some .delegate, requestStamp := 58, openStamp := 61 },
        link := { Link.powerOn with queue := [{ source := 9, body := .opening (some bid52) 61 58 .delegate }] } })).map
      (fun t => (t.mic.state, t.floor.stamp, t.floor.queue.length, t.link.queue.length)) = some (.waiting, 61, 2, 0) := by
  decide +kernel

/-- The same sequence: a MIC press while the OPEN is in send sets close pending SPEAKER. -/
theorem test_press_marks_close_pending :
    (after .micPress (sendingAt 9 (.opening (some bid52) 62 58 .delegate) 1 { meetingAt 9 with
      floor := { openSet := [openAt 6 62 60 .delegate], queue := [queuedAt 9 58], stamp := 62, priority := false },
      mic := { OwnMic.reset with state := .opening, cls := some .delegate, requestStamp := 58, openStamp := 62 } })).map
      (fun t => (t.mic.state, t.mic.closePending)) = some (.opening, some .speaker) := by decide +kernel

/-- The same sequence, the SENT outcome with close pending: CLOSED, CLOSE in send and WITHDRAW behind it. -/
theorem test_close_pending_applied :
    (after .attemptClear (sendingAt 9 (.opening (some bid52) 62 58 .delegate) 1 { meetingAt 9 with
      meeting := { record52 with profile := { profile52 with limit := 1 } },
      floor := { openSet := [openAt 6 62 60 .delegate], queue := [queuedAt 9 58], stamp := 62, priority := false },
      mic := { OwnMic.reset with state := .opening, cls := some .delegate, requestStamp := 58, openStamp := 62,
                                 closePending := some .speaker } })).map
      (fun t => (t.mic.state, t.floor.queue.length, t.link.inSend.map (fun x => x.frame.body.kindCode),
                 t.link.queue.map (fun f => f.body.kindCode))) = some (.closed, 0, some 0x44#8, [0x42#8]) := by
  decide +kernel

/-- "A delegate's budget with a grant of time": TIME_ADD of 60 s replaces the overrun and re-arms the warning. -/
theorem test_time_add_ends_overrun :
    (after (.receiveTimeAdd 3#8 [5#8, 2#8, 17#8, 0#8, 60#8]) { speakingAt 17 with
      mic := { (speakingAt 17).mic with remaining := some 0, warned := true, overrun := true, overrunCount := 45, secondCount := 50 } }).map
      (fun t => (t.mic.remaining, t.mic.warned, t.mic.overrun, t.mic.secondCount)) = some (some 60, false, false, 50) := by
  decide +kernel

/-- The same sequence: the second that leaves 30 of remaining warns and sets the ring to FAST BLINK. -/
theorem test_budget_second_warns :
    (after .budgetSecond (speakingAt 17)).map (fun t => (t.mic.remaining, t.mic.warned, t.controls.ring.pattern, t.port.notices))
      = some (some 30, true, .fastBlink, [.timeWarning 17]) := by decide +kernel

/-- "A chair station's control queue", step 4: the UNSHARE cancels the queued SHARE. -/
theorem test_unshare_cancels :
    (coalesce { source := 3, body := .unshare (some bid52) }
      [{ source := 3, body := .grant (some bid52) 9 }, { source := 3, body := .share (some bid52) 1 57 },
       { source := 3, body := .priority (some bid52) true }])
      = ([{ source := 3, body := .grant (some bid52) 9 }, { source := 3, body := .priority (some bid52) true }], .cancelled) := by
  decide

/-- "The voice slot under load": the third attempt clear selects the frame that waits. -/
theorem test_voice_after_third_attempt :
    (after .attemptClear (sendingAt 21 (.voice (some bid52) 40 31 1000 true zeroBlock) 3 { speakingAt 21 with
      link := { Link.powerOn with
        voiceSlot := some { source := 21, body := .voice (some bid52) 40 31 1002 true zeroBlock }, voiceSkips := 5 } })).map
      (fun t => (t.link.inSend.map (fun x => (x.attempt, x.frame.body.bytes.take 13)), t.link.voiceSlot.isNone, t.link.voiceSkips))
      = some (some (1, [5#8, 2#8, 0#8, 0#8, 0#8, 40#8, 0#8, 0#8, 0#8, 31#8, 0x03#8, 0xEA#8, 1#8]), true, 5) := by decide +kernel

/-- "Two claims and the chair": seat 14's 64 beats 61; the chair's 66 stands against 70; a claim on screen 2 leaves
screen 1. -/
theorem test_claims :
    ((Share.powerOn.claimRule 9 1 61 3).claimRule 14 1 64 3).screen1 = some { seat := 14, stamp := 64 } ∧
    (((Share.powerOn.claimRule 14 1 64 3).claimRule 3 1 66 3).claimRule 14 1 70 3).screen1 = some { seat := 3, stamp := 66 } ∧
    ((Share.powerOn.claimRule 9 1 61 3).claimRule 9 2 71 3).screen1 = none := by decide

/-- The same sequence at seat 9: SHARE_LOST and line 4. -/
theorem test_share_lost :
    (after (.receiveShare 14#8 [5#8, 2#8, 1#8, 0#8, 0#8, 0#8, 64#8]) { meetingAt 9 with
      share := { Share.powerOn with screen1 := some { seat := 9, stamp := 61 }, claim := .sharing, claimScreen := 1, claimStamp := 61 } }).map
      (fun t => (t.share.claim, t.port.notices, t.screen.transient.text))
      = some (.none, [.shareLost 1 14], text "Screen 1 taken") := by decide +kernel

/-- "Two bookings for one afternoon": BOOK at seat 12 takes serial 3 for 45 minutes. -/
theorem test_book_rounds_and_numbers :
    (after (.book 812#16 870#16 43#16 0#8 12#8 (text "PROJECTS")) { idleAt .seat 12 with
      calendar := { (idleAt .seat 12).calendar with serial := 3 } }).map
      (fun t => (t.port.reply.data, t.calendar.serial, t.calendar.view.map (fun e => (e.wire.start, e.wire.finish, e.held))))
      = some ([12#8, 3#8], 4, [(1170150, 1170195, true)]) := by decide +kernel

/-- The same sequence: at seat 12 the door's older booking removes the held one, with BOOKING_CONFLICT. -/
theorem test_older_booking_wins :
    (arriveEntry 48 { entry52 with id := { holder := 48, serial := 0 }, startMinute := 840, chair := 5, createdSecond := 36000 }
      { idleAt .seat 12 with calendar := { (idleAt .seat 12).calendar with view :=
        [{ wire := { entry52 with id := { holder := 12, serial := 3 }, startMinute := 870, duration := 45, chair := 12, createdSecond := 36004 },
           held := true, active := false, age := 0 }] } }).port.notices = [.bookingConflict { holder := 12, serial := 3 }] := by
  decide +kernel

/-- "An extension in part": 30 asked and 15 free; then 0 free. -/
theorem test_extension_grants :
    grantFor [{ wire := { entry52 with startMinute := 675 }, held := false, active := false, age := 0 }] entry52 30 = 15 ∧
    grantFor [{ wire := { entry52 with startMinute := 660 }, held := false, active := false, age := 0 }] entry52 10 = 0 := by
  decide

/-- "Talk, pause and hangover": the 75th non-talking block ends talking. -/
theorem test_hangover_ends :
    (Capture.detect { Capture.powerOn with talking := true, hangover := 74 } false).2 = .finish ∧
    (Capture.detect { Capture.powerOn with talking := true, hangover := 73 } false).2 = .none := by decide

/-- "Notices at a door panel": with the threshold at 2 the level-2 notice alone asserts the line. -/
theorem test_attention_line :
    Port.attention { Port.powerOn with threshold := 2, notices := [.opened 14, .meetingWarning { holder := 48, serial := 1 } 5] } = false ∧
    Port.attention { Port.powerOn with threshold := 2, notices := [.meetingEnd { holder := 48, serial := 1 } .time] } = true := by
  decide

/-! ## Commands alone -/

theorem test_configure_clamps :
    (after (.configure 9#8 1#8 (text "ANNA") 99#8 40000#16 9#8 99#8 99#8 1#8 1#8 2#8) State.reset).map (fun t =>
      (t.config.trim, t.config.threshold, t.config.span, t.config.attenuation, t.config.duck)) = some (30, 32767, 3, 30, 63) := by
  decide +kernel

theorem test_configure_refuses_seat_49 :
    (after (.configure 49#8 1#8 [] 0#8 0#16 0#8 0#8 0#8 0#8 1#8 1#8) State.reset).map (fun t => (t.config, t.port.reply.status))
      = some (StationConfig.powerOn, .badParam) := by decide +kernel

theorem test_set_profile_raises_silence :
    (after (.setProfile 3#8 4#8 0#8 700#16 1#8 61#8 3#8 2#8 16#8 0#8 1#8) State.reset).map (fun t => t.profiles[3]?)
      = some (some { mode := .voice, limit := 1, budget := 600, budgetKind := .hard, warning := 60, silence := 5,
                     shareRule := .floorOnly, endWarning := 15, priorityAllowed := false, priorityCloses := true }) := by
  decide +kernel

theorem test_go_refused : (after .go State.reset).map (fun t => (t.station, t.port.reply.status)) = some (.setup, .notConfigured) := by
  decide +kernel

theorem test_go_sends_a_beacon :
    (after .go { State.reset with config := (idleAt .seat 9).config }).map (fun t =>
      (t.station, t.link.inSend.map (fun x => (x.frame.source, x.frame.body.kindCode)))) = some (.run, some (9, 0x20#8)) := by
  decide +kernel

theorem test_reset_soft_keeps_volume :
    (after .resetSoft { meetingAt 9 with mix := { Mix.powerOn with volume := 5 } }).map (fun t =>
      (t.mix.volume, t.meeting.state, t.calendar.view.length, t.calendar.clock.set)) = some (5, .idle, 0, true) := by decide +kernel

theorem test_power_on_shows_setup :
    (after .powerOn (meetingAt 9)).map (fun t => (t.station, t.screen.buffer.head?.map (fun l => l.take 6)))
      = some (.setup, some (text "SETUP ")) := by decide +kernel

theorem test_read_status_length : (after .readStatus (meetingAt 9)).map (fun t => t.port.reply.data.length) = some 85 := by
  decide +kernel

theorem test_set_time_refused :
    (after (.setTime 0#16 86400#32) (idleAt .seat 9)).map (fun t => t.port.reply.status) = some .badParam := by decide +kernel

theorem test_clock_wraps :
    (after .clockSecond { idleAt .seat 9 with calendar := { Calendar.powerOn with
      clock := { day := 812, second := 86399, count := 7, set := true } } }).map (fun t => t.calendar.clock)
      = some { day := 813, second := 0, count := 0, set := true } ∧
    (after .clockSecond { idleAt .seat 9 with calendar := { Calendar.powerOn with
      clock := { day := 65535, second := 86399, count := 7, set := true } } }).map (fun t => t.calendar.clock)
      = some { day := 65535, second := 86399, count := 0, set := true } := by decide +kernel

theorem test_press_of_a_delegate :
    (after .press (meetingAt 9)).map (fun t => (t.mic.state, t.floor.stamp, t.port.reply.data)) = some (.opening, 2, [2#8]) := by
  decide +kernel

theorem test_press_of_the_chair :
    (after .press (meetingAt 3)).map (fun t => (t.mic.cls, t.floor.stamp)) = some (some .chair, 1) := by decide +kernel

theorem test_grant_if_head_not_matched :
    (after (.grant 9#8 2#8) { meetingAt 3 with floor := { Floor.cleared with queue := [queuedAt 8 1, queuedAt 9 2] } }).map
      (fun t => t.port.reply.status) = some .notMatched := by decide +kernel

theorem test_chair_commands_at_a_delegate :
    (after .clearQueue (meetingAt 9)).map (fun t => t.port.reply.status) = some .notChair ∧
    (after .clearQueue (idleAt .seat 3)).map (fun t => t.port.reply.status) = some .notChair := by decide +kernel

theorem test_flush_serves :
    (after .flush { meetingAt 9 with link := { Link.powerOn with queue := [{ source := 9, body := withdraw52 }] } }).map
      (fun t => (t.port.serving, t.port.readReply.status)) = some (true, .busy) := by decide +kernel

theorem test_own_seat_clashes :
    (after (.receiveWithdraw 9#8 [5#8, 2#8]) (meetingAt 9)).map (fun t => (t.station, t.port.notices,
      t.link.inSend.map (fun x => x.clash))) = some (.clash, [.seatClash 9], some true) := by decide +kernel

theorem test_bad_frame_counter_stays :
    (after (.frameCheckFailed []) { State.reset with link := { Link.powerOn with badFrames := 65535 } }).map
      (fun t => t.link.badFrames) = some 65535 := by decide +kernel

theorem test_eighth_attempt_abandons :
    (after .attemptFailed (sendingAt 9 withdraw52 8 (meetingAt 9))).map (fun t => (t.link.inSend, t.link.abandoned, t.port.notices))
      = some (none, 1, [.sendFailed 0x42]) := by decide +kernel

theorem test_seventh_attempt_repeats :
    (after .attemptFailed (sendingAt 9 withdraw52 7 (meetingAt 9))).map (fun t => t.link.inSend.map (fun x => x.attempt))
      = some (some 8) := by decide +kernel

theorem test_block_number_wraps :
    (after (.blockCompletion (List.replicate 64 0#16) false false false) { State.reset with blockNumber := 65535 }).map
      (fun t => t.blockNumber) = some 0 := by decide +kernel

theorem test_button_needs_five_blocks :
    Button.sample { pressed := false, difference := 3 } true = ({ pressed := false, difference := 4 }, .none) ∧
    Button.sample { pressed := false, difference := 4 } true = ({ pressed := true, difference := 0 }, .press) := by decide

theorem test_walk_in_at_the_door :
    (after (.startMeeting 0#16 0#8 []) (idleAt .door 48)).map (fun t => (t.meeting.state, t.meeting.chair, t.meeting.finish,
      t.port.reply.data)) = some (.active, 0, 1169940, [48#8, 0#8]) := by decide +kernel

theorem test_end_now_outcome :
    (after .attemptClear (sendingAt 3 (.endNow bid52) 1 { meetingAt 3 with meeting := { record52 with endAsked := true } })).map
      (fun t => (t.meeting.state, t.meeting.endedEarly, t.port.notices)) = some (.idle, some bid52, [.meetingEnd bid52 .endNow]) := by
  decide +kernel

theorem test_show_message_clears :
    (after (.showMessage [] 0#16) (idleAt .seat 9)).map (fun t => t.screen.host.lifetime) = some 0 ∧
    (after (.showMessage (text "A") 0#16) (idleAt .seat 9)).map (fun t => t.screen.host.lifetime) = some 250 := by decide +kernel

theorem test_queue_window_returns :
    (after .queueWindowAdvance { meetingAt 9 with
      floor := { Floor.cleared with queue := [queuedAt 8 1, queuedAt 10 2, queuedAt 11 3] },
      screen := { Screen.powerOn with windowStart := 3 } }).map (fun t => t.screen.windowStart) = some 1 := by decide +kernel

theorem test_stale_slot_frees :
    (after (.staleSlot 1) { meetingAt 9 with
      floor := { Floor.cleared with openSet := [openAt 8 1 1 .delegate] },
      mix := { Mix.powerOn with slots := { Slot.freed with seat := 8, state := .filling } :: List.replicate 6 Slot.freed } }).map
      (fun t => (t.floor.openSet, t.port.notices, t.mix.slots.head?.map (fun x => x.state)))
      = some ([], [.closed 8 .stale], some .free) := by decide +kernel

/-! ## Witnesses: concrete states and operands that meet the hypotheses of each statement -/

/-- A station whose link, share map, mix, peer table and port are at rest is sound when its floor, calendar and tables
are. -/
theorem sound_at_rest (s : State) (link : s.link = .powerOn) (share : s.share = .powerOn) (mix : s.mix = .powerOn)
    (port : s.port = .powerOn) (views : ViewsSound s.floor) (stamps : StampsSound s.floor)
    (classes : ClassesSound s.floor s.meeting) (calendar : CalendarSound s.calendar.view)
    (active : activeSound s.calendar.view s.meeting) (tables : TablesSound s.presence.peers s.profiles s.meeting) :
    s.Sound where
  queue := by rw [link]; exact ⟨fun k => by cases k <;> decide, by decide⟩
  views := views
  stamps := stamps
  shareStamps := by rw [share]; exact ⟨fun _ h => (by cases h), fun _ h => (by cases h)⟩
  classes := classes
  calendar := calendar
  active := active
  share := by rw [share]; intro _ _ h; cases h
  mix := by rw [mix]; exact ⟨by decide, by decide, by decide, by decide⟩
  tables := tables
  port := by rw [port]; exact ⟨by decide, by decide⟩

theorem views_cleared : ViewsSound Floor.cleared := ⟨by decide, by decide, by decide, by decide, by decide⟩

theorem stamps_cleared : StampsSound Floor.cleared := ⟨by decide, by decide⟩

theorem calendar_of_one (e : Entry) : CalendarSound [e] where
  apart := List.pairwise_singleton _ _
  ids := by simp
  entries := (by decide : 1 ≤ 32)
  held := Nat.le_trans (List.length_filter_le _ _) (by decide : 1 ≤ 8)

theorem sound_meeting_at (seat : Nat) : (meetingAt seat).Sound :=
  sound_at_rest _ rfl rfl rfl rfl views_cleared stamps_cleared
    (show ClassesSound Floor.cleared record52 from ⟨by decide, by decide⟩) (calendar_of_one _)
    (fun e he _ => by rw [List.mem_singleton.mp he]; exact ⟨(by decide : record52.state ≠ .idle), rfl⟩)
    (show TablesSound Presence.powerOn.peers (List.replicate 4 .powerOn) record52 from
      ⟨by decide, by decide, by decide, by decide⟩)

/-- A station in a meeting in which seat 8 is open and has slot 1. -/
def listeningAt (seat : Nat) : State :=
  { meetingAt seat with
    floor := { openSet := [openAt 8 1 1 .delegate], queue := [], stamp := 1, priority := false },
    mix := { Mix.powerOn with slots := { Slot.freed with seat := 8, state := .filling } :: List.replicate 6 Slot.freed } }

theorem slots_follow_listening : SlotsFollow (listeningAt 9) where
  bound := by
    intro _ k
    show (∃ x ∈ ({ Slot.freed with seat := 8, state := .filling } :: List.replicate 6 Slot.freed), x.state ≠ .free ∧ x.seat = k)
      ↔ (Floor.isOpen { openSet := [openAt 8 1 1 .delegate], queue := [], stamp := 1, priority := false } k = true ∧ k ≠ 9)
    simp [Slot.freed, Floor.isOpen, openAt]
    omega
  once := by decide
  free := by intro h; rcases h with h | h <;> exact absurd h (by decide)

theorem sound_listening : (listeningAt 9).Sound where
  queue := (sound_meeting_at 9).queue
  views := ⟨by decide, by decide, by decide, by decide, by decide⟩
  stamps := ⟨by decide, by decide⟩
  shareStamps := ⟨fun _ h => (by cases h), fun _ h => (by cases h)⟩
  classes := ⟨by decide, by decide⟩
  calendar := (sound_meeting_at 9).calendar
  active := (sound_meeting_at 9).active
  share := (sound_meeting_at 9).share
  mix := ⟨by decide, by decide, by decide, by decide⟩
  tables := (sound_meeting_at 9).tables
  port := (sound_meeting_at 9).port

/-- A station in CLASH that sends its clash beacon. -/
def clashAt (seat : Nat) : State :=
  { idleAt .seat seat with
    station := .clash,
    link := { Link.powerOn with
      inSend := some { frame := { source := seat, body := .beacon (composeClashBeacon (idleAt .seat seat)) }, attempt := 1,
                       clash := true, voided := false } } }

theorem witness_step_runs_the_front_command : State.reset.pending = [] := rfl

theorem witness_every_step_keeps_the_station_sound :
    (meetingAt 9).Sound ∧ ∃ t, step { meetingAt 9 with pending := [.press] } = .next t := ⟨sound_meeting_at 9, _, rfl⟩

theorem witness_every_step_keeps_clash_silent :
    ClashSilent (clashAt 9) ∧ ∃ t, step { clashAt 9 with pending := [.attemptClear] } = .next t :=
  ⟨⟨fun _ => rfl, fun _ => rfl, fun _ => by decide, fun _ x h => by cases h; exact Or.inl rfl⟩, _, rfl⟩

theorem witness_every_step_keeps_idle_empty_and_placing :
    IdleEmpty (idleAt .seat 9) ∧ PlacingWithOpen (speakingAt 9) ∧ PlacingWithOpen (meetingAt 9) ∧
    ∃ t, step { idleAt .seat 9 with pending := [.sharePress] } = .next t :=
  ⟨⟨fun _ => rfl, fun _ => rfl, fun _ => ⟨rfl, rfl⟩, fun _ => rfl, fun h => by cases h⟩,
    by unfold PlacingWithOpen; decide, by unfold PlacingWithOpen; decide, _, rfl⟩

theorem witness_every_step_keeps_slots_following :
    (listeningAt 9).Sound ∧ IdleEmpty (listeningAt 9) ∧ SlotsFollow (listeningAt 9) ∧
    ∃ t, step { listeningAt 9 with pending := [.staleSlot 1] } = .next t :=
  ⟨sound_listening, ⟨fun h => (by cases h), fun h => (by cases h), fun h => (by cases h), fun h => (by cases h), fun h => (by cases h)⟩,
    slots_follow_listening, _, rfl⟩

theorem witness_sound_station_keeps_the_bounds : (listeningAt 9).Sound ∧ (listeningAt 9).floor.openSet ≠ [] :=
  ⟨sound_listening, by decide⟩

theorem witness_only_named_commands_change_the_setup :
    (∃ t, exec .press (meetingAt 9) = .next t) ∧ fullReset .press = false ∧ isConfigure .press = false ∧
    isSetProfile .press = false ∧ isBlock .press = false ∧ isSetVolume .press = false ∧ isSetNoticeLevel .press = false :=
  ⟨⟨_, rfl⟩, by decide⟩

theorem witness_station_state_changes_by_named_commands_alone :
    (∃ t, exec .go { State.reset with config := (idleAt .seat 9).config } = .next t ∧ t.station = .run) ∧
    (∃ t, exec .resetFull (clashAt 9) = .next t ∧ t.station = .setup) ∧
    (∃ t, exec (LinkFrame.received 0x42#8 9#8 [5#8, 2#8]) (meetingAt 9) = .next t ∧ t.station = .clash) :=
  ⟨⟨_, rfl, by decide +kernel⟩, ⟨_, rfl, by decide +kernel⟩, ⟨_, rfl, by decide +kernel⟩⟩

theorem witness_host_commands_decode :
    Instr.wellFormed (.configure 9#8 1#8 (List.replicate 20 0x41#8) 0#8 65535#16 0#8 0#8 0#8 0#8 1#8 1#8) = true ∧
    (HostFrame.encode (.configure 9#8 1#8 (List.replicate 20 0x41#8) 0#8 65535#16 0#8 0#8 0#8 0#8 1#8 1#8)).isSome = true ∧
    (HostFrame.encode (.restoreBooking 0#16 0#16 0#16 0#8 0#8 [] 0#8 0#8 0#16 0#32)).isSome = true ∧
    Instr.wellFormed (.showMessage (List.replicate 252 0x41#8) 0#16) = true ∧
    (HostFrame.encode (.showMessage (List.replicate 252 0x41#8) 0#16)).isSome = true := by decide +kernel

theorem witness_link_frames_decode :
    Frame.wellFormed { source := 48, body := .voice (some bid52) 4294967295 0 65535 true (List.replicate 64 (-32768)) } = true ∧
    Frame.wellFormed { source := 1, body := .beacon { composeBeacon (meetingAt 5) with name := List.replicate 20 0x41#8 } } = true ∧
    Frame.wellFormed { source := 5, body := .extendAnswer bid52 48 true 60 { entry52 with title := List.replicate 24 0x41#8 } } = true := by
  decide +kernel

theorem witness_one_altered_byte :
    ([5#8, 2#8] : List Byte).length ≤ 255 ∧ 6 < (envelope 0x42#8 30#8 [5#8, 2#8]).length ∧
    (envelope 0x42#8 30#8 [5#8, 2#8])[6]? ≠ some 0xCC#8 ∧ (envelope 0x42#8 30#8 [5#8, 2#8])[0]? ≠ some 0x41#8 := by
  decide +kernel

theorem witness_configure :
    State.reset.port.serving = false ∧ State.reset.station = .setup ∧ roleOf 3 = some .wall ∧
    (List.replicate 20 0x41#8 : List Byte).length ≤ 20 ∧ 1#8 = flagByte true ∧ 20 < (List.replicate 21 0x41#8 : List Byte).length ∧
    48 < (49#8).toNat := by decide

theorem witness_set_profile :
    (3#8).toNat ≤ 3 ∧ modeOf 4#8 = some .voice ∧ budgetKindOf 2#8 = some .soft ∧ shareRuleOf 1#8 = some .free ∧
    0#8 = flagByte false ∧ 3 < (4#8).toNat ∧ 4 < (5#8).toNat := by decide

theorem witness_go :
    State.reset.config.configured = false ∧
    (∀ s : State, s = { State.reset with config := (idleAt .seat 9).config } →
      s.station = .setup ∧ s.config.configured = true ∧ s.calendar.clock.set = false ∧ s.meeting.state = .idle ∧
      s.link = .powerOn ∧ s.port.serving = false) :=
  ⟨rfl, fun s h => by subst h; exact ⟨rfl, rfl, rfl, rfl, rfl, rfl⟩⟩

/-- A station that serves a FLUSH with one frame waiting. -/
def servingAt (seat : Nat) : State :=
  { meetingAt seat with
    link := { Link.powerOn with queue := [{ source := seat, body := withdraw52 }] },
    port := { Port.powerOn with serving := true } }

theorem witness_group_test :
    runOnly .press = true ∧ setupOnly .go = true ∧ anyState .readStatus = true ∧ State.reset.port.serving = false ∧
    (idleAt .seat 9).station ≠ .setup ∧ (servingAt 9).port.serving = true := by decide

theorem witness_notices_threshold_and_volume :
    (idleAt .seat 9).port.serving = false ∧ (idleAt .seat 9).station ≠ .setup ∧ 4 ≤ (4#8).toNat ∧
    (List.replicate 15 (Notice.opened 8)).length < 16 ∧ 16 ≤ (List.replicate 16 (Notice.opened 8)).length := by decide

theorem witness_reads :
    State.reset.port.serving = false ∧ State.reset.mix.slots.length = 7 ∧ RunTaken (meetingAt 9) :=
  ⟨rfl, by decide, rfl, by decide⟩

theorem witness_flush :
    RunTaken (meetingAt 9) ∧ (meetingAt 9).link.queue = [] ∧
    (∀ s : State, s = { servingAt 9 with port := .powerOn } → RunTaken s ∧ s.link.queue ≠ []) ∧
    (servingAt 9).link.queue ≠ [] ∧ ({ servingAt 9 with link := .powerOn } : State).port.serving = true :=
  ⟨⟨rfl, by decide⟩, rfl, fun s h => by subst h; exact ⟨⟨rfl, by decide⟩, by decide⟩, by decide, rfl⟩

/-- A station whose clock stands at the end of its range. -/
def lastSecondAt (day : Nat) : State :=
  { idleAt .seat 9 with calendar := { Calendar.powerOn with clock := { day := day, second := 86399, count := 0, set := true } } }

theorem witness_clock :
    RunTaken (idleAt .seat 9) ∧ 86399 < (86400#32).toNat ∧ (86399#32).toNat ≤ 86399 ∧
    (idleAt .seat 9).calendar.clock.second < 86399 ∧
    ((lastSecondAt 65534).calendar.clock.day < 65535 ∧ 86399 ≤ (lastSecondAt 65534).calendar.clock.second) ∧
    65535 ≤ (lastSecondAt 65535).calendar.clock.day :=
  ⟨⟨rfl, by decide⟩, by decide, by decide, by decide, by decide, by decide⟩

/-- The station with its clock at another second of day 812. -/
def atSecond (second : Nat) (s : State) : State :=
  { s with calendar := { s.calendar with clock := { day := 812, second := second, count := 0, set := true } } }

/-- A station in RUN that is IDLE, with the entry of (5, 2) heard and due. -/
def dueAt (seat : Nat) : State :=
  { idleAt .seat seat with
    calendar := { calendar52 seat with view := [{ wire := entry52, held := decide (seat = 5), active := false, age := 0 }] } }

theorem sound_due_at (seat : Nat) (c : Clock) :
    ({ dueAt seat with calendar := { (dueAt seat).calendar with clock := c } } : State).Sound :=
  sound_at_rest _ rfl rfl rfl rfl views_cleared stamps_cleared
    (show ClassesSound Floor.cleared .powerOn from ⟨by decide, by decide⟩) (calendar_of_one _)
    (fun e he h => by rw [List.mem_singleton.mp he] at h; cases h)
    (show TablesSound Presence.powerOn.peers (List.replicate 4 .powerOn) .powerOn from
      ⟨by decide, by decide, by decide, by decide⟩)

theorem witness_evaluation :
    State.reset.station = .setup ∧
    ((idleAt .seat 9).meeting.state = .idle ∧ ∀ e ∈ (idleAt .seat 9).calendar.view, e.wire.due (idleAt .seat 9).calendar.clock = false) ∧
    ((dueAt 9).Sound ∧ ∃ e ∈ (dueAt 9).calendar.view, e.wire.due (dueAt 9).calendar.clock = true) ∧
    ((meetingAt 9).meeting.state = .active ∧ (meetingAt 9).timeRemaining > ((meetingAt 9).meeting.profile.endWarning * 60 : Nat)) ∧
    ((atSecond 39300 (meetingAt 9)).timeRemaining ≤ ((meetingAt 9).meeting.profile.endWarning * 60 : Nat) ∧
      0 < (atSecond 39599 (meetingAt 9)).timeRemaining ∧ (meetingAt 9).meeting.id = some bid52) ∧
    ({ record52 with state := .ending } : Meeting).state = .ending ∧ (atSecond 39600 (meetingAt 9)).timeRemaining ≤ 0 ∧
    (∀ s : State, s = { atSecond 39300 (meetingAt 9) with meeting := { record52 with state := .ending } } →
      s.station ≠ .setup ∧ s.meeting.state = .ending ∧ 0 < s.timeRemaining ∧
      s.timeRemaining = (s.meeting.profile.endWarning * 60 : Nat)) :=
  ⟨rfl, by decide, ⟨sound_due_at 9 _, by decide⟩, by decide, by decide, rfl, by decide, fun s h => by subst h; decide⟩

theorem getD_replicate (n k : Nat) (p : Peer) : (List.replicate n p).getD k p = p := by
  rw [List.getD_eq_getElem?_getD, List.getElem?_replicate]
  split <;> rfl

theorem witness_meeting_start : State.reset.port.notices = [] ∧ ∀ k : Nat, (State.reset.presence.peer k).state ≠ .present := by
  refine ⟨rfl, fun k => ?_⟩
  show (Presence.powerOn.peer k).state ≠ .present
  unfold Presence.peer
  split
  · rw [show Presence.powerOn.peers.getD (k - 1) Peer.unknownEntry = Peer.unknownEntry from getD_replicate 48 _ _]
    decide
  · decide

theorem witness_meeting_end :
    (listeningAt 9).mic.state = .closed ∧ (listeningAt 9).port.notices.length < 16 ∧ SlotsFollow (listeningAt 9) ∧
    (listeningAt 9).meeting.state ≠ .idle ∧ (listeningAt 9).meeting.id = some bid52 ∧ (listeningAt 9).station ≠ .setup :=
  ⟨rfl, by decide, slots_follow_listening, by decide, rfl, by decide⟩

/-- A booking of seat 9 on day 812 from a minute of day, for 15 minutes. -/
def bookingAt (serial minute : Nat) (held : Bool) : Entry :=
  { wire := { entry52 with id := { holder := 9, serial := serial }, startMinute := minute, duration := 15 }, held := held,
    active := false, age := 0 }

/-- A station in RUN that is IDLE with these entries in its view. -/
def viewAt (seat : Nat) (v : List Entry) : State :=
  { idleAt .seat seat with calendar := { (idleAt .seat seat).calendar with view := v } }

/-- Eight held bookings. -/
def eightBookings : List Entry := (List.range 8).map (fun k => bookingAt k (700 + 20 * k) true)

/-- 32 heard entries. -/
def fullView : List Entry := (List.range 32).map (fun k => bookingAt k (700 + 20 * k) false)

/-- 32 held entries: none gives way. -/
def heldView : List Entry := (List.range 32).map (fun k => bookingAt k (700 + 20 * k) true)

theorem run_taken_idle (seat : Nat) (v : List Entry) : RunTaken (viewAt seat v) := ⟨rfl, fun h => by cases h⟩

/-- BOOK of day 812, 14:00, for 60 minutes against each check. -/
theorem witness_book :
    (RunTaken (clashAt 9) ∧ (clashAt 9).station = .clash) ∧
    (RunTaken (viewAt 9 []) ∧ 1439 < (1440#16).toNat ∧ 3 < (4#8).toNat ∧ 48 < (49#8).toNat ∧ (1439#16).toNat ≤ 1439 ∧
      (3#8).toNat ≤ 3 ∧ (48#8).toNat ≤ 48 ∧ (List.replicate 24 0x41#8 : List Byte).length ≤ 24) ∧
    ({ viewAt 9 [] with calendar := .powerOn } : State).calendar.clock.set = false ∧
    (812 * 1440 + 599 < (viewAt 9 []).calendar.clock.minuteNumber ∧ (viewAt 9 []).calendar.clock.minuteNumber ≤ 812 * 1440 + 600) ∧
    (8 ≤ heldCount (viewAt 9 eightBookings).calendar.view ∧ heldCount (viewAt 9 []).calendar.view < 8) ∧
    (∃ e ∈ [bookingAt 0 614 false], 812 * 1440 + 600 < e.wire.finish ∧ e.wire.start < 812 * 1440 + 600 + 15) ∧
    (∀ e ∈ [bookingAt 0 615 false], e.wire.finish ≤ 812 * 1440 + 600 ∨ 812 * 1440 + 600 + 15 ≤ e.wire.start) :=
  ⟨⟨⟨rfl, by decide⟩, rfl⟩, ⟨run_taken_idle 9 [], by decide⟩, rfl, by decide, by decide, by decide, by decide⟩

theorem witness_next_serial : (dueAt 5).Sound ∧ (dueAt 5).nextSerial = 0 := ⟨sound_due_at 5 _, by decide⟩

/-- A booking restored at 11:40 against the entries that the clauses name. -/
theorem witness_restore_booking :
    (List.length ([] : List Entry) < 32) ∧
    (32 ≤ fullView.length ∧ fullView = fullView.take 31 ++ bookingAt 31 1320 false :: []) ∧
    (32 ≤ heldView.length ∧ ∀ x ∈ heldView, x.held = true ∨ x.active = true) ∧
    ((viewAt 9 []).port.serving = false ∧ (viewAt 9 []).station = .run ∧ (viewAt 9 []).calendar.clock.set = true ∧
      (86399#32).toNat ≤ 86399 ∧ (viewAt 9 []).calendar.clock.minuteNumber < (bookingAt 9 600 true).wire.finish) ∧
    (∀ e ∈ [bookingAt 0 700 false], e.wire.id ≠ (bookingAt 9 700 true).wire.id) ∧
    (∃ e ∈ [{ bookingAt 0 714 false with active := true }],
      (bookingAt 9 700 true).wire.overlaps e.wire = true ∧ (bookingAt 9 700 true).beats e = false) ∧
    (∀ e ∈ [{ bookingAt 10 714 false with wire := { (bookingAt 10 714 false).wire with createdSecond := 35001 } }],
      (bookingAt 9 700 true).wire.overlaps e.wire = true → (bookingAt 9 700 true).beats e = true) ∧
    makeRoom (bookingAt 9 700 true).wire [] = some [] ∧ makeRoom (bookingAt 9 1320 true).wire heldView = none := by
  decide +kernel

theorem witness_booking_tests :
    (bookingAt 1 700 false).active = false ∧ (bookingAt 1 700 false).wire.id ≠ (bookingAt 2 700 true).wire.id ∧
    (bookingAt 1 700 false).beats (bookingAt 2 700 true) = true ∧ (bookingAt 2 700 true).beats (bookingAt 3 700 false) = true := by
  decide

/-- A control queue in which five host-originated frames wait. -/
def fiveHosts : List Frame := List.replicate 5 { source := 3, body := .grant (some bid52) 9 }

theorem witness_cancel_booking :
    (RunTaken (meetingAt 5) ∧ (meetingAt 5).Sound ∧ (meetingAt 5).station = .run) ∧
    (∃ e ∈ (meetingAt 5).calendar.view, e.held = true ∧ e.wire.id = bid52 ∧ e.active = true) ∧
    ((dueAt 5).Sound ∧ ∃ e ∈ (dueAt 5).calendar.view, e.held = true ∧ e.wire.id = bid52 ∧ e.active = false) ∧
    (∀ e ∈ (meetingAt 9).calendar.view, e.held = true → e.wire.id ≠ bid52) ∧
    hostFrames (meetingAt 5).link.queue < 5 ∧ 5 ≤ hostFrames fiveHosts :=
  ⟨⟨⟨rfl, by decide⟩, sound_meeting_at 5, rfl⟩, by decide, ⟨sound_due_at 5 _, by decide⟩, by decide, by decide, by decide⟩

/-- The station IDLE before the entry of (5, 2), which starts at 10:00. -/
def beforeAt (second : Nat) : State := atSecond second (dueAt 5)

theorem sound_before (second : Nat) : (beforeAt second).Sound := sound_due_at 5 _

theorem witness_walk_in :
    ((beforeAt 35100).Sound ∧ (beforeAt 35100).port.serving = false ∧ (beforeAt 35100).station = .run ∧
      (beforeAt 35100).calendar.clock.set = true ∧ (beforeAt 35100).meeting.state = .idle ∧
      heldCount (beforeAt 35100).calendar.view < 8 ∧
      ∀ e ∈ (beforeAt 35100).calendar.view, e.wire.due (beforeAt 35100).calendar.clock = false) ∧
    (∃ e ∈ (beforeAt 35160).calendar.view, (beforeAt 35160).calendar.clock.minuteNumber < e.wire.start ∧
      e.wire.start < (beforeAt 35160).calendar.clock.minuteNumber + 15) ∧
    (∃ e ∈ (beforeAt 35100).calendar.view, (beforeAt 35100).calendar.clock.minuteNumber + 15 ≤ e.wire.start ∧
      (∀ x ∈ (beforeAt 35100).calendar.view, (beforeAt 35100).calendar.clock.minuteNumber < x.wire.start →
        e.wire.start ≤ x.wire.start) ∧
      15 = min 60 ((e.wire.start - (beforeAt 35100).calendar.clock.minuteNumber) / 5 * 5)) ∧
    (∀ e ∈ (viewAt 9 []).calendar.view, e.wire.start ≤ (viewAt 9 []).calendar.clock.minuteNumber) :=
  ⟨⟨sound_before 35100, rfl, rfl, rfl, rfl, by decide, by decide⟩, by decide, by decide, by decide⟩

/-- The station of the chair that holds the booking: seat 5 as chair. -/
def holderChair : State := { meetingAt 5 with meeting := { record52 with chair := 5 } }

theorem sound_holder_chair : holderChair.Sound :=
  sound_at_rest _ rfl rfl rfl rfl views_cleared stamps_cleared
    (show ClassesSound Floor.cleared { record52 with chair := 5 } from ⟨by decide, by decide⟩) (calendar_of_one _)
    (fun e he _ => by rw [List.mem_singleton.mp he]; exact ⟨(by decide : record52.state ≠ .idle), rfl⟩)
    (show TablesSound Presence.powerOn.peers (List.replicate 4 .powerOn) { record52 with chair := 5 } from
      ⟨by decide, by decide, by decide, by decide⟩)

theorem chair_taken_three : ChairTaken (meetingAt 3) := ⟨rfl, rfl, by decide⟩

/-- The entry of (5, 2) ended by 720 minutes leaves nothing to grant; a heard one is asked of its holder. -/
theorem witness_chair_ends_and_extends :
    (ChairTaken (meetingAt 3) ∧ (meetingAt 3).meeting.id = some bid52 ∧ (meetingAt 3).meeting.endAsked = false ∧
      hostFrames (meetingAt 3).link.queue < 5 ∧ 5 ≤ hostFrames fiveHosts) ∧
    ((meetingAt 3).Sound ∧ (meetingAt 3).calendar.ask = none ∧
      ∃ e ∈ (meetingAt 3).calendar.view, e.wire.id = bid52 ∧ e.held = false) ∧
    (ChairTaken holderChair ∧ holderChair.Sound ∧ holderChair.meeting.id = some bid52 ∧ holderChair.calendar.ask = none ∧
      ∃ e ∈ holderChair.calendar.view, e.wire.id = bid52 ∧ e.held = true ∧ 5 ≤ grantFor holderChair.calendar.view e.wire 5) ∧
    grantFor [{ wire := { entry52 with duration := 720 }, held := true, active := true, age := 0 }] { entry52 with duration := 720 } 5 < 5 :=
  ⟨⟨chair_taken_three, rfl, rfl, by decide, by decide⟩, ⟨sound_meeting_at 3, rfl, by decide⟩,
    ⟨⟨rfl, rfl, by decide⟩, sound_holder_chair, rfl, rfl, by decide⟩, by decide⟩

theorem witness_grant : (meetingAt 5).Sound ∧ ∃ e ∈ (meetingAt 5).calendar.view, grantFor (meetingAt 5).calendar.view e.wire 60 = 60 :=
  ⟨sound_meeting_at 5, by decide⟩

/-- The body of an EXTEND_ANSWER of seat 5 that grants 15 minutes to seat 3. -/
def answerBody : List Byte := (Body.extendAnswer bid52 3 true 15 { entry52 with version := 1, duration := 75 }).bytes

theorem witness_calendar_frames :
    Delivered (meetingAt 9) 0x61#8 5#8 [5#8, 2#8] { source := 5, body := .cancel bid52 } ∧
    Delivered (meetingAt 5) 0x62#8 3#8 [5#8, 2#8, 30#8] { source := 3, body := .extendAsk bid52 30 } ∧
    Delivered (meetingAt 3) 0x63#8 5#8 answerBody
      { source := 5, body := .extendAnswer bid52 3 true 15 { entry52 with version := 1, duration := 75 } } ∧
    Delivered (meetingAt 9) 0x64#8 3#8 [5#8, 2#8] { source := 3, body := .endNow bid52 } :=
  ⟨⟨by decide +kernel, by decide, by decide⟩, ⟨by decide +kernel, by decide, by decide⟩,
    ⟨by decide +kernel, by decide, by decide⟩, ⟨by decide +kernel, by decide, by decide⟩⟩

theorem witness_calendar_frame_tests :
    (viewFind (meetingAt 5).calendar.view bid52).map (fun e => (e.held, e.wire.chair)) = some (true, 3) ∧
    (viewFind (meetingAt 9).calendar.view bid52).map (fun e => e.held) = some false ∧
    ({ holder := 9, serial := 2 } : Bid).holder ≠ 5 ∧ (meetingAt 3).config.seat = 3 ∧ (meetingAt 9).config.seat ≠ 3 := by decide

theorem witness_discarded_frames :
    parseFrame 0x42#8 49#8 [5#8, 2#8] = none ∧
    parseFrame 0x42#8 9#8 [5#8, 2#8] = some { source := 9, body := withdraw52 } ∧ State.reset.station = .setup ∧
    (clashAt 9).station = .clash ∧ (clashAt 9).config.seat = 9 := by decide

theorem witness_own_seat_frame :
    parseFrame 0x42#8 9#8 [5#8, 2#8] = some { source := 9, body := withdraw52 } ∧ (meetingAt 9).station = .run ∧
    (meetingAt 9).config.seat = 9 ∧ (meetingAt 9).link.inSend = none ∧ (meetingAt 9).link.finishing = false ∧
    (sendingAt 9 withdraw52 1 (meetingAt 9)).link.inSend.isSome = true := by decide

theorem witness_meeting_filter :
    (meetingAt 9).meeting.id = some bid52 ∧
    (Delivered (meetingAt 9) 0x42#8 8#8 [5#8, 1#8] { source := 8, body := .withdraw (some { holder := 5, serial := 1 }) } ∧
      filteredId (.withdraw (some { holder := 5, serial := 1 })) = some (some { holder := 5, serial := 1 }) ∧
      some { holder := 5, serial := 1 } ≠ (meetingAt 9).meeting.id) ∧
    (Delivered (idleAt .seat 9) 0x42#8 8#8 [5#8, 2#8] { source := 8, body := withdraw52 } ∧ (idleAt .seat 9).meeting.state = .idle) ∧
    ((sendingAt 9 withdraw52 8 (idleAt .seat 9)).link.finishing = false ∧ filteredId withdraw52 = some (some bid52)) :=
  ⟨rfl, ⟨⟨by decide, by decide, by decide⟩, rfl, by decide⟩, ⟨⟨by decide, by decide, by decide⟩, rfl⟩, rfl, rfl⟩

/-- Two seats in the queue and one open. -/
def smallFloor : Floor :=
  { openSet := [openAt 5 40 31 .delegate], queue := [queuedAt 8 42, queuedAt 9 43], stamp := 44, priority := false }

theorem views_small : ViewsSound smallFloor := ⟨by decide, by decide, by decide, by decide, by decide⟩

theorem witness_withdraw :
    (Delivered (meetingAt 9) 0x42#8 8#8 [5#8, 2#8] { source := 8, body := .withdraw (some bid52) } ∧
      (meetingAt 9).filterPasses (some bid52) = true) ∧
    (ViewsSound smallFloor ∧ smallFloor.position 8 = some 1 ∧ smallFloor.position 9 = some 2) ∧ smallFloor.isQueued 5 = false :=
  ⟨⟨⟨by decide, by decide, by decide⟩, by decide⟩, ⟨views_small, by decide, by decide⟩, by decide⟩

theorem witness_seat_frames :
    (meetingAt 9).filterPasses (some bid52) = true ∧
    Delivered (meetingAt 9) 0x41#8 8#8 [5#8, 2#8, 0#8, 0#8, 0#8, 58#8] { source := 8, body := .request (some bid52) 58 } ∧
    Delivered (meetingAt 9) 0x43#8 3#8 [5#8, 2#8, 0#8, 0#8, 0#8, 45#8, 0#8, 0#8, 0#8, 44#8, 1#8]
      { source := 3, body := .opening (some bid52) 45 44 .chair } ∧
    Delivered (meetingAt 9) 0x45#8 8#8 [5#8, 2#8, 0#8, 0#8, 0#8, 58#8] { source := 8, body := .yield (some bid52) 58 } :=
  ⟨by decide, ⟨by decide, by decide, by decide⟩, ⟨by decide, by decide, by decide⟩, ⟨by decide, by decide, by decide⟩⟩

theorem witness_chair_frames :
    ((meetingAt 9).isChairSeat 3 = true ∧ (meetingAt 9).isChairSeat 8 = false) ∧
    Delivered (meetingAt 9) 0x44#8 3#8 [5#8, 2#8, 9#8, 4#8] { source := 3, body := .close (some bid52) 9 .chair } ∧
    Delivered (meetingAt 9) 0x46#8 3#8 [5#8, 2#8, 9#8] { source := 3, body := .grant (some bid52) 9 } ∧
    Delivered (meetingAt 9) 0x47#8 3#8 [5#8, 2#8] { source := 3, body := .clear (some bid52) } ∧
    Delivered (meetingAt 9) 0x48#8 3#8 [5#8, 2#8, 1#8] { source := 3, body := .priority (some bid52) true } ∧
    Delivered (meetingAt 9) 0x49#8 3#8 [5#8, 2#8, 9#8, 2#8, 0x58#8] { source := 3, body := .timeAdd (some bid52) 9 600 } :=
  ⟨by decide, ⟨by decide, by decide, by decide⟩, ⟨by decide, by decide, by decide⟩, ⟨by decide, by decide, by decide⟩,
    ⟨by decide, by decide, by decide⟩, ⟨by decide, by decide, by decide⟩⟩

/-- Own states in which the clauses on CLEAR and PRIORITY differ. -/
theorem witness_chair_frame_states :
    (∀ s : State, s = { meetingAt 9 with floor := smallFloor, mic := { OwnMic.reset with state := .waiting, requestStamp := 43 } } →
      s.floor.isQueued s.config.seat = true ∧ s.mic.state = .waiting) ∧
    (meetingAt 9).floor.isQueued 9 = false ∧
    (∀ s : State, s = { speakingAt 9 with meeting := { record52 with profile := { profile52 with priorityCloses := true } } } →
      s.meeting.profile.priorityAllowed = true ∧ s.floor.priority = false ∧ s.meeting.profile.priorityCloses = true ∧
      s.mic.state = .open ∧ s.mic.cls = some .delegate) ∧
    (meetingAt 9).meeting.profile.priorityCloses = false ∧
    ({ profile52 with priorityAllowed := false } : Profile).priorityAllowed = false ∧ (meetingAt 9).mic.state = .closed :=
  ⟨fun s h => by subst h; decide, by decide, fun s h => by subst h; decide, by decide, rfl, rfl⟩

/-- The beacon of seat 5 in the meeting (5, 2). -/
def beacon5 : BeaconBody := { composeBeacon (idleAt .seat 5) with day := 812, second := 36000 }

theorem witness_voice_share_and_beacon :
    Delivered (meetingAt 9) 0x10#8 8#8 (Body.voice (some bid52) 45 44 65535 true (List.replicate 64 (-1))).bytes
      { source := 8, body := .voice (some bid52) 45 44 65535 true (List.replicate 64 (-1)) } ∧
    Delivered (meetingAt 9) 0x4A#8 8#8 [5#8, 2#8, 2#8, 0#8, 0#8, 0#8, 61#8] { source := 8, body := .share (some bid52) 2 61 } ∧
    Delivered (meetingAt 9) 0x4B#8 8#8 [5#8, 2#8] { source := 8, body := .unshare (some bid52) } ∧
    Delivered (idleAt .seat 9) 0x20#8 5#8 (Body.beacon beacon5).bytes { source := 5, body := .beacon beacon5 } ∧
    ((idleAt .seat 9).presence.peers.length = 48 ∧ (idleAt .seat 9).config.follower = false ∧ beacon5.endedEarly = none ∧
      beacon5.entry = none ∧ beacon5.meeting = none ∧ (idleAt .seat 9).meeting.state = .idle) ∧
    (Delivered { idleAt .seat 9 with calendar := .powerOn } 0x20#8 5#8 (Body.beacon { beacon5 with entry := some entry52 }).bytes
      { source := 5, body := .beacon { beacon5 with entry := some entry52 } } ∧
      ({ idleAt .seat 9 with calendar := .powerOn } : State).calendar.clock.set = false) :=
  ⟨⟨by decide +kernel, by decide, by decide⟩, ⟨by decide, by decide, by decide⟩, ⟨by decide, by decide, by decide⟩,
    ⟨by decide +kernel, by decide, by decide⟩, by decide +kernel, ⟨by decide +kernel, by decide, by decide⟩, rfl⟩

theorem witness_opening_and_displacement :
    ViewsSound smallFloor ∧ (8 : Nat) ≠ 9 ∧ smallFloor.isOpen 8 = false ∧ smallFloor.isOpen 9 = false ∧
    (smallFloor.delegates.drop 0).length = 1 ∧ (smallFloor.delegates.drop 1).length = 0 :=
  ⟨views_small, by decide, by decide, by decide, by decide, by decide⟩

/-- A step of seat 9's view, seen while seat 8 is open with slot 1. -/
def stepTo (l : List OpenRecord) (left : List (Nat × Reason)) : FloorStep :=
  { floor := { openSet := l, queue := [], stamp := 1, priority := false }, left := left }

theorem witness_step_hands_on :
    ((stepTo [] [(8, .stale)]).removals (listeningAt 9).floor = [(8, .stale)] ∧ (stepTo [] [(8, .stale)]).entries (listeningAt 9).floor = [] ∧
      (listeningAt 9).config.role ≠ .door ∧ (8 : Nat) ≠ (listeningAt 9).config.seat) ∧
    ((stepTo [openAt 8 1 1 .delegate, openAt 10 1 1 .delegate] []).entries (listeningAt 9).floor = [10] ∧
      (stepTo [openAt 8 1 1 .delegate, openAt 10 1 1 .delegate] []).removals (listeningAt 9).floor = [] ∧
      (listeningAt 9).mix.slots = [{ Slot.freed with seat := 8, state := .filling }] ++ Slot.freed :: List.replicate 5 Slot.freed) ∧
    (idleAt .door 48).config.role = .door ∧
    (stepTo [] [(8, .stale)]).removals (listeningAt 8).floor = [((listeningAt 8).config.seat, .stale)] ∧
    (listeningAt 9).port.notices.length + 1 + 0 ≤ 16 := by decide

/-- A station that waits behind one open seat, under a mode and a limit. -/
def waitingAt (mode : FloorMode) (limit : Nat) : State :=
  { meetingAt 9 with
    meeting := { record52 with profile := { profile52 with mode := mode, limit := limit } },
    floor := { openSet := [openAt 5 40 31 .delegate], queue := [queuedAt 9 43], stamp := 44, priority := false },
    mic := { OwnMic.reset with state := .waiting, requestStamp := 43 } }

/-- The same station after it has offered its OPEN, with that frame in its queue. -/
def openingAt (limit : Nat) : State :=
  { waitingAt .firstCome limit with
    mic := { OwnMic.reset with state := .opening, cls := some .delegate, requestStamp := 43, openStamp := 45 },
    link := { Link.powerOn with queue := [{ source := 9, body := .opening (some bid52) 45 43 .delegate }] } }

theorem witness_own_side :
    ((idleAt .seat 9).meeting.state = .idle ∧ (meetingAt 9).mic.state = .closed) ∧
    ((waitingAt .firstCome 2).floor.position 9 = some 1 ∧ (waitingAt .firstCome 2).eligible = true ∧
      (waitingAt .firstCome 2).floor.stamp ≤ maxStamp) ∧
    (waitingAt .firstCome 1).eligible = false ∧
    (∀ s : State, s = { waitingAt .chairGrant 2 with meeting := { (waitingAt .chairGrant 2).meeting with chair := 9 } } →
      s.meeting.profile.mode = .chairGrant ∧ s.chairPresent = true ∧ s.eligible = false) ∧
    ((openingAt 1).mic.state = .opening ∧ (openingAt 1).mic.cls = some .delegate ∧ (openingAt 1).mic.closePending = none ∧
      (openingAt 1).eligible = false ∧ (∃ f ∈ (openingAt 1).link.queue, f.internalKind = some .mic) ∧
      (openingAt 1).port.serving = false) ∧
    ((openingAt 2).eligible = true ∧ ∀ f ∈ ({ openingAt 1 with link := .powerOn } : State).link.queue, f.internalKind ≠ some .mic) ∧
    (∀ s : State, s = { speakingAt 9 with meeting := { record52 with profile := { profile52 with mode := .override, limit := 1 } } } →
      s.mic.state = .open ∧ s.mic.cls = some .delegate ∧ s.meeting.profile.mode = .override ∧
      s.floor.delegates.length = s.meeting.profile.limit ∧ s.floor.delegates.head?.map (fun r => r.seat) = some s.config.seat ∧
      s.floor.queue ≠ []) ∧
    (speakingAt 9).meeting.profile.mode ≠ .override :=
  ⟨by decide, by decide, by decide, fun s h => by subst h; decide, by decide, by decide, fun s h => by subst h; decide, by decide⟩

theorem witness_press :
    ((meetingAt 9).config.role = .seat ∧ (meetingAt 9).station = .run ∧ (meetingAt 9).meeting.state ≠ .idle ∧
      (meetingAt 9).port.serving = false ∧ (meetingAt 9).mic.state = .closed ∧ (meetingAt 9).floor.stamp ≤ maxStamp ∧
      (meetingAt 9).isChair = false ∧ (meetingAt 9).floor.isOpen 9 = false ∧ (meetingAt 9).floor.isQueued 9 = false) ∧
    (meetingAt 3).isChair = true ∧ (waitingAt .firstCome 1).mic.state = .waiting ∧
    (∀ s : State, s = sendingAt 9 (.opening (some bid52) 45 43 .delegate) 1 { openingAt 2 with link := .powerOn } →
      s.mic.state = .opening ∧ s.mic.closePending = none ∧ (∀ f ∈ s.link.queue, f.internalKind ≠ some .mic) ∧
      s.link.inSend.map (fun x => (x.voided, x.frame.body.kindCode)) = some (false, 0x43#8)) ∧
    ((speakingAt 9).mic.state = .open ∧ (speakingAt 9).floor.isOpen 9 = true ∧ (speakingAt 9).port.notices.length < 16) ∧
    (RunTaken (viewAt 9 []) ∧ (viewAt 9 []).meeting.state = .idle) ∧ (RunTaken (idleAt .door 48) ∧ (idleAt .door 48).config.role ≠ .seat) ∧
    (RunTaken (clashAt 9) ∧ (clashAt 9).station = .clash) ∧ (State.reset.config.role = .seat ∧ State.reset.station = .setup) :=
  ⟨by decide, by decide, rfl, fun s h => by subst h; decide, by decide, ⟨run_taken_idle 9 [], rfl⟩,
    ⟨⟨rfl, by decide⟩, by decide⟩, ⟨⟨rfl, by decide⟩, rfl⟩, rfl, rfl⟩

/-- Budgets at their boundaries: W = 30 is reached with 31 left, and not with 32. -/
theorem witness_budget_and_silence :
    ((speakingAt 9).mic.state = .open ∧ (speakingAt 9).mic.remaining = some (29 + 2) ∧ (speakingAt 9).mic.overrun = false ∧
      0 < (speakingAt 9).meeting.profile.warning ∧ 29 + 1 ≤ (speakingAt 9).meeting.profile.warning ∧ (speakingAt 9).mic.warned = false ∧
      (speakingAt 9).meeting.profile.warning < 30 + 1) ∧
    ((speakingAt 9).meeting.profile.budgetKind = .soft ∧ ({ profile52 with budgetKind := .hard } : Profile).budgetKind = .hard) ∧
    ({ (speakingAt 9).mic with overrun := true, warned := true, remaining := some 0 } : OwnMic).overrun = true ∧
    ((speakingAt 9).mic.cls = some .delegate ∧ (speakingAt 9).capture.talking = false ∧
      0 < ({ profile52 with silence := 5 } : Profile).silence) := by decide

theorem witness_chair_commands :
    (RunTaken (meetingAt 9) ∧ (meetingAt 9).station = .run ∧ (meetingAt 9).isChair = false) ∧
    (RunTaken (clashAt 3) ∧ (clashAt 3).station = .clash) ∧
    ((0#8).toNat = 0 ∧ 48 < (49#8).toNat ∧ 3 < (4#8).toNat ∧ (3#8).toNat ≤ 3 ∧ 1 < (2#8).toNat ∧ (48#8).toNat ≤ 48) ∧
    (idleAt .door 48).config.role ≠ .seat ∧ ChairTaken (meetingAt 3) ∧
    (∀ s : State, s = { meetingAt 3 with floor := smallFloor } →
      s.floor.position 8 = some 1 ∧ s.floor.isQueued 9 = true ∧ s.floor.delegates.head?.map (fun r => r.seat) = some 5 ∧
      s.floor.delegates.length < s.meeting.profile.limit) ∧
    (meetingAt 3).meeting.profile.priorityAllowed = true ∧ ({ profile52 with priorityAllowed := false } : Profile).priorityAllowed = false :=
  ⟨⟨⟨rfl, by decide⟩, by decide⟩, ⟨⟨rfl, by decide⟩, rfl⟩, by decide, by decide, chair_taken_three, fun s h => by subst h; decide, rfl, rfl⟩

theorem witness_share_commands :
    (RunTaken (meetingAt 9) ∧ 2 < (3#8).toNat ∧ (2#8).toNat ≤ 2) ∧
    ((meetingAt 9).config.role = .seat ∧ (meetingAt 9).station = .run ∧ (meetingAt 9).meeting.state ≠ .idle ∧
      (meetingAt 9).meeting.profile.shareRule = .free ∧ (meetingAt 9).share.claim ≠ .claiming ∧ (meetingAt 9).share.claim = .none ∧
      (meetingAt 9).floor.stamp ≤ maxStamp) ∧
    (({ profile52 with shareRule := .floorOnly } : Profile).shareRule = .floorOnly ∧ (meetingAt 9).mic.state ≠ .open ∧
      (meetingAt 9).isChair = false) ∧
    ({ Share.powerOn with claim := .claiming } : Share).claim = .claiming ∧ (idleAt .door 48).config.role ≠ .seat ∧
    ((clashAt 9).config.role = .seat ∧ (clashAt 9).station = .clash) ∧
    ((idleAt .seat 9).config.role = .seat ∧ (idleAt .seat 9).meeting.state = .idle) ∧
    (∀ s : State, s = { idleAt .seat 9 with station := .setup } → s.config.role = .seat ∧ IdleEmpty s ∧ s.station = .setup) :=
  ⟨⟨⟨rfl, by decide⟩, by decide⟩, by decide, by decide, rfl, by decide, by decide, by decide,
    fun s h => by subst h; exact ⟨rfl, ⟨fun _ => rfl, fun _ => rfl, fun _ => ⟨rfl, rfl⟩, fun _ => rfl, fun _ => rfl⟩, rfl⟩⟩

/-- R173: in SETUP, and while no meeting runs, a SHARE press offers nothing and makes no claim. -/
theorem test_share_press_without_a_meeting :
    (sharePressed (idleAt .seat 9)) = idleAt .seat 9 ∧ sharePressed State.reset = State.reset := by decide

/-- R83: condition 3, IF_QUEUED, at a station that is not the chair, and in CLASH. -/
theorem test_grant_if_queued_elsewhere :
    exec (.grant 8#8 3#8) (meetingAt 9) = .next ((meetingAt 9).answered .notChair) ∧
    exec (.grant 8#8 3#8) (clashAt 3) = .next ((clashAt 3).answered .badState) := ⟨rfl, rfl⟩

/-- A share map with seat 9 on screen 1. -/
def sharedMap : Share := { Share.powerOn with screen1 := some { seat := 9, stamp := 61 } }

theorem witness_claims :
    Share.powerOn.screen1 = none ∧ sharedMap.screen1 = some { seat := 9, stamp := 61 } ∧ (9 : Nat) ≠ 3 ∧ (14 : Nat) ≠ 3 ∧
    ((61 : Nat) < 62 ∨ ((61 : Nat) = 61 ∧ (9 : Nat) < 14)) ∧ ((60 : Nat) < 61 ∨ ((61 : Nat) = 61 ∧ (9 : Nat) ≤ 9)) := by decide

theorem witness_attempts :
    (∀ s : State, s = sendingAt 9 withdraw52 7 (meetingAt 9) →
      s.link.finishing = false ∧ s.link.inSend.map (fun x => (x.voided, x.attempt)) = some (false, 7)) ∧
    (∀ s : State, s = sendingAt 9 (.opening (some bid52) 45 43 .delegate) 8 (meetingAt 9) →
      s.link.finishing = false ∧ s.link.inSend.map (fun x => (x.voided, x.attempt)) = some (false, 8)) ∧
    ((sendingAt 9 withdraw52 1 (meetingAt 9)).link.inSend.map (fun x => ({ x with voided := true } : Sending).voided)) = some true :=
  ⟨fun s h => by subst h; decide, fun s h => by subst h; decide, by decide⟩

theorem witness_holders :
    ((meetingAt 9).link.inSend = none ∧ (meetingAt 9).link.finishing = false ∧ (meetingAt 9).station = .run) ∧
    ((servingAt 9).link.voiceSlot = none ∧ (servingAt 9).link.queue = [{ source := 9, body := withdraw52 }] ∧
      (servingAt 9).port.serving = true) ∧
    (({ source := 9, body := withdraw52 } : Frame).internalKind ≠ none ∧
      inversePair { source := 9, body := .request (some bid52) 58 } { source := 9, body := withdraw52 } = true ∧
      inversePair { source := 9, body := withdraw52 } { source := 9, body := .request (some bid52) 58 } = false ∧
      ({ source := 9, body := .request (some bid52) 58 } : Frame).internalKind = ({ source := 9, body := withdraw52 } : Frame).internalKind) ∧
    (clashAt 9).station = .clash ∧ (sendingAt 9 withdraw52 1 (meetingAt 9)).link.inSend ≠ none ∧
    ({ Link.powerOn with beaconSlot := some .normal } : Link).beaconSlot ≠ none ∧ State.reset.station = .setup := by decide

theorem witness_silent_seats_and_beacons :
    ((idleAt .seat 9).station = .run ∧ (idleAt .seat 9).link.beaconSlot = none ∧ (clashAt 9).station = .clash) ∧
    (({ (idleAt .seat 9).presence with
        peers := { Peer.unknownEntry with state := .present } :: List.replicate 47 Peer.unknownEntry } : Presence).peer 1).state = .present ∧
    ((listeningAt 9).config.role ≠ .door ∧ (listeningAt 9).mix.slots[0]?.map (fun x => decide (x.state ≠ .free)) = some true) := by
  decide

theorem witness_block_completion :
    (State.reset.station = .setup ∧ (idleAt .door 48).config.role = .door ∧ (idleAt .wall 47).config.role = .wall) ∧
    ((meetingAt 9).station = .run ∧ (meetingAt 9).config.role = .seat ∧ (List.replicate 64 0#16).length = 64) ∧
    (idleAt .wall 47).station ≠ .setup := by decide

theorem witness_detector :
    (Capture.powerOn.talking = false ∧ ({ Capture.powerOn with talking := true } : Capture).talking = true ∧ (74 : Nat) < 75) ∧
    ((meetingAt 9).config.role = .seat ∧ (meetingAt 9).station = .run) := by decide

theorem witness_terms_and_limiter :
    ((-32768 : Int) ≤ -32768 ∧ (32767 : Int) ≤ 32767 ∧ 32767 ≤ 32767) ∧ (12 ≤ 12 ∧ 499 < 500 ∧ 8 ≤ 8 ∧ 1 ≤ 7 ∧ 7 ≤ 7 ∧ 498 < 499) ∧
    ((idleAt .wall 47).config.role = .wall ∧ (idleAt .wall 47).station ≠ .setup ∧ (idleAt .wall 47).calendar.clock.count < 249) := by
  decide

theorem witness_controls_messages_and_counts :
    ((dueAt 9).station ≠ .setup ∧ ∃ e ∈ (dueAt 9).calendar.view, e.wire.id = bid52 ∧ e.held = false ∧ e.active = false) ∧
    ({ Calendar.powerOn with ask := some { id := bid52, minutes := 30, timer := 749 } } : Calendar).ask ≠ none ∧
    (({ LedState.dark with pattern := .slowBlink } : LedState).pattern = .slowBlink ∧
      ({ LedState.dark with pattern := .fastBlink } : LedState).pattern = .fastBlink) ∧
    (RunTaken (meetingAt 9) ∧ 24 < (List.replicate 25 0x41#8 : List Byte).length ∧ (List.replicate 24 0x41#8 : List Byte) ≠ [] ∧
      (List.replicate 24 0x41#8 : List Byte).length ≤ 24) ∧
    ((meetingAt 9).meeting.state ≠ .idle ∧ (meetingAt 9).config.role = .seat ∧ (meetingAt 9).station = .run ∧
      ({ Capture.powerOn with talking := true } : Capture).talking = true) ∧
    ({ Screen.powerOn with running := true } : Screen).running = true :=
  ⟨by decide, by decide, by decide, ⟨⟨rfl, by decide⟩, by decide⟩, by decide, rfl⟩

/-- Each row of the lamp table, a presenter on the configured screen, and each state of the transfer. -/
theorem witness_lamps_selector_and_display :
    ((meetingAt 9).config.role = .seat ∧ (meetingAt 9).station = .run ∧ (meetingAt 9).mic.state = .closed) ∧
    ((waitingAt .firstCome 1).mic.state = .waiting ∧ (waitingAt .firstCome 1).floor.queueRecord 9 = some (queuedAt 9 43)) ∧
    (openingAt 1).mic.state = .opening ∧ ((speakingAt 9).mic.state = .open ∧ (speakingAt 9).mic.overrun = false ∧
      (speakingAt 9).mic.remaining = some 31) ∧ (clashAt 9).station = .clash ∧
    ((idleAt .wall 47).config.role = .wall ∧ (idleAt .wall 47).station ≠ .setup ∧ (idleAt .wall 47).config.wallScreen = 1 ∧
      sharedMap.screen1 = some { seat := 9, stamp := 61 }) ∧
    ({ record52 with state := .ending } : Meeting).state = .ending ∧ Screen.powerOn.running = false ∧
    ({ Screen.powerOn with running := true } : Screen).running = true := by decide

/-- A FIFO at its boundaries: one, three and four held blocks, a block number equal to the newest and one above it. -/
theorem witness_slots :
    ((listeningAt 9).config.role ≠ .door ∧
      (listeningAt 9).mix.slots = [] ++ { Slot.freed with seat := 8, state := .filling } :: List.replicate 6 Slot.freed ∧
      ∀ z ∈ [] ++ List.replicate 6 Slot.freed, z.state = .free ∨ z.seat ≠ 8) ∧
    (newerBlock 0 65535 = true ∧ newerBlock 7 7 = false) ∧ (3 < 4 ∧ 4 ≤ 4) ∧
    (∀ z ∈ (listeningAt 9).mix.slots, z.state = .free ∨ z.seat ≠ 9) ∧ (idleAt .door 48).config.role = .door := by decide

theorem test_second_block_plays :
    (Slot.take { Slot.freed with seat := 8, state := .filling, fifo := [{ block := 6, talking := true, samples := [] }] }
      { block := 7, talking := true, samples := [] }).state = .playing := by decide

/-! ## Witnesses of the clauses on single operations -/

theorem witness_clash_slot_empty :
    ClashSilent (clashAt 9) ∧ (clashAt 9).station = .clash ∧ (clashAt 9).link.beaconSlot = none ∧
    ∃ t, step { clashAt 9 with pending := [.beaconRequest] } = .next t :=
  ⟨⟨fun _ => rfl, fun _ => rfl, fun _ => by decide, fun _ x h => by cases h; exact Or.inl rfl⟩, rfl, rfl, _, rfl⟩

/-- The counts of a block, one below and at each end. -/
theorem witness_counts :
    (State.reset.calendar.clock.set = false ∧ (idleAt .seat 9).calendar.clock.set = true ∧ (248 : Nat) < 249 ∧ 249 ≤ 249) ∧
    ((749 : Nat) ≤ 749 ∧ 14998 < 14999 ∧ 498 < 499 ∧ (idleAt .seat 9).station ≠ .setup) ∧
    ((meetingAt 9).calendar.ask = none ∧ (meetingAt 9).meeting.endedEarly = none ∧ (idleAt .seat 9).meeting.state = .idle ∧
      (meetingAt 9).meeting.state ≠ .idle) ∧
    (({ LedState.dark with pattern := .fastBlink, phaseCount := 48 } : LedState).phaseCount + 1 < 50 ∧
      250 ≤ ({ LedState.dark with pattern := .slowBlink, phaseCount := 249 } : LedState).phaseCount + 1) ∧
    (Button.released.pressed = false ∧ (3 : Nat) < 4 ∧ 4 ≤ 4 ∧ (idleAt .door 48).config.role ≠ .seat) := by decide

/-- An end from OPENING and from OPEN. -/
theorem witness_end_from_opening_and_open :
    (openingAt 1).mic.state = .opening ∧ (waitingAt .firstCome 1).mic.state = .waiting ∧
    ((speakingAt 9).mic.state = .open ∧ (speakingAt 9).floor.isOpen (speakingAt 9).config.seat = true ∧
      (speakingAt 9).port.notices.length + 2 ≤ 16) := by decide

/-- Arrivals at seat 9 from seat 5: over, ended early, a repeat, a newer version, and new ids that lose, win and find
no room. -/
theorem witness_arrivals :
    (entry52.id.holder ≠ 8 ∧ (atSecond 39600 (meetingAt 9)).calendar.clock.set = true ∧
      entry52.finish ≤ (atSecond 39600 (meetingAt 9)).calendar.clock.minuteNumber) ∧
    (entry52.id.holder = 5 ∧ (atSecond 39599 (meetingAt 9)).calendar.clock.minuteNumber < entry52.finish ∧
      (meetingAt 9).meeting.endedEarly ≠ some entry52.id) ∧
    ((viewFind (meetingAt 9).calendar.view bid52).map (fun e => (e.active, e.wire.version)) = some (true, 0) ∧
      newerVersion 0 0 = false ∧ newerVersion 1 0 = true) ∧
    (∃ e ∈ [{ bookingAt 0 614 false with active := true }],
      ({ wire := { entry52 with version := 1 }, held := false, active := false, age := 0 } : Entry).wire.overlaps e.wire = true ∧
      ({ wire := { entry52 with version := 1 }, held := false, active := false, age := 0 } : Entry).beats e = false) ∧
    (∀ e ∈ [bookingAt 0 659 true], ({ wire := entry52, held := false, active := false, age := 0 } : Entry).wire.overlaps e.wire = true ∧
      ({ wire := entry52, held := false, active := true, age := 0 } : Entry).beats e = true) ∧
    (∀ e ∈ [bookingAt 0 660 true], e.wire.id ≠ entry52.id ∧
      ({ wire := entry52, held := false, active := false, age := 0 } : Entry).wire.overlaps e.wire = false) ∧
    makeRoom entry52 [] = some [] ∧ (makeRoom entry52 heldView).isNone = true := by decide +kernel

theorem witness_end_or_remove :
    (∀ e ∈ (viewAt 9 []).calendar.view, e.wire.id ≠ bid52) ∧
    (viewFind (dueAt 9).calendar.view bid52).map (fun e => e.active) = some false ∧
    (viewFind (meetingAt 9).calendar.view bid52).map (fun e => e.active) = some true := by decide

theorem witness_extension_and_end_now :
    grantFor [] { entry52 with duration := 716 } 5 < 5 ∧ 5 ≤ grantFor [] { entry52 with duration := 715 } 5 ∧
    ((meetingAt 9).meeting.state ≠ .idle ∧ (meetingAt 9).meeting.id = some bid52) ∧
    ((idleAt .seat 9).meeting.state = .idle ∧ (meetingAt 9).meeting.id ≠ some { holder := 5, serial := 1 }) ∧
    ({ Calendar.powerOn with ask := some { id := bid52, minutes := 30, timer := 0 } } : Calendar).ask.map (fun a => decide (a.id = bid52))
      = some true := by decide

/-- The own-microphone states in which a CLOSE or a CLEAR of the chair acts. -/
theorem witness_chair_acts_at_the_seat :
    ((8 : Nat) ≠ (meetingAt 9).config.seat ∧ (meetingAt 9).mic.state = .closed ∧ (meetingAt 9).config.seat = 9) ∧
    ((openingAt 1).mic.state = .opening ∧ (openingAt 1).mic.closePending = none ∧ (openingAt 1).floor.isQueued 9 = true ∧
      (∃ f ∈ (openingAt 1).link.queue, f.internalKind = some .mic) ∧ (openingAt 1).port.serving = false) ∧
    ({ (openingAt 1).mic with closePending := some .speaker } : OwnMic).closePending ≠ none ∧
    (∀ f ∈ ({ openingAt 1 with link := .powerOn } : State).link.queue, f.internalKind ≠ some .mic) ∧
    (speakingAt 9).mic.state = .open := by decide

/-- Seat 9 of the meeting with seat 3, its chair, and seat 8 PRESENT. -/
def hearingAt : State :=
  { meetingAt 9 with presence := { Presence.powerOn with
      peers := (Presence.powerOn.peers.set 2 { Peer.unknownEntry with state := .present }).set 7
        { Peer.unknownEntry with state := .present } } }

theorem witness_heard :
    (hearingAt.presence.peers.length = 48 ∧ (hearingAt.presence.peer 8).state = .present ∧ hearingAt.isChairSeat 8 = false) ∧
    (((meetingAt 9).presence.peer 3).state ≠ .present ∧ (meetingAt 9).isChairSeat 3 = true) := by decide +kernel

/-- A beacon of the door station, seat 5, that carries every part, at a follower in the meeting. -/
def fullBeacon : BeaconBody :=
  { beacon5 with role := .door, meeting := some bid52, endedEarly := some { holder := 8, serial := 1 }, request := some 46,
                 share := some (1, 46), entry := some { entry52 with version := 1, duration := 75 }, second := 36002 }

/-- The follower that hears it. -/
def followerAt : State := { meetingAt 9 with config := { (meetingAt 9).config with follower := true } }

theorem witness_full_beacon :
    Delivered followerAt 0x20#8 5#8 (Body.beacon fullBeacon).bytes { source := 5, body := .beacon fullBeacon } ∧
    (followerAt.config.follower = true ∧ fullBeacon.role = .door ∧ ¬ (fullBeacon.day = 65535 ∧ fullBeacon.second = 86399) ∧
      followerAt.calendar.clock.day * 86400 + followerAt.calendar.clock.second + 2 ≤ fullBeacon.day * 86400 + fullBeacon.second) ∧
    (followerAt.filterPasses fullBeacon.meeting = true ∧ (idleAt .seat 9).filterPasses fullBeacon.meeting = false) ∧
    (beacon5.endedEarly = none ∧ beacon5.entry = none ∧ (meetingAt 9).config.follower = false) :=
  ⟨⟨by decide +kernel, by decide, by decide⟩, by decide +kernel, by decide +kernel, by decide +kernel⟩

/-- What a beacon may report of a seat of the small view: an open seat, a queued one with its stamp and with another. -/
theorem witness_reconcile :
    (smallFloor.queueRecord 5 = none ∧ smallFloor.isOpen 5 = true) ∧
    (smallFloor.queueRecord 8 = some (queuedAt 8 42) ∧ (queuedAt 8 42).requestStamp ≠ 43) ∧
    (smallFloor.openRecord 5 = some (openAt 5 40 31 .delegate) ∧ (openAt 5 40 31 .delegate).openStamp ≠ 41) ∧
    smallFloor.openRecord 9 = none := by decide

/-- A step that displaces the own seat while the priority state turns on. -/
theorem witness_floor_step :
    (((speakingAt 9).config.seat, Reason.displaced) ∈ (stepTo [] [(9, .displaced)]).removals (speakingAt 9).floor ∧
      ((speakingAt 9).config.seat, Reason.displaced) ∉ (stepTo [] [(9, .speaker)]).removals (speakingAt 9).floor) ∧
    ((speakingAt 9).floor.priority = false ∧ (FloorStep.plain { smallFloor with priority := true }).floor.priority = true) ∧
    ((speakingAt 9).mic.state = .open ∧ (speakingAt 9).mic.cls = some .delegate ∧
      ({ profile52 with priorityCloses := true } : Profile).priorityCloses = true) ∧
    ((openingAt 1).mic.state ≠ .open ∧ (meetingAt 9).meeting.profile.priorityCloses = false) := by decide

/-- A close in OPENING: the OPEN in the queue, in send, voided in send; as the chair and as a delegate. -/
theorem witness_close_opening :
    ((openingAt 1).mic.closePending = none ∧ (openingAt 1).mic.cls ≠ some .chair ∧
      (∃ f ∈ (openingAt 1).link.queue, f.internalKind = some .mic) ∧ (openingAt 1).port.serving = false) ∧
    ({ (openingAt 1).mic with cls := some .chair } : OwnMic).cls = some .chair ∧
    (∀ s : State, s = sendingAt 9 withdraw52 1 { openingAt 1 with link := .powerOn } →
      (∀ f ∈ s.link.queue, f.internalKind ≠ some .mic) ∧ s.link.inSend.map (fun x => decide (x.frame.body.kindCode ≠ 0x43#8)) = some true) :=
  ⟨by decide, by decide, fun s h => by subst h; decide⟩

/-- Budget and silence at their boundaries: the last second, an overrun, no limit, a warning already given, and the
silence count one below and at 5 s. -/
theorem witness_budget_boundaries :
    ((speakingAt 9).mic.state = .open ∧ (1 : Nat) ≤ 1 ∧ OwnMic.reset.remaining = none ∧ (meetingAt 9).mic.state ≠ .open) ∧
    ((30 : Nat) ≤ (speakingAt 9).meeting.profile.warning ∧ (speakingAt 9).meeting.profile.warning < 31 ∧
      ({ (speakingAt 9).mic with warned := true } : OwnMic).warned = true ∧ ({ profile52 with warning := 0 } : Profile).warning = 0) ∧
    ((speakingAt 9).mic.cls = some .delegate ∧ (speakingAt 9).mic.remaining = some 31 ∧ (speakingAt 9).mic.secondCount < 249) ∧
    ((speakingAt 9).floor.isOpen (speakingAt 9).config.seat = true ∧ (speakingAt 9).port.notices.length < 16) ∧
    ((1248 : Nat) + 1 < 5 * 250 ∧ 5 * 250 ≤ 1249 + 1 ∧ 750 ≤ 749 + 1 ∧ (speakingAt 9).capture.talking = false) ∧
    ((speakingAt 9).meeting.profile.silence = 0 ∧ (speakingAt 9).meeting.profile.mode ≠ .voice ∧
      ({ profile52 with mode := .voice } : Profile).mode = .voice ∧ ({ profile52 with silence := 5 } : Profile).silence = 5) := by decide

/-- A SHARE of seat 9 in the queue, and behind a frame in send. -/
def claimingAt : State :=
  { meetingAt 9 with
    link := { Link.powerOn with queue := [{ source := 9, body := .share (some bid52) 1 61 }] },
    share := { Share.powerOn with claim := .claiming, claimScreen := 1, claimStamp := 61 } }

theorem witness_release :
    (claimingAt.share.claim = .claiming ∧ (offer (.unshare claimingAt.meetingId) claimingAt).2 = .cancelled) ∧
    (offer (.unshare claimingAt.meetingId) { claimingAt with link := .powerOn }).2 = .joined ∧
    (({ sharedMap with claim := .sharing } : Share).claim = .sharing ∧ sharedMap.claim = .none) ∧
    ((meetingAt 9).isChair = false ∧ ({ profile52 with shareRule := .floorOnly } : Profile).shareRule = .floorOnly ∧
      profile52.shareRule = .free) := by decide

/-- Claims on screen 1 while seat 9 presents there with stamp 61: later, equal by a lower and by a higher seat, and the
outcomes of the own claim: won, renewed, lost. -/
theorem witness_claim_outcomes :
    ((Share.claimRule sharedMap 14 1 62 3).presenter 1 = some { seat := 14, stamp := 62 } ∧
      sharedMap.presenter 1 = some { seat := 9, stamp := 61 }) ∧
    ((Share.claimRule sharedMap 8 1 61 3).presenter 1 = some { seat := 9, stamp := 61 }) ∧
    (sharedMap.holds 9 = some (1, 61) ∧ sharedMap.holds 8 ≠ some (1, 61) ∧ sharedMap.holds 14 = none) ∧
    ((Share.claimRule Share.powerOn 9 1 61 3).presenter 1 = some { seat := 9, stamp := 61 } ∧
      Share.powerOn.presenter 1 ≠ some { seat := 9, stamp := 61 } ∧ Share.powerOn.release = false) ∧
    ((61 : Nat) ≤ 61 ∧ ({ sharedMap with release := true } : Share).release = true) ∧
    ((Share.claimRule sharedMap 8 1 61 3).presenter 1).map (fun p => decide (p.seat ≠ 8)) = some true ∧
    sharedMap.claim ≠ .claiming := by decide

/-- SENT of an OPEN that enters and that is displaced at once, with and without a close pending; ABANDONED in and out of
the own queue. -/
theorem witness_open_outcomes :
    (((openingAt 2).floor.opening 9 .delegate 45 43 0 2).floor.isOpen (openingAt 2).config.seat = true ∧
      ((openingAt 1).floor.opening 9 .delegate 45 43 0 1).floor.isOpen (openingAt 1).config.seat = false) ∧
    ((openingAt 1).mic.closePending = none ∧ ({ (openingAt 1).mic with closePending := some .speaker } : OwnMic).closePending = some .speaker) ∧
    ((meetingAt 9).mic.state ≠ .opening ∧ (openingAt 1).mic.state = .opening ∧ (openingAt 1).mic.cls ≠ some .chair ∧
      (openingAt 1).floor.isQueued (openingAt 1).config.seat = true ∧ (meetingAt 9).floor.isQueued 9 = false) := by decide

/-- An offer that empties the queue of a FLUSH being served, one that does not, and the three answers of a withdrawal. -/
theorem witness_offers :
    ((meetingAt 9).station ≠ .clash ∧ (servingAt 9).port.serving = true ∧
      coalesce { source := 9, body := withdraw52 } [{ source := 9, body := .request (some bid52) 58 }] = ([], .cancelled) ∧
      coalesce { source := 9, body := withdraw52 } [] = ([{ source := 9, body := withdraw52 }], .joined)) ∧
    ((∃ f ∈ (openingAt 1).link.queue, f.internalKind = some .mic) ∧
      (openingAt 1).link.queue.filter (fun f => decide (f.internalKind ≠ some .mic)) = []) ∧
    ∀ f ∈ (meetingAt 9).link.queue, f.internalKind ≠ some .mic := by decide

/-- The parts of a block: a SEAT station in SETUP, the onset under VOICE, placing, and the mix of each role. -/
theorem witness_block_parts :
    (State.reset.config.role = .seat ∧ State.reset.station = .setup ∧ (speakingAt 9).capture.placing = true ∧
      (meetingAt 9).capture.placing = false) ∧
    ((meetingAt 9).mic.state = .closed ∧ ({ profile52 with mode := .voice } : Profile).mode = .voice ∧
      (meetingAt 9).meeting.profile.mode ≠ .voice ∧ (openingAt 1).mic.state = .opening) ∧
    ((meetingAt 9).config.role ≠ .door ∧ (meetingAt 9).station ≠ .setup) := by decide

/-- Muted by volume, by a duck of 63 and by priority; heard; and the SEAT stations of the mix clause. -/
theorem witness_source_gain :
    ({ Mix.powerOn with volume := 63 } : Mix).volume = 63 ∧
    ((speakingAt 9).config.role = .seat ∧ (speakingAt 9).floor.isOpen (speakingAt 9).config.seat = true ∧
      (speakingAt 9).config.duck ≠ 63 ∧ (speakingAt 9).mix.volume ≠ 63 ∧ (speakingAt 9).floor.priority = false) ∧
    ((8 : Nat) ≠ (meetingAt 9).meeting.chair ∧ (3 : Nat) = (meetingAt 9).meeting.chair) ∧
    (false = (meetingAt 9).controls.mic.pressed ∧ (meetingAt 9).mic.state ≠ .open ∧ (meetingAt 9).meeting.profile.mode ≠ .voice) := by
  decide

/-! ## Witnesses of what a reply, a replay, a step of slots and a page hold -/

/-- Floor records at both ends of the age, an ask one block before its timeout and at it. -/
theorem witness_reply_records :
    (smallFloor.openSet[0]? = some (openAt 5 40 31 .delegate) ∧ (65535 : Nat) < 65536 ∧
      ((openAt 5 40 31 .delegate).since + 0) % 65536 = (meetingAt 9).blockNumber % 65536 ∧ (0 + 65535) % 65536 = 65535 % 65536) ∧
    smallFloor.queue[1]? = some (queuedAt 9 43) ∧
    (({ id := bid52, minutes := 30, timer := 750 } : ExtensionAsk).timer ≤ 750) := by decide

/-- A station that is IDLE and has heard seat 8 report the meeting (5, 2) with a beacon of an age. -/
def reportedAt (age : Nat) (m : Option Bid) : State :=
  { dueAt 9 with presence := { Presence.powerOn with
      peers := Presence.powerOn.peers.set 7
        { Peer.unknownEntry with state := .present, beaconAge := age, meeting := m, mic := some (45, 44) } } }

/-- The replay at ages 500 and 501 and for another meeting, and the warning test of a start with E at 5 and at 0. -/
theorem witness_replay :
    ((reportedAt 500 (some bid52)).presence.peer 8).state = .present ∧
    ((reportedAt 500 (some bid52)).presence.peer 8).beaconAge ≤ 500 ∧
    ((reportedAt 500 (some bid52)).presence.peer 8).meeting = some bid52 ∧
    500 < ((reportedAt 501 (some bid52)).presence.peer 8).beaconAge ∧
    ((reportedAt 500 none).presence.peer 8).meeting ≠ some bid52 ∧
    ((reportedAt 500 none).presence.peer 9).state ≠ .present ∧
    ((meetingAt 9).meeting.state ≠ .idle ∧ (meetingAt 9).meeting.id = some bid52) ∧
    (meetingAt 9).timeRemaining > ((meetingAt 9).meeting.profile.endWarning * 60 : Nat) ∧
    (0 < (meetingAt 9).meeting.profile.endWarning ∧
      (atSecond 39300 (meetingAt 9)).timeRemaining ≤ ((meetingAt 9).meeting.profile.endWarning * 60 : Nat)) ∧
    ({ profile52 with endWarning := 0 } : Profile).endWarning = 0 := by decide +kernel

/-- R29: at the start of (5, 2) the seat that reported it 500 blocks ago is open again, and at 501 blocks it is not. -/
theorem test_replay_opens_within_two_seconds :
    (replaySeat bid52 { meetingAt 9 with presence := (reportedAt 500 (some bid52)).presence } 8).floor.isOpen 8 = true ∧
    (replaySeat bid52 { meetingAt 9 with presence := (reportedAt 501 (some bid52)).presence } 8).floor.isOpen 8 = false := by
  decide +kernel

/-- The refusals of RESTORE_BOOKING and START_MEETING, each at its boundary. -/
theorem witness_booking_refusals :
    ((clashAt 9).station = .clash ∧ RunTaken (clashAt 9) ∧ RunTaken (viewAt 9 []) ∧ (viewAt 9 []).station = .run) ∧
    (1439 < (1440#16).toNat ∧ 24 < (List.replicate 25 0x41#8 : List Byte).length ∧ 86399 < (86400#32).toNat ∧
      3 < (4#8).toNat ∧ (3#8).toNat ≤ 3) ∧
    ({ viewAt 9 [] with calendar := .powerOn } : State).calendar.clock.set = false ∧
    (812 * 1440 + 585 + max 15 (min ((15 + 4) / 5 * 5) 720) ≤ (viewAt 9 []).calendar.clock.minuteNumber ∧
      (viewAt 9 []).calendar.clock.minuteNumber < 812 * 1440 + 586 + max 15 (min ((15 + 4) / 5 * 5) 720)) ∧
    (∃ e ∈ [bookingAt 7 700 false], e.wire.id.holder = 9 ∧ e.wire.id.serial = (7#8).toNat) ∧
    (¬ ∃ e ∈ eightBookings, e.wire.id.holder = 9 ∧ e.wire.id.serial = (8#8).toNat) ∧ 8 ≤ heldCount eightBookings ∧
    (meetingAt 9).meeting.state ≠ .idle ∧ (viewAt 9 eightBookings).meeting.state = .idle :=
  ⟨⟨rfl, ⟨rfl, by decide⟩, run_taken_idle 9 [], rfl⟩, by decide, rfl, by decide, by decide, by decide, by decide, by decide, rfl⟩

/-- An opening with the record's own stamps, with another class, with another stamp, and of a seat with no record. -/
theorem witness_opening_again :
    ViewsSound smallFloor ∧ smallFloor.openRecord 5 = some (openAt 5 40 31 .delegate) ∧
    (openAt 5 40 31 .delegate).cls ≠ .chair ∧ (openAt 5 40 31 .delegate).requestStamp ≠ 32 ∧ smallFloor.openRecord 9 = none :=
  ⟨views_small, by decide, by decide, by decide, by decide⟩

/-- A step in which one seat leaves and two enter, one of them the own seat; the first FREE slot of a list. -/
theorem witness_slots_of_a_step :
    ((stepTo [openAt 9 1 1 .delegate, openAt 10 1 1 .delegate] [(8, .displaced)]).removals (listeningAt 9).floor = [(8, .displaced)] ∧
      (stepTo [openAt 9 1 1 .delegate, openAt 10 1 1 .delegate] [(8, .displaced)]).entries (listeningAt 9).floor = [9, 10]) ∧
    ((listeningAt 9).config.role ≠ .door ∧ ∀ z ∈ ([{ Slot.freed with seat := 8, state := .filling }] : List Slot), z.state ≠ .free) ∧
    Slot.freed.state = .free := by decide

/-- R38 and R100: seat 8 leaves and seat 10 enters in one step: slot 1, freed first, is the one that is bound. -/
theorem test_step_binds_the_slot_it_frees :
    (storeStep (stepTo [openAt 9 1 1 .delegate, openAt 10 1 1 .delegate] [(8, .displaced)]) (listeningAt 9)).mix.slots.map (fun x => x.seat)
      = [10, 0, 0, 0, 0, 0, 0] := by decide

/-- An OPEN withdrawn while a FLUSH is served: alone in the queue, and with another frame behind it. -/
theorem witness_withdrawal_while_serving :
    (∀ s : State, s = { openingAt 1 with port := { Port.powerOn with serving := true } } →
      s.port.serving = true ∧ (∃ f ∈ s.link.queue, f.internalKind = some .mic) ∧
      s.link.queue.filter (fun f => decide (f.internalKind ≠ some .mic)) = []) ∧
    ([{ source := 9, body := .opening (some bid52) 45 43 .delegate }, { source := 9, body := withdraw52 }] : List Frame).filter
      (fun f => decide (f.internalKind ≠ some .mic)) ≠ [] ∧
    ((openingAt 1).mic.state ≠ .open ∧ ({ (speakingAt 9).mic with cls := some .chair } : OwnMic).cls ≠ some .delegate) :=
  ⟨fun s h => by subst h; decide, by decide, by decide⟩

/-- The second screen held, a budget that ends before its warning, and the ends of attempts with no frame in send. -/
theorem witness_second_screen_expiry_and_ends :
    ((∀ h : Share, h = { Share.powerOn with screen2 := some { seat := 9, stamp := 61 } } →
      h.screen2 = some { seat := 9, stamp := 61 } ∧ h.screen1 = none) ∧ (61 : Nat) < 62 ∧ sharedMap.screen2 = none) ∧
    (0 < (speakingAt 9).meeting.profile.warning ∧ (speakingAt 9).mic.warned = false ∧ (speakingAt 9).mic.remaining = some 31 ∧
      (speakingAt 9).mic.overrun = false) ∧
    (({ Link.powerOn with finishing := true } : Link).finishing = true ∧ (meetingAt 9).link.finishing = false ∧
      (meetingAt 9).link.inSend = none) :=
  ⟨⟨fun h e => by subst h; decide, by decide, by decide⟩, by decide, by decide⟩

/-- The clash beacon before and after it has started; a mark with a held entry behind it and with none. -/
theorem witness_beacon_selection :
    (∀ s : State, s = { clashAt 9 with link := { Link.powerOn with beaconSlot := some .clash } } →
      s.link.inSend = none ∧ s.link.finishing = false ∧ s.station = .clash ∧ s.link.beaconSlot = some .clash) ∧
    Link.powerOn.beaconSlot ≠ some .clash ∧ ((meetingAt 9).calendar.clock.set = true ∧ State.reset.calendar.clock.set = false) ∧
    (sharedMap.screen1 = some { seat := 9, stamp := 61 } ∧ sharedMap.screen2 = none) ∧
    (∀ start : Nat, start = 812 * 1440 + 700 →
      (eightBookings.find? (fun e => e.held && viewKeyLt start { holder := 9, serial := 0 } e.wire.start e.wire.id)
        = some (bookingAt 1 720 true)) ∧
      ∀ e ∈ eightBookings, e.held = true → viewKeyLt (start + 140) { holder := 9, serial := 7 } e.wire.start e.wire.id = false) ∧
    ((meetingAt 9).station = .run ∧ (meetingAt 9).link.voiceSlot = none) :=
  ⟨fun s h => by subst h; decide, by decide, by decide, by decide, fun s h => by subst h; decide +kernel, by decide⟩

/-- A station of each role in the meeting, IDLE and in SETUP, with the sources of line 4. -/
theorem witness_pages :
    (State.reset.station = .setup ∧ (meetingAt 9).station ≠ .setup ∧ (meetingAt 9).config.role = .seat ∧
      (meetingAt 9).meeting.state ≠ .idle) ∧
    ((waitingAt .firstCome 1).floor.position 9 = some 1 ∧ (waitingAt .firstCome 1).floor.queue ≠ [] ∧ (meetingAt 9).floor.queue = []) ∧
    (∀ s : State, s = { speakingAt 9 with mic := { (speakingAt 9).mic with remaining := none } } →
      s.mic.state = .open ∧ s.mic.overrun = false ∧ s.mic.remaining = none) ∧
    (∀ s : State, s = { meetingAt 47 with config := { (meetingAt 47).config with role := .wall } } →
      s.station ≠ .setup ∧ s.config.role = .wall ∧ s.meeting.state ≠ .idle) ∧
    ((idleAt .wall 47).config.role ≠ .door ∧ (idleAt .wall 47).meeting.state = .idle ∧ (idleAt .door 48).config.role = .door) ∧
    ((meetingAt 9).meeting.id = some bid52 ∧ (viewFind (meetingAt 9).calendar.view bid52).map (fun e => e.wire.title) = some []) ∧
    ((clashAt 9).station = .clash ∧ ({ record52 with state := .ending } : Meeting).state = .ending ∧
      Message.absent.lifetime = 0 ∧ 0 < ({ text := text "A", lifetime := 1 } : Message).lifetime) ∧
    ((99 : Nat) < 100 ∧ (59 : Nat) < 60 ∧ (65535 : Nat) < 100000) ∧
    ((idleAt .seat 9).nameOf 7 = [] ∧ ({ Peer.unknownEntry with name := text "Ana" } : Peer).name ≠ []) :=
  ⟨by decide, by decide, fun s h => by subst h; decide, fun s h => by subst h; decide, by decide, by decide, by decide, by decide,
    by decide⟩

/-- R170: the DOOR page of the meeting (5, 2), ten o'clock on day 812. -/
theorem test_door_page :
    (settle { meetingAt 48 with config := { (meetingAt 48).config with role := .door } }).screen.buffer
      = [field 24 (text "Day 00812 10:00"), field 24 (text "10:00-11:00*"), field 24 [], field 24 []] := by decide +kernel

/-- R167 to R169: seat 9 waits behind the chair, with itself alone in the queue window. -/
theorem test_seat_page :
    (settle { waitingAt .firstCome 1 with
      floor := { smallFloor with openSet := [openAt 3 40 40 .chair], queue := [queuedAt 9 43] } }).screen.buffer
      = [field 24 (text "*Seat 03"), field 24 (text "Waiting  #1"), field 24 (text "09 "), field 24 (text "until 11:00")] := by
  decide +kernel

/-! ## Changes inside one command, each followed in its turn -/

/-- R63: seat 9 waits under VOICE, its ring late in the off phase. A block in which the MIC press is raised and the talk
begins takes it to CLOSED and back to WAITING: SLOW BLINK begins again with its on phase. -/
theorem test_ring_restarts_within_a_block :
    (after (.blockCompletion (List.replicate 64 0x7FFF#16) true false false) (settle { waitingAt .voice 1 with
      controls := { Controls.powerOn with
        mic := { pressed := false, difference := 4 },
        ring := { pattern := .slowBlink, onPhase := false, phaseCount := 200 } } })).map
      (fun t => (t.mic.state, t.controls.ring)) = some (.waiting, { pattern := .slowBlink, onPhase := true, phaseCount := 0 }) := by
  decide +kernel

/-- A station in the meeting with its page shown and no transfer running. -/
def shownAt (seat : Nat) : State :=
  { meetingAt seat with screen := { (settle (meetingAt seat)).screen with running := false, dirty := false } }

/-- R165: a PRESS by way of WAITING to OPENING: the transfer starts with the cells at WAITING, and the buffer is left dirty
with those at OPENING. -/
theorem test_press_leaves_a_second_transfer :
    (after .press (sendingAt 9 withdraw52 1 (shownAt 9))).map (fun t => (t.mic.state, t.screen.running, t.screen.dirty))
      = some (.opening, true, true) ∧
    (after .press (sendingAt 9 withdraw52 1 (shownAt 9))).map (fun t => [t.screen.sent.getD 1 [], t.screen.buffer.getD 1 []])
      = some [field 24 (text "Waiting  #1"), field 24 (text "Opening")] := by decide +kernel

/-- R160, step 4, and R154, step 3: the second that ends a meeting and starts the next: the transfer takes the idle page,
and the buffer is left dirty with the page of the new meeting. -/
theorem test_end_and_start_leave_a_second_transfer :
    (after .clockSecond { shownAt 9 with
      meeting := { record52 with profile := { profile52 with endWarning := 0 } },
      calendar := { (atSecond 39599 (meetingAt 9)).calendar with
        view := (meetingAt 9).calendar.view ++ [{ bookingAt 4 660 false with wire := { (bookingAt 4 660 false).wire with title := [] } }] } }).map
      (fun t => (decide (t.meeting.id = some { holder := 9, serial := 4 }), t.screen.dirty, [t.screen.sent.getD 0 [], t.screen.buffer.getD 0 []]))
      = some (true, true, [field 24 (text "Seat 09"), field 24 (text "Floor open")]) := by decide +kernel

/-- R165 and R177: RESET SOFT while a transfer runs: the transfer keeps the cells it took. -/
theorem test_reset_keeps_the_running_transfer :
    (after .resetSoft (settle (meetingAt 9))).map (fun t => (t.screen.running, t.screen.sent))
      = some (true, (settle (meetingAt 9)).screen.sent) := by decide +kernel

/-! ## Witnesses of what bytes, orders and readers hold -/

/-- A frame that is read and frames that are not: source seat 0, an unlisted kind, a body one byte too long; and host
bytes shorter than their length byte says. -/
theorem witness_bytes :
    parseFrame 0x42#8 9#8 [5#8, 2#8] = some { source := 9, body := withdraw52 } ∧ withdraw52 = .withdraw (some bid52) ∧
    parseFrame 0x42#8 0#8 [5#8, 2#8] = none ∧ parseFrame 0x4C#8 9#8 [5#8, 2#8] = none ∧
    parseFrame 0x42#8 9#8 [5#8, 2#8, 0#8] = none ∧ ([] : List Byte).length ≠ (1#8 : Byte).toNat ∧
    checkCrc (envelope 0x42#8 9#8 [5#8, 2#8]) = some (0x42#8, 9#8, [5#8, 2#8]) ∧ ([5#8, 2#8] : List Byte).length ≤ 255 := by
  decide +kernel

/-- R141, test by test: the active mark, the created time, the holder seat, the serial. -/
theorem test_tests_of_two_entries :
    (∀ e : Entry, e = { wire := entry52, held := false, active := false, age := 0 } →
      ({ e with active := true, wire := { e.wire with createdDay := 900 } } : Entry).beats e = true ∧
      ({ e with wire := { e.wire with createdSecond := 34999, id := { holder := 48, serial := 0 } } } : Entry).beats e = true ∧
      ({ e with wire := { e.wire with id := { holder := 4, serial := 9 } } } : Entry).beats e = true ∧
      ({ e with wire := { e.wire with id := { holder := 5, serial := 1 } } } : Entry).beats e = true ∧ e.beats e = false) := by
  intro e h; subst h; decide

/-- R12: the pairs taken the other way round are no inverse pairs. -/
theorem test_reverse_pairs_replace :
    inversePair { source := 9, body := .unshare (some bid52) } { source := 9, body := .share (some bid52) 1 7 } = false ∧
    inversePair { source := 9, body := .priority (some bid52) false } { source := 9, body := .priority (some bid52) true } = false ∧
    inversePair { source := 9, body := .priority (some bid52) true } { source := 9, body := .priority (some bid52) false } = true ∧
    hostFrames [{ source := 3, body := .grant (some bid52) 9 }, { source := 9, body := withdraw52 },
      { source := 3, body := .close (some bid52) 9 .chair }, { source := 3, body := .close (some bid52) 3 .speaker }] = 2 := by decide

/-- Orders and readers at their boundaries: equal stamps and equal starts, the first and the last place, versions and
blocks at the ends of the range that counts as newer. -/
theorem witness_orders_and_readers :
    (smallFloor.queue = [] ++ queuedAt 8 42 :: [queuedAt 9 43] ∧ (queuedAt 8 42).seat = 8 ∧
      smallFloor.queue = [queuedAt 8 42] ++ queuedAt 9 43 :: [] ∧ (∀ y ∈ [queuedAt 8 42], y.seat ≠ 9) ∧
      smallFloor.isQueued 7 = false ∧ smallFloor.isQueued 8 = true) ∧
    (insertQueue (queuedAt 4 43) smallFloor.queue = [queuedAt 8 42, queuedAt 4 43, queuedAt 9 43] ∧
      ∀ x ∈ smallFloor.queue, x.seat ≠ (queuedAt 4 43).seat) ∧
    ((newerVersion 127 0, newerVersion 128 0, newerVersion 0 255) = (true, false, true) ∧
      (newerBlock 32767 0, newerBlock 32768 0, newerBlock 0 65535) = (true, false, true)) ∧
    (State.reset.presence.peers.length = 48 ∧ 48 ≤ State.reset.presence.peers.length) ∧
    (State.reset.meeting.id = none ∧ (idleAt .seat 9).floor.isQueued 9 = false) := by decide

/-- The own seat heard while an attempt of a reset frame is still on the link; and the forms of a CLEAR and of an order of
priority that end SENT. -/
theorem witness_clash_and_own_outcomes :
    (∀ s : State, s = { meetingAt 9 with link := { Link.powerOn with finishing := true } } →
      s.station = .run ∧ s.link.inSend = none ∧ s.link.finishing = true ∧ s.config.seat = 9) ∧
    ((waitingAt .firstCome 1).floor.isQueued 9 = true ∧ (waitingAt .firstCome 1).mic.state = .waiting) ∧
    ((openingAt 1).floor.isQueued 9 = true ∧ (openingAt 1).mic.state = .opening ∧
      (withdrawOpen (openingAt 1)).2 = .withdrawn ∧ (withdrawOpen { openingAt 1 with link := .powerOn }).2 ≠ .withdrawn) ∧
    (∀ s : State, s = { speakingAt 9 with meeting := { record52 with profile := { profile52 with priorityCloses := true } } } →
      s.meeting.profile.priorityAllowed = true ∧ s.floor.priority = false ∧ s.meeting.profile.priorityCloses = true ∧
      s.mic.state = .open ∧ s.mic.cls = some .delegate) ∧
    (meetingAt 9).mic.state ≠ .open :=
  ⟨fun s h => by subst h; decide, by decide, by decide, fun s h => by subst h; decide, by decide⟩

end Sys2Proof.Tests
end

namespace Sys2Proof.Machine

/-! SUPPORT. A WITHDRAW past the filter (R41): delivery of a frame, a step of the view that neither removes nor enters an
open seat, and the positions of a queue from which one seat is removed. -/

/-! ## Delivery -/

/-- R4 to R7: a delivered frame is neither counted, discarded nor taken for a second station of the own seat. -/
theorem receive_of_delivered {s : State} {kind source : Byte} {body : List Byte} {f : Frame}
    (h : Delivered s kind source body f) : receive kind source body s = settle (deliver f s) := by
  obtain ⟨valid, station, other⟩ := h
  unfold receive
  rw [valid]
  cases hs : s.station with
  | setup => exact absurd hs station
  | run => exact if_neg other
  | clash => exact if_neg other

@[simp] theorem heard_meeting (k : Nat) (s : State) : (heard k s).meeting = s.meeting := by
  unfold heard
  dsimp only
  split
  · exact (evalMic_table _).frame.meeting
  · rfl

theorem filterPasses_congr {s t : State} (h : t.meeting = s.meeting) (m : Option Bid) :
    t.filterPasses m = s.filterPasses m := by
  unfold State.filterPasses State.inMeeting
  rw [h]

@[simp] theorem heard_filterPasses (k : Nat) (s : State) (m : Option Bid) :
    (heard k s).filterPasses m = s.filterPasses m := filterPasses_congr (heard_meeting k s) m

theorem filtered_of_passes {m : Option Bid} {s : State} (h : s.filterPasses m = true) (k : State → State) :
    filtered m k s = k s := if_pos h

theorem exec_receiveWithdraw (source : Byte) (body : List Byte) (s : State) :
    exec (.receiveWithdraw source body) s = .next (receive 0x42#8 source body s) := rfl

/-! ## A step of the view without a net change of the open set -/

theorem removals_plain (before f : Floor) : (FloorStep.plain f).removals before = [] := rfl

/-- R37: no seat of the open set is new when the open set stays. -/
theorem entries_of_same_openSet {before : Floor} {x : FloorStep} (h : x.floor.openSet = before.openSet) :
    x.entries before = [] := by
  simp only [FloorStep.entries, h, List.map_eq_nil_iff, List.filter_eq_nil_iff]
  intro r hr
  have hopen : before.isOpen r.seat = true := Floor.isOpen_iff.2 ⟨r, hr, rfl⟩
  simp [hopen]

/-- R38 and R39: without a net change nothing is handed on. -/
theorem storeStep_without_net {x : FloorStep} {s : State} (out : x.removals s.floor = [])
    (ins : x.entries s.floor = []) : storeStep x s = { s with floor := x.floor } := by
  simp [storeStep, out, ins, bindNet, notifyAll]

theorem evalMic_settle (s : State) : evalMic (settle s) = evalMic s := by
  simp only [evalMic, settle_settle]

/-- A step that moves the request queue alone, or the counter: the view is stored and the own side evaluated. -/
theorem floorStep_plain {f : Floor} {s : State} (opens : f.openSet = s.floor.openSet)
    (priority : f.priority = s.floor.priority) : floorStep (.plain f) s = evalMic { s with floor := f } := by
  have stored : storeStep (.plain f) s = { s with floor := f } :=
    storeStep_without_net (removals_plain _ _) (entries_of_same_openSet opens)
  have notTurnedOn : (!s.floor.priority && (FloorStep.plain f).floor.priority) = false := by
    simp [FloorStep.plain, priority]
  simp [floorStep, stored, removals_plain, notTurnedOn, evalMic_settle]

/-- R41: what a WITHDRAW does to the view and what follows. -/
theorem onWithdraw_eq (k : Nat) (s : State) : onWithdraw k s = evalMic { s with floor := s.floor.dropQueue k } :=
  floorStep_plain rfl rfl

/-! ## Positions after a removal -/

theorem positionFrom_eq_none {seat : Nat} {l : List QueueRecord} (h : ∀ r ∈ l, r.seat ≠ seat) (n : Nat) :
    positionFrom seat n l = none := by
  induction l generalizing n with
  | nil => rfl
  | cons r rs ih =>
    obtain ⟨hr, hrs⟩ := List.forall_mem_cons.1 h
    rw [positionFrom, if_neg hr, ih hrs]

theorem le_of_positionFrom {seat n p : Nat} {l : List QueueRecord} (h : positionFrom seat n l = some p) : n ≤ p := by
  induction l generalizing n with
  | nil => cases h
  | cons r rs ih =>
    rw [positionFrom] at h
    split at h
    · exact (Option.some.inj h).le
    · exact Nat.le_of_succ_le (ih h)

/-- Counting on from one more moves every position by one. -/
theorem positionFrom_succ (seat n : Nat) (l : List QueueRecord) :
    positionFrom seat (n + 1) l = (positionFrom seat n l).map (· + 1) := by
  induction l generalizing n with
  | nil => rfl
  | cons r rs ih =>
    simp only [positionFrom]
    split
    · rfl
    · exact ih (n + 1)

/-- The records other than a seat's: what `Floor.dropQueue` leaves of the request queue. -/
abbrev othersThan (k : Nat) (l : List QueueRecord) : List QueueRecord := l.filter (fun r => decide (r.seat ≠ k))

theorem Floor.dropQueue_queue (f : Floor) (k : Nat) : (f.dropQueue k).queue = othersThan k f.queue := rfl

theorem seat_ne_of_mem_othersThan {k : Nat} {l : List QueueRecord} : ∀ r ∈ othersThan k l, r.seat ≠ k := by
  simp [othersThan]

theorem othersThan_eq_self {k : Nat} {l : List QueueRecord} (h : ∀ r ∈ l, r.seat ≠ k) : othersThan k l = l := by
  simpa [othersThan, List.filter_eq_self] using h

theorem othersThan_cons_of_ne {k : Nat} {r : QueueRecord} (h : r.seat ≠ k) (l : List QueueRecord) :
    othersThan k (r :: l) = r :: othersThan k l := List.filter_cons_of_pos (by simpa using h)

theorem othersThan_cons_self {k : Nat} {r : QueueRecord} (h : r.seat = k) (l : List QueueRecord) :
    othersThan k (r :: l) = othersThan k l := List.filter_cons_of_neg (by simpa using h)

/-- R34 and R41: a seat ahead of the removed one keeps its position. -/
theorem positionFrom_othersThan_of_lt {j k n p q : Nat} {l : List QueueRecord} (hk : positionFrom k n l = some p)
    (hj : positionFrom j n l = some q) (h : q < p) : positionFrom j n (othersThan k l) = some q := by
  induction l generalizing n with
  | nil => cases hj
  | cons r rs ih =>
    have first : n ≤ q := le_of_positionFrom hj
    rw [positionFrom] at hk hj
    split at hk
    · have : n = p := Option.some.inj hk
      omega
    next hr =>
      rw [othersThan_cons_of_ne hr, positionFrom]
      split at hj
      next hrj => rw [if_pos hrj, hj]
      next hrj => rw [if_neg hrj, ih hk hj]

/-- R34 and R41: a seat behind the removed one moves up by one; no seat stands twice in the queue. -/
theorem positionFrom_othersThan_of_gt {j k n p q : Nat} {l : List QueueRecord}
    (seats : (l.map (fun r => r.seat)).Nodup) (hk : positionFrom k n l = some p) (hj : positionFrom j n l = some q)
    (h : p < q) : positionFrom j n (othersThan k l) = some (q - 1) := by
  induction l generalizing n with
  | nil => cases hj
  | cons r rs ih =>
    obtain ⟨fresh, seats⟩ := List.nodup_cons.1 seats
    have first : n ≤ p := le_of_positionFrom hk
    rw [positionFrom] at hk hj
    split at hj
    · have : n = q := Option.some.inj hj
      omega
    next hrj =>
      split at hk
      next hr =>
        have others : ∀ x ∈ rs, x.seat ≠ k := fun x hx e => fresh (List.mem_map.2 ⟨x, hx, e.trans hr.symm⟩)
        rw [positionFrom_succ, Option.map_eq_some_iff] at hj
        obtain ⟨i, hi, rfl⟩ := hj
        rw [othersThan_cons_self hr, othersThan_eq_self others, hi, Nat.add_sub_cancel]
      next hr => rw [othersThan_cons_of_ne hr, positionFrom, if_neg hrj, ih seats hk hj]

/-! ## The removed seat and the seats around it -/

theorem Floor.position_dropQueue_self (f : Floor) (k : Nat) : (f.dropQueue k).position k = none :=
  positionFrom_eq_none seat_ne_of_mem_othersThan 1

theorem Floor.position_dropQueue_of_lt {f : Floor} {j k p q : Nat} (hk : f.position k = some p)
    (hj : f.position j = some q) (h : q < p) : (f.dropQueue k).position j = some q :=
  positionFrom_othersThan_of_lt hk hj h

theorem Floor.position_dropQueue_of_gt {f : Floor} {j k p q : Nat} (sound : ViewsSound f) (hk : f.position k = some p)
    (hj : f.position j = some q) (h : p < q) : (f.dropQueue k).position j = some (q - 1) :=
  positionFrom_othersThan_of_gt sound.queueSeats hk hj h

/-- R41: a WITHDRAW of a seat that is not queued leaves the view as it was. -/
theorem Floor.dropQueue_of_not_queued {f : Floor} {k : Nat} (h : f.isQueued k = false) : f.dropQueue k = f := by
  have queue : othersThan k f.queue = f.queue := othersThan_eq_self (Floor.isQueued_false.1 h)
  calc f.dropQueue k = { f with queue := othersThan k f.queue } := rfl
    _ = f := by rw [queue]

/-- R41: a delivered WITHDRAW past the filter. -/
theorem exec_receiveWithdraw_of_passes {source : Byte} {body : List Byte} {k : Nat} {m : Option Bid} {s : State}
    (h : Delivered s 0x42#8 source body { source := k, body := .withdraw m }) (pass : s.filterPasses m = true) :
    exec (.receiveWithdraw source body) s
      = .next (settle (evalMic { heard k s with floor := (heard k s).floor.dropQueue k })) := by
  have passHeard : (heard k s).filterPasses m = true := (heard_filterPasses k s m).trans pass
  have delivered : deliver { source := k, body := .withdraw m } s = onWithdraw k (heard k s) :=
    filtered_of_passes passHeard _
  rw [exec_receiveWithdraw, receive_of_delivered h, delivered, onWithdraw_eq]

/-- Settles O39: the command by delivery and the step of the view, the positions by induction on the request queue. -/
theorem withdrawLeavesTheQueue : Obligations.WithdrawLeavesTheQueue := by
  refine ⟨?command, ?positions, ?notQueued⟩
  case command =>
    rintro source body k m s _ rfl h pass
    exact exec_receiveWithdraw_of_passes h pass
  case positions =>
    intro f k j p q sound hk hj
    exact ⟨f.position_dropQueue_self k, Floor.position_dropQueue_of_lt hk hj, Floor.position_dropQueue_of_gt sound hk hj⟩
  case notQueued =>
    intro f k h
    exact Floor.dropQueue_of_not_queued h

end Sys2Proof.Machine

namespace Sys2Proof.Machine

/-! SUPPORT. The talk detector (R91): its run of quiet blocks, and the operations of a block completion that leave the
capture record as it was, placing apart (`CaptureKept`). -/

/-! ## The detector -/

theorem Capture.detect_talking_true {c : Capture} (h : c.talking = true) :
    c.detect true = ({ c with hangover := 0 }, .none) := by simp [detect, h]

theorem Capture.detect_quiet_true {c : Capture} (h : c.talking = false) :
    c.detect true = ({ c with talking := true, hangover := 0 }, .onset) := by simp [detect, h]

theorem Capture.detect_quiet_false {c : Capture} (h : c.talking = false) :
    c.detect false = ({ c with hangover := 0 }, .none) := by simp [detect, h]

/-- R91: within the hangover a non-talking block is counted. -/
theorem Capture.detect_within_hangover {c : Capture} (h : c.talking = true) (n : c.hangover + 1 < 75) :
    c.detect false = ({ c with hangover := c.hangover + 1 }, .none) := by simp [detect, Config.hangoverBlocks, h, n]

/-- R91: the block that fills the hangover is the end. -/
theorem Capture.detect_end_of_hangover {c : Capture} (h : c.talking = true) (n : 75 ≤ c.hangover + 1) :
    c.detect false = ({ c with talking := false, hangover := 0 }, .finish) := by
  simp [detect, Config.hangoverBlocks, h, Nat.not_lt.2 n]

/-- R91: a talking detector after n consecutive non-talking blocks, fewer than 75. -/
theorem Capture.repeat_detect_false {c : Capture} (h : c.talking = true) (h0 : c.hangover = 0) {n : Nat} (hn : n < 75) :
    Nat.repeat (fun d => (d.detect false).1) n c = { c with hangover := n } := by
  induction n with
  | zero =>
    show c = { c with hangover := 0 }
    rw [← h0]
  | succ n ih =>
    have within : ({ c with hangover := n } : Capture).detect false = ({ c with hangover := n + 1 }, .none) :=
      detect_within_hangover h hn
    rw [Nat.repeat, ih (by omega), within]

/-- R91: the detector moves its talk state and its hangover, by those two and the judgement alone. -/
theorem Capture.detect_fst (c : Capture) (b : Bool) :
    (c.detect b).1 = { c with
      talking := b || (c.talking && decide (c.hangover + 1 < 75)),
      hangover := if b = false ∧ c.talking = true ∧ c.hangover + 1 < 75 then c.hangover + 1 else 0 } := by
  cases ht : c.talking with
  | false => cases b with
    | false => simp [detect_quiet_false ht, ht]
    | true => simp [detect_quiet_true ht]
  | true => cases b with
    | false =>
      by_cases n : c.hangover + 1 < 75
      · simp [detect_within_hangover ht n, ht, n]
      · simp [detect_end_of_hangover ht (Nat.not_lt.1 n), n]
    | true => simp [detect_talking_true ht, ht]

@[simp] theorem Capture.detect_lastPeak (c : Capture) (b : Bool) : (c.detect b).1.lastPeak = c.lastPeak := by
  rw [detect_fst]

/-- The detector's states follow from its states before the block: samples, peak and placing pass it by. -/
theorem Capture.detect_congr {c d : Capture} (ht : c.talking = d.talking) (hh : c.hangover = d.hangover) (b : Bool) :
    (c.detect b).1.talking = (d.detect b).1.talking ∧ (c.detect b).1.hangover = (d.detect b).1.hangover := by
  rw [detect_fst, detect_fst d, ht, hh]
  exact ⟨rfl, rfl⟩

/-! ## What keeps the capture record -/

/-- The capture record stays, placing apart, with the configuration and the station state that R88 to R90 read. -/
structure CaptureKept (s t : State) : Prop where
  capture : t.capture = { s.capture with placing := t.capture.placing }
  config : t.config = s.config
  station : t.station = s.station

namespace CaptureKept

theorem refl (s : State) : CaptureKept s s := ⟨rfl, rfl, rfl⟩

theorem trans {s t u : State} (h : CaptureKept s t) (k : CaptureKept t u) : CaptureKept s u :=
  ⟨by rw [k.capture, h.capture], k.config.trans h.config, k.station.trans h.station⟩

theorem ite {s t u : State} {p : Prop} [Decidable p] (h : p → CaptureKept s t) (k : ¬ p → CaptureKept s u) :
    CaptureKept s (if p then t else u) := by
  split
  · exact h ‹_›
  · exact k ‹_›

theorem foldl {α : Type} {g : State → α → State} (hg : ∀ s a, CaptureKept s (g s a)) (l : List α) (s : State) :
    CaptureKept s (l.foldl g s) := by
  induction l generalizing s with
  | nil => exact refl s
  | cons a rest ih => exact (hg s a).trans (ih _)

theorem presence (s : State) (p : Presence) : CaptureKept s { s with presence := p } := ⟨rfl, rfl, rfl⟩

theorem controls (s : State) (c : Controls) : CaptureKept s { s with controls := c } := ⟨rfl, rfl, rfl⟩

theorem calendar (s : State) (c : Calendar) : CaptureKept s { s with calendar := c } := ⟨rfl, rfl, rfl⟩

theorem meeting (s : State) (m : Meeting) : CaptureKept s { s with meeting := m } := ⟨rfl, rfl, rfl⟩

theorem mix (s : State) (m : Mix) : CaptureKept s { s with mix := m } := ⟨rfl, rfl, rfl⟩

theorem screen (s : State) (d : Screen) : CaptureKept s { s with screen := d } := ⟨rfl, rfl, rfl⟩

/-- The operations of the table. -/
theorem of_table {s t : State} (h : TableStep s t) : CaptureKept s t :=
  ⟨congrArg State.capture h.frame, h.frame.config, h.frame.station⟩

/-- A change and what follows it. -/
theorem settled {s t : State} (h : CaptureKept s t) : CaptureKept s (settle t) := h.trans (of_table (settle_table t))

theorem capturing {s t : State} (h : CaptureKept s t) : t.capturing = s.capturing := by
  unfold State.capturing; rw [h.config, h.station]

theorem talking {s t : State} (h : CaptureKept s t) : t.capture.talking = s.capture.talking := by rw [h.capture]

theorem hangover {s t : State} (h : CaptureKept s t) : t.capture.hangover = s.capture.hangover := by rw [h.capture]

theorem lastPeak {s t : State} (h : CaptureKept s t) : t.capture.lastPeak = s.capture.lastPeak := by rw [h.capture]

end CaptureKept

/-! ## Meeting record and clock -/

theorem meetingWarningTest_captureKept (s : State) : CaptureKept s (meetingWarningTest s) := by
  unfold meetingWarningTest
  dsimp only
  split
  · split
    · exact .refl s
    · refine .ite (fun _ => ?_) (fun _ => .refl s)
      split
      · exact (CaptureKept.meeting s _).trans (.of_table (notify_table _ _))
      · exact .meeting s _
    · exact .ite (fun _ => .refl s) (fun _ => .meeting s _)
  · exact .refl s

theorem startMeetingFor_captureKept (e : Entry) (s : State) : CaptureKept s (startMeetingFor e s) := by
  have cleared : CaptureKept s (settle (screenAtStart (mixAtStart (clearView (recordStart e s))))) :=
    CaptureKept.settled ⟨rfl, rfl, rfl⟩
  exact ((cleared.trans (.of_table (replay_table _ _))).trans (.of_table (notify_table _ _))).trans
    ((meetingWarningTest_captureKept _).trans (.of_table (evalMic_table _)))

theorem startDue_captureKept (s : State) : CaptureKept s (startDue s) := by
  unfold startDue
  refine .ite (fun _ => ?_) (fun _ => .refl s)
  split
  · exact startMeetingFor_captureKept _ s
  · exact .refl s

theorem closeMeeting_captureKept (id : Bid) (why : EndReason) (s : State) : CaptureKept s (closeMeeting id why s) := by
  have microphone : CaptureKept s (settle (micMeetingEnd (settle s))) :=
    .of_table ((settle_table s).trans (micMeetingEnd_table _)).settled
  have table (t : State) : CaptureKept t (settle (clearShare (micOff (clearView t)))) :=
    CaptureKept.settled ⟨rfl, rfl, rfl⟩
  have early (t : State) : CaptureKept t (if why = .time then t
      else { t with meeting := { t.meeting with endedEarly := some id, endedEarlyAge := 0 } }) :=
    .ite (fun _ => .refl t) (fun _ => .meeting t _)
  have noticed (t : State) : CaptureKept t (notify (.meetingEnd id why) t) := .of_table (notify_table _ t)
  exact (((microphone.trans (.meeting _ _)).trans (table _)).trans (CaptureKept.calendar _ _).settled).trans
    ((early _).trans (noticed _))

theorem endMeetingFor_captureKept (why : EndReason) (s : State) : CaptureKept s (endMeetingFor why s) := by
  unfold endMeetingFor
  split
  · exact (closeMeeting_captureKept _ _ s).trans (startDue_captureKept _)
  · exact .refl s

theorem runRecord_captureKept (s : State) : CaptureKept s (runRecord s) :=
  .ite (fun _ => .refl s) (fun _ => .ite (fun _ => startDue_captureKept s) (fun _ =>
    (meetingWarningTest_captureKept s).trans (.ite (fun _ => endMeetingFor_captureKept _ _) (fun _ => .refl _))))

theorem evaluate_captureKept (s : State) : CaptureKept s (evaluate s) :=
  ((CaptureKept.refl s).settled.trans (runRecord_captureKept _)).settled

theorem clockChanged_captureKept (s : State) : CaptureKept s (clockChanged s) := by
  have tested (t : State) : CaptureKept t (timeTest t) := .ite (fun _ => .calendar t _) (fun _ => .refl t)
  exact ((CaptureKept.refl s).settled.trans (tested _)).trans (evaluate_captureKept _)

theorem clockSecondPasses_captureKept (s : State) : CaptureKept s (clockSecondPasses s) :=
  .ite (fun _ => .calendar s _) (fun _ => (CaptureKept.calendar s _).trans (clockChanged_captureKept _))

/-! ## The counts in blocks -/

theorem peerAbsent_captureKept (seat : Nat) (s : State) : CaptureKept s (peerAbsent seat s) :=
  (CaptureKept.presence s _).trans
    (.of_table ((floorStep_table (Floor.departed_keeps _ _ _ _ _)).trans (shareReleased_table _ _)))

theorem presenceBlock_captureKept (s : State) : CaptureKept s (presenceBlock s) :=
  (CaptureKept.presence s _).trans (.foldl (fun t k => (peerAbsent_captureKept k t).settled) _ _)

theorem cadenceBlock_captureKept (s : State) : CaptureKept s (cadenceBlock s) :=
  .ite (fun _ => .presence s _) (fun _ => (CaptureKept.presence s _).trans (.of_table (requestBeacon_table _)))

theorem clockBlock_captureKept (s : State) : CaptureKept s (clockBlock s) :=
  .ite (fun _ => .ite (fun _ => .calendar s _) (fun _ => clockSecondPasses_captureKept s)) (fun _ => .refl s)

theorem ageEntries_captureKept (s : State) : CaptureKept s (ageEntries s) := .calendar s _

theorem endedEarlyBlock_captureKept (s : State) : CaptureKept s (endedEarlyBlock s) :=
  .ite (fun _ => .refl s) (fun _ => .ite (fun _ => .meeting s _) (fun _ => .meeting s _))

theorem askUnanswered_captureKept (s : State) : CaptureKept s (askUnanswered s) := by
  unfold askUnanswered
  split
  · exact (CaptureKept.calendar s _).trans (.of_table ((notify_table _ _).trans (showTransient_table _ _)))
  · exact .refl s

theorem askBlock_captureKept (s : State) : CaptureKept s (askBlock s) := by
  unfold askBlock
  split
  · exact .ite (fun _ => .calendar s _) (fun _ => askUnanswered_captureKept s)
  · exact .refl s

theorem windowBlock_captureKept (s : State) : CaptureKept s (windowBlock s) :=
  .ite (fun _ => .ite (fun _ => .screen s _) (fun _ => .screen s _)) (fun _ => .refl s)

theorem messageBlock_captureKept (s : State) : CaptureKept s (messageBlock s) := .screen s _

theorem runningCounts_captureKept (s : State) : CaptureKept s (runningCounts s) := by
  have budget : CaptureKept s (settle (budgetBlock s)) := .of_table (budgetBlock_table s).settled
  have presence := budget.trans (presenceBlock_captureKept _).settled
  have clock := presence.trans ((cadenceBlock_captureKept _).trans (clockBlock_captureKept _)).settled
  have entries := clock.trans (ageEntries_captureKept _).settled
  have ask := entries.trans ((endedEarlyBlock_captureKept _).trans (askBlock_captureKept _)).settled
  exact (ask.trans (windowBlock_captureKept _).settled).trans (messageBlock_captureKept _)

/-! ## Buttons and mix -/

theorem tickLeds_captureKept (s : State) : CaptureKept s (tickLeds s) :=
  .ite (fun _ => .controls s _) (fun _ => .refl s)

theorem micPressed_captureKept (s : State) : CaptureKept s (micPressed s) :=
  .ite (fun _ => .of_table (takePress_table s)) (fun _ => .ite (fun _ => .controls s _) (fun _ => .refl s))

theorem buttonEvents_captureKept (m p h : ButtonEvent) (s : State) : CaptureKept s (buttonEvents m p h s) := by
  have mic : CaptureKept s (if m = .press then settle (micPressed s) else s) :=
    .ite (fun _ => (micPressed_captureKept s).settled) (fun _ => .refl s)
  have priority (t : State) : CaptureKept t (match p with
      | .press => priorityButton true t
      | .release => priorityButton false t
      | .none => t) := by
    cases p with
    | press => exact .of_table (priorityButton_table true t)
    | release => exact .of_table (priorityButton_table false t)
    | none => exact .refl t
  have share (t : State) : CaptureKept t (if h = .press then sharePressed t else t) :=
    .ite (fun _ => .of_table (sharePressed_table t)) (fun _ => .refl t)
  exact (mic.trans (priority _)).trans (share _)

theorem sampleButtons_captureKept (m p h : Bool) (s : State) : CaptureKept s (sampleButtons m p h s) :=
  .ite (fun _ => (CaptureKept.controls s _).trans (buttonEvents_captureKept _ _ _ _)) (fun _ => .refl s)

theorem mixEngineBlock_captureKept (s : State) : CaptureKept s (mixEngineBlock s) :=
  .ite (fun _ => .ite (fun _ => .mix s _) (fun _ =>
    ((CaptureKept.mix s _).trans (.mix _ _)).trans (.foldl (fun t k => .of_table (staleReport_table k t)) _ _)))
    (fun _ => .refl s)

/-! ## The Capture Path's block -/

/-- R89 and R90: the trim stores the outgoing block and its peak. -/
theorem trimBlock_capture (xs : List Sample) (s : State) :
    ∃ out : List Int, (trimBlock xs s).capture = { s.capture with outgoing := out, lastPeak := peak out } :=
  ⟨_, rfl⟩

/-- R89 to R91: the state once the trimmed block has passed the detector, before what its report brings about. -/
def judgeBlock (samples : List Sample) (s : State) : State :=
  let t := trimBlock samples s
  { t with capture := (t.capture.detect (decide (t.config.threshold ≤ t.capture.lastPeak))).1 }

/-- R88: what the Capture Path does to the judged block. -/
theorem captureBlock_eq {s : State} (h : s.capturing = true) (xs : List Sample) :
    captureBlock xs s = silenceBlock (buildVoice
      (if ((trimBlock xs s).capture.detect
            (decide ((trimBlock xs s).config.threshold ≤ (trimBlock xs s).capture.lastPeak))).2 = .onset
        then talkOnset (judgeBlock xs s) else judgeBlock xs s)) := by
  unfold captureBlock
  rw [if_pos h]
  rfl

theorem captureBlock_judged {s : State} (h : s.capturing = true) (xs : List Sample) :
    CaptureKept (judgeBlock xs s) (captureBlock xs s) := by
  rw [captureBlock_eq h]
  generalize judgeBlock xs s = u
  have onset (p : Prop) [Decidable p] : CaptureKept u (if p then talkOnset u else u) :=
    .ite (fun _ => .of_table (talkOnset_table u)) (fun _ => .refl u)
  exact (onset _).trans (.of_table ((buildVoice_table _).trans (silenceBlock_table _)))

theorem judgeBlock_capture (xs : List Sample) (s : State) :
    (judgeBlock xs s).capture = ((trimBlock xs s).capture.detect
      (decide (s.config.threshold ≤ (trimBlock xs s).capture.lastPeak))).1 := rfl

/-- R91: the detector after a judged block, by the peak that the block leaves. -/
theorem judgeBlock_detector {s u : State} (h : CaptureKept s u) (xs : List Sample) {d : Capture}
    (hd : d = (s.capture.detect (decide (s.config.threshold ≤ (judgeBlock xs u).capture.lastPeak))).1) :
    (judgeBlock xs u).capture.talking = d.talking ∧ (judgeBlock xs u).capture.hangover = d.hangover := by
  obtain ⟨out, trimmed⟩ := trimBlock_capture xs u
  rw [judgeBlock_capture, trimmed] at hd ⊢
  rw [hd, Capture.detect_lastPeak, ← h.config]
  exact Capture.detect_congr (c := { u.capture with outgoing := out, lastPeak := peak out }) h.talking h.hangover _

/-- R91: a block completed at a SEAT station in RUN is judged once; nothing before or after it moves the detector. -/
theorem blockStep_judged {s : State} (h : s.capturing = true) (xs : List Sample) (m p i : Bool) :
    ∃ u : State, CaptureKept s u ∧ CaptureKept (judgeBlock xs u) (blockStep xs m p i s) := by
  have before : CaptureKept s (sampleButtons m p i (tickLeds (advanceBlock s))) :=
    CaptureKept.trans (t := advanceBlock s) ⟨rfl, rfl, rfl⟩
      ((tickLeds_captureKept _).trans (sampleButtons_captureKept m p i _))
  have taken := captureBlock_judged (before.capturing.trans h) xs
  exact ⟨_, before, (taken.settled.trans (mixEngineBlock_captureKept _)).trans
    (.ite (fun _ => .refl _) (fun _ => runningCounts_captureKept _))⟩

theorem exec_blockCompletion (xs : List Sample) (m p i : Bool) (s : State) :
    exec (.blockCompletion xs m p i) s = .next (settle (blockStep xs m p i s)) := rfl

/-- Settles O57: the detector by its two states and by induction on the quiet blocks, a completed block by what the rest
of the block keeps. -/
theorem detectorEndsWithTheSeventyFifthQuietBlock : Obligations.DetectorEndsWithTheSeventyFifthQuietBlock := by
  refine ⟨fun c => ⟨?quiet, ?talking, ?hangover⟩, ?block⟩
  case quiet => exact fun h => ⟨Capture.detect_quiet_true h, Capture.detect_quiet_false h⟩
  case talking => exact Capture.detect_talking_true
  case hangover =>
    intro h h0
    refine ⟨fun n hn => Capture.repeat_detect_false h h0 hn, ?_⟩
    rw [Capture.repeat_detect_false h h0 (n := 74) (by omega)]
    exact Capture.detect_end_of_hangover (c := { c with hangover := 74 }) h (Nat.le_refl 75)
  case block =>
    intro xs m p i s role station
    have seat : s.capturing = true := by simp [State.capturing, role, station]
    obtain ⟨u, before, after⟩ := blockStep_judged seat xs m p i
    refine ⟨_, exec_blockCompletion xs m p i s, fun d hd => ?_⟩
    rw [after.settled.lastPeak] at hd
    rw [after.settled.talking, after.settled.hangover]
    exact judgeBlock_detector before xs hd

end Sys2Proof.Machine

namespace Sys2Proof.Machine

/-! SUPPORT. READ_NOTICES (R186): a command taken by a port that is not SERVING, the attention line as a statement about
the FIFO, and the bytes of the reply counted from the FIFO's length. -/

/-- R179: a port that is not SERVING takes the command. -/
theorem whenTaken_of_not_serving {s : State} (h : s.port.serving = false) (k : State → State) : whenTaken s k = k s := by
  simp [whenTaken, h]

/-- R185: the attention line is asserted exactly while a queued notice reaches the threshold. -/
theorem Port.attention_iff (p : Port) : p.attention = true ↔ ∃ n ∈ p.notices, p.threshold ≤ n.level := by
  simp [Port.attention]

/-- R186: the number returned, the notices in FIFO order, and the number still queued. -/
theorem noticesData_eq (l : List Notice) :
    noticesData l = [byte (min 8 l.length)] ++ ((l.take 8).map Notice.bytes).flatten ++ [byte (l.length - 8)] := by
  have left : l.length - min 8 l.length = l.length - 8 := by omega
  simp only [noticesData, Config.replyRecords, List.length_take, left]

/-- R186: a READ_NOTICES that is taken removes the oldest notices and holds them as its reply. -/
theorem exec_readNotices_of_not_serving {s : State} (h : s.port.serving = false) :
    exec .readNotices s = .next (reply .ok (noticesData s.port.notices)
      { s with port := { s.port with notices := s.port.notices.drop 8 } }) :=
  congrArg _ (whenTaken_of_not_serving h _)

/-- Settles O22: the effect of the taken command with its reply spelled out, and the attention line of the FIFO that is
left. -/
theorem readNoticesTakesTheEightOldest : Obligations.ReadNoticesTakesTheEightOldest := by
  rintro s t taken rfl
  refine ⟨?effect, Port.attention_iff _⟩
  case effect =>
    rw [exec_readNotices_of_not_serving taken, noticesData_eq]
    rfl

end Sys2Proof.Machine

namespace Sys2Proof.Machine

/-! SUPPORT. The bounds that a sound station states (R11, R33, R135). -/

/-! ## The control queue -/

/-- R11: the frames of a queue by their kinds. -/
theorem length_by_kinds (q : List Frame) : q.length = hostFrames q + (ofKind q .mic).length + (ofKind q .req).length
    + (ofKind q .share).length + (ofKind q .prio).length + (ofKind q .cal).length := by
  induction q with
  | nil => rfl
  | cons f rest ih =>
    simp only [ofKind_cons, hostFrames_cons, List.length_cons, ih]
    cases f.internalKind with
    | none => simp; omega
    | some k => cases k <;> simp <;> omega

theorem QueueSound.length_le {q : List Frame} (h : QueueSound q) : q.length ≤ 10 := by
  have hosts : hostFrames q ≤ 5 := h.hosts
  have mic := h.onePerKind .mic
  have req := h.onePerKind .req
  have share := h.onePerKind .share
  have prio := h.onePerKind .prio
  have cal := h.onePerKind .cal
  rw [length_by_kinds]
  omega

/-! ## The open set -/

/-- R33: the records of the open set by their classes. -/
theorem length_by_classes (l : List OpenRecord) : l.length
    = (l.filter (fun r => decide (r.cls = .delegate))).length + (l.filter (fun r => decide (r.cls = .chair))).length := by
  induction l with
  | nil => rfl
  | cons r rest ih => cases h : r.cls <;> simp [h, ih] <;> omega

/-- A list in which every element is the same and no element stands twice has one at most. -/
theorem length_le_one_of_nodup_map {α β : Type} {l : List α} {g : α → β} {b : β} (once : (l.map g).Nodup)
    (same : ∀ a ∈ l, g a = b) : l.length ≤ 1 := by
  match l with
  | [] => exact Nat.zero_le 1
  | [_] => exact Nat.le_refl 1
  | x :: y :: _ => simp [same x (by simp), same y (by simp)] at once

/-- R33: a record of class CHAIR is the chair seat's, and no seat stands twice. -/
theorem State.Sound.chairs_le_one {s : State} (h : s.Sound) :
    (s.floor.openSet.filter (fun r => decide (r.cls = .chair))).length ≤ 1 :=
  length_le_one_of_nodup_map (g := fun r => r.seat) (b := s.meeting.chair)
    (h.views.openSeats.sublist (List.filter_sublist.map _))
    (fun r hr => h.classes.chairs r (List.mem_of_mem_filter hr) (by simpa using (List.mem_filter.1 hr).2))

theorem State.Sound.openSet_le {s : State} (h : s.Sound) : s.floor.openSet.length ≤ s.meeting.profile.limit + 1 := by
  have delegates : s.floor.delegates.length ≤ s.meeting.profile.limit := h.classes.delegates
  have chairs := h.chairs_le_one
  rw [length_by_classes]
  exact Nat.add_le_add delegates chairs

theorem State.Sound.openSet_le_seven {s : State} (h : s.Sound) : s.floor.openSet.length ≤ 7 :=
  h.openSet_le.trans (Nat.succ_le_succ h.tables.limit.2)

/-! ## The calendar view -/

/-- R135: two entries of a view in order do not overlap. -/
theorem CalendarSound.not_overlaps {v : List Entry} (h : CalendarSound v) {a b : Entry} (ha : a ∈ v) (hb : b ∈ v)
    (ne : a ≠ b) : a.wire.overlaps b.wire = false := by
  have apart : v.Pairwise (fun x y => x.wire.overlaps y.wire = false) := h.apart.imp (fun k => k.2)
  have symm : Std.Symm (fun x y : Entry => x.wire.overlaps y.wire = false) := ⟨fun _ _ k => (overlaps_comm _ _).trans k⟩
  exact apart.forall ha hb ne

/-- Settles O8: each bound from the clause of the sound station that states it. -/
theorem soundStationKeepsTheBounds : Obligations.SoundStationKeepsTheBounds := by
  intro s h
  exact ⟨h.queue.length_le, h.openSet_le, h.openSet_le_seven, h.chairs_le_one, active_count h.calendar h.active,
    fun a ha b hb ne => h.calendar.not_overlaps ha hb ne⟩

end Sys2Proof.Machine

namespace Sys2Proof.Machine

/-! SUPPORT. The source slots by the seats they are bound to (R99 to R101): what binding and freeing do to that list. -/

/-- R99: the seat a slot is bound to. -/
def Slot.boundSeat (x : Slot) : Option Nat := if x.state = .free then none else some x.seat

/-- R99: the seats that slots are bound to, in slot order. -/
def boundSeats (l : List Slot) : List Nat := l.filterMap Slot.boundSeat

theorem Slot.boundSeat_of_free {x : Slot} (h : x.state = .free) : x.boundSeat = none := if_pos h

theorem Slot.boundSeat_of_not_free {x : Slot} (h : x.state ≠ .free) : x.boundSeat = some x.seat := if_neg h

theorem boundSeats_cons_of_free {x : Slot} (h : x.state = .free) (l : List Slot) : boundSeats (x :: l) = boundSeats l :=
  List.filterMap_cons_none (Slot.boundSeat_of_free h)

theorem boundSeats_cons_of_not_free {x : Slot} (h : x.state ≠ .free) (l : List Slot) :
    boundSeats (x :: l) = x.seat :: boundSeats l := List.filterMap_cons_some (Slot.boundSeat_of_not_free h)

theorem mem_boundSeats {l : List Slot} {k : Nat} : k ∈ boundSeats l ↔ ∃ x ∈ l, x.state ≠ .free ∧ x.seat = k := by
  simp only [boundSeats, List.mem_filterMap]
  refine exists_congr fun x => and_congr_right fun _ => ?_
  by_cases h : x.state = .free <;> simp [Slot.boundSeat, h]

theorem boundSeats_eq_map (l : List Slot) :
    boundSeats l = (l.filter (fun x => decide (x.state ≠ .free))).map (fun x => x.seat) := by
  induction l with
  | nil => rfl
  | cons x xs ih =>
    by_cases h : x.state = .free
    · rw [boundSeats_cons_of_free h, List.filter_cons_of_neg (by simpa using h), ih]
    · rw [boundSeats_cons_of_not_free h, List.filter_cons_of_pos (by simpa using h), List.map_cons, ih]

theorem boundSeats_eq_nil {l : List Slot} : boundSeats l = [] ↔ ∀ x ∈ l, x.state = .free := by
  simp [boundSeats_eq_map]

/-- An operation on each slot that leaves its seat bound or free leaves the bound seats. -/
theorem boundSeats_map {g : Slot → Slot} (h : ∀ x, (g x).boundSeat = x.boundSeat) (l : List Slot) :
    boundSeats (l.map g) = boundSeats l := by
  simp only [boundSeats, List.filterMap_map]
  exact List.filterMap_congr fun x _ => h x

/-- R100: the slots of a station by the seats they are bound to. -/
theorem slotsFollow_iff {s : State} : SlotsFollow s ↔
    (s.hasMix = true → ∀ k, k ∈ boundSeats s.mix.slots ↔ s.floor.isOpen k = true ∧ k ≠ s.ownSeat) ∧
    (boundSeats s.mix.slots).Nodup ∧ (s.hasMix = false ∨ s.station = .setup → boundSeats s.mix.slots = []) := by
  refine ⟨fun h => ⟨?_, ?_, ?_⟩, fun ⟨bound, once, free⟩ => ⟨?_, ?_, ?_⟩⟩
  · exact fun m k => mem_boundSeats.trans (h.bound m k)
  · exact boundSeats_eq_map _ ▸ h.once
  · exact fun c => boundSeats_eq_nil.2 (h.free c)
  · exact fun m k => mem_boundSeats.symm.trans (bound m k)
  · exact boundSeats_eq_map _ ▸ once
  · exact fun c => boundSeats_eq_nil.1 (free c)

/-! ## Freeing (R101) -/

theorem boundSeats_freeSeat (k : Nat) (l : List Slot) :
    boundSeats (freeSeat k l) = (boundSeats l).filter (fun j => decide (j ≠ k)) := by
  induction l with
  | nil => rfl
  | cons x xs ih =>
    have step : freeSeat k (x :: xs) = (if x.state ≠ .free ∧ x.seat = k then Slot.freed else x) :: freeSeat k xs := rfl
    rw [step]
    by_cases free : x.state = .free
    · rw [if_neg (fun c => c.1 free), boundSeats_cons_of_free free, boundSeats_cons_of_free free, ih]
    · by_cases seat : x.seat = k
      · rw [if_pos ⟨free, seat⟩, boundSeats_cons_of_free rfl, boundSeats_cons_of_not_free free,
          List.filter_cons_of_neg (by simpa using seat), ih]
      · rw [if_neg (fun c => seat c.2), boundSeats_cons_of_not_free free, boundSeats_cons_of_not_free free,
          List.filter_cons_of_pos (by simpa using seat), ih]

theorem boundSeats_freeSeats (out : List Nat) (l : List Slot) :
    boundSeats (out.foldl (fun m k => freeSeat k m) l) = (boundSeats l).filter (fun j => decide (j ∉ out)) := by
  induction out generalizing l with
  | nil => simp
  | cons k rest ih =>
    rw [List.foldl_cons, ih, boundSeats_freeSeat, List.filter_filter]
    refine List.filter_congr fun j _ => ?_
    by_cases h : j = k <;> simp [h]

theorem length_freeSeats (out : List Nat) (l : List Slot) :
    (out.foldl (fun m k => freeSeat k m) l).length = l.length := by
  induction out generalizing l with
  | nil => rfl
  | cons k rest ih => rw [List.foldl_cons, ih, freeSeat_length]

/-! ## Binding (R100) -/

/-- R100: where a slot is FREE, the seat is bound. -/
theorem boundSeats_bindFirst {k : Nat} {l : List Slot} (room : (boundSeats l).length < l.length) :
    (boundSeats (bindFirst k l)).Perm (k :: boundSeats l) := by
  induction l with
  | nil => simp at room
  | cons x xs ih =>
    by_cases free : x.state = .free
    · have bound : bindFirst k (x :: xs) = { Slot.freed with seat := k, state := .filling } :: xs := if_pos free
      rw [bound, boundSeats_cons_of_free free, boundSeats_cons_of_not_free (by simp)]
    · have bound : bindFirst k (x :: xs) = x :: bindFirst k xs := if_neg free
      rw [boundSeats_cons_of_not_free free] at room
      rw [bound, boundSeats_cons_of_not_free free, boundSeats_cons_of_not_free free]
      exact ((ih (Nat.lt_of_succ_lt_succ room)).cons _).trans (.swap _ _ _)

theorem boundSeats_bindSeats {ins : List Nat} {l : List Slot} (room : (boundSeats l).length + ins.length ≤ l.length) :
    (boundSeats (ins.foldl (fun m k => bindFirst k m) l)).Perm (ins ++ boundSeats l) := by
  induction ins generalizing l with
  | nil => exact .refl _
  | cons k rest ih =>
    rw [List.length_cons] at room
    have first : (boundSeats (bindFirst k l)).Perm (k :: boundSeats l) := boundSeats_bindFirst (by omega)
    have rest_room : (boundSeats (bindFirst k l)).length + rest.length ≤ (bindFirst k l).length := by
      rw [first.length_eq, bindFirst_length, List.length_cons]; omega
    exact (ih rest_room).trans ((first.append_left rest).trans List.perm_middle)

/-! ## A net change (R38) -/

/-- The seats of a list other than the own one. -/
abbrev othersOf (own : Nat) (l : List Nat) : List Nat := l.filter (fun k => decide (k ≠ own))

theorem boundSeats_bindNet {own : Nat} {out ins : List Nat} {l : List Slot}
    (room : ((boundSeats l).filter (fun j => decide (j ∉ othersOf own out))).length + (othersOf own ins).length ≤ l.length) :
    (boundSeats (bindNet own out ins l)).Perm
      (othersOf own ins ++ (boundSeats l).filter (fun j => decide (j ∉ othersOf own out))) := by
  have freed := boundSeats_freeSeats (othersOf own out) l
  have bound := boundSeats_bindSeats (ins := othersOf own ins) (l := (othersOf own out).foldl (fun m k => freeSeat k m) l)
    (by rw [freed, length_freeSeats]; exact room)
  rw [freed] at bound
  exact bound

/-- R101: a net change without entries. -/
theorem boundSeats_bindNet_nil (own : Nat) (out : List Nat) (l : List Slot) :
    boundSeats (bindNet own out [] l) = (boundSeats l).filter (fun j => decide (j ∉ othersOf own out)) :=
  boundSeats_freeSeats (othersOf own out) l

end Sys2Proof.Machine

namespace Sys2Proof.Machine

/-! SUPPORT. Steps of the view that account for the seats they take out of the open set (R37). -/

/-- R37: a step records every seat that was open before it and is not after it. -/
def FloorStep.Accounts (before : Floor) (x : FloorStep) : Prop :=
  ∀ k, before.isOpen k = true → x.floor.isOpen k = false → k ∈ x.left.map (fun p => p.1)

theorem Floor.isOpen_congr {f g : Floor} (h : f.openSet = g.openSet) (k : Nat) : f.isOpen k = g.isOpen k := by
  simp only [isOpen, h]

theorem FloorStep.Accounts.plain {before f : Floor} (h : f.openSet = before.openSet) :
    (FloorStep.plain f).Accounts before := by
  intro k opened gone
  have same : f.isOpen k = before.isOpen k := Floor.isOpen_congr h k
  rw [show (FloorStep.plain f).floor = f from rfl, same, opened] at gone
  cases gone

theorem Floor.isOpen_dropOpen (f : Floor) (k j : Nat) : (f.dropOpen k).isOpen j = (f.isOpen j && decide (j ≠ k)) := by
  rw [Bool.eq_iff_iff]
  simp only [Floor.isOpen_iff, Floor.dropOpen, List.mem_filter, Bool.and_eq_true, decide_eq_true_eq]
  constructor
  · rintro ⟨r, ⟨mem, ne⟩, rfl⟩
    exact ⟨⟨r, mem, rfl⟩, ne⟩
  · rintro ⟨⟨r, mem, rfl⟩, ne⟩
    exact ⟨r, ⟨mem, ne⟩, rfl⟩

/-- A step that takes one seat out, where it was open. -/
theorem FloorStep.Accounts.dropOpen {before f : Floor} {k : Nat} {why : Reason}
    (h : f.openSet = (before.dropOpen k).openSet) :
    FloorStep.Accounts before { floor := f, left := if before.isOpen k then [(k, why)] else [] } := by
  intro j opened gone
  have left : f.isOpen j = (before.isOpen j && decide (j ≠ k)) :=
    (Floor.isOpen_congr h j).trans (before.isOpen_dropOpen k j)
  obtain rfl : j = k := by
    rw [show FloorStep.floor _ = f from rfl, left, opened] at gone
    simpa using gone
  simp [opened]

theorem Floor.removed_accounts (f : Floor) (k : Nat) (why : Reason) : (f.removed k why).Accounts f :=
  .dropOpen rfl

theorem FloorStep.Accounts.of_openSet {f g : Floor} {x : FloorStep} (h : g.openSet = f.openSet) (k : x.Accounts g) :
    x.Accounts f := fun j opened gone => k j ((Floor.isOpen_congr h j).trans opened) gone

theorem Floor.yielded_accounts (f : Floor) (k q : Nat) : (f.yielded k q).Accounts f :=
  .of_openSet (g := f.raise q) rfl (.dropOpen (Floor.join_openSet _ _ _))

theorem Floor.departed_accounts (f : Floor) (k : Nat) (chair : Bool) : (f.departed k chair).Accounts f :=
  .dropOpen (by cases chair <;> rfl)

/-! ## Entering and displacing -/

/-- R42: the record that an entering seat has: its since is kept where it was open. -/
def Floor.entered (f : Floor) (k : Nat) (cls : OpenClass) (o q b : Nat) : OpenRecord :=
  { seat := k, cls := cls, openStamp := o, requestStamp := q, since := ((f.openRecord k).map (fun r => r.since)).getD b }

theorem Floor.enter_eq (f : Floor) (k : Nat) (cls : OpenClass) (o q b : Nat) : f.enter k cls o q b =
    { f.dropQueue k with openSet := insertOpen (f.entered k cls o q b) (f.dropOpen k).openSet } := by
  have found : (f.dropQueue k).openRecord k = f.openRecord k := rfl
  unfold enter entered
  dsimp only
  rw [found]
  cases f.openRecord k <;> rfl

theorem Floor.mem_enter {f : Floor} {k o q b : Nat} {cls : OpenClass} {r : OpenRecord} :
    r ∈ (f.enter k cls o q b).openSet ↔ r = f.entered k cls o q b ∨ (r ∈ f.openSet ∧ r.seat ≠ k) := by
  simp only [enter_eq, mem_insertOpen, dropOpen, List.mem_filter, decide_eq_true_eq]

theorem Floor.isOpen_enter (f : Floor) (k : Nat) (cls : OpenClass) (o q b j : Nat) :
    (f.enter k cls o q b).isOpen j = (decide (j = k) || f.isOpen j) := by
  rw [Bool.eq_iff_iff]
  simp only [Floor.isOpen_iff, Floor.mem_enter, Bool.or_eq_true, decide_eq_true_eq]
  constructor
  · rintro ⟨r, rfl | ⟨mem, _⟩, rfl⟩
    · exact .inl rfl
    · exact .inr ⟨r, mem, rfl⟩
  · rintro (rfl | ⟨r, mem, rfl⟩)
    · exact ⟨f.entered j cls o q b, .inl rfl, rfl⟩
    · by_cases h : r.seat = k
      · exact ⟨f.entered k cls o q b, .inl rfl, h.symm⟩
      · exact ⟨r, .inr ⟨mem, h⟩, rfl⟩

/-- R49: displacement records every seat that it takes out. -/
theorem Floor.displaceStep_accounts {before f : Floor} (h : ∀ j, before.isOpen j = true → f.isOpen j = true)
    (limit : Nat) : (f.displaceStep limit).Accounts before := by
  intro j opened gone
  obtain ⟨r, mem, rfl⟩ := Floor.isOpen_iff.1 (h j opened)
  have out : r ∈ f.excess limit := by
    by_contra kept
    have stays : r ∈ (f.displace limit).openSet := by simp [Floor.displace_openSet, mem, kept]
    exact Floor.isOpen_false.1 gone r stays rfl
  simpa [Floor.displaceStep] using ⟨r, out, rfl⟩

theorem Floor.enterStep_accounts {before f : Floor} (h : f.openSet = before.openSet) (k : Nat) (cls : OpenClass)
    (o q b limit : Nat) : ((f.enter k cls o q b).displaceStep limit).Accounts before :=
  displaceStep_accounts (fun j opened => by
    rw [isOpen_enter, Floor.isOpen_congr h, opened, Bool.or_true]) limit

theorem Floor.opening_accounts (f : Floor) (k : Nat) (cls : OpenClass) (o q b limit : Nat) :
    (f.opening k cls o q b limit).Accounts f := by
  unfold opening
  dsimp only
  split
  · split
    · exact .plain rfl
    · exact enterStep_accounts (f := (f.raise o).raise q) (before := f) rfl _ _ _ _ _ _
  · exact enterStep_accounts (f := (f.raise o).raise q) (before := f) rfl _ _ _ _ _ _

theorem Floor.implicit_accounts (f : Floor) (k : Nat) (cls : OpenClass) (o q b limit : Nat) :
    (f.implicit k cls o q b limit).Accounts f := by
  unfold implicit
  dsimp only
  split
  · split
    · exact .plain rfl
    · exact enterStep_accounts (f := (f.raise o).raise q) (before := f) rfl _ _ _ _ _ _
  · exact enterStep_accounts (f := (f.raise o).raise q) (before := f) rfl _ _ _ _ _ _

@[simp] theorem Floor.setPriority_openSet (f : Floor) (on allowed : Bool) :
    (f.setPriority on allowed).openSet = f.openSet := by
  unfold setPriority
  split
  · split <;> rfl
  · rfl

@[simp] theorem Floor.reconcilePriority_openSet (f : Floor) (p chair allowed : Bool) :
    (f.reconcilePriority p chair allowed).openSet = f.openSet := by
  unfold reconcilePriority
  split
  · exact setPriority_openSet _ _ _
  · rfl

@[simp] theorem Floor.raiseReported_openSet (f : Floor) (mic : Option (Nat × Nat)) (request : Option Nat) :
    (f.raiseReported mic request).openSet = f.openSet := by
  cases mic <;> cases request <;> rfl

theorem Floor.reconcile_accounts (f : Floor) (k : Nat) (mic : Option (Nat × Nat)) (request : Option Nat)
    (priority chair : Bool) (b limit : Nat) (allowed : Bool) :
    (f.reconcile k mic request priority chair b limit allowed).Accounts f := by
  have raised : (f.raiseReported mic request).openSet = f.openSet := raiseReported_openSet f mic request
  unfold reconcile
  dsimp only
  split
  · exact .of_openSet raised (.dropOpen (by simp))
  · split
    · exact .plain (by simp)
    · refine displaceStep_accounts (fun j opened => ?_) limit
      rw [Floor.isOpen_congr (reconcilePriority_openSet _ _ _ _), Floor.isOpen_congr (reconcileRequest_openSet _ _ _),
        isOpen_enter, Floor.isOpen_congr raised, opened, Bool.or_true]

/-! ## The net change of a step (R37) -/

theorem FloorStep.mem_removals {before : Floor} {x : FloorStep} {p : Nat × Reason} :
    p ∈ x.removals before ↔ p ∈ x.left ∧ before.isOpen p.1 = true ∧ x.floor.isOpen p.1 = false := by
  simp [removals]

/-- R37: the seats removed are those that were open before and are not after. -/
theorem FloorStep.Accounts.mem_removed {before : Floor} {x : FloorStep} (h : x.Accounts before) {k : Nat} :
    k ∈ (x.removals before).map (fun p => p.1) ↔ before.isOpen k = true ∧ x.floor.isOpen k = false := by
  constructor
  · intro mem
    obtain ⟨p, hp, rfl⟩ := List.mem_map.1 mem
    exact (mem_removals.1 hp).2
  · rintro ⟨opened, gone⟩
    obtain ⟨p, hp, rfl⟩ := List.mem_map.1 (h k opened gone)
    exact List.mem_map.2 ⟨p, mem_removals.2 ⟨hp, opened, gone⟩, rfl⟩

theorem FloorStep.mem_entries {before : Floor} {x : FloorStep} {k : Nat} :
    k ∈ x.entries before ↔ x.floor.isOpen k = true ∧ before.isOpen k = false := by
  simp only [entries, List.mem_map, List.mem_filter, Floor.isOpen_iff]
  constructor
  · rintro ⟨r, ⟨mem, new⟩, rfl⟩
    exact ⟨⟨r, mem, rfl⟩, by simpa using new⟩
  · rintro ⟨⟨r, mem, rfl⟩, new⟩
    exact ⟨r, ⟨mem, by simpa using new⟩, rfl⟩

theorem FloorStep.removals_of_empty {before : Floor} (h : before.openSet = []) (x : FloorStep) :
    x.removals before = [] := by
  simp [removals, Floor.isOpen, h]

/-! ## What a stored step leaves (R37 to R39) -/

/-- R38: the slots after a stored step. -/
theorem storeStep_slots (x : FloorStep) (s : State) : (storeStep x s).mix.slots =
    if s.hasMix then bindNet s.ownSeat ((x.removals s.floor).map (fun p => p.1)) (x.entries s.floor) s.mix.slots
    else s.mix.slots := by
  unfold storeStep
  dsimp only
  split <;> simp

@[simp] theorem storeStep_meeting (x : FloorStep) (s : State) : (storeStep x s).meeting = s.meeting := by
  unfold storeStep
  dsimp only
  split <;> simp

@[simp] theorem storeStep_mic (x : FloorStep) (s : State) : (storeStep x s).mic = s.mic := by
  unfold storeStep
  dsimp only
  split <;> simp

@[simp] theorem storeStep_capture (x : FloorStep) (s : State) : (storeStep x s).capture = s.capture := by
  unfold storeStep
  dsimp only
  split <;> simp

@[simp] theorem storeStep_share (x : FloorStep) (s : State) : (storeStep x s).share = s.share := by
  unfold storeStep
  dsimp only
  split <;> simp

@[simp] theorem storeStep_station (x : FloorStep) (s : State) : (storeStep x s).station = s.station := by
  unfold storeStep
  dsimp only
  split <;> simp

@[simp] theorem storeStep_config (x : FloorStep) (s : State) : (storeStep x s).config = s.config := by
  unfold storeStep
  dsimp only
  split <;> simp

@[simp] theorem storeStep_presence (x : FloorStep) (s : State) : (storeStep x s).presence = s.presence := by
  unfold storeStep
  dsimp only
  split <;> simp

@[simp] theorem storeStep_calendar (x : FloorStep) (s : State) : (storeStep x s).calendar = s.calendar := by
  unfold storeStep
  dsimp only
  split <;> simp

@[simp] theorem storeStep_screen (x : FloorStep) (s : State) : (storeStep x s).screen = s.screen := by
  unfold storeStep
  dsimp only
  split <;> simp

@[simp] theorem storeStep_beaconSlot (x : FloorStep) (s : State) :
    (storeStep x s).link.beaconSlot = s.link.beaconSlot := by
  unfold storeStep
  dsimp only
  split <;> simp

@[simp] theorem storeStep_inSend (x : FloorStep) (s : State) : (storeStep x s).link.inSend = s.link.inSend := by
  unfold storeStep
  dsimp only
  split <;> simp

end Sys2Proof.Machine

namespace Sys2Proof.Machine

/-! SUPPORT. What every operation of a running station keeps beside a sound station: placing with OPEN (R93), a silent
CLASH (R6), an empty floor while IDLE (R33, R61, R171) and slots that follow the open set (R100). One relation, `Keeps`,
for all of them; here its parts and the changes of one part. -/

/-- R6: once the beacon slot of a station in CLASH is empty it stays empty, and no frame starts. -/
def StaysQuiet (s t : State) : Prop :=
  s.station = .clash → s.link.beaconSlot = none → t.link.beaconSlot = none ∧
    ∀ y : Sending, t.link.inSend = some y → ∃ x : Sending, s.link.inSend = some x ∧ y.frame = x.frame

/-- What an operation keeps in every state. -/
structure Steady (s t : State) : Prop where
  evolves : Evolves s t
  placing : PlacingWithOpen s → PlacingWithOpen t
  quiet : StaysQuiet s t

/-- What an operation keeps of the table between meetings and of the slots. -/
structure Keeps (s t : State) : Prop extends Steady s t where
  idle : IdleEmpty s → IdleEmpty t
  slots : s.Sound → IdleEmpty s → SlotsFollow s → SlotsFollow t

/-! ## Composition -/

theorem StaysQuiet.of_link {s t : State} (b : t.link.beaconSlot = s.link.beaconSlot)
    (i : t.link.inSend = s.link.inSend) : StaysQuiet s t :=
  fun _ empty => ⟨b.trans empty, fun y hy => ⟨y, i ▸ hy, rfl⟩⟩

theorem Steady.refl (s : State) : Steady s s := ⟨.refl s, id, .of_link rfl rfl⟩

theorem Steady.trans {s t u : State} (h : Steady s t) (k : Steady t u) : Steady s u := by
  refine ⟨h.evolves.trans k.evolves, k.placing ∘ h.placing, fun clash empty => ?_⟩
  obtain ⟨emptyT, sameT⟩ := h.quiet clash empty
  obtain ⟨emptyU, sameU⟩ := k.quiet (h.evolves.same.station.trans clash) emptyT
  refine ⟨emptyU, fun z hz => ?_⟩
  obtain ⟨y, hy, zy⟩ := sameU z hz
  obtain ⟨x, hx, yx⟩ := sameT y hy
  exact ⟨x, hx, zy.trans yx⟩

theorem Keeps.refl (s : State) : Keeps s s := ⟨.refl s, id, fun _ _ => id⟩

theorem Keeps.trans {s t u : State} (h : Keeps s t) (k : Keeps t u) : Keeps s u :=
  ⟨h.toSteady.trans k.toSteady, k.idle ∘ h.idle,
    fun sound idle follow => k.slots (h.evolves.sound sound) (h.idle idle) (h.slots sound idle follow)⟩

/-- An operation that is one of two. -/
theorem Keeps.ite {s t u : State} {p : Prop} [Decidable p] (h : p → Keeps s t) (k : ¬ p → Keeps s u) :
    Keeps s (if p then t else u) := by
  split
  · exact h ‹_›
  · exact k ‹_›

theorem Keeps.foldl {α : Type} {g : State → α → State} (hg : ∀ s a, Keeps s (g s a)) (l : List α) (s : State) :
    Keeps s (l.foldl g s) := by
  induction l generalizing s with
  | nil => exact .refl s
  | cons a rest ih => exact (hg s a).trans (ih _)

/-! ## Changes of one part -/

/-- The own microphone stays OPEN or stays out of OPEN, and placing stays. -/
theorem Steady.of_states {s t : State} (e : Evolves s t) (q : StaysQuiet s t)
    (m : t.mic.state = .open ↔ s.mic.state = .open) (p : t.capture.placing = s.capture.placing) : Steady s t :=
  ⟨e, fun h => by unfold PlacingWithOpen at *; rw [p, m]; exact h, q⟩

/-- The own microphone and placing are set together. -/
theorem Steady.of_set {s t : State} (e : Evolves s t) (q : StaysQuiet s t)
    (m : t.capture.placing = true ↔ t.mic.state = .open) : Steady s t := ⟨e, fun _ => m, q⟩

/-- R171: nobody presents and nothing is claimed. -/
def Share.Unclaimed (h : Share) : Prop := (h.screen1 = none ∧ h.screen2 = none) ∧ h.claim = .none

/-- An operation that leaves the meeting state, the open set and the seats that slots are bound to. -/
theorem Keeps.of_parts {s t : State} (h : Steady s t) (state : t.meeting.state = s.meeting.state)
    (opens : t.floor.openSet = s.floor.openSet)
    (mic : s.meeting.state = .idle → s.mic.state = .closed → t.mic.state = .closed)
    (share : s.meeting.state = .idle → s.share.Unclaimed → t.share.Unclaimed)
    (bound : boundSeats t.mix.slots = boundSeats s.mix.slots) : Keeps s t := by
  have station := h.evolves.same.station
  have config := h.evolves.same.config
  refine ⟨h, fun i => ⟨fun k => ?_, fun k => ?_, fun k => ?_, fun k => ?_, fun k => ?_⟩, fun _ _ follow => ?_⟩
  · exact opens.trans (i.openSet (state ▸ k))
  · exact mic (state ▸ k) (i.mic (state ▸ k))
  · exact (share (state ▸ k) ⟨i.screens (state ▸ k), i.claim (state ▸ k)⟩).1
  · exact (share (state ▸ k) ⟨i.screens (state ▸ k), i.claim (state ▸ k)⟩).2
  · exact state.trans (i.setup (station ▸ k))
  · have isOpen (k : Nat) : t.floor.isOpen k = s.floor.isOpen k := Floor.isOpen_congr opens k
    rw [slotsFollow_iff] at follow ⊢
    simpa only [State.hasMix, State.ownSeat, bound, isOpen, station, config] using follow

/-- An operation that leaves every part that the invariants name but the link and the mark of a message. -/
theorem Keeps.of_same {s t : State} (e : Evolves s t) (q : StaysQuiet s t) (state : t.meeting.state = s.meeting.state)
    (floor : t.floor.openSet = s.floor.openSet) (mic : t.mic.state = s.mic.state)
    (placing : t.capture.placing = s.capture.placing)
    (share : t.share.screen1 = s.share.screen1 ∧ t.share.screen2 = s.share.screen2 ∧ t.share.claim = s.share.claim)
    (slots : t.mix.slots = s.mix.slots) : Keeps s t := by
  obtain ⟨screen1, screen2, claim⟩ := share
  refine .of_parts (.of_states e q (by rw [mic]) placing) state floor (fun _ k => mic.trans k) (fun _ k => ?_)
    (by rw [slots])
  exact ⟨⟨screen1.trans k.1.1, screen2.trans k.1.2⟩, claim.trans k.2⟩

/-- A link step. -/
theorem Keeps.of_linkOnly {s t : State} (h : linkOnly s t) (e : Evolves s t) (q : StaysQuiet s t) : Keeps s t := by
  unfold linkOnly at h
  have floor : t.floor = s.floor := by rw [h]
  have mic : t.mic = s.mic := by rw [h]
  have capture : t.capture = s.capture := by rw [h]
  have share : t.share = s.share := by rw [h]
  have mix : t.mix = s.mix := by rw [h]
  have meeting : t.meeting = s.meeting := by rw [h]
  exact .of_same e q (by rw [meeting]) (by rw [floor]) (by rw [mic]) (by rw [capture]) (by rw [share]; exact ⟨rfl, rfl, rfl⟩)
    (by rw [mix])

/-- The own-microphone record with placing. -/
theorem Keeps.micPlacing {s : State} {m : OwnMic} {p : Bool} (h : p = true ↔ m.state = .open)
    (i : s.meeting.state = .idle → s.mic.state = .closed → m.state = .closed) :
    Keeps s { s with mic := m, capture := { s.capture with placing := p } } :=
  .of_parts (.of_set (TableStep.mic s m p).evolves (.of_link rfl rfl) h) rfl rfl i (fun _ k => k) rfl

/-- The own-microphone record without a change of its state. -/
theorem Keeps.micRecord {s : State} {m : OwnMic} (h : m.state = s.mic.state) : Keeps s { s with mic := m } :=
  .of_same (TableStep.mic' s m).evolves (.of_link rfl rfl) rfl rfl h rfl ⟨rfl, rfl, rfl⟩ rfl

/-- While a meeting runs the own microphone moves between states other than OPEN. -/
theorem Keeps.micState {s : State} {m : OwnMic} (run : s.meeting.state ≠ .idle) (before : s.mic.state ≠ .open)
    (after : m.state ≠ .open) : Keeps s { s with mic := m } :=
  .of_parts (.of_states (TableStep.mic' s m).evolves (.of_link rfl rfl) (iff_of_false after before) rfl) rfl rfl
    (fun i => absurd i run) (fun _ k => k) rfl

/-- The stamp counter is raised. -/
theorem Keeps.stamp {s : State} {f : Floor} (h : FloorKeeps s.floor f s.meeting.profile.limit s.meeting.chair)
    (opens : f.openSet = s.floor.openSet) : Keeps s { s with floor := f } :=
  .of_same (TableStep.floorMic h s.mic).evolves (.of_link rfl rfl) rfl opens rfl rfl ⟨rfl, rfl, rfl⟩ rfl

/-- The share map and the own claim. -/
theorem Keeps.share {s : State} {h : Share}
    (stamps : shareStampsSound s.share s.floor.stamp → shareStampsSound h s.floor.stamp)
    (seats : shareSound s.share → shareSound h)
    (empty : s.meeting.state = .idle → s.share.Unclaimed → h.Unclaimed) : Keeps s { s with share := h } :=
  .of_parts (.of_states (TableStep.share' stamps seats).evolves (.of_link rfl rfl) Iff.rfl rfl) rfl rfl (fun _ k => k)
    empty rfl

/-- The calendar. -/
theorem Keeps.calendar {s : State} {c : Calendar} (e : Evolves s { s with calendar := c }) :
    Keeps s { s with calendar := c } :=
  .of_same e (.of_link rfl rfl) rfl rfl rfl rfl ⟨rfl, rfl, rfl⟩ rfl

/-- The meeting record without a change between IDLE and running. -/
theorem Keeps.record {s : State} {m : Meeting} (e : Evolves s { s with meeting := m })
    (state : m.state = .idle ↔ s.meeting.state = .idle) : Keeps s { s with meeting := m } := by
  refine ⟨.of_states e (.of_link rfl rfl) Iff.rfl rfl, fun i => ?_, fun _ _ follow => ?_⟩
  · exact ⟨fun k => i.openSet (state.1 k), fun k => i.mic (state.1 k), fun k => i.screens (state.1 k),
      fun k => i.claim (state.1 k), fun k => state.2 (i.setup k)⟩
  · exact ⟨follow.bound, follow.once, follow.free⟩

/-! ## Notices and what follows a change -/

theorem notify_keeps (n : Notice) (s : State) : Keeps s (notify n s) :=
  .of_same (notify_table n s).evolves (.of_link rfl rfl) rfl rfl rfl rfl ⟨rfl, rfl, rfl⟩ rfl

theorem notifyAll_keeps (l : List Notice) (s : State) : Keeps s (notifyAll l s) :=
  .foldl (fun t n => notify_keeps n t) l s

theorem showTransient_keeps (x : List Byte) (s : State) : Keeps s (showTransient x s) :=
  .of_same (showTransient_table x s).evolves (.of_link rfl rfl) rfl rfl rfl rfl ⟨rfl, rfl, rfl⟩ rfl

theorem reply_keeps (x : Status) (d : List Byte) (s : State) : Keeps s (reply x d s) :=
  .of_same (reply_evolves x d s) (.of_link rfl rfl) rfl rfl rfl rfl ⟨rfl, rfl, rfl⟩ rfl

theorem answer_keeps (x : Status) (s : State) : Keeps s (answer x s) := reply_keeps x [] s

theorem settle_keeps (s : State) : Keeps s (settle s) :=
  .of_same (settle_evolves s) (.of_link (by simp) (by simp)) (by simp) (by simp) (by simp) (by simp)
    ⟨by simp, by simp, by simp⟩ (by simp)

/-- A change and what follows it. -/
theorem Keeps.settled {s t : State} (h : Keeps s t) : Keeps s (settle t) := h.trans (settle_keeps t)

theorem micOff_keeps (s : State) : Keeps s (micOff s) :=
  .micPlacing (s := s) (m := .reset) (p := false) (by simp [OwnMic.reset]) (fun _ _ => rfl)

/-! ## The link -/

/-- R15 with R6: in CLASH nothing but the clash beacon is selected. -/
theorem select_of_clash {s : State} (clash : s.station = .clash) (empty : s.link.beaconSlot = none) : select s = s := by
  simp [select, clash, empty]

theorem select_quiet (s : State) : StaysQuiet s (select s) := fun clash empty => by
  rw [select_of_clash clash empty]
  exact StaysQuiet.of_link rfl rfl clash empty

theorem select_keeps (s : State) : Keeps s (select s) :=
  .of_linkOnly (select_linkOnly s) (select_table s).evolves (select_quiet s)

theorem flushCheck_keeps (s : State) : Keeps s (flushCheck s) :=
  .of_linkOnly (flushCheck_linkOnly s) (flushCheck_table s).evolves
    (.of_link (by rw [flushCheck_link]) (by rw [flushCheck_link]))

theorem emptyVoice_keeps (s : State) : Keeps s (emptyVoice s) :=
  .of_linkOnly rfl (emptyVoice_table s).evolves (.of_link rfl rfl)

theorem offer_of_clash {b : Body} {s : State} (clash : s.station = .clash) : offer b s = (s, .refused) := if_pos clash

theorem offer_keeps {b : Body} {s : State} (h : (s.own b).internalKind ≠ none) : Keeps s (offer b s).1 :=
  .of_linkOnly (offer_linkOnly b s) (offer_table h).evolves fun clash empty => by
    rw [offer_of_clash clash]
    exact StaysQuiet.of_link rfl rfl clash empty

theorem offerFrame_keeps {b : Body} {s : State} (h : (s.own b).internalKind ≠ none) : Keeps s (offerFrame b s) :=
  offer_keeps h

theorem offerHost_keeps {b : Body} {s : State} (h : (s.own b).internalKind = none)
    (room : hostFrames s.link.queue < Config.maxHostFrames) (run : s.station ≠ .clash) : Keeps s (offerHost b s) :=
  .of_linkOnly (offerHost_linkOnly b s) (offerHost_table h room run).evolves fun clash => absurd clash run

theorem withdrawOpen_beaconSlot (s : State) : (withdrawOpen s).1.link.beaconSlot = s.link.beaconSlot := by
  unfold withdrawOpen
  split
  · rw [flushCheck_link]
  · split
    · split
      · split <;> rfl
      · rfl
    · rfl

theorem withdrawOpen_inSend (s : State) : (withdrawOpen s).1.link.inSend = s.link.inSend := by
  unfold withdrawOpen
  split
  · rw [flushCheck_link]
  · split
    · split
      · split <;> rfl
      · rfl
    · rfl

theorem withdrawOpen_keeps (s : State) : Keeps s (withdrawOpen s).1 :=
  .of_linkOnly (withdrawOpen_linkOnly s) (withdrawOpen_table s).evolves
    (.of_link (withdrawOpen_beaconSlot s) (withdrawOpen_inSend s))

theorem placeVoice_keeps (b : Body) (s : State) : Keeps s (placeVoice b s) :=
  .of_linkOnly (placeVoice_linkOnly b s) (placeVoice_table b s).evolves fun clash empty => by
    rw [show placeVoice b s = s from if_pos clash]
    exact StaysQuiet.of_link rfl rfl clash empty

theorem requestBeacon_keeps (s : State) : Keeps s (requestBeacon s) :=
  .of_linkOnly (requestBeacon_linkOnly s) (requestBeacon_table s).evolves fun clash empty => by
    rw [show requestBeacon s = s from if_neg (by simp [clash])]
    exact StaysQuiet.of_link rfl rfl clash empty

theorem freeLink_keeps (s : State) : Keeps s (freeLink s) :=
  .of_linkOnly (freeLink_linkOnly s) (freeLink_table s).evolves fun clash empty => by
    have stays : freeLink s = { s with link := { s.link with inSend := none } } := select_of_clash clash empty
    rw [stays]
    exact ⟨empty, nofun⟩

theorem finishAttempt_keeps (s : State) : Keeps s (finishAttempt s) :=
  .of_linkOnly (finishAttempt_linkOnly s) (finishAttempt_table s).evolves fun clash empty => by
    have stays : finishAttempt s = { s with link := { s.link with finishing := false } } := select_of_clash clash empty
    rw [stays]
    exact StaysQuiet.of_link rfl rfl clash empty

/-! ## A stored step of the view -/

section
variable {x : FloorStep} {s : State}

/-- R38: the seats that a net change leaves bound: those that entered, and those that were bound and did not leave. -/
abbrev boundAfter (x : FloorStep) (s : State) : List Nat :=
  othersOf s.ownSeat (x.entries s.floor) ++ (boundSeats s.mix.slots).filter
    (fun j => decide (j ∉ othersOf s.ownSeat ((x.removals s.floor).map (fun p => p.1))))

theorem mem_boundAfter (a : x.Accounts s.floor)
    (bound : ∀ k, k ∈ boundSeats s.mix.slots ↔ s.floor.isOpen k = true ∧ k ≠ s.ownSeat) (k : Nat) :
    k ∈ boundAfter x s ↔ x.floor.isOpen k = true ∧ k ≠ s.ownSeat := by
  have removed := a.mem_removed (k := k)
  have entered := FloorStep.mem_entries (before := s.floor) (x := x) (k := k)
  simp only [List.mem_append, List.mem_filter, decide_eq_true_eq, entered, removed, bound]
  cases s.floor.isOpen k <;> cases x.floor.isOpen k <;> simp

theorem boundAfter_nodup (seats : (x.floor.openSet.map (fun r => r.seat)).Nodup)
    (bound : ∀ k, k ∈ boundSeats s.mix.slots ↔ s.floor.isOpen k = true ∧ k ≠ s.ownSeat)
    (once : (boundSeats s.mix.slots).Nodup) : (boundAfter x s).Nodup := by
  refine List.Nodup.append ?_ (once.filter _) ?_
  · exact (seats.sublist (List.filter_sublist.map _)).filter _
  · intro k entered kept
    have new := (FloorStep.mem_entries.1 (List.mem_filter.1 entered).1).2
    have old := ((bound k).1 (List.mem_filter.1 kept).1).1
    rw [old] at new
    cases new

/-- R100 and R101: after a stored step the slots follow the open set. -/
theorem storeStep_slotsFollow (keeps : FloorKeeps s.floor x.floor s.meeting.profile.limit s.meeting.chair)
    (a : x.Accounts s.floor) (idle : s.meeting.state = .idle → s.floor.openSet = [] → x.floor.openSet = [])
    (sound : s.Sound) (empty : IdleEmpty s) (follow : SlotsFollow s) : SlotsFollow (storeStep x s) := by
  have soundAfter : (storeStep x s).Sound := (storeStep_table keeps).evolves.sound sound
  have hasMix : (storeStep x s).hasMix = s.hasMix := by simp [State.hasMix]
  have ownSeat : (storeStep x s).ownSeat = s.ownSeat := by simp [State.ownSeat]
  rw [slotsFollow_iff] at follow ⊢
  obtain ⟨bound, once, free⟩ := follow
  rw [hasMix, ownSeat, storeStep_floor, storeStep_station, storeStep_slots]
  cases mix : s.hasMix with
  | false => exact ⟨nofun, once, fun _ => free (.inl mix)⟩
  | true =>
    have mem := mem_boundAfter a (bound mix)
    have seats : (x.floor.openSet.map (fun r => r.seat)).Nodup := by simpa using soundAfter.views.openSeats
    have nodup := boundAfter_nodup seats (bound mix) once
    have few : (boundAfter x s).length ≤ 7 := by
      have subset : boundAfter x s ⊆ x.floor.openSet.map (fun r => r.seat) := fun k hk => by
        obtain ⟨r, hr, rfl⟩ := Floor.isOpen_iff.1 ((mem k).1 hk).1
        exact List.mem_map.2 ⟨r, hr, rfl⟩
      have le := (List.subperm_of_subset nodup subset).length_le
      have seven := soundAfter.openSet_le_seven
      rw [storeStep_floor] at seven
      rw [List.length_map] at le
      exact le.trans seven
    have slots : s.mix.slots.length = 7 := sound.mix.slots
    have perm := boundSeats_bindNet (own := s.ownSeat) (out := (x.removals s.floor).map (fun p => p.1))
      (ins := x.entries s.floor) (l := s.mix.slots) (by rw [List.length_append] at few; omega)
    refine ⟨fun _ k => perm.mem_iff.trans (mem k), perm.nodup_iff.2 nodup, ?_⟩
    rintro (h | setup)
    · cases h
    · have idleNow := empty.setup setup
      have noneOpen : x.floor.openSet = [] := idle idleNow (empty.openSet idleNow)
      have none_bound : boundAfter x s = [] := List.eq_nil_iff_forall_not_mem.2 fun k hk => by
        simpa [Floor.isOpen, noneOpen] using (mem k).1 hk
      rw [if_pos rfl]
      exact List.perm_nil.1 (none_bound ▸ perm)

theorem storeStep_keeps (keeps : FloorKeeps s.floor x.floor s.meeting.profile.limit s.meeting.chair)
    (a : x.Accounts s.floor) (idle : s.meeting.state = .idle → s.floor.openSet = [] → x.floor.openSet = []) :
    Keeps s (storeStep x s) := by
  refine ⟨.of_states (storeStep_table keeps).evolves (.of_link (by simp) (by simp)) (by simp) (by simp), fun i => ?_,
    storeStep_slotsFollow keeps a idle⟩
  refine ⟨?_, ?_, ?_, ?_, ?_⟩ <;> simp only [storeStep_meeting, storeStep_floor, storeStep_mic, storeStep_share,
    storeStep_station]
  · exact fun k => idle k (i.openSet k)
  · exact i.mic
  · exact i.screens
  · exact i.claim
  · exact i.setup

end

theorem storeView_keeps {f : Floor} {s : State} (keeps : FloorKeeps s.floor f s.meeting.profile.limit s.meeting.chair)
    (opens : f.openSet = s.floor.openSet) : Keeps s (storeView f s) :=
  storeStep_keeps keeps (.plain opens) (fun _ k => opens.trans k)

theorem removedStep_keeps (k : Nat) (why : Reason) (s : State) : Keeps s (storeStep (s.floor.removed k why) s) :=
  storeStep_keeps (Floor.removed_keeps _ _ _ _ _) (Floor.removed_accounts _ _ _)
    (fun _ none => by simp [Floor.removed, Floor.dropOpen, none])

end Sys2Proof.Machine

namespace Sys2Proof.Machine

/-! SUPPORT. The operations of the floor view, the own microphone and the own claim in the form `Keeps`. -/

/-! ## Releasing and closing -/

theorem Share.Unclaimed.clearSeat {h : Share} (k : h.Unclaimed) (seat : Nat) : (h.clearSeat seat).Unclaimed := by
  obtain ⟨⟨screen1, screen2⟩, claim⟩ := k
  exact ⟨⟨by simp [Share.clearSeat, screen1], by simp [Share.clearSeat, screen2]⟩, claim⟩

theorem Share.Unclaimed.noClaim {h : Share} (k : h.Unclaimed) : h.noClaim.Unclaimed := ⟨k.1, rfl⟩

theorem shareReleased_keeps (k : Nat) (s : State) : Keeps s (shareReleased k s) :=
  .share clearSeat_stamps clearSeat_sound (fun _ u => u.clearSeat k)

theorem claimReleased_keeps (s : State) : Keeps s (claimReleased s) :=
  .share clearSeat_stamps clearSeat_sound (fun _ u => (u.clearSeat s.ownSeat).noClaim)

theorem releaseClaim_keeps (s : State) : Keeps s (releaseClaim s) := by
  have offered : Keeps s (offer (.unshare s.meetingId) s).1 := offer_keeps (by simp [State.own, Frame.internalKind])
  have emptied (t : State) : Keeps t { t with share := (t.share.clearSeat s.ownSeat).noClaim } :=
    .share clearSeat_stamps clearSeat_sound (fun _ u => (u.clearSeat s.ownSeat).noClaim)
  have marked (t : State) : Keeps t { t with share := { t.share with release := true } } := .share id id (fun _ u => u)
  unfold releaseClaim
  split
  · exact offered
  · exact .ite (fun _ => offered.trans (emptied _)) (fun _ => offered.trans (marked _))
  · exact offered.trans (emptied _)

theorem leaveOpenRelease_keeps (s : State) : Keeps s (leaveOpenRelease s) :=
  .ite (fun _ => releaseClaim_keeps s) (fun _ => .refl s)

theorem offerClose_keeps {s t : State} (h : t.config = s.config) (m : Option Bid) (why : Reason) :
    Keeps t (offerFrame (.close m s.ownSeat why) t) :=
  offerFrame_keeps (close_kind (by simp [State.ownSeat, h]) m why)

theorem micClose_keeps (why : Reason) (s : State) : Keeps s (micClose why s) := by
  have off : Keeps s (micOff s) := micOff_keeps s
  have left := (off.trans (removedStep_keeps s.ownSeat why (micOff s))).settled
  exact (left.trans (offerClose_keeps (s := s) left.evolves.same.config _ _)).trans (leaveOpenRelease_keeps _)

theorem micWithdraw_keeps (s : State) : Keeps s (micWithdraw s) := by
  have left : Keeps (micOff s) (storeView (s.floor.dropQueue s.ownSeat) (micOff s)) :=
    storeView_keeps (Floor.dropQueue_keeps _ _ _ _) rfl
  exact ((micOff_keeps s).trans left).trans (offerFrame_keeps (by simp [State.own, Frame.internalKind]))

/-! ## The evaluation of the own side -/

theorem inMeeting_iff {s : State} : s.inMeeting = true ↔ s.meeting.state ≠ .idle := by simp [State.inMeeting]

/-- An own OPEN is offered with a stamp the station issues. -/
theorem offerOpening_keeps {s : State} {f : Floor} {m : OwnMic} {o q : Nat} {c : OpenClass} (run : s.meeting.state ≠ .idle)
    (before : s.mic.state ≠ .open) (after : m.state = .opening)
    (stamp : FloorKeeps s.floor f s.meeting.profile.limit s.meeting.chair) (opens : f.openSet = s.floor.openSet) :
    Keeps s (offerFrame (.opening s.meetingId o q c) { s with floor := f, mic := m }) := by
  have stamped : Keeps s { s with floor := f } := .stamp stamp opens
  have opening : Keeps { s with floor := f } { s with floor := f, mic := m } :=
    .micState run before (by rw [after]; nofun)
  exact (stamped.trans opening).trans (offerFrame_keeps (by simp [State.own, Frame.internalKind]))

theorem offerOpen_keeps {s : State} (run : s.meeting.state ≠ .idle) (before : s.mic.state ≠ .open) :
    Keeps s (offerOpen s) := offerOpening_keeps run before rfl (Floor.issued_keeps _ _ _) rfl

theorem withdrawLostOpen_keeps {s : State} (run : s.meeting.state ≠ .idle) (before : s.mic.state ≠ .open) :
    Keeps s (withdrawLostOpen s) := by
  have asked := withdrawOpen_keeps s
  have meeting := withdrawOpen_fst_meeting s
  have mic := withdrawOpen_fst_mic s
  unfold withdrawLostOpen
  revert asked meeting mic
  generalize withdrawOpen s = r
  obtain ⟨t, answer⟩ := r
  intro asked meeting mic
  cases answer with
  | withdrawn => exact asked.trans (.micState (s := t) (by rw [meeting]; exact run) (by rw [mic]; exact before) nofun)
  | started => exact asked
  | none => exact asked

theorem ownSide_keeps (s : State) : Keeps s (ownSide s) := by
  unfold ownSide
  split
  next meeting =>
    have run := inMeeting_iff.1 meeting
    split
    · exact .refl s
    next waiting => exact .ite (fun _ => offerOpen_keeps run (by rw [waiting]; nofun)) (fun _ => .refl s)
    next opening => exact .ite (fun _ => withdrawLostOpen_keeps run (by rw [opening]; nofun)) (fun _ => .refl s)
    · exact .ite (fun _ => micClose_keeps _ s) (fun _ => .refl s)
  · exact .refl s

theorem evalMic_keeps (s : State) : Keeps s (evalMic s) := ((settle_keeps s).trans (ownSide_keeps _)).settled

/-! ## The speaking budget -/

theorem warn_keeps (s : State) : Keeps s (warn s) := by
  have marked (b : Bool) : Keeps s { s with mic := { s.mic with warned := b } } := .micRecord rfl
  unfold warn
  split
  · exact .refl s
  · exact .ite (fun _ => (marked true).trans (notify_keeps _ _))
      (fun _ => .ite (fun _ => marked false) (fun _ => .refl s))

theorem warningTest_keeps (s : State) : Keeps s (warningTest s) := ((settle_keeps s).trans (warn_keeps _)).settled

/-- A change of the budget with the warning test after it. -/
theorem micRecord_warningTest_keeps {s : State} {m : OwnMic} (h : m.state = s.mic.state) :
    Keeps s (warningTest { s with mic := m }) := (Keeps.micRecord h).trans (warningTest_keeps _)

theorem startBudget_keeps (s : State) : Keeps s (startBudget s) := micRecord_warningTest_keeps rfl

theorem budgetExpires_keeps (s : State) : Keeps s (budgetExpires s) := by
  have soft : Keeps s { s with mic := { s.mic with overrun := true, overrunCount := 0 } } := .micRecord rfl
  unfold budgetExpires
  split
  · exact (micClose_keeps _ s).trans (notify_keeps _ _)
  · exact soft.trans (notify_keeps _ _)

theorem budgetSecondPasses_keeps (s : State) : Keeps s (budgetSecondPasses s) := by
  unfold budgetSecondPasses
  split
  · exact .refl s
  · split
    · exact .micRecord rfl
    · have tested (n : Nat) : Keeps s (warningTest { s with mic := { s.mic with remaining := some n } }) :=
        micRecord_warningTest_keeps rfl
      exact .ite (fun _ => (tested _).trans (budgetExpires_keeps _)) (fun _ => tested _)

theorem micTimeAdd_keeps (n : Nat) (s : State) : Keeps s (micTimeAdd n s) := by
  unfold micTimeAdd
  split
  · split
    · exact .refl s
    · split <;> exact micRecord_warningTest_keeps rfl
  · exact .refl s

/-! ## Displacement, priority and the chair's frames at the own seat -/

/-- R72: what follows once the displaced own seat waits again. -/
theorem requeued_keeps (m : Option Bid) (q own : Nat) (t : State) :
    Keeps t (showTransient (text "Floor full - requeued") (notify (.floorConflict own)
      (settle (offerFrame (.yield m q) t)))) :=
  (((offerFrame_keeps (by simp [State.own, Frame.internalKind])).settled).trans (notify_keeps _ _)).trans
    (showTransient_keeps _ _)

/-- R72: the own-microphone record that waits again. -/
def requeuedMic (s : State) : State :=
  setPlacing false { s with mic := { OwnMic.reset with state := .waiting, requestStamp := s.mic.requestStamp } }

theorem micDisplaced_after (s : State) : Keeps (requeuedMic s) (micDisplaced s) := by
  have requeued := requeued_keeps s.meetingId s.mic.requestStamp s.ownSeat (requeuedMic s)
  exact .ite (fun _ => requeued.trans (leaveOpenRelease_keeps _)) (fun _ => requeued)

theorem micDisplaced_steady (s : State) : Steady s (micDisplaced s) := by
  have waits : Steady s (requeuedMic s) :=
    .of_set (TableStep.mic s _ false).evolves (.of_link rfl rfl) (by simp [requeuedMic])
  exact waits.trans (micDisplaced_after s).toSteady

theorem micDisplaced_keeps {s : State} (run : s.meeting.state ≠ .idle) : Keeps s (micDisplaced s) := by
  have waits : Keeps s (requeuedMic s) := .micPlacing (s := s) (p := false) (by simp) (fun i => absurd i run)
  exact waits.trans (micDisplaced_after s)

theorem micPriorityOn_keeps (s : State) : Keeps s (micPriorityOn s) :=
  .ite (fun _ => micClose_keeps _ s) (fun _ => .refl s)

/-- R37 to R39, R50 and R77: a step stored, with the displaced own seat taken. -/
def steppedMic (x : FloorStep) (s : State) : State :=
  if (x.removals s.floor).contains (s.ownSeat, .displaced) then micDisplaced (settle (storeStep x s))
  else settle (storeStep x s)

theorem floorStep_after (x : FloorStep) (s : State) : Keeps (steppedMic x s) (floorStep x s) :=
  Keeps.trans (.ite (fun _ => micPriorityOn_keeps _) (fun _ => .refl _)) (evalMic_keeps _)

section
variable {x : FloorStep} {s : State}

theorem steppedMic_steady (stored : Keeps s (settle (storeStep x s))) : Steady s (steppedMic x s) := by
  unfold steppedMic
  split
  · exact stored.toSteady.trans (micDisplaced_steady _)
  · exact stored.toSteady

/-- R33 and R50: while IDLE nobody is open, so that no own seat is displaced. -/
theorem steppedMic_keeps (stored : Keeps s (settle (storeStep x s)))
    (open_run : s.meeting.state = .idle → s.floor.openSet = []) : Keeps s (steppedMic x s) := by
  unfold steppedMic
  split
  next displaced =>
    refine stored.trans (micDisplaced_keeps fun idle => ?_)
    rw [settle_meeting, storeStep_meeting] at idle
    simp [FloorStep.removals_of_empty (open_run idle)] at displaced
  · exact stored

/-- A step of the view with all that takes it. -/
theorem floorStep_keeps (keeps : FloorKeeps s.floor x.floor s.meeting.profile.limit s.meeting.chair)
    (a : x.Accounts s.floor) (idle : s.meeting.state = .idle → s.floor.openSet = [] → x.floor.openSet = []) :
    Keeps s (floorStep x s) := by
  have stored : Keeps s (settle (storeStep x s)) := (storeStep_keeps keeps a idle).settled
  have after := floorStep_after x s
  have taken (i : IdleEmpty s) : Keeps s (floorStep x s) := (steppedMic_keeps stored i.openSet).trans after
  exact ⟨(steppedMic_steady stored).trans after.toSteady, fun i => (taken i).idle i, fun k i => (taken i).slots k i⟩

/-- While a meeting runs a step may open a seat. -/
theorem floorStep_keeps_of_run (run : s.meeting.state ≠ .idle)
    (keeps : FloorKeeps s.floor x.floor s.meeting.profile.limit s.meeting.chair) (a : x.Accounts s.floor) :
    Keeps s (floorStep x s) := floorStep_keeps keeps a (fun i => absurd i run)

end

/-- A step of the request queue, the priority state or the counter. -/
theorem floorStep_plain_keeps {f : Floor} {s : State}
    (keeps : FloorKeeps s.floor f s.meeting.profile.limit s.meeting.chair) (opens : f.openSet = s.floor.openSet) :
    Keeps s (floorStep (.plain f) s) := floorStep_keeps keeps (.plain opens) (fun _ k => opens.trans k)

theorem closeOpening_keeps (why : Reason) (s : State) : Keeps s (closeOpening why s) := by
  have asked := withdrawOpen_keeps s
  unfold closeOpening
  revert asked
  generalize withdrawOpen s = r
  obtain ⟨t, answer⟩ := r
  intro asked
  cases answer with
  | withdrawn => exact .ite (fun _ => asked.trans (micOff_keeps t)) (fun _ => asked.trans (micWithdraw_keeps t))
  | started => exact asked.trans (.micRecord (s := t) rfl)
  | none => exact asked

theorem micChairClose_keeps (why : Reason) (s : State) : Keeps s (micChairClose why s) := by
  unfold micChairClose
  split
  · exact .refl s
  · exact .refl s
  · split
    · exact closeOpening_keeps why s
    · exact .micRecord rfl
  · exact (micOff_keeps s).trans (leaveOpenRelease_keeps _)

theorem micCleared_keeps (s : State) : Keeps s (micCleared s) := by
  have asked := withdrawOpen_keeps s
  unfold micCleared
  split
  · exact micOff_keeps s
  · revert asked
    generalize withdrawOpen s = r
    obtain ⟨t, answer⟩ := r
    intro asked
    cases answer with
    | withdrawn => exact asked.trans (micOff_keeps t)
    | started => exact asked
    | none => exact asked
  · exact .refl s

/-! ## A press and a talk onset -/

theorem requestFloor_keeps {s : State} (run : s.meeting.state ≠ .idle) (closed : s.mic.state ≠ .open) :
    Keeps s (requestFloor s) := by
  have waits (k : Nat) : Keeps s { s with mic := { OwnMic.reset with state := .waiting, requestStamp := k } } :=
    .micState run closed nofun
  have queued (k : Nat) (m : OwnMic) : Keeps { s with mic := m } (storeView (s.floor.request s.ownSeat k) { s with mic := m }) :=
    storeView_keeps (s := { s with mic := m }) (Floor.request_keeps _ _ _ _ _) (by
      unfold Floor.request
      dsimp only
      split <;> simp [Floor.raise])
  exact (((waits _).trans (queued _ _)).trans (offerFrame_keeps (by simp [State.own, Frame.internalKind]))).trans
    (evalMic_keeps _)

theorem chairOpens_keeps {s : State} (run : s.meeting.state ≠ .idle) (closed : s.mic.state ≠ .open) :
    Keeps s (chairOpens s) := offerOpening_keeps run closed rfl (Floor.issued_keeps _ _ _) rfl

theorem takePress_keeps {s : State} (run : s.meeting.state ≠ .idle) : Keeps s (takePress s) := by
  unfold takePress
  split
  next closed =>
    have out : s.mic.state ≠ .open := by rw [closed]; nofun
    exact .ite (fun _ => chairOpens_keeps run out) (fun _ => requestFloor_keeps run out)
  · exact micWithdraw_keeps s
  · split
    · exact closeOpening_keeps _ s
    · exact .micRecord rfl
  · exact micClose_keeps _ s

theorem pressTaken_run {s : State} (h : s.pressTaken = true) : s.meeting.state ≠ .idle := by
  simp only [State.pressTaken, Bool.and_eq_true] at h
  exact inMeeting_iff.1 h.2

theorem talkOnset_keeps (s : State) : Keeps s (talkOnset s) := by
  unfold talkOnset
  split
  · exact .micRecord rfl
  · exact .ite (fun h => takePress_keeps (pressTaken_run h.1)) (fun _ => .refl s)
  · exact .refl s

/-! ## Outcomes of the own OPEN -/

theorem openSent_keeps {s : State} (run : s.meeting.state ≠ .idle) (o q : Nat) (c : OpenClass) :
    Keeps s (openSent o q c s) := by
  have stored : Keeps s (settle (storeStep (s.floor.opening s.ownSeat (s.classTaken s.ownSeat c) o q s.blockNumber s.limit) s)) :=
    (storeStep_keeps (Floor.opening_keeps _ _ _ _ _ classTaken_chair) (Floor.opening_accounts _ _ _ _ _ _ _)
      (fun i => absurd i run)).settled
  have run0 : (settle (storeStep (s.floor.opening s.ownSeat (s.classTaken s.ownSeat c) o q s.blockNumber s.limit) s)).meeting.state
      ≠ .idle := by rw [settle_meeting, storeStep_meeting]; exact run
  unfold openSent
  dsimp only
  revert stored run0
  generalize settle (storeStep (s.floor.opening s.ownSeat (s.classTaken s.ownSeat c) o q s.blockNumber s.limit) s) = t
  intro stored run0
  have opened (m : OwnMic) (h : m.state = .open) : Keeps t (setPlacing true { t with mic := m }) :=
    .micPlacing (s := t) (by simp [h]) (fun i => absurd i run0)
  have entered : Keeps s { t with mic := { t.mic with
      cls := some (s.classTaken s.ownSeat c), openStamp := o, requestStamp := q, closePending := none } } :=
    stored.trans (.micRecord (s := t) rfl)
  refine .ite (fun _ => ?_) (fun _ => ?_)
  · split
    · exact (stored.trans (opened _ rfl)).trans ((startBudget_keeps _).trans (evalMic_keeps _))
    · exact (stored.trans (opened _ rfl)).settled.trans (micClose_keeps _ _)
  · split
    · exact entered.trans ((micDisplaced_keeps (by exact run0)).trans (evalMic_keeps _))
    · exact (entered.trans (offerClose_keeps (s := s) entered.evolves.same.config _ _)).trans (micWithdraw_keeps _)

theorem openAbandoned_keeps {s : State} (run : s.meeting.state ≠ .idle) : Keeps s (openAbandoned s) := by
  unfold openAbandoned
  split
  next opening =>
    have out : s.mic.state ≠ .open := by rw [opening]; nofun
    have waits : Keeps s { s with mic := { s.mic with state := .waiting, cls := none, openStamp := 0 } } :=
      .micState run out nofun
    split
    · exact micOff_keeps s
    · split
      · split
        · exact waits.trans (evalMic_keeps _)
        · exact micWithdraw_keeps s
      · exact micOff_keeps s
  · exact .refl s

theorem micMeetingEnd_keeps (s : State) : Keeps s (micMeetingEnd s) := by
  have off : Keeps s (micOff s) := micOff_keeps s
  have left := off.trans (removedStep_keeps s.ownSeat .meetingEnd (micOff s))
  unfold micMeetingEnd
  split
  · exact left.trans (offerClose_keeps (s := s) left.evolves.same.config _ _)
  · exact off.trans (offerClose_keeps (s := s) (micOff_config s) _ _)
  · exact .refl s

/-! ## Chair frames in the view -/

theorem viewClose_keeps (target : Nat) (why : Reason) (s : State) : Keeps s (viewClose target why s) := by
  have stored := (removedStep_keeps target why s).settled
  exact (Keeps.ite (fun _ => stored.trans (micChairClose_keeps _ _)) (fun _ => stored)).trans (evalMic_keeps _)

theorem viewGrant_keeps (target : Nat) (s : State) : Keeps s (viewGrant target s) :=
  floorStep_plain_keeps (Floor.grant_keeps _ _ _ _) rfl

theorem viewClear_keeps (s : State) : Keeps s (viewClear s) := by
  have stored : Keeps s (storeView { s.floor with queue := [] } s) := storeView_keeps (Floor.clearQueue_keeps _ _ _) rfl
  exact (Keeps.ite (fun _ => stored.trans (micCleared_keeps _)) (fun _ => stored)).trans (evalMic_keeps _)

theorem viewPriority_keeps (on : Bool) (s : State) : Keeps s (viewPriority on s) :=
  floorStep_plain_keeps (Floor.setPriority_keeps _ _ _ _ _) (Floor.setPriority_openSet _ _ _)

end Sys2Proof.Machine

namespace Sys2Proof.Machine

/-! SUPPORT. The share map, the meeting record, the calendar view and the arrivals in the form `Keeps`. -/

/-! ## Claims (R171 to R175) -/

theorem shareLost_keeps (screen seat : Nat) (s : State) : Keeps s (shareLost screen seat s) :=
  (notify_keeps _ _).trans (showTransient_keeps _ _)

theorem shareClaimed_keeps {s : State} (run : s.meeting.state ≠ .idle) (seat screen stamp : Nat) :
    Keeps s (shareClaimed seat screen stamp s) := by
  have stepped : Keeps s (floorStep (.plain (s.floor.raise stamp)) s) :=
    floorStep_plain_keeps (Floor.raise_keeps _ _ _ _) rfl
  have raised : stamp ≤ (floorStep (.plain (s.floor.raise stamp)) s).floor.stamp :=
    (Floor.le_raise _ _).trans (floorStep_stamp (.plain (s.floor.raise stamp)) s)
  have meeting : (floorStep (.plain (s.floor.raise stamp)) s).meeting = s.meeting :=
    (floorStep_table (Floor.raise_keeps _ _ _ _)).frame.meeting
  unfold shareClaimed
  dsimp only
  revert stepped raised meeting
  generalize floorStep (.plain (s.floor.raise stamp)) s = t
  intro stepped raised meeting
  have run' : t.meeting.state ≠ .idle := by rw [meeting]; exact run
  have ruled : Keeps s { t with share := t.share.claimRule seat screen stamp t.meeting.chair } :=
    stepped.trans (.share (fun k => claimRule_stamps k raised) claimRule_sound (fun i => absurd i run'))
  have dropped (u : State) : Keeps u { u with share := u.share.noClaim } := .share id id (fun _ k => k.noClaim)
  refine .ite (fun _ => ?_) (fun _ => ruled)
  exact (Keeps.ite (fun _ => ruled.trans (dropped _)) (fun _ => ruled)).settled.trans (shareLost_keeps _ _ _)

theorem shareSync_keeps {s : State} (run : s.meeting.state ≠ .idle) (seat : Nat) (reported : Option (Nat × Nat)) :
    Keeps s (shareSync seat reported s) := by
  unfold shareSync
  split
  · exact shareReleased_keeps _ _
  · exact .ite (fun _ => floorStep_plain_keeps (Floor.raise_keeps _ _ _ _) rfl) (fun _ => shareClaimed_keeps run _ _ _)

theorem makeClaim_keeps {s : State} (run : s.meeting.state ≠ .idle) (screen : Nat) : Keeps s (makeClaim screen s) := by
  have stamped : Keeps s { s with floor := s.floor.issued } := .stamp (Floor.issued_keeps _ _ _) rfl
  have offered := stamped.trans (offerFrame_keeps (b := .share s.meetingId screen s.floor.nextStamp)
    (by simp [State.own, Frame.internalKind]))
  exact offered.trans (.share id id (fun i => absurd (by simpa using i) run))

theorem shareSent_keeps {s : State} (run : s.meeting.state ≠ .idle) (screen stamp : Nat) :
    Keeps s (shareSent screen stamp s) := by
  have stamped : Keeps s { s with floor := s.floor.raise stamp } := .stamp (Floor.raise_keeps _ _ _ _) rfl
  have ruled : Keeps { s with floor := s.floor.raise stamp } { s with
      floor := s.floor.raise stamp,
      share := (s.share.claimRule s.ownSeat screen stamp s.meeting.chair).claimFromMap s.ownSeat screen } := by
    obtain ⟨screen1, screen2⟩ :=
      claimFromMap_screens (s.share.claimRule s.ownSeat screen stamp s.meeting.chair) s.ownSeat screen
    refine .share (fun k => ?_) (fun k => ?_) (fun i => absurd i run)
    · unfold shareStampsSound
      rw [screen1, screen2]
      exact claimRule_stamps k (Floor.le_raise s.floor stamp)
    · unfold shareSound
      rw [screen1, screen2]
      exact claimRule_sound k
  have taken := stamped.trans ruled
  unfold shareSent
  dsimp only
  refine .ite (fun _ => taken.trans (claimReleased_keeps _)) (fun _ => .ite (fun _ => taken) (fun _ => ?_))
  split
  · exact taken.settled.trans (shareLost_keeps _ _ _)
  · exact taken

theorem shareAbandoned_keeps {s : State} (run : s.meeting.state ≠ .idle) : Keeps s (shareAbandoned s) := by
  unfold shareAbandoned
  refine .ite (fun _ => .ite (fun _ => claimReleased_keeps s) (fun _ => ?_)) (fun _ => .refl s)
  split <;> exact .share id id (fun i => absurd i run)

/-- R173: a claim that passes its checks is made while a meeting runs. -/
theorem claimRefusal_none_run {s : State} (h : s.claimRefusal = none) : s.meeting.state ≠ .idle := by
  unfold State.claimRefusal at h
  split at h
  · cases h
  next passed =>
    refine inMeeting_iff.1 ?_
    simp only [not_or, Bool.not_eq_false] at passed
    exact passed.2.2

theorem sharePressed_keeps (s : State) : Keeps s (sharePressed s) := by
  unfold sharePressed
  refine .ite (fun _ => ?_) (fun _ => .ite (fun _ => .refl s) (fun _ => releaseClaim_keeps s))
  split
  · exact .refl s
  next passed => exact makeClaim_keeps (claimRefusal_none_run passed) _

/-! ## Beacon state and replay (R54, R172, R29) -/

theorem filterPasses_run {s : State} {m : Option Bid} (h : s.filterPasses m = true) : s.meeting.state ≠ .idle := by
  simp only [State.filterPasses, Bool.and_eq_true] at h
  exact inMeeting_iff.1 h.1.1

theorem filtered_keeps {m : Option Bid} {k : State → State} {s : State}
    (h : s.meeting.state ≠ .idle → Keeps s (k s)) : Keeps s (filtered m k s) :=
  .ite (fun pass => h (filterPasses_run pass)) (fun _ => .refl s)

theorem reconcileBeacon_keeps (seat : Nat) (m : Option Bid) (mic : Option (Nat × Nat)) (request : Option Nat) (prio : Bool)
    (s : State) : Keeps s (reconcileBeacon seat m mic request prio s) :=
  .ite (fun pass => floorStep_keeps_of_run (filterPasses_run pass) (Floor.reconcile_keeps _ _ isChairSeat_eq)
    (Floor.reconcile_accounts _ _ _ _ _ _ _ _ _)) (fun _ => .refl s)

theorem shareBeacon_keeps (seat : Nat) (m : Option Bid) (reported : Option (Nat × Nat)) (s : State) :
    Keeps s (shareBeacon seat m reported s) :=
  .ite (fun pass => shareSync_keeps (filterPasses_run pass) _ _) (fun _ => .refl s)

theorem replaySeat_keeps (id : Bid) (s : State) (seat : Nat) : Keeps s (replaySeat id s seat) :=
  .ite (fun _ => ((reconcileBeacon_keeps _ _ _ _ _ s).trans (shareBeacon_keeps _ _ _ _)).settled) (fun _ => .refl s)

theorem replay_keeps (id : Bid) (s : State) : Keeps s (replay id s) := .foldl (replaySeat_keeps id) _ s

/-! ## Stale slots and arrivals of floor kinds -/

theorem Floor.removed_none {f : Floor} (h : f.openSet = []) (k : Nat) (why : Reason) :
    (f.removed k why).floor.openSet = [] := by simp [removed, dropOpen, h]

theorem staleReport_keeps (seat : Nat) (s : State) : Keeps s (staleReport seat s) :=
  floorStep_keeps (Floor.removed_keeps _ _ _ _ _) (Floor.removed_accounts _ _ _) (fun _ k => Floor.removed_none k _ _)

@[simp] theorem Floor.request_openSet (f : Floor) (k q : Nat) : (f.request k q).openSet = f.openSet := by
  unfold request
  dsimp only
  split
  · rfl
  · exact join_openSet _ _ _

theorem onRequest_keeps (k q : Nat) (s : State) : Keeps s (onRequest k q s) :=
  floorStep_plain_keeps (Floor.request_keeps _ _ _ _ _) (Floor.request_openSet _ _ _)

theorem onWithdraw_keeps (k : Nat) (s : State) : Keeps s (onWithdraw k s) :=
  floorStep_plain_keeps (Floor.dropQueue_keeps _ _ _ _) rfl

theorem onOpening_keeps {s : State} (run : s.meeting.state ≠ .idle) (k o q : Nat) (c : OpenClass) :
    Keeps s (onOpening k o q c s) :=
  floorStep_keeps_of_run run (Floor.opening_keeps _ _ _ _ _ classTaken_chair) (Floor.opening_accounts _ _ _ _ _ _ _)

theorem onYield_keeps {s : State} (run : s.meeting.state ≠ .idle) (k q : Nat) : Keeps s (onYield k q s) :=
  floorStep_keeps_of_run run (Floor.yielded_keeps _ _ _ _ _) (Floor.yielded_accounts _ _ _)

theorem onClose_keeps (k target : Nat) (why : Reason) (s : State) : Keeps s (onClose k target why s) :=
  .ite (fun _ => viewClose_keeps _ _ s) (fun _ => .refl s)

theorem onGrant_keeps (k target : Nat) (s : State) : Keeps s (onGrant k target s) :=
  .ite (fun _ => viewGrant_keeps _ s) (fun _ => .refl s)

theorem onClear_keeps (k : Nat) (s : State) : Keeps s (onClear k s) :=
  .ite (fun _ => viewClear_keeps s) (fun _ => .refl s)

theorem onPriority_keeps (k : Nat) (on : Bool) (s : State) : Keeps s (onPriority k on s) :=
  .ite (fun _ => viewPriority_keeps _ s) (fun _ => .refl s)

theorem onTimeAdd_keeps (k target n : Nat) (s : State) : Keeps s (onTimeAdd k target n s) :=
  .ite (fun _ => micTimeAdd_keeps _ s) (fun _ => .refl s)

/-! ## Starting and ending a meeting (R154, R160) -/

theorem meetingWarningTest_keeps (s : State) : Keeps s (meetingWarningTest s) := by
  have moved (x : MeetingState) (run : s.meeting.state ≠ .idle) (h : x ≠ .idle) :
      Keeps s { s with meeting := { s.meeting with state := x } } :=
    .record (.meeting rfl rfl (.inr ⟨run, h⟩) rfl) (iff_of_false h run)
  unfold meetingWarningTest
  dsimp only
  split
  · split
    · exact .refl s
    next active =>
      have ending := moved .ending (by rw [active]; nofun) nofun
      refine .ite (fun _ => ?_) (fun _ => .refl s)
      split
      · exact ending.trans (notify_keeps _ _)
      · exact ending
    next ending => exact .ite (fun _ => .refl s) (fun _ => moved .active (by rw [ending]; nofun) nofun)
  · exact .refl s

@[simp] theorem clearView_floor (s : State) : (clearView s).floor = .cleared := rfl

/-- R59 and R101: clearing the view frees every slot that follows it. -/
theorem clearView_boundSeats {s : State} (follow : SlotsFollow s) : boundSeats (clearView s).mix.slots = [] := by
  obtain ⟨bound, _, free⟩ := slotsFollow_iff.1 follow
  have freed : boundSeats (clearView s).mix.slots = (boundSeats s.mix.slots).filter
      (fun j => decide (j ∉ othersOf s.ownSeat (s.floor.openSet.map (fun r => r.seat)))) := boundSeats_bindNet_nil _ _ _
  rw [freed]
  cases mix : s.hasMix with
  | false => rw [free (.inl mix), List.filter_nil]
  | true =>
    refine List.filter_eq_nil_iff.2 fun k hk => ?_
    obtain ⟨opened, other⟩ := (bound mix k).1 hk
    obtain ⟨r, hr, rfl⟩ := Floor.isOpen_iff.1 opened
    have left : r.seat ∈ othersOf s.ownSeat (s.floor.openSet.map (fun r => r.seat)) :=
      List.mem_filter.2 ⟨List.mem_map.2 ⟨r, hr, rfl⟩, decide_eq_true other⟩
    rw [decide_eq_true_eq]
    exact not_not.2 left

/-- R100: with nobody open and every slot FREE the slots follow the open set. -/
theorem slotsFollow_of_none {s : State} (opens : s.floor.openSet = []) (slots : boundSeats s.mix.slots = []) :
    SlotsFollow s := by
  rw [slotsFollow_iff, slots]
  exact ⟨fun _ k => by simp [Floor.isOpen, opens], .nil, fun _ => rfl⟩

theorem startRecord_keeps {e : Entry} {s : State} (idle : s.meeting.state = .idle) (station : s.station ≠ .setup) :
    Keeps s (screenAtStart (mixAtStart (clearView (recordStart e s)))) := by
  refine ⟨.of_states (startRecord_evolves idle) (.of_link rfl rfl) Iff.rfl rfl, fun _ => ?_, fun _ _ follow => ?_⟩
  · exact ⟨nofun, nofun, nofun, nofun, fun setup => absurd setup station⟩
  · have cleared : boundSeats (clearView (recordStart e s)).mix.slots = [] :=
      clearView_boundSeats (s := recordStart e s) ⟨follow.bound, follow.once, follow.free⟩
    exact slotsFollow_of_none rfl cleared

theorem startMeetingFor_keeps {e : Entry} {s : State} (idle : s.meeting.state = .idle) (station : s.station ≠ .setup) :
    Keeps s (startMeetingFor e s) :=
  (((startRecord_keeps idle station).settled.trans (replay_keeps _ _)).trans (notify_keeps _ _)).trans
    ((meetingWarningTest_keeps _).trans (evalMic_keeps _))

theorem startDue_keeps (s : State) : Keeps s (startDue s) := by
  unfold startDue
  split
  next h =>
    split
    · exact startMeetingFor_keeps h.2 h.1
    · exact .refl s
  · exact .refl s

section
variable (id : Bid) (why : EndReason) (s : State)

/-- R160: the state of the own side's part of an end. -/
def endedOwnSide : State := settle (micMeetingEnd (settle s))

theorem endedOwnSide_keeps : Keeps s (endedOwnSide s) := ((settle_keeps s).trans (micMeetingEnd_keeps _)).settled

@[simp] theorem closeMeeting_floor : (closeMeeting id why s).floor = .cleared := by
  unfold closeMeeting
  dsimp only
  split <;> simp

@[simp] theorem closeMeeting_mic : (closeMeeting id why s).mic = .reset := by
  unfold closeMeeting
  dsimp only
  split <;> simp

@[simp] theorem closeMeeting_placing : (closeMeeting id why s).capture.placing = false := by
  unfold closeMeeting
  dsimp only
  split <;> simp

theorem closeMeeting_share : (closeMeeting id why s).share.Unclaimed ∧ (closeMeeting id why s).share.release = false := by
  unfold closeMeeting
  dsimp only
  split <;> exact ⟨⟨⟨rfl, rfl⟩, rfl⟩, rfl⟩

theorem closeMeeting_link : (closeMeeting id why s).link = (endedOwnSide s).link := by
  unfold closeMeeting
  dsimp only
  split <;> simp [endedOwnSide]

theorem closeMeeting_slots : (closeMeeting id why s).mix.slots = (clearView (endedOwnSide s)).mix.slots := by
  unfold closeMeeting
  dsimp only
  split <;> simp [endedOwnSide, clearView, State.ownSeat]

theorem closeMeeting_state : (closeMeeting id why s).meeting.state = .idle := by
  unfold closeMeeting
  dsimp only
  split <;> simp

end

theorem closeMeeting_keeps {id : Bid} {why : EndReason} {s : State} (h : s.meeting.id = some id) :
    Keeps s (closeMeeting id why s) := by
  have ended := endedOwnSide_keeps s
  refine ⟨.of_set (closeMeeting_evolves h) (fun clash empty => ?_) (by simp [OwnMic.reset]), fun _ => ?_,
    fun sound idle follow => ?_⟩
  · rw [closeMeeting_link]
    exact ended.quiet clash empty
  · obtain ⟨⟨screens, claim⟩, _⟩ := closeMeeting_share id why s
    exact ⟨fun _ => by simp [Floor.cleared], fun _ => by simp [OwnMic.reset], fun _ => screens, fun _ => claim,
      fun _ => closeMeeting_state id why s⟩
  · refine slotsFollow_of_none (by simp [Floor.cleared]) ?_
    rw [closeMeeting_slots]
    exact clearView_boundSeats (ended.slots sound idle follow)

theorem meetingId_some {s : State} {id : Bid} (h : s.meetingId = some id) : s.meeting.id = some id := by
  unfold State.meetingId at h
  split at h
  · exact h
  · cases h

theorem endMeetingFor_keeps (why : EndReason) (s : State) : Keeps s (endMeetingFor why s) := by
  unfold endMeetingFor
  split
  next named => exact (closeMeeting_keeps (meetingId_some named)).trans (startDue_keeps _)
  · exact .refl s

theorem runRecord_keeps (s : State) : Keeps s (runRecord s) :=
  .ite (fun _ => .refl s) (fun _ => .ite (fun _ => startDue_keeps s) (fun _ =>
    (meetingWarningTest_keeps s).trans (.ite (fun _ => endMeetingFor_keeps _ _) (fun _ => .refl _))))

theorem evaluate_keeps (s : State) : Keeps s (evaluate s) := ((settle_keeps s).trans (runRecord_keeps _)).settled

/-! ## The clock and the view -/

theorem viewFilter_keeps (p : Entry → Bool) (s : State) : Keeps s (setView (s.calendar.view.filter p) s) :=
  .calendar (.viewFilter s p)

theorem timeTest_keeps (s : State) : Keeps s (timeTest s) := .ite (fun _ => viewFilter_keeps _ s) (fun _ => .refl s)

theorem clockChanged_keeps (s : State) : Keeps s (clockChanged s) :=
  ((settle_keeps s).trans (timeTest_keeps _)).trans (evaluate_keeps _)

/-- The parts of the calendar other than the view. -/
theorem Keeps.calendarRest {s : State} {c : Calendar} (h : c.view = s.calendar.view) :
    Keeps s { s with calendar := c } :=
  .calendar (.calendar (fun k => by rw [h]; exact k) (fun k => by rw [h]; exact k))

theorem setClock_keeps (day second : Nat) (s : State) : Keeps s (setClock day second s) := by
  have set : Keeps s { s with calendar := { s.calendar with
      clock := { day := day, second := second, count := 0, set := true } } } := .calendarRest rfl
  exact set.trans (clockChanged_keeps _)

theorem clockSecondPasses_keeps (s : State) : Keeps s (clockSecondPasses s) := by
  have moved (c : Clock) : Keeps s { s with calendar := { s.calendar with clock := c } } := .calendarRest rfl
  exact .ite (fun _ => moved _) (fun _ => (moved _).trans (clockChanged_keeps _))

theorem removeEntry_keeps (id : Bid) (s : State) : Keeps s (removeEntry id s) := viewFilter_keeps _ s

theorem endOrRemove_keeps (id : Bid) (why : EndReason) (s : State) : Keeps s (endOrRemove id why s) := by
  unfold endOrRemove
  split
  · exact .ite (fun _ => endMeetingFor_keeps _ _) (fun _ => removeEntry_keeps _ _)
  · exact .refl s

theorem clearAsk_keeps (s : State) : Keeps s (clearAsk s) := .calendarRest rfl

theorem extendResult_keeps (id : Bid) (r : AskResult) (g : Nat) (s : State) : Keeps s (extendResult id r g s) :=
  (notify_keeps _ _).trans (showTransient_keeps _ _)

theorem askUnanswered_keeps (s : State) : Keeps s (askUnanswered s) := by
  unfold askUnanswered
  split
  · exact (clearAsk_keeps s).trans (extendResult_keeps _ _ _ _)
  · exact .refl s

theorem refreshAge_keeps (id : Bid) (s : State) : Keeps s (refreshAge id s) := .calendar (refreshAge_evolves id s)

theorem handOnEntry_keeps (e : Entry) (s : State) : Keeps s (handOnEntry e s) := by
  have record (t : State) : Keeps t { t with meeting := { t.meeting with finish := e.wire.finish } } :=
    .record (.meeting rfl rfl (.inl rfl) rfl) Iff.rfl
  exact ((settle_keeps s).trans (.ite (fun _ => record _) (fun _ => .refl _))).trans (evaluate_keeps _)

theorem notifyLost_keeps (l : List Bid) (s : State) : Keeps s (notifyLost l s) := notifyAll_keeps _ s

/-- R135: an entry enters a view of entries that are all apart from it, with room for it. -/
theorem Keeps.insert {s : State} {c : Calendar} {e : Entry} {v : List Entry} (view : c.view = insertEntry e v)
    (kept : CalendarSound s.calendar.view → CalendarSound v) (mem : ∀ x ∈ v, x ∈ s.calendar.view)
    (apart : CalendarSound s.calendar.view → ∀ x ∈ v, e.wire.overlaps x.wire = false)
    (fresh : CalendarSound s.calendar.view → ∀ x ∈ v, x.wire.id ≠ e.wire.id)
    (room : CalendarSound s.calendar.view → activeSound s.calendar.view s.meeting → v.length < Config.viewEntries)
    (held : e.held = true → heldCount v < Config.heldEntries)
    (active : activeSound s.calendar.view s.meeting → e.active = true →
      s.meeting.state ≠ .idle ∧ s.meeting.id = some e.wire.id) : Keeps s { s with calendar := c } := by
  refine .calendar ⟨⟨rfl, rfl, rfl, rfl, rfl, rfl, rfl⟩, fun sound => ?_, ClashSilent.of_link rfl rfl⟩
  refine { sound with calendar := ?_, active := fun y hy ha => ?_ }
  · rw [view]
    exact (kept sound.calendar).insert (apart sound.calendar) (fresh sound.calendar) (room sound.calendar sound.active) held
  · rw [view] at hy
    rcases mem_insertEntry.1 hy with rfl | hy
    · exact active sound.active ha
    · exact sound.active y (mem y hy) ha

end Sys2Proof.Machine

namespace Sys2Proof.Machine

/-! SUPPORT. Candidates and bookings, received frames, blocks and outcomes in the form `Keeps`. -/

/-! ## Candidates and bookings (R136 to R146) -/

/-- R141 and R142: a resolved candidate of a new id, with room made, enters the view. -/
theorem candidate_keeps {s : State} {c : Calendar} {e : Entry} {v v' : List Entry} {lost : List Bid}
    (resolved : resolve e s.calendar.view = some (v, lost)) (room : makeRoom e.wire v = some v')
    (new : viewFind s.calendar.view e.wire.id = none) (view : c.view = insertEntry e v') (inactive : e.active = false)
    (held : e.held = true → heldCount v' < Config.heldEntries) : Keeps s { s with calendar := c } := by
  obtain ⟨sub, bound, sound⟩ := makeRoom_some room
  have mem := resolve_mem resolved
  refine .insert view (fun k => sound (resolve_sound resolved k)) (fun x hx => mem x (sub x hx))
    (fun _ x hx => resolve_apart resolved x (sub x hx)) (fun _ x hx => viewFind_none new x (mem x (sub x hx)))
    (fun k _ => bound (resolve_sound resolved k).entries) held (fun _ active => ?_)
  rw [inactive] at active
  cases active

/-- R141: the entries that a candidate beats leave the view. -/
theorem resolved_keeps {s : State} {e : Entry} {v : List Entry} {lost : List Bid}
    (resolved : resolve e s.calendar.view = some (v, lost)) : Keeps s (setView v s) := by
  rw [resolve_some resolved]
  exact viewFilter_keeps _ s

@[simp] theorem notifyLost_calendar (l : List Bid) (s : State) : (notifyLost l s).calendar = s.calendar :=
  notifyAll_calendar _ s

@[simp] theorem notifyLost_meeting (l : List Bid) (s : State) : (notifyLost l s).meeting = s.meeting :=
  notifyAll_meeting _ s

theorem newEntry_keeps {w : WireEntry} {s : State} (new : viewFind s.calendar.view w.id = none) :
    Keeps s (newEntry w s) := by
  unfold newEntry
  dsimp only
  split
  next v lost resolved =>
    have lostKeeps := notifyLost_keeps lost s
    rw [← notifyLost_calendar lost s] at resolved new
    split
    next v' room =>
      exact (lostKeeps.trans (candidate_keeps resolved room new rfl rfl nofun)).trans (handOnEntry_keeps _ _)
    · exact lostKeeps.trans (resolved_keeps resolved)
  · exact .refl s

/-- R140 and R141: a newer version that wins takes the place of its entry, with the active mark kept. -/
theorem replaced_keeps {s : State} {old : Entry} {w : WireEntry} {v : List Entry} {lost : List Bid}
    (found : viewFind s.calendar.view w.id = some old)
    (resolved : resolve { wire := w, held := false, active := old.active, age := 0 } (viewDrop s.calendar.view w.id)
      = some (v, lost)) :
    Keeps s (setView (insertEntry { wire := w, held := false, active := old.active, age := 0 } v) s) := by
  obtain ⟨oldMem, oldId⟩ := viewFind_some found
  have mem := resolve_mem resolved
  refine .insert rfl (fun k => resolve_sound resolved (viewDrop_sound k)) (fun x hx => (mem_viewDrop.1 (mem x hx)).1)
    (fun _ => resolve_apart resolved) (fun _ x hx => (mem_viewDrop.1 (mem x hx)).2) (fun k _ => ?_) nofun
    (fun k active => oldId ▸ k old oldMem active)
  have fewer : v.length ≤ (viewDrop s.calendar.view w.id).length := by
    rw [resolve_some resolved]
    exact List.length_filter_le _ _
  have dropped : (viewDrop s.calendar.view w.id).length < s.calendar.view.length := oldId ▸ viewDrop_lt oldMem
  exact (fewer.trans_lt dropped).trans_le k.entries

theorem replaceEntry_keeps {old : Entry} {w : WireEntry} {s : State}
    (found : viewFind s.calendar.view w.id = some old) : Keeps s (replaceEntry old w s) := by
  unfold replaceEntry
  dsimp only
  split
  next v lost resolved =>
    have lostKeeps := notifyLost_keeps lost s
    rw [← notifyLost_calendar lost s] at resolved found
    exact (lostKeeps.trans (replaced_keeps found resolved)).trans (handOnEntry_keeps _ _)
  · exact viewFilter_keeps _ s

theorem arriveEntry_keeps (source : Nat) (w : WireEntry) (s : State) : Keeps s (arriveEntry source w s) := by
  unfold arriveEntry
  refine .ite (fun _ => ?_) (fun _ => .refl s)
  split
  next found => exact .ite (fun _ => replaceEntry_keeps found) (fun _ => refreshAge_keeps _ s)
  next new => exact newEntry_keeps new

/-- R136 and R162: a booking where fewer than 8 are HELD and its minutes are free. -/
theorem createBooking_keeps {day minute n profile chair : Nat} {title : List Byte} {s : State}
    (held : heldCount s.calendar.view < Config.heldEntries)
    (free : CalendarSound s.calendar.view → ∀ e ∈ s.calendar.view, e.wire.finish ≤ day * Config.dayMinutes + minute ∨
      day * Config.dayMinutes + minute + n ≤ e.wire.start) :
    Keeps s (createBooking day minute n profile chair title s) := by
  unfold createBooking
  dsimp only
  refine Keeps.trans (.insert rfl evictForOwn_sound evictForOwn_mem (fun k x hx => ?_)
    (fun k x hx => nextSerial_free k x (evictForOwn_mem x hx)) (fun k a => evictForOwn_room k a held)
    (fun _ => evictForOwn_held.trans_lt held) (fun _ active => Bool.noConfusion active)) (handOnEntry_keeps _ _)
  have apart := free k x (evictForOwn_mem x hx)
  unfold WireEntry.overlaps
  rw [Bool.and_eq_false_iff, decide_eq_false_iff_not, decide_eq_false_iff_not]
  exact apart.imp Nat.not_lt.2 Nat.not_lt.2

theorem holderDecision_keeps {e : Entry} {asker asked : Nat} {s : State} (h : e ∈ s.calendar.view) :
    Keeps s (holderDecision e asker asked s) := by
  have offered (b : Bool) (g : Nat) (w : WireEntry) (t : State) :
      Keeps t (offerFrame (.extendAnswer e.wire.id asker b g w) t) :=
    offerFrame_keeps (by simp [State.own, Frame.internalKind])
  have extended : Keeps s (setView (s.calendar.view.map (fun x => if x.wire.id = e.wire.id then
      { e with wire := e.wire.extended (grantFor s.calendar.view e.wire asked) } else x)) s) := by
    refine .calendar (.calendar (fun k => extend_sound k h) (fun k x hx active => ?_))
    obtain ⟨z, hz, rfl⟩ := List.mem_map.1 hx
    by_cases same : z.wire.id = e.wire.id
    · rw [if_pos same] at active ⊢
      exact k e h active
    · rw [if_neg same] at active ⊢
      exact k z hz active
  exact .ite (fun _ => (extended.trans (offered _ _ _ _)).trans (handOnEntry_keeps _ _)) (fun _ => offered _ _ _ s)

/-- R138: a restored entry of a new id where fewer than 8 are HELD. -/
theorem restoreEntry_keeps {w : WireEntry} {s : State} (new : viewFind s.calendar.view w.id = none)
    (held : heldCount s.calendar.view < Config.heldEntries) : Keeps s (restoreEntry w s) := by
  unfold restoreEntry
  dsimp only
  split
  · exact answer_keeps _ s
  next v lost resolved =>
    split
    · exact answer_keeps _ s
    next v' room =>
      have noticed := (reply_keeps .ok (bidBytes w.id) s).trans (notifyLost_keeps lost _)
      have stored : Keeps (notifyLost lost (reply .ok (bidBytes w.id) s))
          { notifyLost lost (reply .ok (bidBytes w.id) s) with
            calendar := { (notifyLost lost (reply .ok (bidBytes w.id) s)).calendar with
              serial := (w.id.serial + 1) % 256,
              view := insertEntry { wire := w, held := true, active := false, age := 0 } v' } } := by
        have same : (notifyLost lost (reply .ok (bidBytes w.id) s)).calendar = s.calendar := by simp
        exact .calendar (restoreInsert_evolves rfl (by rw [same]; exact resolved) room (by rw [same]; exact new)
          (by rw [same]; exact held) _)
      exact ((noticed.trans stored).trans (handOnEntry_keeps _ _)).settled

/-! ## Received frames (R22 to R28, R102) -/

/-- The peer table bears on no other invariant. -/
theorem Keeps.presence {s : State} {p : Presence} (h : p.peers.length = s.presence.peers.length) :
    Keeps s { s with presence := p } :=
  .of_same (.rest s p s.controls s.capture s.screen h) (.of_link rfl rfl) rfl rfl rfl rfl ⟨rfl, rfl, rfl⟩ rfl

theorem Presence.setPeer_length (p : Presence) (k : Nat) (e : Peer) : (p.setPeer k e).peers.length = p.peers.length := by
  unfold setPeer
  split <;> simp

theorem heard_keeps (seat : Nat) (s : State) : Keeps s (heard seat s) := by
  have stored (p : Peer) : Keeps s { s with presence := s.presence.setPeer seat p } :=
    .presence (Presence.setPeer_length _ _ _)
  exact .ite (fun _ => (stored _).trans (evalMic_keeps _)) (fun _ => stored _)

theorem peerAbsent_keeps (seat : Nat) (s : State) : Keeps s (peerAbsent seat s) := by
  have stored (p : Peer) : Keeps s { s with presence := s.presence.setPeer seat p } :=
    .presence (Presence.setPeer_length _ _ _)
  have left (t : State) (chair : Bool) : Keeps t (floorStep (t.floor.departed seat chair) t) :=
    floorStep_keeps (Floor.departed_keeps _ _ _ _ _) (Floor.departed_accounts _ _ _) (fun _ none => by
      have dropped : (t.floor.departed seat chair).floor.openSet = (t.floor.dropOpen seat).openSet := by
        cases chair <;> rfl
      rw [dropped]
      simp [Floor.dropOpen, none])
  exact ((stored _).trans (left _ _)).trans (shareReleased_keeps _ _)

/-- R102 and R103: a slot keeps its seat when it takes a block. -/
theorem Slot.take_boundSeat {x : Slot} (bound : x.state ≠ .free) (h : HeldBlock) : (x.take h).boundSeat = some x.seat := by
  unfold take
  split
  · refine Slot.boundSeat_of_not_free ?_
    dsimp only
    split
    · nofun
    · exact bound
  · exact Slot.boundSeat_of_not_free bound

/-- R102: the slot bound to a seat is put back bound to it. -/
theorem boundSeats_put {seat : Nat} {y : Slot} (h : y.boundSeat = some seat) (l : List Slot) :
    boundSeats (l.map (fun z => if z.state ≠ .free ∧ z.seat = seat then y else z)) = boundSeats l := by
  refine boundSeats_map (fun z => ?_) l
  split
  next bound => rw [h, Slot.boundSeat_of_not_free bound.1, bound.2]
  · rfl

theorem slotOf_some {l : List Slot} {seat : Nat} {x : Slot} (h : slotOf l seat = some x) :
    x.state ≠ .free ∧ x.seat = seat := by
  have found := List.find?_some h
  simpa using found

theorem mixReceive_keeps (seat : Nat) (h : HeldBlock) (s : State) : Keeps s (mixReceive seat h s) := by
  have evolves := mixReceive_evolves seat h s
  have same (m : Mix) (p : Port) (e : Evolves s { s with mix := m, port := p })
      (b : boundSeats m.slots = boundSeats s.mix.slots) : Keeps s { s with mix := m, port := p } :=
    .of_parts (.of_states e (.of_link rfl rfl) Iff.rfl rfl) rfl rfl (fun _ k => k) (fun _ k => k) b
  revert evolves
  unfold mixReceive
  split
  · split
    · exact fun _ => .refl s
    next x found =>
      obtain ⟨bound, rfl⟩ := slotOf_some found
      have taken := boundSeats_put (x.take_boundSeat bound h) s.mix.slots
      have late : boundSeats _ = _ := boundSeats_put (y := { x with stale := 0 }) (Slot.boundSeat_of_not_free bound) s.mix.slots
      dsimp only
      split
      · split
        · exact fun e => same _ _ e taken
        · split
          · exact fun e => same _ _ e taken
          · exact fun e => same _ _ e taken
      · exact fun e => same _ _ e late
  · exact fun _ => .refl s

theorem onVoice_keeps {s : State} (run : s.meeting.state ≠ .idle) (source o q n : Nat) (talking : Bool)
    (samples : List Int) : Keeps s (onVoice source o q n talking samples s) :=
  (floorStep_keeps_of_run run (Floor.implicit_keeps _ _ _ _ _ (fun h => isChairSeat_eq (implicitClass_chair h)))
    (Floor.implicit_accounts _ _ _ _ _ _ _)).trans (mixReceive_keeps _ _ _)

theorem onBeacon_keeps (source : Nat) (b : BeaconBody) (s : State) : Keeps s (onBeacon source b s) := by
  have stored (p : Peer) : Keeps s { s with presence := s.presence.setPeer source p } :=
    .presence (Presence.setPeer_length _ _ _)
  have ended (t : State) : Keeps t (match b.endedEarly with
      | some id => settle (endOrRemove id .endedEarly t)
      | none => t) := by
    cases b.endedEarly with
    | some id => exact (endOrRemove_keeps _ _ t).settled
    | none => exact .refl t
  have arrived (t : State) : Keeps t (match b.entry with
      | some w => settle (arriveEntry source w t)
      | none => t) := by
    cases b.entry with
    | some w => exact (arriveEntry_keeps _ _ t).settled
    | none => exact .refl t
  unfold onBeacon
  refine Keeps.trans (Keeps.trans (Keeps.trans ?_ (ended _)) (arrived _))
    ((reconcileBeacon_keeps _ _ _ _ _ _).trans (shareBeacon_keeps _ _ _ _))
  exact .ite (fun _ => (stored _).trans (setClock_keeps _ _ _)) (fun _ => stored _)

theorem onCancel_keeps (source : Nat) (id : Bid) (s : State) : Keeps s (onCancel source id s) :=
  .ite (fun _ => endOrRemove_keeps _ _ s) (fun _ => .refl s)

theorem onExtendAsk_keeps (source : Nat) (id : Bid) (n : Nat) (s : State) : Keeps s (onExtendAsk source id n s) := by
  unfold onExtendAsk
  split
  next found => exact .ite (fun _ => holderDecision_keeps (viewFind_some found).1) (fun _ => .refl s)
  · exact .refl s

theorem onExtendAnswer_keeps (source : Nat) (id : Bid) (asker : Nat) (ok : Bool) (g : Nat) (w : WireEntry) (s : State) :
    Keeps s (onExtendAnswer source id asker ok g w s) := by
  have arrived : Keeps s (settle (arriveEntry source w s)) := (arriveEntry_keeps _ _ s).settled
  unfold onExtendAnswer
  refine .ite (fun _ => ?_) (fun _ => .refl s)
  dsimp only
  split
  · exact .ite (fun _ => (arrived.trans (clearAsk_keeps _)).trans (extendResult_keeps _ _ _ _)) (fun _ => arrived)
  · exact arrived

theorem onEndNow_keeps (source : Nat) (id : Bid) (s : State) : Keeps s (onEndNow source id s) := by
  unfold onEndNow
  split
  · exact .ite (fun _ => endOrRemove_keeps _ _ s) (fun _ => .refl s)
  · exact .refl s

theorem deliver_keeps (f : Frame) (s : State) : Keeps s (deliver f s) := by
  obtain ⟨source, body⟩ := f
  unfold deliver
  refine (heard_keeps source s).trans ?_
  dsimp only
  generalize heard source s = t
  cases body with
  | voice m o q n talking samples => exact filtered_keeps fun run => onVoice_keeps run _ _ _ _ _ _
  | beacon b => exact onBeacon_keeps _ _ t
  | request m q => exact filtered_keeps fun _ => onRequest_keeps _ _ t
  | withdraw m => exact filtered_keeps fun _ => onWithdraw_keeps _ t
  | opening m o q c => exact filtered_keeps fun run => onOpening_keeps run _ _ _ _
  | close m target why => exact filtered_keeps fun _ => onClose_keeps _ _ _ t
  | yield m q => exact filtered_keeps fun run => onYield_keeps run _ _
  | grant m target => exact filtered_keeps fun _ => onGrant_keeps _ _ t
  | clear m => exact filtered_keeps fun _ => onClear_keeps _ t
  | priority m on => exact filtered_keeps fun _ => onPriority_keeps _ _ t
  | timeAdd m target n => exact filtered_keeps fun _ => onTimeAdd_keeps _ _ _ t
  | share m screen k => exact filtered_keeps fun run => shareClaimed_keeps run _ _ _
  | unshare m => exact filtered_keeps fun _ => shareReleased_keeps _ t
  | cancel id => exact onCancel_keeps _ _ t
  | extendAsk id n => exact onExtendAsk_keeps _ _ _ t
  | extendAnswer id a ok g w => exact onExtendAnswer_keeps _ _ _ _ _ _ t
  | endNow id => exact onEndNow_keeps _ _ t

end Sys2Proof.Machine

namespace Sys2Proof.Machine

/-! SUPPORT. The outcomes of frames and the parts of a block completion in the form `Keeps`. -/

/-! ## Parts that bear on no other -/

/-- Peers, controls, the capture record but for placing, and the screen. -/
theorem Keeps.rest {s : State} {p : Presence} {c : Controls} {k : Capture} {d : Screen}
    (peers : p.peers.length = s.presence.peers.length) (placing : k.placing = s.capture.placing) :
    Keeps s { s with presence := p, controls := c, capture := k, screen := d } :=
  .of_same (.rest s p c k d peers) (.of_link rfl rfl) rfl rfl rfl placing ⟨rfl, rfl, rfl⟩ rfl

theorem Keeps.controls (s : State) (c : Controls) : Keeps s { s with controls := c } := .rest rfl rfl

theorem Keeps.screen (s : State) (d : Screen) : Keeps s { s with screen := d } := .rest rfl rfl

theorem Keeps.capture {s : State} {k : Capture} (placing : k.placing = s.capture.placing) :
    Keeps s { s with capture := k } := .rest rfl placing

/-- The parts of the mix other than the volume, with the seats that slots are bound to. -/
theorem Keeps.mix {s : State} {m : Mix} (sound : MixSound s.mix → MixSound m) (volume : m.volume = s.mix.volume)
    (bound : boundSeats m.slots = boundSeats s.mix.slots) : Keeps s { s with mix := m } :=
  .of_parts (.of_states ⟨⟨rfl, rfl, rfl, rfl, rfl, volume, rfl⟩, fun k => { k with mix := sound k.mix },
    ClashSilent.of_link rfl rfl⟩ (.of_link rfl rfl) Iff.rfl rfl) rfl rfl (fun _ k => k) (fun _ k => k) bound

/-- The parts of the port other than the threshold. -/
theorem Keeps.port {s : State} {p : Port} (notices : p.notices.length ≤ s.port.notices.length)
    (threshold : p.threshold = s.port.threshold) : Keeps s { s with port := p } := by
  have sound (k : PortSound s.port) : PortSound p := ⟨notices.trans k.notices, threshold ▸ k.threshold⟩
  exact .of_same ⟨⟨rfl, rfl, rfl, rfl, rfl, rfl, threshold⟩, fun k => { k with port := sound k.port },
    ClashSilent.of_link rfl rfl⟩ (.of_link rfl rfl) rfl rfl rfl rfl ⟨rfl, rfl, rfl⟩ rfl

/-- The counters of the link. -/
theorem Keeps.counters {s : State} {l : Link} (queue : l.queue = s.link.queue) (voice : l.voiceSlot = s.link.voiceSlot)
    (beacon : l.beaconSlot = s.link.beaconSlot) (sending : l.inSend = s.link.inSend) :
    Keeps s { s with link := l } := by
  refine .of_same ⟨⟨rfl, rfl, rfl, rfl, rfl, rfl, rfl⟩, fun k => { k with queue := ?_ }, fun k => ?_⟩
    (.of_link beacon sending) rfl rfl rfl rfl ⟨rfl, rfl, rfl⟩ rfl
  · exact queue.symm ▸ k.queue
  · exact ⟨fun c => queue.trans (k.queue c), fun c => voice.trans (k.voice c), fun c => beacon.symm ▸ k.beacon c,
      fun c => sending.symm ▸ k.sending c⟩

theorem countBadFrame_keeps (s : State) : Keeps s (countBadFrame s) := .counters rfl rfl rfl rfl

/-! ## Outcomes of the frame in send (R16, R17) -/

theorem endNowOutcome_keeps (id : Bid) (s : State) : Keeps s (endNowOutcome id s) := by
  have answered : Keeps s { s with meeting := { s.meeting with endAsked := false } } :=
    .record (.meeting rfl rfl (.inl rfl) rfl) Iff.rfl
  exact answered.trans (.ite (fun _ => endMeetingFor_keeps _ _) (fun _ => .refl _))

theorem extendAskAbandoned_keeps (id : Bid) (s : State) : Keeps s (extendAskAbandoned id s) := by
  unfold extendAskAbandoned
  split
  · exact .ite (fun _ => askUnanswered_keeps s) (fun _ => .refl s)
  · exact .refl s

theorem countAbandoned_keeps (x : Sending) (s : State) : Keeps s (countAbandoned x s) := by
  have counted : Keeps s { s with link := { s.link with abandoned := sat16 s.link.abandoned } } :=
    .counters rfl rfl rfl rfl
  exact .ite (fun _ => counted) (fun _ => counted.trans (notify_keeps _ _))

theorem sentOutcome_keeps (f : Frame) (s : State) : Keeps s (sentOutcome f s) := by
  unfold sentOutcome
  cases f.body with
  | opening m o q c => exact filtered_keeps fun run => openSent_keeps run o q c
  | close m target why =>
    exact .ite (fun _ => .refl s) (fun _ => filtered_keeps fun _ => viewClose_keeps target why s)
  | grant m target => exact filtered_keeps fun _ => viewGrant_keeps target s
  | clear m => exact filtered_keeps fun _ => viewClear_keeps s
  | priority m on => exact filtered_keeps fun _ => viewPriority_keeps on s
  | share m screen stamp => exact filtered_keeps fun run => shareSent_keeps run screen stamp
  | endNow id => exact endNowOutcome_keeps id s
  | _ => exact .refl s

theorem abandonedOutcome_keeps (f : Frame) (s : State) : Keeps s (abandonedOutcome f s) := by
  unfold abandonedOutcome
  cases f.body with
  | opening m o q c => exact filtered_keeps fun run => openAbandoned_keeps run
  | share m screen stamp => exact filtered_keeps fun run => shareAbandoned_keeps run
  | extendAsk id n => exact extendAskAbandoned_keeps id s
  | endNow id => exact endNowOutcome_keeps id s
  | _ => exact .refl s

theorem attemptClear_keeps (s : State) : Keeps s (attemptClear s) := by
  unfold attemptClear
  refine .ite (fun _ => finishAttempt_keeps s) (fun _ => ?_)
  split
  · exact .refl s
  · exact .ite (fun _ => freeLink_keeps s) (fun _ => (sentOutcome_keeps _ s).trans (freeLink_keeps _))

/-- R16: another attempt sends the same frame. -/
theorem nextAttempt_keeps {s : State} {x : Sending} (h : s.link.inSend = some x) (n : Nat) :
    Keeps s { s with link := { s.link with inSend := some { x with attempt := n } } } := by
  have silent (k : ClashSilent s) :
      ClashSilent { s with link := { s.link with inSend := some { x with attempt := n } } } := by
    refine ⟨k.queue, k.voice, k.beacon, fun clash y hy => ?_⟩
    cases hy
    exact k.sending clash x h
  refine .of_same ⟨⟨rfl, rfl, rfl, rfl, rfl, rfl, rfl⟩, fun k => { k with }, silent⟩ (fun _ empty => ⟨empty, fun y hy => ?_⟩)
    rfl rfl rfl rfl ⟨rfl, rfl, rfl⟩ rfl
  cases hy
  exact ⟨x, h, rfl⟩

theorem attemptFailed_keeps (s : State) : Keeps s (attemptFailed s) := by
  unfold attemptFailed
  refine .ite (fun _ => finishAttempt_keeps s) (fun _ => ?_)
  split
  · exact .refl s
  next x sending =>
    refine .ite (fun _ => freeLink_keeps s) (fun _ => .ite (fun _ => nextAttempt_keeps sending _) (fun _ => ?_))
    exact ((countAbandoned_keeps x s).trans (abandonedOutcome_keeps _ _)).trans (freeLink_keeps _)

/-! ## Seat Controls (R62, R63) -/

theorem tickLeds_keeps (s : State) : Keeps s (tickLeds s) := .ite (fun _ => .controls s _) (fun _ => .refl s)

theorem priorityButton_keeps (on : Bool) (s : State) : Keeps s (priorityButton on s) :=
  .ite (fun _ => offerFrame_keeps (by simp [State.own, Frame.internalKind])) (fun _ => .refl s)

theorem startFlash_keeps (s : State) : Keeps s (startFlash s) := .controls s _

theorem micPressed_keeps (s : State) : Keeps s (micPressed s) :=
  .ite (fun taken => takePress_keeps (pressTaken_run taken)) (fun _ => .ite (fun _ => startFlash_keeps s) (fun _ => .refl s))

theorem buttonEvents_keeps (m p h : ButtonEvent) (s : State) : Keeps s (buttonEvents m p h s) := by
  have mic : Keeps s (if m = .press then settle (micPressed s) else s) :=
    .ite (fun _ => (micPressed_keeps s).settled) (fun _ => .refl s)
  have share (t : State) : Keeps t (if h = .press then sharePressed t else t) :=
    .ite (fun _ => sharePressed_keeps t) (fun _ => .refl t)
  cases p with
  | none => exact mic.trans (share _)
  | press => exact (mic.trans (priorityButton_keeps true _)).trans (share _)
  | release => exact (mic.trans (priorityButton_keeps false _)).trans (share _)

theorem sampleButtons_keeps (m p h : Bool) (s : State) : Keeps s (sampleButtons m p h s) :=
  .ite (fun _ => (Keeps.controls s _).trans (buttonEvents_keeps _ _ _ _)) (fun _ => .refl s)

/-! ## Capture Path (R88 to R95) -/

theorem trimBlock_keeps (samples : List Sample) (s : State) : Keeps s (trimBlock samples s) := .capture rfl

@[simp] theorem Capture.detect_placing (c : Capture) (b : Bool) : (c.detect b).1.placing = c.placing := by
  rw [detect_fst]

theorem buildVoice_keeps (s : State) : Keeps s (buildVoice s) :=
  .ite (fun _ => placeVoice_keeps _ s) (fun _ => .refl s)

theorem silenceBlock_keeps (s : State) : Keeps s (silenceBlock s) := by
  have counted (n : Nat) : Keeps s { s with mic := { s.mic with silence := n } } := .micRecord rfl
  unfold silenceBlock
  refine .ite (fun _ => ?_) (fun _ => .refl s)
  dsimp only
  split
  · exact .ite (fun _ => (counted _).trans (micClose_keeps _ _)) (fun _ => counted _)
  · exact counted _

theorem captureBlock_keeps (samples : List Sample) (s : State) : Keeps s (captureBlock samples s) := by
  refine .ite (fun _ => ?_) (fun _ => .refl s)
  have detected (t : State) (b : Bool) : Keeps t { t with capture := (t.capture.detect b).1 } :=
    .capture (Capture.detect_placing _ _)
  have onset (t : State) (e : TalkEvent) : Keeps t (if e = .onset then talkOnset t else t) :=
    .ite (fun _ => talkOnset_keeps t) (fun _ => .refl t)
  exact ((((trimBlock_keeps samples s).trans (detected _ _)).trans (onset _ _)).trans (buildVoice_keeps _)).trans
    (silenceBlock_keeps _)

/-! ## Mix Engine (R105 to R109, R120 to R127) -/

@[simp] theorem Slot.yield_boundSeat (x : Slot) : x.yield.2.boundSeat = x.boundSeat := by
  cases state : x.state <;> cases fifo : x.fifo <;> simp [Slot.yield, Slot.boundSeat, state, fifo]

theorem Slot.yield_fifo_le (x : Slot) : x.yield.2.fifo.length ≤ x.fifo.length := by
  cases state : x.state <;> cases fifo : x.fifo <;> simp [Slot.yield, state, fifo]

@[simp] theorem Slot.age_boundSeat (x : Slot) : x.age.boundSeat = x.boundSeat := by
  by_cases h : x.state = .free <;> simp [Slot.age, Slot.boundSeat, h]

@[simp] theorem Slot.age_fifo (x : Slot) : x.age.fifo = x.fifo := by
  by_cases h : x.state = .free <;> simp [Slot.age, h]

theorem limiterStep_le {clipped r q : Nat} (h : r ≤ Config.maxReduction) :
    (limiterStep clipped r q).1 ≤ Config.maxReduction := by
  unfold limiterStep
  split
  · exact Nat.min_le_left _ _
  · split
    · exact h
    · split
      · exact (Nat.sub_le r 1).trans h
      · exact h

/-- R99 and R115: slots taken one by one, each keeping its bound on the FIFO. -/
theorem MixSound.mapSlots {m n : Mix} {g : Slot → Slot} (k : MixSound m) (slots : n.slots = m.slots.map g)
    (fifo : ∀ x : Slot, (g x).fifo.length ≤ x.fifo.length) (reduction : n.reduction ≤ Config.maxReduction)
    (volume : n.volume = m.volume) : MixSound n := by
  refine ⟨?_, fun y hy => ?_, reduction, volume ▸ k.volume⟩
  · rw [slots, List.length_map, k.slots]
  · rw [slots] at hy
    obtain ⟨x, hx, rfl⟩ := List.mem_map.1 hy
    exact (fifo x).trans (k.fifos x hx)

theorem mixBlock_slots (s : State) : (mixBlock s).mix.slots = s.mix.slots.map (fun x => x.yield.2) := by
  simp [mixBlock]

theorem mixBlock_keeps (s : State) : Keeps s (mixBlock s) := by
  refine .mix (fun k => k.mapSlots (mixBlock_slots s) Slot.yield_fifo_le (limiterStep_le k.reduction) rfl) rfl ?_
  exact (congrArg boundSeats (mixBlock_slots s)).trans (boundSeats_map Slot.yield_boundSeat _)

theorem ageSlots_keeps (s : State) : Keeps s (ageSlots s) :=
  .mix (fun k => k.mapSlots rfl (fun x => (congrArg List.length x.age_fifo).le) k.reduction rfl) rfl
    (boundSeats_map Slot.age_boundSeat _)

theorem silentBlock_keeps (s : State) : Keeps s (silentBlock s) :=
  .mix (fun k => ⟨k.slots, k.fifos, k.reduction, k.volume⟩) rfl rfl

theorem mixEngineBlock_keeps (s : State) : Keeps s (mixEngineBlock s) :=
  .ite (fun _ => .ite (fun _ => silentBlock_keeps s) (fun _ => ((mixBlock_keeps s).trans (ageSlots_keeps _)).trans
    (.foldl (fun t k => staleReport_keeps k t) _ _))) (fun _ => .refl s)

/-! ## Counts in blocks -/

theorem budgetBlock_keeps (s : State) : Keeps s (budgetBlock s) := by
  have counted (n : Nat) : Keeps s { s with mic := { s.mic with secondCount := n } } := .micRecord rfl
  exact .ite (fun _ => .ite (fun _ => counted _) (fun _ => (counted _).trans (budgetSecondPasses_keeps _))) (fun _ => .refl s)

theorem presenceBlock_keeps (s : State) : Keeps s (presenceBlock s) := by
  have aged : Keeps s { s with presence := { s.presence with peers := s.presence.peers.map Peer.aged } } :=
    .presence (List.length_map _)
  exact aged.trans (.foldl (fun t k => (peerAbsent_keeps k t).settled) _ _)

theorem cadenceBlock_keeps (s : State) : Keeps s (cadenceBlock s) := by
  have counted (n : Nat) : Keeps s { s with presence := { s.presence with cadence := n } } := .presence rfl
  exact .ite (fun _ => counted _) (fun _ => (counted _).trans (requestBeacon_keeps _))

theorem clockBlock_keeps (s : State) : Keeps s (clockBlock s) := by
  have counted : Keeps s { s with calendar := { s.calendar with
      clock := { s.calendar.clock with count := s.calendar.clock.count + 1 } } } := .calendarRest rfl
  exact .ite (fun _ => .ite (fun _ => counted) (fun _ => clockSecondPasses_keeps s)) (fun _ => .refl s)

/-- R143: the ages of a view bear on no bound of it. -/
theorem aged_keeps (s : State) : Keeps s (setView (s.calendar.view.map
    (fun e => if e.held || e.active then e else { e with age := e.age + 1 })) s) := by
  refine .calendar (.calendar (fun k => k.map (fun e => ?_) (fun e => ?_)) (fun k e he active => ?_))
  · split <;> rfl
  · split <;> rfl
  · obtain ⟨x, hx, rfl⟩ := List.mem_map.1 he
    split at active
    next kept => rw [if_pos kept]; exact k x hx active
    next counts => rw [if_neg counts]; exact k x hx active

theorem ageEntries_keeps (s : State) : Keeps s (ageEntries s) := (aged_keeps s).trans (viewFilter_keeps _ _)

theorem dropEndedEarly_keeps (s : State) : Keeps s (dropEndedEarly s) :=
  .record (.meeting rfl rfl (.inl rfl) rfl) Iff.rfl

theorem endedEarlyBlock_keeps (s : State) : Keeps s (endedEarlyBlock s) := by
  have counted : Keeps s { s with meeting := { s.meeting with endedEarlyAge := s.meeting.endedEarlyAge + 1 } } :=
    .record (.meeting rfl rfl (.inl rfl) rfl) Iff.rfl
  exact .ite (fun _ => .refl s) (fun _ => .ite (fun _ => counted) (fun _ => dropEndedEarly_keeps s))

theorem askBlock_keeps (s : State) : Keeps s (askBlock s) := by
  unfold askBlock
  split
  · exact .ite (fun _ => .calendarRest rfl) (fun _ => askUnanswered_keeps s)
  · exact .refl s

theorem advanceWindow_keeps (s : State) : Keeps s (advanceWindow s) := .screen s _

theorem windowBlock_keeps (s : State) : Keeps s (windowBlock s) :=
  .ite (fun _ => .ite (fun _ => .screen s _) (fun _ => advanceWindow_keeps s)) (fun _ => .refl s)

theorem messageBlock_keeps (s : State) : Keeps s (messageBlock s) := .screen s _

theorem runningCounts_keeps (s : State) : Keeps s (runningCounts s) := by
  have ended (t : State) : Keeps t (settle (windowBlock t)) := (windowBlock_keeps t).settled
  have asked (t : State) : Keeps t (settle (askBlock (endedEarlyBlock t))) :=
    ((endedEarlyBlock_keeps t).trans (askBlock_keeps _)).settled
  have timed (t : State) : Keeps t (settle (clockBlock (cadenceBlock t))) :=
    ((cadenceBlock_keeps t).trans (clockBlock_keeps _)).settled
  exact ((((((budgetBlock_keeps s).settled.trans (presenceBlock_keeps _).settled).trans (timed _)).trans
    (ageEntries_keeps _).settled).trans (asked _)).trans (ended _)).trans (messageBlock_keeps _)

/-- R88: a block completion past the block number. -/
theorem blockStep_keeps (samples : List Sample) (m p h : Bool) (s : State) :
    Keeps (advanceBlock s) (blockStep samples m p h s) := by
  have mixed := ((((tickLeds_keeps (advanceBlock s)).trans (sampleButtons_keeps m p h _)).trans
    (captureBlock_keeps samples _)).settled).trans (mixEngineBlock_keeps _)
  exact .ite (fun _ => mixed) (fun _ => mixed.trans (runningCounts_keeps _))

end Sys2Proof.Machine

namespace Sys2Proof.Machine

/-! SUPPORT. Host commands, received frames and events of the part in the form `Keeps`: every command but the ones that
set up, reset, set a level or complete a block. -/

/-- A command that completes in a state it keeps. -/
def KeepsNext (s : State) (r : Result) : Prop := ∃ t : State, r = .next t ∧ Keeps s t

theorem KeepsNext.of {s t : State} (h : Keeps s t) : KeepsNext s (.next t) := ⟨t, rfl, h⟩

/-! ## Where a command is taken (R179, R180, R82) -/

theorem whenTaken_keeps {s : State} {k : State → State} (h : Keeps s (k s)) : Keeps s (whenTaken s k) :=
  .ite (fun _ => .refl s) (fun _ => h)

theorem runGroup_keeps {s : State} {k : State → State} (h : Keeps s (k s)) : Keeps s (runGroup s k) :=
  whenTaken_keeps (.ite (fun _ => answer_keeps _ s) (fun _ => h))

theorem isChair_run {s : State} (h : s.isChair = true) : s.meeting.state ≠ .idle := by
  unfold State.isChair State.isChairSeat at h
  simp only [Bool.and_eq_true] at h
  exact inMeeting_iff.1 h.1.1

theorem chairOnly_keeps {s : State} {k : State → State} (h : s.station ≠ .clash → Keeps s (k s)) :
    Keeps s (chairOnly s k) :=
  .ite (fun _ => answer_keeps _ s) (fun station => .ite (fun _ => h station) (fun _ => answer_keeps _ s))

theorem admitFrame_keeps {b : Body} {s : State} (host : (s.own b).internalKind = none) (station : s.station ≠ .clash) :
    Keeps s (admitFrame b s) := by
  refine .ite (fun room => ?_) (fun _ => answer_keeps _ s)
  exact ((answer_keeps .ok s).trans (offerHost_keeps host (of_decide_eq_true room) station)).settled

/-! ## Commands of the clock, the microphone and the chair -/

theorem execSetTime_keeps (day : BitVec 16) (second : BitVec 32) (s : State) : KeepsNext s (execSetTime day second s) :=
  .of (runGroup_keeps (.ite (fun _ => ((answer_keeps .ok s).trans (setClock_keeps _ _ _)).settled)
    (fun _ => answer_keeps _ s)))

theorem execPress_keeps (s : State) : KeepsNext s (execPress s) := by
  refine .of (runGroup_keeps (.ite (fun taken => ?_) (fun _ => ?_)))
  · exact ((takePress_keeps (pressTaken_run taken)).trans (reply_keeps _ _ _)).settled
  · exact .ite (fun _ => ((answer_keeps .badState s).trans (startFlash_keeps _)).settled) (fun _ => answer_keeps _ s)

theorem execAddTime_keeps (seat : Byte) (n : BitVec 16) (s : State) : KeepsNext s (execAddTime seat n s) := by
  refine .of (runGroup_keeps ?_)
  split
  · exact answer_keeps _ s
  · exact chairOnly_keeps (admitFrame_keeps rfl)

theorem execGrant_keeps (seat condition : Byte) (s : State) : KeepsNext s (execGrant seat condition s) := by
  refine .of (runGroup_keeps ?_)
  split
  · exact chairOnly_keeps fun station => .ite (fun _ => answer_keeps _ s) (fun _ => .ite (fun _ => answer_keeps _ s)
      (fun _ => admitFrame_keeps rfl station))
  · exact answer_keeps _ s

theorem execCloseSeat_keeps (seat condition : Byte) (s : State) : KeepsNext s (execCloseSeat seat condition s) := by
  refine .of (runGroup_keeps ?_)
  split
  · exact chairOnly_keeps fun station => .ite (fun _ => answer_keeps _ s) (fun _ => .ite (fun _ => answer_keeps _ s)
      (fun other => admitFrame_keeps (if_neg other) station))
  · exact answer_keeps _ s

theorem execClearQueue_keeps (s : State) : KeepsNext s (execClearQueue s) :=
  .of (runGroup_keeps (chairOnly_keeps (admitFrame_keeps rfl)))

theorem execPriority_keeps (value : Byte) (s : State) : KeepsNext s (execPriority value s) := by
  refine .of (runGroup_keeps ?_)
  split
  · exact answer_keeps _ s
  · exact chairOnly_keeps fun _ => .ite (fun _ => ((answer_keeps .ok s).trans
      (offerFrame_keeps (by simp [State.own, Frame.internalKind]))).settled) (fun _ => answer_keeps _ s)

/-! ## Bookings and meetings -/

theorem viewFree_iff {v : List Entry} {start finish : Nat} :
    viewFree v start finish = true ↔ ∀ e ∈ v, e.wire.finish ≤ start ∨ finish ≤ e.wire.start := by
  simp [viewFree, or_iff_not_imp_left]

/-- A booking made behind its reply. -/
theorem repliedBooking_keeps {day minute n profile chair : Nat} {title : List Byte} {s : State}
    (held : heldCount s.calendar.view < Config.heldEntries)
    (free : CalendarSound s.calendar.view → ∀ e ∈ s.calendar.view,
      e.wire.finish ≤ day * Config.dayMinutes + minute ∨ day * Config.dayMinutes + minute + n ≤ e.wire.start)
    (d : List Byte) : Keeps s (settle (createBooking day minute n profile chair title (reply .ok d s))) :=
  ((reply_keeps .ok d s).trans (createBooking_keeps (s := reply .ok d s) held free)).settled

theorem execBook_keeps (day minute duration : BitVec 16) (profile chair : Byte) (title : List Byte) (s : State) :
    KeepsNext s (execBook day minute duration profile chair title s) := by
  refine .of (runGroup_keeps ?_)
  have refused (x : Status) : Keeps s (answer x s) := answer_keeps x s
  refine .ite (fun _ => refused _) (fun _ => .ite (fun _ => refused _) (fun _ => .ite (fun _ => refused _)
    (fun _ => .ite (fun _ => refused _) (fun _ => .ite (fun _ => refused _) (fun held => .ite (fun _ => refused _)
    (fun free => ?_))))))
  have apart := viewFree_iff.1 (Bool.eq_true_of_not_eq_false free)
  exact repliedBooking_keeps (Nat.not_le.1 held) (fun _ => apart) _

theorem execRestoreBooking_keeps (day minute duration : BitVec 16) (profile chair : Byte) (title : List Byte)
    (serial version : Byte) (createdDay : BitVec 16) (createdSecond : BitVec 32) (s : State) :
    KeepsNext s (execRestoreBooking day minute duration profile chair title serial version createdDay createdSecond s) := by
  refine .of (runGroup_keeps ?_)
  have refused (x : Status) : Keeps s (answer x s) := answer_keeps x s
  refine .ite (fun _ => refused _) (fun _ => .ite (fun _ => refused _) (fun _ => .ite (fun _ => refused _)
    (fun _ => .ite (fun _ => refused _) (fun _ => .ite (fun _ => refused _) (fun new => .ite (fun _ => refused _)
    (fun held => ?_))))))
  exact restoreEntry_keeps (by simpa using new) (Nat.not_le.1 held)

theorem execCancelBooking_keeps (holder serial : Byte) (s : State) : KeepsNext s (execCancelBooking holder serial s) := by
  refine .of (runGroup_keeps ?_)
  have refused (x : Status) : Keeps s (answer x s) := answer_keeps x s
  refine .ite (fun _ => refused _) (fun station => .ite (fun _ => refused _) (fun _ => .ite (fun _ => refused _)
    (fun room => ?_)))
  have admitted : Keeps (answer .ok s) (offerHost (.cancel ⟨holder.toNat, serial.toNat⟩) (answer .ok s)) :=
    offerHost_keeps rfl (of_decide_eq_true (Bool.eq_true_of_not_eq_false room)) station
  exact (((answer_keeps .ok s).trans admitted).trans (endOrRemove_keeps _ _ _)).settled

theorem CalendarSound.start_le {v as bs : List Entry} {e x : Entry} (h : CalendarSound v) (split : v = as ++ e :: bs)
    (mem : x ∈ e :: bs) : e.wire.start ≤ x.wire.start := by
  rcases List.mem_cons.1 mem with rfl | later
  · exact Nat.le_refl _
  · have ordered := (List.pairwise_append.1 (split ▸ h.apart)).2.1
    exact viewKeyLt_start ((List.pairwise_cons.1 ordered).1 x later).1

/-- R162: the minutes a walk-in meeting takes are free in a view that stands in its order. -/
theorem walkInTaken_free {v : List Entry} {now asked n : Nat} (h : walkInTaken v now asked = some n)
    (sound : CalendarSound v) {e : Entry} (mem : e ∈ v) : e.wire.finish ≤ now ∨ now + n ≤ e.wire.start := by
  unfold walkInTaken freeFrom at h
  by_cases inside : v.any (fun e => decide (e.wire.start ≤ now) && decide (now < e.wire.finish)) = true
  · rw [if_pos inside] at h
    cases h
  rw [if_neg inside] at h
  have outside : now < e.wire.start ∨ e.wire.finish ≤ now := by
    by_contra both
    obtain ⟨begun, going⟩ := not_or.1 both
    exact inside (List.any_eq_true.2 ⟨e, mem, by simp [Nat.not_lt.1 begun, Nat.not_le.1 going]⟩)
  rcases outside with later | past
  · right
    cases first : v.find? (fun e => decide (now < e.wire.start)) with
    | none => exact absurd later (by simpa using List.find?_eq_none.1 first e mem)
    | some x =>
      obtain ⟨ahead, as, bs, rfl, before⟩ := List.find?_eq_some_iff_append.1 first
      have behind : e ∈ x :: bs := by
        rcases List.mem_append.1 mem with early | behind
        · exact absurd later (by simpa using before e early)
        · exact behind
      have le := sound.start_le rfl behind
      rw [first] at h
      simp only [Option.map_some] at h
      split at h
      · cases h
      · have ahead : now < x.wire.start := of_decide_eq_true ahead
        obtain rfl := Option.some.inj h
        omega
  · exact .inl past

theorem execStartMeeting_keeps (duration : BitVec 16) (profile : Byte) (title : List Byte) (s : State) :
    KeepsNext s (execStartMeeting duration profile title s) := by
  refine .of (runGroup_keeps ?_)
  have refused (x : Status) : Keeps s (answer x s) := answer_keeps x s
  refine .ite (fun _ => refused _) (fun _ => .ite (fun _ => refused _) (fun _ => .ite (fun _ => refused _)
    (fun _ => .ite (fun _ => refused _) (fun _ => .ite (fun _ => refused _) (fun held => ?_)))))
  split
  · exact refused _
  next n taken =>
    exact repliedBooking_keeps (Nat.not_le.1 held) (fun sound e mem => walkInTaken_free taken sound mem) _

theorem execEndMeeting_keeps (s : State) : KeepsNext s (execEndMeeting s) := by
  refine .of (runGroup_keeps (chairOnly_keeps fun station => .ite (fun _ => answer_keeps _ s)
    (fun _ => .ite (fun _ => answer_keeps _ s) (fun room => ?_))))
  have admitted : Keeps (answer .ok s) (offerHost (.endNow s.activeId) (answer .ok s)) :=
    offerHost_keeps rfl (of_decide_eq_true (Bool.eq_true_of_not_eq_false room)) station
  have asked (t : State) : Keeps t { t with meeting := { t.meeting with endAsked := true } } :=
    .record (.meeting rfl rfl (.inl rfl) rfl) Iff.rfl
  exact (((answer_keeps .ok s).trans admitted).trans (asked _)).settled

theorem heldActive_mem {s : State} {e : Entry} (h : s.heldActive = some e) : e ∈ s.calendar.view := by
  unfold State.heldActive at h
  split at h
  next x found =>
    split at h
    · obtain rfl := Option.some.inj h
      exact (viewFind_some found).1
    · cases h
  · cases h

theorem extendHeld_keeps {e : Entry} {s : State} (mem : e ∈ s.calendar.view) (n : Nat) : Keeps s (extendHeld e n s) := by
  have decided : Keeps s (settle (holderDecision e s.ownSeat n s)) := (holderDecision_keeps mem).settled
  exact .ite (fun _ => decided.trans (extendResult_keeps _ _ _ _)) (fun _ => decided.trans (extendResult_keeps _ _ _ _))

theorem extendHeard_keeps {s : State} (station : s.station ≠ .clash) (n : Nat) : Keeps s (extendHeard n s) := by
  refine .ite (fun room => ?_) (fun _ => answer_keeps _ s)
  have admitted : Keeps (answer .ok s) (offerHost (.extendAsk s.activeId n) (answer .ok s)) :=
    offerHost_keeps rfl (of_decide_eq_true room) station
  have asked (t : State) : Keeps t { t with calendar := { t.calendar with
      ask := some { id := s.activeId, minutes := n, timer := 0 } } } := .calendarRest rfl
  exact (((answer_keeps .ok s).trans admitted).trans (asked _)).settled

theorem execExtendMeeting_keeps (minutes : Byte) (s : State) : KeepsNext s (execExtendMeeting minutes s) := by
  refine .of (runGroup_keeps (chairOnly_keeps fun station => .ite (fun _ => answer_keeps _ s) (fun _ => ?_)))
  split
  next e held => exact ((answer_keeps .ok s).trans (extendHeld_keeps (s := answer .ok s) (heldActive_mem held) _)).settled
  · exact extendHeard_keeps station _

/-! ## Screens, FLUSH and reads -/

theorem execShowMessage_keeps (message : List Byte) (n : BitVec 16) (s : State) :
    KeepsNext s (execShowMessage message n s) :=
  .of (runGroup_keeps (.ite (fun _ => answer_keeps _ s) (fun _ => ((Keeps.screen s _).trans (answer_keeps .ok _)).settled)))

theorem execShare_keeps (screen : Byte) (s : State) : KeepsNext s (execShare screen s) := by
  refine .of (runGroup_keeps (.ite (fun _ => answer_keeps _ s) (fun _ => ?_)))
  split
  · exact answer_keeps _ s
  next none =>
    have claimed : Keeps (answer .ok s) (makeClaim (s.screenNamed screen.toNat) (answer .ok s)) :=
      makeClaim_keeps (s := answer .ok s) (claimRefusal_none_run none) _
    exact ((answer_keeps .ok s).trans claimed).settled

theorem execUnshare_keeps (s : State) : KeepsNext s (execUnshare s) :=
  .of (runGroup_keeps (.ite (fun _ => answer_keeps _ s)
    (fun _ => ((answer_keeps .ok s).trans (releaseClaim_keeps _)).settled)))

theorem execFlush_keeps (s : State) : KeepsNext s (execFlush s) :=
  .of (runGroup_keeps (.ite (fun _ => answer_keeps _ s) (fun _ => .port (Nat.le_refl _) rfl)))

theorem clearFlags_keeps (s : State) : Keeps s (clearFlags s) := by
  have port : Keeps s { s with port := { s.port with overflow := false, framing := false } } := .port (Nat.le_refl _) rfl
  exact port.trans (.mix (fun k => ⟨k.slots, k.fifos, k.reduction, k.volume⟩) rfl rfl)

theorem execReadStatus_keeps (s : State) : KeepsNext s (execReadStatus s) :=
  .of (whenTaken_keeps ((reply_keeps .ok _ s).trans (clearFlags_keeps _)))

theorem execReadNotices_keeps (s : State) : KeepsNext s (execReadNotices s) := by
  have taken : Keeps s { s with port := { s.port with notices := s.port.notices.drop Config.replyRecords } } :=
    .port (by simp) rfl
  exact .of (whenTaken_keeps (taken.trans (reply_keeps _ _ _)))

/-! ## Events of the part -/

theorem execTalkEnd_keeps (s : State) : KeepsNext s (execTalkEnd s) :=
  .of (.ite (fun _ => .capture rfl) (fun _ => .refl s))

theorem execLimiterRecovery_keeps (s : State) : KeepsNext s (execLimiterRecovery s) :=
  .of (.ite (fun _ => .mix (fun k => ⟨k.slots, k.fifos, (Nat.sub_le _ _).trans k.reduction, k.volume⟩) rfl rfl)
    (fun _ => .refl s))

theorem execStaleSlot_keeps (slot : Nat) (s : State) : KeepsNext s (execStaleSlot slot s) := by
  refine .of (.ite (fun _ => ?_) (fun _ => .refl s))
  split
  · exact (staleReport_keeps _ s).settled
  · exact .refl s

theorem execBeaconRequest_keeps (s : State) : KeepsNext s (execBeaconRequest s) := by
  have counted : Keeps s { s with presence := { s.presence with cadence := 0 } } := .presence rfl
  exact .of (.ite (fun _ => counted.trans (requestBeacon_keeps _)) (fun _ => .refl s))

theorem execAbsenceEvent_keeps (seat : Nat) (s : State) : KeepsNext s (execAbsenceEvent seat s) :=
  .of (.ite (fun _ => (peerAbsent_keeps seat s).settled) (fun _ => .refl s))

theorem execMicPress_keeps (s : State) : KeepsNext s (execMicPress s) :=
  .of (.ite (fun _ => ((Keeps.controls s _).trans (micPressed_keeps _)).settled) (fun _ => .refl s))

theorem execPriorityPress_keeps (s : State) : KeepsNext s (execPriorityPress s) :=
  .of (.ite (fun _ => ((Keeps.controls s _).trans (priorityButton_keeps true _)).settled) (fun _ => .refl s))

theorem execPriorityRelease_keeps (s : State) : KeepsNext s (execPriorityRelease s) :=
  .of (.ite (fun _ => ((Keeps.controls s _).trans (priorityButton_keeps false _)).settled) (fun _ => .refl s))

theorem execSharePress_keeps (s : State) : KeepsNext s (execSharePress s) :=
  .of (.ite (fun _ => ((Keeps.controls s _).trans (sharePressed_keeps _)).settled) (fun _ => .refl s))

theorem execButtonRelease_keeps (button : ReleaseButton) (s : State) : KeepsNext s (execButtonRelease button s) := by
  refine .of (.ite (fun _ => ?_) (fun _ => .refl s))
  cases button with
  | mic => exact .controls s _
  | share => exact .controls s _

theorem execFlashExpiry_keeps (s : State) : KeepsNext s (execFlashExpiry s) := .of (Keeps.controls s _)

theorem execLedBlinkPhase_keeps (led : Led) (s : State) : KeepsNext s (execLedBlinkPhase led s) := by
  cases led with
  | ring => exact .of (Keeps.controls s _)
  | request => exact .of (Keeps.controls s _)

theorem execBudgetSecond_keeps (s : State) : KeepsNext s (execBudgetSecond s) := by
  have counted : Keeps s { s with mic := { s.mic with secondCount := 0 } } := .micRecord rfl
  exact .of (.ite (fun _ => (counted.trans (budgetSecondPasses_keeps _)).settled) (fun _ => .refl s))

theorem execBudgetExpiry_keeps (s : State) : KeepsNext s (execBudgetExpiry s) := by
  have spent : Keeps s { s with mic := { s.mic with remaining := some 0, secondCount := 0 } } := .micRecord rfl
  exact .of (.ite (fun _ => ((spent.trans (warningTest_keeps _)).trans (budgetExpires_keeps _)).settled)
    (fun _ => .refl s))

theorem execSilenceClose_keeps (s : State) : KeepsNext s (execSilenceClose s) :=
  .of (.ite (fun _ => (micClose_keeps _ s).settled) (fun _ => .refl s))

theorem execExtendTimeout_keeps (s : State) : KeepsNext s (execExtendTimeout s) :=
  .of (.ite (fun _ => (askUnanswered_keeps s).settled) (fun _ => .refl s))

theorem execClockSecond_keeps (s : State) : KeepsNext s (execClockSecond s) :=
  .of (.ite (fun _ => (clockSecondPasses_keeps s).settled) (fun _ => .refl s))

theorem execEntryAgedOut_keeps (holder serial : Nat) (s : State) : KeepsNext s (execEntryAgedOut holder serial s) :=
  .of (.ite (fun _ => (removeEntry_keeps _ s).settled) (fun _ => .refl s))

theorem execEndedEarlyExpiry_keeps (s : State) : KeepsNext s (execEndedEarlyExpiry s) :=
  .of (.ite (fun _ => dropEndedEarly_keeps s) (fun _ => .refl s))

theorem execQueueWindowAdvance_keeps (s : State) : KeepsNext s (execQueueWindowAdvance s) :=
  .of (.ite (fun _ => (advanceWindow_keeps s).settled) (fun _ => .refl s))

theorem execTransientMessageExpiry_keeps (s : State) : KeepsNext s (execTransientMessageExpiry s) :=
  .of (.ite (fun _ => (Keeps.screen s _).settled) (fun _ => .refl s))

theorem execHostMessageExpiry_keeps (s : State) : KeepsNext s (execHostMessageExpiry s) :=
  .of (.ite (fun _ => (Keeps.screen s _).settled) (fun _ => .refl s))

theorem execDisplayTransferComplete_keeps (s : State) : KeepsNext s (execDisplayTransferComplete s) := by
  have completed : Keeps s (completeTransfer s) := .screen s _
  exact .of (.ite (fun _ => completed.trans (.screen _ _)) (fun _ => .refl s))

end Sys2Proof.Machine

namespace Sys2Proof.Machine

/-! SUPPORT. Every command as a direct change of the setup, followed by operations that keep the invariants; with it the
statements about every step. -/

/-- R5 and R6: the station state and the holders at entry into CLASH. -/
def clashed (s : State) : State :=
  { s with
    station := .clash,
    link := { s.link with
      voiceSlot := none, queue := [], beaconSlot := some .clash,
      inSend := s.link.inSend.map (fun x => { x with voided := true }) } }

/-- What a command changes directly of configuration, station state, levels and block number, or by a reset; every other
change is one that keeps the invariants. -/
inductive Direct (c : Instr) (s : State) : State → Prop
  | same : Direct c s s
  | powerOn (h : fullReset c = true) : Direct c s (powerOnState s)
  | softReset : Direct c s (softResetState s)
  | configure (h : isConfigure c = true) (setup : s.station = .setup) (x : StationConfig) : Direct c s { s with config := x }
  | profile (h : isSetProfile c = true) (i : Nat) (p : Profile) (limit : 1 ≤ p.limit ∧ p.limit ≤ 6) :
      Direct c s { s with profiles := s.profiles.set i p }
  | go (h : c = .go) (setup : s.station = .setup) : Direct c s { s with station := .run }
  | volume (h : isSetVolume c = true) (n : Nat) (le : n ≤ 63) : Direct c s { s with mix := { s.mix with volume := n } }
  | threshold (h : isSetNoticeLevel c = true) (n : Nat) (le : n ≤ 4) :
      Direct c s { s with port := { s.port with threshold := n } }
  | block (h : isBlock c = true) : Direct c s (advanceBlock s)
  | clash (run : s.station = .run) (seat : ∃ (kind source : Byte) (body : List Byte) (f : Frame),
      c = LinkFrame.received kind source body ∧ parseFrame kind source body = some f ∧ f.source = s.ownSeat) :
      Direct c s (clashed s)

/-- A command completes, past its direct change, in a state it keeps. -/
def Reaches (c : Instr) (s : State) (r : Result) : Prop := ∃ u t : State, r = .next t ∧ Direct c s u ∧ Keeps u t

theorem KeepsNext.reaches {c : Instr} {s : State} {r : Result} (h : KeepsNext s r) : Reaches c s r :=
  let ⟨t, next, keeps⟩ := h
  ⟨s, t, next, .same, keeps⟩

theorem Direct.reaches {c : Instr} {s u t : State} (d : Direct c s u) (k : Keeps u t) : Reaches c s (.next t) :=
  ⟨u, t, rfl, d, k⟩

/-- A command that its group takes, or does not take. -/
theorem Reaches.whenTaken {c : Instr} {s : State} {k : State → State} (h : Reaches c s (.next (k s))) :
    Reaches c s (.next (whenTaken s k)) := by
  unfold Sys2Proof.Machine.whenTaken
  split
  · exact Direct.same.reaches (.refl s)
  · exact h

theorem Reaches.runGroup {c : Instr} {s : State} {k : State → State} (h : Reaches c s (.next (k s))) :
    Reaches c s (.next (runGroup s k)) := by
  refine .whenTaken ?_
  split
  · exact Direct.same.reaches (answer_keeps _ s)
  · exact h

theorem Reaches.setupGroup {c : Instr} {s : State} {k : State → State}
    (h : s.station = .setup → Reaches c s (.next (k s))) : Reaches c s (.next (setupGroup s k)) := by
  refine .whenTaken ?_
  split
  next setup => exact h setup
  · exact Direct.same.reaches (answer_keeps _ s)

/-! ## The commands that change the setup -/

theorem profileOf_limit {mode limit : Byte} {budget : BitVec 16} {kind warning silence share endWarning allowed closes : Byte}
    {p : Profile} (h : profileOf mode limit budget kind warning silence share endWarning allowed closes = some p) :
    1 ≤ p.limit ∧ p.limit ≤ 6 := by
  unfold profileOf at h
  simp only [Option.bind_eq_bind, Option.bind_eq_some_iff, Option.some.injEq] at h
  obtain ⟨_, _, _, _, _, _, _, _, _, _, rfl⟩ := h
  simp only [clampNat]
  omega

theorem execConfigure_reaches (a b : Byte) (name : List Byte) (t : Byte) (n : BitVec 16) (d e f g h i : Byte) (s : State) :
    Reaches (.configure a b name t n d e f g h i) s (execConfigure a b name t n d e f g h i s) := by
  refine .setupGroup fun setup => ?_
  split
  next x _ => exact (Direct.configure rfl setup x).reaches (answer_keeps .ok _).settled
  · exact Direct.same.reaches (answer_keeps _ s)

theorem execSetProfile_reaches (a b c : Byte) (n : BitVec 16) (d e f g h i j : Byte) (s : State) :
    Reaches (.setProfile a b c n d e f g h i j) s (execSetProfile a b c n d e f g h i j s) := by
  refine .setupGroup fun _ => ?_
  split
  next p carried =>
    split
    · exact (Direct.profile rfl _ p (profileOf_limit carried)).reaches (answer_keeps .ok _)
    · exact Direct.same.reaches (answer_keeps _ s)
  · exact Direct.same.reaches (answer_keeps _ s)

theorem execGo_reaches (s : State) : Reaches .go s (execGo s) := by
  refine .setupGroup fun setup => ?_
  split
  · refine (Direct.go rfl setup).reaches ?_
    have counted (t : State) : Keeps t { t with presence := { t.presence with cadence := 0 } } := .presence rfl
    exact ((((answer_keeps .ok { s with station := .run }).trans (counted _)).trans (requestBeacon_keeps _)).trans
      (evaluate_keeps _)).settled
  · exact Direct.same.reaches (answer_keeps _ s)

theorem execResetSoft_reaches (c : Instr) (s : State) : Reaches c s (execResetSoft s) :=
  Direct.softReset.reaches ((requestBeacon_keeps _).trans (evaluate_keeps _)).settled

theorem execSetNoticeLevel_reaches (a : Byte) (s : State) : Reaches (.setNoticeLevel a) s (execSetNoticeLevel a s) :=
  .whenTaken ((Direct.threshold rfl _ (Nat.min_le_left _ _)).reaches (answer_keeps .ok _))

theorem execSetVolume_reaches (a : Byte) (s : State) : Reaches (.setVolume a) s (execSetVolume a s) :=
  .runGroup ((Direct.volume rfl _ (Nat.min_le_left _ _)).reaches (answer_keeps .ok _))

theorem execBlockCompletion_reaches (samples : List Sample) (m p h : Bool) (s : State) :
    Reaches (.blockCompletion samples m p h) s (execBlockCompletion samples m p h s) :=
  (Direct.block rfl).reaches (blockStep_keeps samples m p h s).settled

/-! ## Received frames -/

theorem captureAtClash_keeps (s : State) : Keeps s (captureAtClash s) := (micOff_keeps s).trans (.capture rfl)

theorem controllersAtClash_keeps (s : State) : Keeps s (controllersAtClash s) := by
  have released : Keeps s { s with share := (s.share.clearSeat s.ownSeat).noClaim } := claimReleased_keeps s
  have answered (t : State) : Keeps t { t with meeting := { t.meeting with endAsked := false } } :=
    .record (.meeting rfl rfl (.inl rfl) rfl) Iff.rfl
  exact (released.trans (clearAsk_keeps _)).trans (answered _)

/-- R57: no slot is bound to the own seat, which leaves the view. -/
theorem floorAtClash_keeps (s : State) : Keeps s (floorAtClash s) := by
  have kept : FloorKeeps s.floor (floorAtClash s).floor s.meeting.profile.limit s.meeting.chair :=
    (Floor.dropOpen_keeps _ _ _ _).trans (Floor.dropQueue_keeps _ _ _ _)
  have openSet : (floorAtClash s).floor.openSet = s.floor.openSet.filter (fun r => decide (r.seat ≠ s.ownSeat)) := rfl
  refine ⟨.of_states (TableStep.floorMic kept s.mic).evolves (.of_link rfl rfl) Iff.rfl rfl, fun i => ?_, fun _ _ follow => ?_⟩
  · refine ⟨fun idle => ?_, i.mic, i.screens, i.claim, i.setup⟩
    rw [openSet, i.openSet idle, List.filter_nil]
  · rw [slotsFollow_iff] at follow ⊢
    obtain ⟨bound, once, free⟩ := follow
    refine ⟨fun mix k => (bound mix k).trans ?_, once, free⟩
    show _ ↔ (floorAtClash s).floor.isOpen k = true ∧ k ≠ s.ownSeat
    rw [Floor.isOpen_iff, Floor.isOpen_iff, openSet]
    refine ⟨fun ⟨⟨r, mem, seat⟩, other⟩ => ⟨⟨r, List.mem_filter.2 ⟨mem, ?_⟩, seat⟩, other⟩, fun ⟨⟨r, mem, seat⟩, other⟩ =>
      ⟨⟨r, (List.mem_filter.1 mem).1, seat⟩, other⟩⟩
    rw [seat]
    exact decide_eq_true other

theorem enterClash_keeps (s : State) : Keeps (clashed s) (enterClash s) :=
  ((((flushCheck_keeps (clashed s)).trans (floorAtClash_keeps _)).trans ((captureAtClash_keeps _).trans
    (controllersAtClash_keeps _))).trans (notify_keeps _ _)).trans (select_keeps _)

theorem receive_reaches {c : Instr} {kind source : Byte} {body : List Byte} (h : c = LinkFrame.received kind source body)
    (s : State) : Reaches c s (.next (receive kind source body s)) := by
  unfold receive
  split
  · exact Direct.same.reaches (countBadFrame_keeps s)
  next f valid =>
    split
    · exact Direct.same.reaches (.refl s)
    next run =>
      split
      next own => exact (Direct.clash run ⟨kind, source, body, f, h, valid, own⟩).reaches (enterClash_keeps s).settled
      · exact Direct.same.reaches (deliver_keeps f s).settled
    next =>
      split
      · exact Direct.same.reaches (.refl s)
      · exact Direct.same.reaches (deliver_keeps f s).settled

/-! ## Every command -/

theorem execReadFloor_keeps (cursor : Byte) (s : State) : KeepsNext s (execReadFloor cursor s) := by
  unfold execReadFloor
  exact .of (runGroup_keeps (reply_keeps .ok (floorData cursor.toNat s) s))

theorem execReadCalendar_keeps (cursor : Byte) (s : State) : KeepsNext s (execReadCalendar cursor s) := by
  unfold execReadCalendar
  exact .of (runGroup_keeps (reply_keeps .ok (calendarData cursor.toNat s) s))

theorem exec_reaches (c : Instr) (s : State) : Reaches c s (exec c s) := by
  have fullReset {c : Instr} (h : fullReset c = true) : Reaches c s (.next (settle (powerOnState s))) :=
    (Direct.powerOn h).reaches (settle_keeps _)
  cases c with
  | powerOn => exact fullReset rfl
  | resetFull => exact fullReset rfl
  | resetSoft => exact execResetSoft_reaches _ s
  | configure => exact execConfigure_reaches _ _ _ _ _ _ _ _ _ _ _ s
  | setProfile => exact execSetProfile_reaches _ _ _ _ _ _ _ _ _ _ _ s
  | go => exact execGo_reaches s
  | setNoticeLevel => exact execSetNoticeLevel_reaches _ s
  | setVolume => exact execSetVolume_reaches _ s
  | blockCompletion => exact execBlockCompletion_reaches _ _ _ _ s
  | readStatus => exact (execReadStatus_keeps s).reaches
  | readNotices => exact (execReadNotices_keeps s).reaches
  | setTime => exact (execSetTime_keeps _ _ s).reaches
  | press => exact (execPress_keeps s).reaches
  | addTime => exact (execAddTime_keeps _ _ s).reaches
  | grant => exact (execGrant_keeps _ _ s).reaches
  | closeSeat => exact (execCloseSeat_keeps _ _ s).reaches
  | clearQueue => exact (execClearQueue_keeps s).reaches
  | priority => exact (execPriority_keeps _ s).reaches
  | readFloor => exact (execReadFloor_keeps _ s).reaches
  | book => exact (execBook_keeps _ _ _ _ _ _ s).reaches
  | restoreBooking => exact (execRestoreBooking_keeps _ _ _ _ _ _ _ _ _ _ s).reaches
  | cancelBooking => exact (execCancelBooking_keeps _ _ s).reaches
  | readCalendar => exact (execReadCalendar_keeps _ s).reaches
  | startMeeting => exact (execStartMeeting_keeps _ _ _ s).reaches
  | endMeeting => exact (execEndMeeting_keeps s).reaches
  | extendMeeting => exact (execExtendMeeting_keeps _ s).reaches
  | showMessage => exact (execShowMessage_keeps _ _ s).reaches
  | share => exact (execShare_keeps _ s).reaches
  | unshare => exact (execUnshare_keeps s).reaches
  | flush => exact (execFlush_keeps s).reaches
  | flushComplete => exact (KeepsNext.of (flushCheck_keeps s)).reaches
  | unknownCommandFrame => exact (KeepsNext.of (whenTaken_keeps (answer_keeps .badParam s))).reaches
  | commandWhileServing => exact (KeepsNext.of (.refl s)).reaches
  | cutShortCommandFrame =>
    have flagged : Keeps s { s with port := { s.port with framing := true } } := .port (Nat.le_refl _) rfl
    exact (KeepsNext.of flagged).reaches
  | frameCheckFailed => exact (KeepsNext.of (countBadFrame_keeps s)).reaches
  | unknownKindCodeFrame => exact (KeepsNext.of (countBadFrame_keeps s)).reaches
  | receiveVoice => exact receive_reaches rfl s
  | receiveBeacon => exact receive_reaches rfl s
  | receiveRequest => exact receive_reaches rfl s
  | receiveWithdraw => exact receive_reaches rfl s
  | receiveOpen => exact receive_reaches rfl s
  | receiveClose => exact receive_reaches rfl s
  | receiveYield => exact receive_reaches rfl s
  | receiveGrant => exact receive_reaches rfl s
  | receiveClear => exact receive_reaches rfl s
  | receivePriority => exact receive_reaches rfl s
  | receiveTimeAdd => exact receive_reaches rfl s
  | receiveShare => exact receive_reaches rfl s
  | receiveUnshare => exact receive_reaches rfl s
  | receiveCancel => exact receive_reaches rfl s
  | receiveExtendAsk => exact receive_reaches rfl s
  | receiveExtendAnswer => exact receive_reaches rfl s
  | receiveEndNow => exact receive_reaches rfl s
  | attemptClear => exact (KeepsNext.of (attemptClear_keeps s).settled).reaches
  | attemptFailed => exact (KeepsNext.of (attemptFailed_keeps s).settled).reaches
  | talkEnd => exact (execTalkEnd_keeps s).reaches
  | limiterRecovery => exact (execLimiterRecovery_keeps s).reaches
  | staleSlot => exact (execStaleSlot_keeps _ s).reaches
  | beaconRequest => exact (execBeaconRequest_keeps s).reaches
  | absenceEvent => exact (execAbsenceEvent_keeps _ s).reaches
  | micPress => exact (execMicPress_keeps s).reaches
  | priorityPress => exact (execPriorityPress_keeps s).reaches
  | priorityRelease => exact (execPriorityRelease_keeps s).reaches
  | sharePress => exact (execSharePress_keeps s).reaches
  | buttonRelease => exact (execButtonRelease_keeps _ s).reaches
  | flashExpiry => exact (execFlashExpiry_keeps s).reaches
  | ledBlinkPhase => exact (execLedBlinkPhase_keeps _ s).reaches
  | budgetSecond => exact (execBudgetSecond_keeps s).reaches
  | budgetExpiry => exact (execBudgetExpiry_keeps s).reaches
  | silenceClose => exact (execSilenceClose_keeps s).reaches
  | extendTimeout => exact (execExtendTimeout_keeps s).reaches
  | clockSecond => exact (execClockSecond_keeps s).reaches
  | entryAgedOut => exact (execEntryAgedOut_keeps _ _ s).reaches
  | endedEarlyExpiry => exact (execEndedEarlyExpiry_keeps s).reaches
  | queueWindowAdvance => exact (execQueueWindowAdvance_keeps s).reaches
  | transientMessageExpiry => exact (execTransientMessageExpiry_keeps s).reaches
  | hostMessageExpiry => exact (execHostMessageExpiry_keeps s).reaches
  | displayTransferComplete => exact (execDisplayTransferComplete_keeps s).reaches

/-! ## Stations with nobody on the floor and nothing to send -/

/-- A station whose queue, view and share map are those of a reset. -/
theorem State.Sound.of_cleared {s : State} (queue : s.link.queue = []) (floor : s.floor = .cleared) (share : s.share = .powerOn)
    (calendar : CalendarSound s.calendar.view) (inactive : ∀ e ∈ s.calendar.view, e.active = false) (mix : MixSound s.mix)
    (tables : TablesSound s.presence.peers s.profiles s.meeting) (port : PortSound s.port) : s.Sound := by
  refine ⟨?_, ?_, ?_, ?_, ?_, calendar, fun e he active => ?_, ?_, mix, tables, port⟩
  · rw [queue]
    exact ⟨fun _ => Nat.zero_le _, Nat.zero_le _⟩
  · rw [floor]
    exact ⟨.nil, .nil, .nil, .nil, nofun⟩
  · rw [floor]
    exact ⟨nofun, nofun⟩
  · rw [share]
    exact ⟨nofun, nofun⟩
  · rw [floor]
    exact ⟨Nat.zero_le _, nofun⟩
  · rw [inactive e he] at active
    cases active
  · rw [share]
    nofun

theorem Mix.powerOn_sound (n : Nat) (h : n ≤ 63) : MixSound { Mix.powerOn with volume := n } :=
  ⟨rfl, fun x hx => by rw [List.eq_of_mem_replicate hx]; exact Nat.zero_le _, Nat.zero_le _, h⟩

theorem Profile.powerOn_limit : 1 ≤ Profile.powerOn.limit ∧ Profile.powerOn.limit ≤ 6 := by decide

theorem Port.powerOn_threshold : Port.powerOn.threshold ≤ 4 := by decide

theorem powerOnState_sound (s : State) : (powerOnState s).Sound :=
  .of_cleared rfl rfl rfl .nil nofun (Mix.powerOn_sound 20 (by decide))
    ⟨rfl, rfl, fun p hp => by rw [List.eq_of_mem_replicate hp]; exact Profile.powerOn_limit, Profile.powerOn_limit⟩
    ⟨Nat.zero_le _, Port.powerOn_threshold⟩

theorem softResetState_sound {s : State} (h : s.Sound) : (softResetState s).Sound := by
  refine .of_cleared rfl rfl rfl ?_ (fun e he => ?_) (Mix.powerOn_sound _ h.mix.volume)
    ⟨rfl, h.tables.profiles, h.tables.limits, h.tables.limit⟩ ⟨Nat.zero_le _, h.port.threshold⟩
  · exact (h.calendar.filter _).map (fun _ => rfl) (fun _ => rfl)
  · obtain ⟨_, _, rfl⟩ := List.mem_map.1 he
    rfl

theorem boundSeats_powerOn : boundSeats Mix.powerOn.slots = [] := by decide

/-! ## What a direct change keeps -/

section
variable {c : Instr} {s u : State}

theorem Direct.sound (d : Direct c s u) (h : s.Sound) : u.Sound := by
  cases d with
  | same => exact h
  | powerOn => exact powerOnState_sound s
  | softReset => exact softResetState_sound h
  | configure => exact { h with }
  | profile _ i p limit =>
    refine { h with tables := ⟨h.tables.peers, ?_, fun q hq => ?_, h.tables.limit⟩ }
    · exact (List.length_set ..).trans h.tables.profiles
    · rcases List.mem_or_eq_of_mem_set hq with kept | rfl
      · exact h.tables.limits q kept
      · exact limit
  | go => exact { h with }
  | volume _ n le => exact { h with mix := ⟨h.mix.slots, h.mix.fifos, h.mix.reduction, le⟩ }
  | threshold _ n le => exact { h with port := ⟨h.port.notices, le⟩ }
  | block => exact { h with }
  | clash => exact { h with queue := ⟨fun _ => Nat.zero_le _, Nat.zero_le _⟩ }

/-- A voided frame in send. -/
theorem voided_of_map {x y : Option Sending} (h : y = x.map (fun z => { z with voided := true })) :
    ∀ z, y = some z → z.clash = true ∨ z.voided = true := by
  rintro z rfl
  obtain ⟨w, _, rfl⟩ := Option.map_eq_some_iff.1 h.symm
  exact .inr rfl

theorem Direct.silent (d : Direct c s u) (h : ClashSilent s) : ClashSilent u := by
  cases d with
  | same => exact h
  | powerOn => exact ⟨nofun, nofun, nofun, nofun⟩
  | softReset => exact ⟨fun _ => rfl, fun _ => rfl, fun _ => nofun, fun _ => voided_of_map rfl⟩
  | go => exact ⟨nofun, nofun, nofun, nofun⟩
  | clash => exact ⟨fun _ => rfl, fun _ => rfl, fun _ => nofun, fun _ => voided_of_map rfl⟩
  | configure | profile | volume | threshold | block => exact { h with }

theorem Direct.idleEmpty (d : Direct c s u) (h : IdleEmpty s) : IdleEmpty u := by
  cases d with
  | same => exact h
  | powerOn => exact ⟨fun _ => rfl, fun _ => rfl, fun _ => ⟨rfl, rfl⟩, fun _ => rfl, fun _ => rfl⟩
  | softReset => exact ⟨fun _ => rfl, fun _ => rfl, fun _ => ⟨rfl, rfl⟩, fun _ => rfl, fun _ => rfl⟩
  | go => exact ⟨h.openSet, h.mic, h.screens, h.claim, nofun⟩
  | clash => exact ⟨h.openSet, h.mic, h.screens, h.claim, nofun⟩
  | configure | profile | volume | threshold | block => exact { h with }

theorem Direct.placing (d : Direct c s u) (h : PlacingWithOpen s) : PlacingWithOpen u := by
  cases d with
  | powerOn => exact ⟨nofun, nofun⟩
  | softReset => exact ⟨nofun, nofun⟩
  | same | go | clash | configure | profile | volume | threshold | block => exact h

/-- R100: in SETUP nobody is open and every slot is FREE, whatever the role. -/
theorem SlotsFollow.of_setup {t : State} (setup : s.station = .setup) (idle : IdleEmpty s) (h : SlotsFollow s)
    (floor : t.floor.openSet = s.floor.openSet) (slots : t.mix.slots = s.mix.slots) : SlotsFollow t := by
  refine slotsFollow_of_none (floor.trans (idle.openSet (idle.setup setup))) ?_
  rw [slots]
  exact (slotsFollow_iff.1 h).2.2 (.inr setup)

theorem Direct.slots (d : Direct c s u) (idle : IdleEmpty s) (h : SlotsFollow s) : SlotsFollow u := by
  cases d with
  | same => exact h
  | powerOn => exact slotsFollow_of_none rfl boundSeats_powerOn
  | softReset => exact slotsFollow_of_none rfl boundSeats_powerOn
  | configure _ setup => exact .of_setup setup idle h rfl rfl
  | go _ setup => exact .of_setup setup idle h rfl rfl
  | clash run => exact ⟨h.bound, h.once, fun k => h.free (k.imp_right nofun)⟩
  | profile | volume | threshold | block => exact { h with }

/-- R6: no direct change but a full reset leaves CLASH, and none puts a frame into send. -/
theorem Direct.stays_quiet (d : Direct c s u) (noReset : fullReset c = false) (clash : s.station = .clash)
    (empty : s.link.beaconSlot = none) : u.station = .clash ∧ u.link.beaconSlot = none ∧
      ∀ y : Sending, u.link.inSend = some y → ∃ x : Sending, s.link.inSend = some x ∧ y.frame = x.frame := by
  have stays (h : u.link = s.link) : u.link.beaconSlot = none ∧
      ∀ y : Sending, u.link.inSend = some y → ∃ x : Sending, s.link.inSend = some x ∧ y.frame = x.frame :=
    ⟨h ▸ empty, fun y hy => ⟨y, h ▸ hy, rfl⟩⟩
  cases d with
  | powerOn h => rw [h] at noReset; cases noReset
  | softReset =>
    refine ⟨clash, rfl, fun y hy => ?_⟩
    obtain ⟨x, hx, rfl⟩ := Option.map_eq_some_iff.1 hy
    exact ⟨x, hx, rfl⟩
  | go _ setup => rw [setup] at clash; cases clash
  | clash run => rw [run] at clash; cases clash
  | same | configure | profile | volume | threshold | block => exact ⟨clash, stays rfl⟩

end

/-! ## Every step -/

theorem step_cons {s : State} {c : Instr} {rest : List Instr} (h : s.pending = c :: rest) :
    step s = exec c { s with pending := rest } := by
  unfold step
  rw [h]

theorem step_nil {s : State} (h : s.pending = []) : step s = .next s := by
  unfold step
  rw [h]

/-- What the command at the front does, or nothing. -/
theorem step_reaches {s t : State} (h : step s = .next t) :
    t = s ∨ ∃ (c : Instr) (rest : List Instr) (u : State), s.pending = c :: rest ∧
      exec c { s with pending := rest } = .next t ∧ Direct c { s with pending := rest } u ∧ Keeps u t := by
  cases waiting : s.pending with
  | nil =>
    rw [step_nil waiting] at h
    exact .inl (Host.Outcome.next.inj h).symm
  | cons c rest =>
    rw [step_cons waiting] at h
    obtain ⟨u, t', next, direct, keeps⟩ := exec_reaches c { s with pending := rest }
    obtain rfl := Host.Outcome.next.inj (h.symm.trans next)
    exact .inr ⟨c, rest, u, rfl, h, direct, keeps⟩

/-- Settles O1. -/
theorem stepRunsTheFrontCommand : Obligations.StepRunsTheFrontCommand :=
  ⟨fun _ _ => step_cons rfl, fun _ => step_nil⟩

theorem Direct.pending {c : Instr} {s u : State} (d : Direct c s u) : u.pending = s.pending := by
  cases d <;> rfl

/-- Settles O2: a command is a direct change and operations that leave the waiting commands. -/
theorem everyCommandGivesANextState : Obligations.EveryCommandGivesANextState := by
  intro c s
  obtain ⟨u, t, next, direct, keeps⟩ := exec_reaches c s
  exact ⟨t, next, keeps.evolves.same.pending.trans direct.pending⟩

/-- Settles O3, by what each command changes directly and what the operations after it keep. -/
theorem everyStepKeepsTheStationSound : Obligations.EveryStepKeepsTheStationSound := by
  intro s t sound stepped
  rcases step_reaches stepped with rfl | ⟨c, rest, u, _, _, direct, keeps⟩
  · exact sound
  · exact keeps.evolves.sound (direct.sound { sound with })

theorem exec_of_fullReset {c : Instr} (h : fullReset c = true) (s : State) : exec c s = .next (settle (powerOnState s)) := by
  cases c with
  | powerOn => rfl
  | resetFull => rfl
  | _ => cases h

/-- R6: a full reset leaves CLASH with nothing in the holders; every other command keeps the station silent. -/
theorem exec_stays_quiet {c : Instr} {s t : State} (clash : s.station = .clash) (empty : s.link.beaconSlot = none)
    (next : exec c s = .next t) : t.link.beaconSlot = none ∧
      (t.station = .clash → ∀ y : Sending, t.link.inSend = some y → ∃ x : Sending, s.link.inSend = some x ∧ y.frame = x.frame) := by
  cases reset : fullReset c with
  | true =>
    rw [exec_of_fullReset reset] at next
    obtain rfl := Host.Outcome.next.inj next
    refine ⟨by rw [settle_link]; rfl, fun station => ?_⟩
    rw [settle_station] at station
    cases station
  | false =>
    obtain ⟨u, t', reached, direct, keeps⟩ := exec_reaches c s
    obtain rfl := Host.Outcome.next.inj (next.symm.trans reached)
    obtain ⟨clashU, emptyU, sameU⟩ := direct.stays_quiet reset clash empty
    obtain ⟨emptyT, sameT⟩ := keeps.quiet clashU emptyU
    refine ⟨emptyT, fun _ z hz => ?_⟩
    obtain ⟨y, hy, zy⟩ := sameT z hz
    obtain ⟨x, hx, yx⟩ := sameU y hy
    exact ⟨x, hx, zy.trans yx⟩

/-- Settles O4. -/
theorem everyStepKeepsClashSilent : Obligations.EveryStepKeepsClashSilent := by
  refine ⟨fun s t silent stepped => ?_, fun s t _ clash empty stepped => ?_⟩
  · rcases step_reaches stepped with rfl | ⟨c, rest, u, _, _, direct, keeps⟩
    · exact silent
    · exact keeps.evolves.clash (direct.silent { silent with })
  · rcases step_reaches stepped with rfl | ⟨c, rest, u, _, next, _, _⟩
    · exact ⟨empty, fun _ y hy => ⟨y, hy, rfl⟩⟩
    · exact exec_stays_quiet (s := { s with pending := rest }) clash empty next

/-- Settles O5. -/
theorem everyStepKeepsIdleEmptyAndPlacing : Obligations.EveryStepKeepsIdleEmptyAndPlacing := by
  refine ⟨fun s t idle stepped => ?_, fun s t placing stepped => ?_⟩
  · rcases step_reaches stepped with rfl | ⟨c, rest, u, _, _, direct, keeps⟩
    · exact idle
    · exact keeps.idle (direct.idleEmpty { idle with })
  · rcases step_reaches stepped with rfl | ⟨c, rest, u, _, _, direct, keeps⟩
    · exact placing
    · exact keeps.placing (direct.placing placing)

/-- Settles O6. -/
theorem everyStepKeepsSlotsFollowingTheOpenSet : Obligations.EveryStepKeepsSlotsFollowingTheOpenSet := by
  intro s t sound idle follow stepped
  rcases step_reaches stepped with rfl | ⟨c, rest, u, _, _, direct, keeps⟩
  · exact follow
  · exact keeps.slots (direct.sound { sound with }) (direct.idleEmpty { idle with })
      (direct.slots { idle with } { follow with })

/-! ## The state after power-on, and what only named commands change -/

/-- Settles O7: a station without meeting, frames and notices, in SETUP. -/
theorem powerOnStateMeetsTheInvariants : Obligations.PowerOnStateMeetsTheInvariants := by
  refine ⟨?_, ⟨nofun, nofun, nofun, nofun⟩, ?_, ⟨nofun, nofun⟩, slotsFollow_of_none rfl boundSeats_powerOn⟩
  · exact .of_cleared rfl rfl rfl .nil nofun (Mix.powerOn_sound 20 (by decide))
      ⟨rfl, rfl, fun p hp => by rw [List.eq_of_mem_replicate hp]; exact Profile.powerOn_limit, Profile.powerOn_limit⟩
      ⟨Nat.zero_le _, by decide⟩
  · exact ⟨fun _ => rfl, fun _ => rfl, fun _ => ⟨rfl, rfl⟩, fun _ => rfl, fun _ => rfl⟩

/-- A direct change without a full reset changes what its own command names. -/
theorem Direct.setup {c : Instr} {s u : State} (d : Direct c s u) (noReset : fullReset c = false) :
    (isConfigure c = false → u.config = s.config) ∧ (isSetProfile c = false → u.profiles = s.profiles) ∧
    (isBlock c = false → u.blockNumber = s.blockNumber) ∧ (isSetVolume c = false → u.mix.volume = s.mix.volume) ∧
    (isSetNoticeLevel c = false → u.port.threshold = s.port.threshold) := by
  cases d with
  | powerOn h => rw [h] at noReset; cases noReset
  | configure h => exact ⟨fun k => absurd (h.symm.trans k) nofun, fun _ => rfl, fun _ => rfl, fun _ => rfl, fun _ => rfl⟩
  | profile h => exact ⟨fun _ => rfl, fun k => absurd (h.symm.trans k) nofun, fun _ => rfl, fun _ => rfl, fun _ => rfl⟩
  | block h => exact ⟨fun _ => rfl, fun _ => rfl, fun k => absurd (h.symm.trans k) nofun, fun _ => rfl, fun _ => rfl⟩
  | volume h => exact ⟨fun _ => rfl, fun _ => rfl, fun _ => rfl, fun k => absurd (h.symm.trans k) nofun, fun _ => rfl⟩
  | threshold h => exact ⟨fun _ => rfl, fun _ => rfl, fun _ => rfl, fun _ => rfl, fun k => absurd (h.symm.trans k) nofun⟩
  | same | softReset | go | clash => exact ⟨fun _ => rfl, fun _ => rfl, fun _ => rfl, fun _ => rfl, fun _ => rfl⟩

/-- Settles O9. -/
theorem onlyNamedCommandsChangeTheSetup : Obligations.OnlyNamedCommandsChangeTheSetup := by
  intro c s t next noReset
  obtain ⟨u, t', reached, direct, keeps⟩ := exec_reaches c s
  obtain rfl := Host.Outcome.next.inj (next.symm.trans reached)
  have same := keeps.evolves.same
  obtain ⟨config, profiles, block, volume, threshold⟩ := direct.setup noReset
  exact ⟨fun k => same.config.trans (config k), fun k => same.profiles.trans (profiles k),
    fun k => same.blockNumber.trans (block k), fun k => same.volume.trans (volume k),
    fun k => same.threshold.trans (threshold k)⟩

/-- Settles O10: of the direct changes, GO, a full reset and a frame of the own seat change the station state. -/
theorem stationStateChangesByNamedCommandsAlone : Obligations.StationStateChangesByNamedCommandsAlone := by
  intro c s t next changed
  obtain ⟨u, t', reached, direct, keeps⟩ := exec_reaches c s
  obtain rfl := Host.Outcome.next.inj (next.symm.trans reached)
  rw [keeps.evolves.same.station] at changed ⊢
  cases direct with
  | powerOn h =>
    exact ⟨fun setup => absurd setup.symm changed, fun _ => h, fun _ => ⟨h, rfl⟩, nofun⟩
  | go h setup => exact ⟨fun _ => ⟨h, rfl⟩, nofun, fun clash => absurd (setup.symm.trans clash) nofun, nofun⟩
  | clash run seat =>
    exact ⟨fun setup => absurd (run.symm.trans setup) nofun, nofun, fun clash => absurd (run.symm.trans clash) nofun,
      fun _ => ⟨run, seat⟩⟩
  | same | softReset | configure | profile | volume | threshold | block => exact absurd rfl changed

end Sys2Proof.Machine

namespace Sys2Proof.Machine

/-! SUPPORT. Where a command is taken, in equations; then resets, setup, the host port, the clock and the evaluation. -/

/-! ## Where a command is taken (R179, R180) -/

theorem whenTaken_of_serving {s : State} (h : s.port.serving = true) (k : State → State) : whenTaken s k = s := by
  simp [whenTaken, h]

theorem runGroup_of_taken {s : State} (h : RunTaken s) (k : State → State) : runGroup s k = k s := by
  rw [runGroup, whenTaken_of_not_serving h.idle, if_neg h.station]

theorem runGroup_of_setup {s : State} (idle : s.port.serving = false) (setup : s.station = .setup) (k : State → State) :
    runGroup s k = s.answered .badState := by
  rw [runGroup, whenTaken_of_not_serving idle, if_pos setup]
  rfl

theorem runGroup_of_serving {s : State} (h : s.port.serving = true) (k : State → State) : runGroup s k = s :=
  whenTaken_of_serving h _

theorem setupGroup_of_setup {s : State} (idle : s.port.serving = false) (setup : s.station = .setup) (k : State → State) :
    setupGroup s k = k s := by
  rw [setupGroup, whenTaken_of_not_serving idle, if_pos setup]

theorem setupGroup_of_run {s : State} (idle : s.port.serving = false) (run : s.station ≠ .setup) (k : State → State) :
    setupGroup s k = s.answered .badState := by
  rw [setupGroup, whenTaken_of_not_serving idle, if_neg run]
  rfl

theorem setupGroup_of_serving {s : State} (h : s.port.serving = true) (k : State → State) : setupGroup s k = s :=
  whenTaken_of_serving h _

theorem answer_eq (x : Status) (s : State) : answer x s = s.answered x := rfl

theorem readReply_of_serving {p : Port} (h : p.serving = true) : p.readReply = { status := .busy, data := [] } := if_pos h

theorem readReply_of_idle {p : Port} (h : p.serving = false) : p.readReply = p.reply := if_neg (by simp [h])

/-- Settles O19: every command of a group stands behind the group's test and the BUSY test. -/
theorem groupTestStandsFirst : Obligations.GroupTestStandsFirst := by
  intro c s
  refine ⟨fun group idle setup => ?_, fun group idle run => ?_, fun group serving => ⟨?_, readReply_of_serving serving⟩⟩
  · cases c with
    | setTime | setVolume | press | addTime | grant | closeSeat | clearQueue | priority | readFloor | book
    | restoreBooking | cancelBooking | readCalendar | startMeeting | endMeeting | extendMeeting | showMessage | share
    | unshare | flush => exact congrArg Host.Outcome.next (runGroup_of_setup idle setup _)
    | _ => cases group
  · cases c with
    | configure | setProfile | go => exact congrArg Host.Outcome.next (setupGroup_of_run idle run _)
    | _ => cases group
  · cases c with
    | setTime | setVolume | press | addTime | grant | closeSeat | clearQueue | priority | readFloor | book
    | restoreBooking | cancelBooking | readCalendar | startMeeting | endMeeting | extendMeeting | showMessage | share
    | unshare | flush => exact congrArg Host.Outcome.next (runGroup_of_serving serving _)
    | configure | setProfile | go => exact congrArg Host.Outcome.next (setupGroup_of_serving serving _)
    | readStatus | readNotices | setNoticeLevel => exact congrArg Host.Outcome.next (whenTaken_of_serving serving _)
    | _ => rcases group with k | k | k <;> cases k

/-! ## Resets (R191, R192) -/

/-- R165: a dirty buffer starts the transfer on an idle port. -/
theorem Screen.start_of_dirty {d : Screen} (h : d.dirty = true) :
    d.start.running = true ∧ d.start.dirty = d.running ∧ (d.running = true → d.start.sent = d.sent) := by
  cases running : d.running <;> simp [Screen.start, h, running]

/-- R177: the display after a reset: the page in SETUP, in transfer as soon as the port is idle. -/
theorem settle_powerOn_screen (s : State) : (settle (powerOnState s)).screen.running = true ∧
    (settle (powerOnState s)).screen.dirty = s.screen.running ∧
    (s.screen.running = true → (settle (powerOnState s)).screen.sent = s.screen.sent) :=
  Screen.start_of_dirty (d := (compose (fixWindow (refreshSelector (refreshLeds (powerOnState s))))).screen) rfl

/-- Settles O14. -/
theorem fullResetGivesThePowerOnState : Obligations.FullResetGivesThePowerOnState := by
  intro s
  obtain ⟨running, dirty, sent⟩ := settle_powerOn_screen s
  refine ⟨settle (powerOnState s), rfl, rfl, settle_pending _, settle_station _, settle_blockNumber _, settle_config _,
    settle_profiles _, settle_link _, settle_presence _, settle_floor _, settle_mic _, ?controls, settle_capture _,
    settle_mix _, settle_calendar _, ?meeting, ?share, ?screen, sent, settle_port _, ?attention⟩
  case controls => exact ⟨settle_controls_mic _, settle_controls_priority _, settle_controls_share _,
    settle_controls_flash _, rfl, rfl⟩
  case meeting =>
    rw [settle_meeting, settle_profiles]
    exact ⟨rfl, rfl, rfl, rfl, rfl, rfl, rfl⟩
  case share => exact ⟨settle_share_screen1 _, settle_share_screen2 _, settle_share_claim _, settle_share_release _, rfl⟩
  case screen => exact ⟨(settle_screen_buffer _).trans rfl, running, dirty, (settle_screen_windowStart _).trans rfl,
    settle_screen_windowCount _, by rw [settle_screen_transient]; rfl, by rw [settle_screen_host]; rfl⟩
  case attention =>
    rw [settle_port]
    rfl

/-- Settles O15. -/
theorem softResetKeepsTheSetupAndClearsTheRest : Obligations.SoftResetKeepsTheSetupAndClearsTheRest := fun _ => rfl

/-! ## Configuration (R188, R189) -/

theorem isSeat_iff (n : Nat) : isSeat n = true ↔ 1 ≤ n ∧ n ≤ 48 := by
  rw [isSeat, Bool.and_eq_true, decide_eq_true_eq, decide_eq_true_eq]
  exact Iff.rfl

theorem seatOf_some {b : Byte} (h : 1 ≤ b.toNat ∧ b.toNat ≤ 48) : seatOf b = some b.toNat := if_pos ((isSeat_iff _).2 h)

theorem seatOf_none {b : Byte} (h : b.toNat = 0 ∨ 48 < b.toNat) : seatOf b = none :=
  if_neg fun k => by have := (isSeat_iff _).1 k; omega

theorem yesNoOf_flagByte (f : Bool) : yesNoOf (flagByte f) = some f := by cases f <;> rfl

theorem yesNoOf_none {b : Byte} (h : 1 < b.toNat) : yesNoOf b = none := by
  unfold yesNoOf
  split
  · omega
  · omega
  · rfl

theorem screenOf_some {b : Byte} (h : b.toNat = 1 ∨ b.toNat = 2) : screenOf b = some b.toNat := by
  rcases h with k | k <;> simp [screenOf, k]

theorem screenOf_none {b : Byte} (h : b.toNat = 0 ∨ 2 < b.toNat) : screenOf b = none := by
  unfold screenOf
  split
  · omega
  · omega
  · rfl

theorem roleOf_none {n : Nat} (h : n = 0 ∨ 3 < n) : roleOf n = none := by
  unfold roleOf
  split
  · omega
  · omega
  · omega
  · rfl

theorem modeOf_none {b : Byte} (h : b.toNat = 0 ∨ 4 < b.toNat) : modeOf b = none := by
  unfold modeOf
  split
  · omega
  · omega
  · omega
  · omega
  · rfl

theorem budgetKindOf_none {b : Byte} (h : b.toNat = 0 ∨ 2 < b.toNat) : budgetKindOf b = none := by
  unfold budgetKindOf
  split
  · omega
  · omega
  · rfl

theorem shareRuleOf_none {b : Byte} (h : b.toNat = 0 ∨ 2 < b.toNat) : shareRuleOf b = none := by
  unfold shareRuleOf
  split
  · omega
  · omega
  · rfl

/-- Settles O16. -/
theorem configureReplacesEveryValueOrNone : Obligations.ConfigureReplacesEveryValueOrNone := by
  refine ⟨fun seat role name trim threshold span attenuation duck follower wall share s idle setup => ?_,
    rfl, rfl, rfl, fun _ => roleOf_none, rfl, rfl⟩
  have taken : exec (.configure seat role name trim threshold span attenuation duck follower wall share) s
      = execConfigure seat role name trim threshold span attenuation duck follower wall share s := rfl
  rw [taken, execConfigure, setupGroup_of_setup idle setup]
  refine ⟨fun r f seatIn roleIs short flag wallIn shareIn => ?_, fun bad => ?_⟩
  · simp only [configOf, seatOf_some seatIn, roleIs, flag, yesNoOf_flagByte, screenOf_some wallIn, screenOf_some shareIn,
      Option.bind_eq_bind, Option.bind_some, if_pos short, Nat.min_comm]
    rfl
  · have none : configOf seat role name trim threshold span attenuation duck follower wall share = none := by
      rcases bad with k | k | k | k | k | k | k | k | k | k
      · simp [configOf, seatOf_none (.inl k)]
      · simp [configOf, seatOf_none (.inr k)]
      · simp [configOf, roleOf_none (.inl k)]
      · simp [configOf, roleOf_none (.inr k)]
      · simp [configOf, Nat.not_le.2 k]
      · simp [configOf, yesNoOf_none k]
      · simp [configOf, screenOf_none (.inl k)]
      · simp [configOf, screenOf_none (.inr k)]
      · simp [configOf, screenOf_none (.inl k)]
      · simp [configOf, screenOf_none (.inr k)]
    simp only [none]
    rfl

/-- Settles O17. -/
theorem setProfileReplacesAWholeProfileOrNone : Obligations.SetProfileReplacesAWholeProfileOrNone := by
  refine ⟨fun index mode limit budget kind warning silence rule endWarning allowed closes s idle setup => ?_,
    rfl, rfl, rfl, rfl, rfl, rfl, rfl, rfl, fun b => ⟨modeOf_none, fun h => ⟨budgetKindOf_none h, shareRuleOf_none h⟩⟩⟩
  have taken : exec (.setProfile index mode limit budget kind warning silence rule endWarning allowed closes) s
      = execSetProfile index mode limit budget kind warning silence rule endWarning allowed closes s := rfl
  rw [taken, execSetProfile, setupGroup_of_setup idle setup]
  refine ⟨fun m k r a c p le modeIs kindIs ruleIs flagA flagC profile => ?_, fun bad => ?_⟩
  · simp only [profileOf, modeIs, kindIs, ruleIs, flagA, flagC, yesNoOf_flagByte, Option.bind_eq_bind, Option.bind_some,
      if_pos le, profile, clampNat, silenceOf, Nat.min_comm]
    rfl
  · by_cases le : 3 < index.toNat
    · have not : ¬ index.toNat ≤ 3 := Nat.not_le.2 le
      simp only [if_neg not]
      split <;> rfl
    · have none : profileOf mode limit budget kind warning silence rule endWarning allowed closes = none := by
        rcases bad with k | k | k | k | k | k | k | k | k
        · exact absurd k le
        · simp [profileOf, modeOf_none (.inl k)]
        · simp [profileOf, modeOf_none (.inr k)]
        · simp [profileOf, budgetKindOf_none (.inl k)]
        · simp [profileOf, budgetKindOf_none (.inr k)]
        · simp [profileOf, shareRuleOf_none (.inl k)]
        · simp [profileOf, shareRuleOf_none (.inr k)]
        · simp [profileOf, yesNoOf_none k]
        · simp [profileOf, yesNoOf_none k]
      simp only [none]
      rfl

/-! ## The host port (R178, R179, R183 to R185) -/

theorem Notice.level_le (n : Notice) : n.level ≤ 3 := by cases n <;> simp [level]

/-- Settles O20. -/
theorem noticesThresholdAndVolume : Obligations.NoticesThresholdAndVolume := by
  refine ⟨fun b s idle => ⟨⟨_, congrArg Host.Outcome.next (whenTaken_of_not_serving idle _), ?_, ?_, ?_⟩, fun run => ?_⟩,
    fun n s => ⟨fun room => ?_, fun full => ?_⟩, fun _ _ _ => ⟨rfl, rfl, rfl⟩, ?codes, rfl, rfl, rfl⟩
  · rw [answer_eq, Nat.min_comm]
  · rw [Port.attention_iff, Nat.min_comm b.toNat]
    exact Iff.rfl
  · intro four
    rw [Bool.eq_false_iff, ne_eq, Port.attention_iff]
    rintro ⟨n, _, le⟩
    have level : min 4 b.toNat ≤ n.level := le
    have high := n.level_le
    omega
  · have taken : exec (.setVolume b) s = execSetVolume b s := rfl
    rw [taken, execSetVolume, runGroup_of_taken ⟨idle, run⟩, Nat.min_comm]
    rfl
  · have pushed : s.port.push n = { s.port with notices := s.port.notices ++ [n] } := if_pos room
    refine ⟨by rw [notify, pushed], ?_⟩
    rw [notify, pushed, Port.attention_iff, Port.attention_iff]
    simp only [List.mem_append, List.mem_singleton]
    exact ⟨fun ⟨x, mem, le⟩ => mem.elim (fun k => .inl ⟨x, k, le⟩) (fun k => .inr (k ▸ le)),
      fun k => k.elim (fun ⟨x, mem, le⟩ => ⟨x, .inl mem, le⟩) (fun le => ⟨n, .inr rfl, le⟩)⟩
  · have pushed : s.port.push n = { s.port with overflow := true } := if_neg (Nat.not_lt.2 full)
    exact ⟨by rw [notify, pushed], by rw [notify, pushed]; rfl⟩
  case codes =>
    rintro k screen m g id why end_ x ib rfl
    exact ⟨rfl, rfl, rfl⟩

/-- Settles O24. -/
theorem flushAndFramesOfNoCommand : Obligations.FlushAndFramesOfNoCommand := by
  refine ⟨fun s => ⟨fun taken empty => ?_, fun taken waiting => ?_, fun serving empty => ?_, fun none => ?_⟩,
    fun code p s => ⟨fun idle => congrArg Host.Outcome.next (whenTaken_of_not_serving idle _), fun _ => rfl, rfl⟩,
    fun r p k => ⟨rfl, rfl, fun idle => ?_, fun serving => ?_⟩⟩
  · refine congrArg Host.Outcome.next ((runGroup_of_taken taken _).trans ?_)
    simp [empty, answer_eq]
  · refine congrArg Host.Outcome.next ((runGroup_of_taken taken _).trans ?_)
    simp [waiting]
  · exact congrArg Host.Outcome.next (if_pos (by simp [serving, empty]))
  · refine congrArg Host.Outcome.next (if_neg ?_)
    rcases none with idle | waiting
    · simp [idle]
    · simp [waiting]
  · rw [Port.readByte, readReply_of_idle idle]
  · rw [Port.readByte, readReply_of_serving serving]
    rfl

/-! ## The clock (R132, R133) -/

theorem timeTest_of_set {s : State} (h : s.calendar.clock.set = true) :
    timeTest s = { s with calendar := { s.calendar with
      view := s.calendar.view.filter (fun e => e.active || decide (s.calendar.clock.minuteNumber < e.wire.finish)) } } :=
  if_pos h

/-- R133: what follows a change of a set clock. -/
theorem clockChanged_of_set {s u : State} (h : s.calendar.clock.set = true) (settled : u = settle s) :
    clockChanged s = evaluate { u with calendar := { u.calendar with
      view := s.calendar.view.filter (fun e => e.active || decide (s.calendar.clock.minuteNumber < e.wire.finish)) } } := by
  subst settled
  rw [clockChanged, timeTest_of_set (by rw [settle_calendar]; exact h), settle_calendar]

theorem clockSecondPasses_of_lt {s : State} (h : s.calendar.clock.second < 86399) : clockSecondPasses s
    = clockChanged { s with calendar := { s.calendar with
        clock := { s.calendar.clock with second := s.calendar.clock.second + 1, count := 0 } } } := by
  have on : ({ s.calendar.clock with count := 0 } : Clock).advance
      = { s.calendar.clock with second := s.calendar.clock.second + 1, count := 0 } := if_pos h
  have moved : ({ s.calendar.clock with second := s.calendar.clock.second + 1, count := 0 } : Clock)
      ≠ { s.calendar.clock with count := 0 } := by simp
  rw [clockSecondPasses, on]
  exact if_neg moved

theorem clockSecondPasses_of_dayEnd {s : State} (h : 86399 ≤ s.calendar.clock.second) (day : s.calendar.clock.day < 65535) :
    clockSecondPasses s = clockChanged { s with calendar := { s.calendar with
        clock := { s.calendar.clock with day := s.calendar.clock.day + 1, second := 0, count := 0 } } } := by
  have on : ({ s.calendar.clock with count := 0 } : Clock).advance
      = { s.calendar.clock with day := s.calendar.clock.day + 1, second := 0, count := 0 } :=
    (if_neg (Nat.not_lt.2 h)).trans (if_pos day)
  have moved : ({ s.calendar.clock with day := s.calendar.clock.day + 1, second := 0, count := 0 } : Clock)
      ≠ { s.calendar.clock with count := 0 } := by simp
  rw [clockSecondPasses, on]
  exact if_neg moved

theorem clockSecondPasses_of_rangeEnd {s : State} (h : 86399 ≤ s.calendar.clock.second)
    (day : 65535 ≤ s.calendar.clock.day) :
    clockSecondPasses s = { s with calendar := { s.calendar with clock := { s.calendar.clock with count := 0 } } } := by
  have holds : ({ s.calendar.clock with count := 0 } : Clock).advance = { s.calendar.clock with count := 0 } :=
    (if_neg (Nat.not_lt.2 h)).trans (if_neg (Nat.not_lt.2 day))
  rw [clockSecondPasses, holds]
  exact if_pos rfl

theorem exec_clockSecond {s : State} (run : s.station ≠ .setup) (set : s.calendar.clock.set = true) :
    exec .clockSecond s = .next (settle (clockSecondPasses s)) :=
  congrArg Host.Outcome.next (if_pos ⟨decide_eq_true run, set⟩)

theorem clockBlock_of_unset {s : State} (h : s.calendar.clock.set = false) : clockBlock s = s := if_neg (by simp [h])

theorem clockBlock_of_lt {s : State} (h : s.calendar.clock.set = true) (n : s.calendar.clock.count < 249) :
    clockBlock s = { s with calendar := { s.calendar with
        clock := { s.calendar.clock with count := s.calendar.clock.count + 1 } } } :=
  (if_pos h).trans (if_pos (Nat.succ_lt_succ n))

theorem clockBlock_of_le {s : State} (h : s.calendar.clock.set = true) (n : 249 ≤ s.calendar.clock.count) :
    clockBlock s = clockSecondPasses s :=
  (if_pos h).trans (if_neg (Nat.not_lt.2 (Nat.succ_le_succ n)))

/-- Settles O25. -/
theorem clockIsSetAndAdvances : Obligations.ClockIsSetAndAdvances := by
  refine ⟨fun s => ⟨clockBlock_of_unset, fun set => ⟨clockBlock_of_lt set, fun full run => ?_⟩⟩,
    fun day second s taken => ⟨fun high => ?_, fun u le settled => ?_⟩,
    fun s run set => ⟨fun d n u on settled => ?_, fun last lastDay => ?_⟩, fun _ => rfl⟩
  · rw [clockBlock_of_le set full, exec_clockSecond run set]
  · exact congrArg Host.Outcome.next ((runGroup_of_taken taken _).trans (if_neg (Nat.not_le.2 high)))
  · refine congrArg Host.Outcome.next ((runGroup_of_taken taken _).trans ((if_pos le).trans (congrArg settle ?_)))
    exact clockChanged_of_set (s := { s.answered .ok with calendar := { s.calendar with
      clock := { day := day.toNat, second := second.toNat, count := 0, set := true } } }) rfl settled
  · rw [exec_clockSecond run set]
    refine congrArg (fun x => Host.Outcome.next (settle x)) ?_
    rw [← set] at settled
    rcases on with ⟨within, rfl, rfl⟩ | ⟨last, day, rfl, rfl⟩
    · rw [clockSecondPasses_of_lt within]
      exact clockChanged_of_set set settled
    · rw [clockSecondPasses_of_dayEnd last day]
      exact clockChanged_of_set set settled
  · rw [exec_clockSecond run set, clockSecondPasses_of_rangeEnd last lastDay]

/-! ## Entry into RUN (R190, R19) -/

/-- R154: while IDLE, with no clock, nothing is due. -/
theorem runRecord_of_unset {s : State} (idle : s.meeting.state = .idle) (unset : s.calendar.clock.set = false) :
    runRecord s = s := by
  have none : s.calendar.view.find? (fun e => e.wire.due s.calendar.clock) = none :=
    List.find?_eq_none.2 fun e _ => by simp [WireEntry.due, unset]
  simp [runRecord, idle, startDue, none]

theorem evaluate_of_unset {s : State} (idle : s.meeting.state = .idle) (unset : s.calendar.clock.set = false) :
    evaluate s = settle s := by
  rw [evaluate, runRecord_of_unset (by rw [settle_meeting]; exact idle) (by rw [settle_calendar]; exact unset),
    settle_settle]

theorem exec_go {s : State} (idle : s.port.serving = false) (setup : s.station = .setup) (h : s.config.configured = true) :
    exec .go s = .next (settle (evaluate (requestBeacon
      { s.answered .ok with station := .run, presence := { s.presence with cadence := 0 } }))) :=
  congrArg Host.Outcome.next ((setupGroup_of_setup idle setup _).trans (if_pos h))

theorem selectRun_of_beacon {s : State} (voice : s.link.voiceSlot = none) (queue : s.link.queue = [])
    (beacon : s.link.beaconSlot = some .normal) : selectRun s = startBeacon s := by
  simp [selectRun, voice, queue, beacon]

/-- R10 and R20: on a link at rest a requested beacon is in send at once. -/
theorem requestBeacon_of_rest {s : State} (run : s.station = .run) (rest : s.link = .powerOn) :
    requestBeacon s = startBeacon { s with link := { s.link with beaconSlot := some .normal } } := by
  have slot : s.link.beaconSlot = none := by rw [rest]; rfl
  have free : ({ s.link with beaconSlot := some .normal } : Link).idle = true := by rw [rest]; rfl
  simp only [requestBeacon, run, slot, if_true, Option.isSome_none, Bool.false_eq_true, if_false, select, free]
  exact selectRun_of_beacon (by rw [rest]; rfl) (by rw [rest]; rfl) rfl

/-- Settles O18. -/
theorem goEntersRun : Obligations.GoEntersRun := by
  intro s idle setup
  refine ⟨fun h => ?_, fun h => exec_go idle setup h, fun h unset noMeeting rest => ⟨_, exec_go idle setup h, ?_⟩⟩
  · exact congrArg Host.Outcome.next ((setupGroup_of_setup idle setup _).trans (if_neg (by simp [h])))
  · have begun := requestBeacon_of_rest (s := { s.answered .ok with
      station := .run, presence := { s.presence with cadence := 0 } }) rfl rest
    have quiet (t : State) (m : t.meeting = s.meeting) (c : t.calendar.clock = s.calendar.clock) :
        evaluate t = settle t := evaluate_of_unset (by rw [m]; exact noMeeting) (by rw [c]; exact unset)
    rw [begun, quiet, settle_settle, settle_station, settle_port, settle_link]
    · exact ⟨rfl, rfl, rfl, rfl⟩
    · rfl
    · rfl

end Sys2Proof.Machine

namespace Sys2Proof.Machine

/-! SUPPORT. The evaluation of the meeting record (R153 to R156), and the reads of the station (R58, R150, R187). -/

/-! ## The evaluation -/

/-- R153: the evaluation, by what it does past what follows the change before it. -/
theorem evaluate_eq {s u : State} (h : u = settle s) : evaluate s = settle (runRecord u) := by rw [h, evaluate]

theorem runRecord_of_setup {s : State} (h : s.station = .setup) : runRecord s = s := if_pos h

theorem runRecord_of_idle {s : State} (run : s.station ≠ .setup) (idle : s.meeting.state = .idle) :
    runRecord s = startDue s := (if_neg run).trans (if_pos idle)

theorem runRecord_of_remaining {s t : State} (run : s.station ≠ .setup) (meeting : s.meeting.state ≠ .idle)
    (warned : meetingWarningTest s = t) (remains : 0 < t.timeRemaining) : runRecord s = t := by
  rw [runRecord, if_neg run, if_neg meeting, warned]
  exact if_neg (Int.not_le.2 remains)

theorem runRecord_of_over {s t : State} (run : s.station ≠ .setup) (meeting : s.meeting.state ≠ .idle)
    (warned : meetingWarningTest s = t) (past : t.timeRemaining ≤ 0) : runRecord s = endMeetingFor .time t := by
  rw [runRecord, if_neg run, if_neg meeting, warned]
  exact if_pos past

theorem startDue_of_due {s : State} {e : Entry} (run : s.station ≠ .setup) (idle : s.meeting.state = .idle)
    (due : s.calendar.view.find? (fun e => e.wire.due s.calendar.clock) = some e) : startDue s = startMeetingFor e s := by
  rw [startDue, if_pos ⟨run, idle⟩, due]

theorem startDue_of_none {s : State} (none : ∀ e ∈ s.calendar.view, e.wire.due s.calendar.clock = false) : startDue s = s := by
  have nothing : s.calendar.view.find? (fun e => e.wire.due s.calendar.clock) = Option.none :=
    List.find?_eq_none.2 fun e he => by simp [none e he]
  rw [startDue, nothing]
  exact ite_self s

theorem due_iff (w : WireEntry) (c : Clock) :
    w.due c = true ↔ c.set = true ∧ w.start ≤ c.minuteNumber ∧ c.minuteNumber < w.finish := by
  simp [WireEntry.due, and_assoc]

/-- R134 and R135: in a sound view one entry at most is due. -/
theorem find_due {v : List Entry} {c : Clock} {e : Entry} (sound : CalendarSound v) (mem : e ∈ v)
    (due : e.wire.due c = true) : v.find? (fun e => e.wire.due c) = some e := by
  cases found : v.find? (fun e => e.wire.due c) with
  | none => exact absurd due (by simpa using List.find?_eq_none.1 found e mem)
  | some x =>
    obtain ⟨_, begun, going⟩ := (due_iff _ _).1 due
    obtain ⟨_, begunX, goingX⟩ := (due_iff x.wire c).1 (by simpa using List.find?_some found)
    by_contra other
    have apart := sound.not_overlaps mem (List.mem_of_find?_eq_some found) (fun same => other (same ▸ rfl))
    simp only [WireEntry.overlaps, Bool.and_eq_false_iff, decide_eq_false_iff_not] at apart
    omega

section
variable {s : State}

theorem meetingWarningTest_of_unwarned (h : s.meeting.profile.endWarning = 0) : meetingWarningTest s = s := by
  simp [meetingWarningTest, h]

theorem meetingWarningTest_of_early (active : s.meeting.state = .active)
    (early : s.timeRemaining > (s.meeting.profile.endWarning * 60 : Nat)) : meetingWarningTest s = s := by
  simp only [meetingWarningTest, active, if_neg (Int.not_le.2 early)]
  exact ite_self s

/-- R155: the warning of an approach. -/
theorem meetingWarningTest_of_approach {id : Bid} (active : s.meeting.state = .active) (named : s.meeting.id = some id)
    (warns : 0 < s.meeting.profile.endWarning) (near : s.timeRemaining ≤ (s.meeting.profile.endWarning * 60 : Nat)) :
    meetingWarningTest s = notify (.meetingWarning id s.meeting.profile.endWarning)
      { s with meeting := { s.meeting with state := .ending } } := by
  simp only [meetingWarningTest, if_pos warns, active, if_pos near, named]

theorem meetingWarningTest_of_warned (ending : s.meeting.state = .ending)
    (near : s.timeRemaining ≤ (s.meeting.profile.endWarning * 60 : Nat)) : meetingWarningTest s = s := by
  simp only [meetingWarningTest, ending, if_pos near]
  exact ite_self s

theorem meetingWarningTest_of_withdrawn (ending : s.meeting.state = .ending) (warns : 0 < s.meeting.profile.endWarning)
    (early : s.timeRemaining > (s.meeting.profile.endWarning * 60 : Nat)) :
    meetingWarningTest s = { s with meeting := { s.meeting with state := .active } } := by
  simp only [meetingWarningTest, if_pos warns, ending, if_neg (Int.not_le.2 early)]

end

/-- Settles O26: the clauses are the branches of the warning test and of the end test, over the followed state. -/
theorem evaluationStartsWarnsAndEnds : Obligations.EvaluationStartsWarnsAndEnds := by
  refine ⟨fun s u settled => ?_, due_iff, fun s => ?_⟩
  · rw [evaluate_eq settled]
    have same : settle u = u := by rw [settled, settle_settle]
    have station : u.station = s.station := by rw [settled, settle_station]
    have meeting : u.meeting = s.meeting := by rw [settled, settle_meeting]
    have calendar : u.calendar = s.calendar := by rw [settled, settle_calendar]
    have remaining : u.timeRemaining = s.timeRemaining := by rw [State.timeRemaining, meeting, calendar]; rfl
    rw [← remaining, ← meeting, ← calendar, ← station]
    have running {x : MeetingState} (h : u.meeting.state = x) (k : x ≠ .idle) : u.meeting.state ≠ .idle := h ▸ k
    refine ⟨fun setup => ?_, fun run idle none => ?_, fun sound run idle e mem due => ?_, fun run active early => ?_,
      fun id v run active named warns near warned => ⟨fun remains => ?_, fun past => ?_⟩,
      fun run ending warns early => ?_, fun run ending remains near => ?_, fun id run state named past => ?_⟩
    · rw [runRecord_of_setup setup, same]
    · rw [runRecord_of_idle run idle, startDue_of_none none, same]
    · have found := find_due (calendar ▸ sound.calendar) mem due
      rw [runRecord_of_idle run idle, startDue_of_due run idle found]
    · rw [runRecord_of_remaining run (running active nofun) (meetingWarningTest_of_early active early)
        ((Int.natCast_nonneg _).trans_lt early), same]
    · rw [runRecord_of_remaining run (running active nofun)
        ((meetingWarningTest_of_approach active named warns near).trans warned.symm) (warned ▸ remains)]
    · rw [runRecord_of_over run (running active nofun)
        ((meetingWarningTest_of_approach active named warns near).trans warned.symm) (warned ▸ past)]
    · rw [runRecord_of_remaining run (running ending nofun) (meetingWarningTest_of_withdrawn ending warns early)
        ((Int.natCast_nonneg _).trans_lt early)]
    · rw [runRecord_of_remaining run (running ending nofun) (meetingWarningTest_of_warned ending near) remains, same]
    · rcases state with ending | ⟨active, unwarned⟩
      · rw [runRecord_of_over run (running ending nofun)
          (meetingWarningTest_of_warned ending (past.trans (Int.natCast_nonneg _))) past]
      · rw [runRecord_of_over run (running active nofun) (meetingWarningTest_of_unwarned unwarned) past]
  · simp only [State.timeRemaining, Clock.seconds, Config.daySeconds]
    push_cast
    rfl

/-! ## Reads from a cursor (R58, R150) -/

theorem length_recordsFrom {α : Type} (c : Nat) (l : List α) : (recordsFrom c l).length = min 8 (l.length - c) := by
  simp [recordsFrom, Config.replyRecords]

theorem nextCursor_eq {α : Type} (c : Nat) (l : List α) :
    nextCursor c l = if c + 8 < l.length then c + 8 else 0 := by
  rw [nextCursor, length_recordsFrom]
  by_cases more : c + 8 < l.length
  · have eight : min 8 (l.length - c) = 8 := by omega
    rw [eight]
  · rw [if_neg more, if_neg (by omega)]

theorem queueRecordList_getElem? (k : Nat) (l : List QueueRecord) (i : Nat) :
    (queueRecordList k l)[i]? = l[i]?.map (queueRecordBytes (k + i)) := by
  induction l generalizing k i with
  | nil => simp [queueRecordList]
  | cons r rs ih =>
    cases i with
    | zero => simp [queueRecordList]
    | succ i =>
      have shifted : k + 1 + i = k + (i + 1) := by omega
      simp [queueRecordList, ih, shifted]

theorem length_queueRecordList (k : Nat) (l : List QueueRecord) : (queueRecordList k l).length = l.length := by
  induction l generalizing k with
  | nil => rfl
  | cons r rs ih => simp [queueRecordList, ih]

theorem openCode_byte (c : OpenClass) : byte c.code = if c = .chair then 1#8 else 2#8 := by cases c <;> rfl

theorem be4_eq (n : Nat) : be4 n = be2 (n / 65536) ++ be2 n := by
  simp [be4, be2, Nat.div_div_eq_div_mul]

/-- Settles O23. -/
theorem cursorReadsReturnEightRecords : Obligations.CursorReadsReturnEightRecords := by
  refine ⟨fun cursor s taken => ⟨⟨floorData cursor.toNat s, ?_, ?_⟩, ⟨calendarData cursor.toNat s, ?_, ?_⟩⟩,
    fun s l records => ?_, fun e => ?_, rfl, fun a _ => rfl, fun n => ⟨rfl, be4_eq n⟩⟩
  · exact congrArg Host.Outcome.next (runGroup_of_taken taken _)
  · rintro l rfl
    simp only [floorData, nextCursor_eq, State.inMeeting, recordsFrom, Config.replyRecords, List.length_take, List.length_drop, State.limit,
      decide_eq_true_eq, ite_not]
  · exact congrArg Host.Outcome.next (runGroup_of_taken taken _)
  · rintro v rfl
    simp only [calendarData, nextCursor_eq, recordsFrom, Config.replyRecords, List.length_take, List.length_drop, List.flatMap_def]
    rfl
  · subst records
    refine ⟨by simp [floorRecords, length_queueRecordList], fun i age r opened young aged => ?_, fun i r queued => ?_⟩
    · have within : i < (s.floor.openSet.map (openRecordBytes s.blockNumber)).length := by
        rw [List.length_map]
        exact (List.getElem?_eq_some_iff.1 opened).1
      have ageIs : (s.blockNumber + 65536 - r.since % 65536) % 65536 = age := by omega
      rw [floorRecords, List.getElem?_append_left within, List.getElem?_map, opened]
      simp only [Option.map_some, openRecordBytes, ageIs, openCode_byte]
      rfl
    · have behind : (s.floor.openSet.map (openRecordBytes s.blockNumber)).length ≤ s.floor.openSet.length + i := by simp
      rw [floorRecords, List.getElem?_append_right behind, queueRecordList_getElem?]
      simp only [List.length_map, Nat.add_sub_cancel_left, queued, Option.map_some, queueRecordBytes, Nat.add_comm 1 i]
      rfl
  · simp [entryBytes, bidBytes, textField]

/-! ## READ_STATUS (R187) -/

theorem meetingBytes_pair (m : Option Bid) : ∃ x y : Byte, meetingBytes m = [x, y] := by
  cases m with
  | none => exact ⟨_, _, rfl⟩
  | some id => exact ⟨_, _, rfl⟩

theorem kindInSend_eq (l : Link) : l.kindInSend = (l.inSend.map (fun x => x.frame.body.kindCode)).getD 0#8 := by
  unfold Link.kindInSend
  cases l.inSend <;> rfl

/-- R111: a slot's report, with the talk state of its last block. -/
theorem slotReport_eq (n : Nat) (x : Slot) : slotReport n x = [byte n, byte x.seat, byte x.state.code, byte x.fifo.length,
    flagByte x.overflow, flagByte ((x.last.map (fun h => h.talking)).getD false)] := by
  unfold slotReport
  cases x.last <;> rfl

theorem peersIn_eq (s : State) (x : PeerState) : s.peersIn x = ((List.range' 1 48).filter (fun k =>
    decide (if k = s.config.seat then x = .unknown else (s.presence.peer k).state = x))).length := by
  unfold State.peersIn allSeats
  refine congrArg List.length (List.filter_congr fun k _ => ?_)
  by_cases own : k = s.config.seat
  · simp [State.ownSeat, own, eq_comm]
  · simp [State.ownSeat, own]

theorem seven_of_length {α : Type} {l : List α} (h : l.length = 7) : ∃ a b c d e f g : α, l = [a, b, c, d, e, f, g] := by
  match l, h with
  | [a, b, c, d, e, f, g], _ => exact ⟨a, b, c, d, e, f, g, rfl⟩

/-- R187: the data of a READ_STATUS reply with its slots one by one: a list of 85 bytes. -/
theorem statusData_eq {s : State} {x y : Byte} {a b c d e f g : Slot} (meeting : meetingBytes s.meetingId = [x, y])
    (slots : s.mix.slots = [a, b, c, d, e, f, g]) : statusData s = statusOwn s
      ++ ([byte s.meeting.state.code] ++ [x, y] ++ [byte s.meeting.chair] ++ be2 s.calendar.clock.day
        ++ be4 s.calendar.clock.second ++ [flagByte s.calendar.clock.set])
      ++ statusLink s
      ++ ([byte s.mix.volume, byte s.mix.reduction] ++ be2 s.mix.quiet ++ [flagByte s.mix.limitFlag, byte s.mix.clipped]
        ++ (slotReport 1 a ++ (slotReport 2 b ++ (slotReport 3 c ++ (slotReport 4 d ++ (slotReport 5 e ++ (slotReport 6 f
          ++ (slotReport 7 g ++ []))))))) ++ be2 s.mix.lateBlocks)
      ++ statusPort s := by
  rw [statusData, statusMeeting, statusMix, meeting, slots]
  rfl

/-- Settles O21. -/
theorem readStatusReportsAndClearsThreeFlags : Obligations.ReadStatusReportsAndClearsThreeFlags := by
  refine ⟨fun s idle seven => ?_, ⟨rfl, rfl, rfl, rfl, rfl, rfl, rfl, rfl, rfl, fun _ => rfl⟩, peersIn_eq⟩
  obtain ⟨x, y, meeting⟩ := meetingBytes_pair s.meetingId
  obtain ⟨a, b, c, d, e, f, g, slots⟩ := seven_of_length seven
  refine ⟨statusData s, congrArg Host.Outcome.next (whenTaken_of_not_serving idle _), ?_⟩
  rw [statusData_eq meeting slots, meeting, slots, ← kindInSend_eq]
  refine ⟨rfl, rfl, rfl, rfl, rfl, rfl, fun i z found => ?_, rfl, rfl⟩
  rw [← slotReport_eq]
  match i, found with
  | 0, found | 1, found | 2, found | 3, found | 4, found | 5, found | 6, found =>
    obtain rfl := Option.some.inj found
    rfl

end Sys2Proof.Machine

namespace Sys2Proof.Machine

/-! SUPPORT. Received frames by kind, the discards and the filter (R3 to R8), entry into CLASH (R5) and the calendar
kinds (R144, R147, R148, R157). -/

/-! ## A received frame is its kind's command -/

/-- R4: the commands of the kinds with the frames of no listed kind: each is the receiver's step. -/
theorem exec_received (kind source : Byte) (body : List Byte) (s : State) :
    exec (LinkFrame.received kind source body) s = .next (receive kind source body s) := by
  have kindIs {n : Nat} (h : kind.toNat = n) : kind = BitVec.ofNat 8 n := by rw [← h, BitVec.ofNat_toNat, BitVec.setWidth_eq]
  unfold LinkFrame.received
  split
  case h_18 h10 h20 h41 h42 h43 h44 h45 h46 h47 h48 h49 h4A h4B h61 h62 h63 h64 =>
    have none : parseFrame kind source body = none := by
      have body : parseBody kind body = none := by
        unfold parseBody
        split
        case h_18 => rfl
        all_goals contradiction
      rw [parseFrame, body]
      exact ite_self _
    unfold receive
    rw [none]
    rfl
  all_goals rename_i h; rw [kindIs h]; rfl

theorem receive_of_malformed {kind source : Byte} {body : List Byte} (h : parseFrame kind source body = none) (s : State) :
    receive kind source body s = countBadFrame s := by
  unfold receive
  rw [h]

section
variable {kind source : Byte} {body : List Byte} {f : Frame} {s : State} (h : parseFrame kind source body = some f)
include h

theorem receive_of_setup (setup : s.station = .setup) : receive kind source body s = s := by
  simp [receive, h, setup]

theorem receive_of_own_in_run (run : s.station = .run) (own : f.source = s.ownSeat) :
    receive kind source body s = settle (enterClash s) := by
  simp [receive, h, run, own]

theorem receive_of_own_in_clash (clash : s.station = .clash) (own : f.source = s.ownSeat) :
    receive kind source body s = s := by
  simp [receive, h, clash, own]

end

theorem exec_of_delivered {kind source : Byte} {body : List Byte} {f : Frame} {s : State}
    (h : Delivered s kind source body f) :
    exec (LinkFrame.received kind source body) s = .next (settle (deliver f s)) := by
  rw [exec_received, receive_of_delivered h]

/-- Settles O36. -/
theorem discardedFramesReachNoBlock : Obligations.DiscardedFramesReachNoBlock := by
  rintro kind source body bytes s bad rfl
  refine ⟨rfl, rfl, fun malformed => ?_, fun f valid discarded => ?_⟩
  · rw [exec_received, receive_of_malformed malformed]
    rfl
  · rw [exec_received]
    rcases discarded with setup | ⟨clash, own⟩
    · rw [receive_of_setup valid setup]
    · rw [receive_of_own_in_clash valid clash own]

/-! ## Entry into CLASH (R5) -/

section
variable (s : State)

/-- R5: the state of every block at entry into CLASH, before the selection of the clash beacon. -/
def clashState (s : State) : State :=
  { s with
    station := .clash,
    link := { s.link with
      voiceSlot := none, queue := [], beaconSlot := some .clash,
      inSend := s.link.inSend.map (fun x => { x with voided := true }) },
    floor := (s.floor.dropOpen s.ownSeat).dropQueue s.ownSeat,
    mic := .reset, capture := { s.capture with talking := false, hangover := 0, placing := false },
    share := (s.share.clearSeat s.ownSeat).noClaim,
    calendar := { s.calendar with ask := none }, meeting := { s.meeting with endAsked := false },
    port := (flushCheck (clashed s)).port.push (.seatClash s.ownSeat) }

/-- A FLUSH being served completes with the emptied queue; the rest of the station is as it was. -/
theorem flushCheck_of_empty {t : State} (h : t.link.queue = []) :
    flushCheck t = { t with port := (flushCheck t).port } ∧ (flushCheck t).port.serving = false ∧
      (flushCheck t).port.notices = t.port.notices := by
  unfold flushCheck
  cases serving : t.port.serving <;> simp [serving, h]

theorem enterClash_eq : enterClash s = select (clashState s) := by
  obtain ⟨whole, _, _⟩ := flushCheck_of_empty (t := clashed s) rfl
  have link : linkAtClash { s with station := .clash } = { clashed s with port := (flushCheck (clashed s)).port } := whole
  unfold enterClash
  rw [link]
  rfl

/-- R6: in CLASH the selection starts the clash beacon on a free link, and nothing else. -/
theorem select_clashState : select (clashState s)
    = if s.link.idle then startClashBeacon (clashState s) else clashState s := by
  have free : (clashState s).link.idle = s.link.idle := by
    simp [clashState, Link.idle]
  unfold select
  rw [free]
  rfl

theorem clashState_port : (clashState s).port.serving = false ∧ (clashState s).port.notices
    = if s.port.notices.length < 16 then s.port.notices ++ [.seatClash s.config.seat] else s.port.notices := by
  obtain ⟨_, serving, notices⟩ := flushCheck_of_empty (t := clashed s) rfl
  have same : (flushCheck (clashed s)).port.notices = s.port.notices := notices
  by_cases room : s.port.notices.length < 16
  · have pushed : (clashState s).port = { (flushCheck (clashed s)).port with
        notices := (flushCheck (clashed s)).port.notices ++ [.seatClash s.ownSeat] } := if_pos (by rw [same]; exact room)
    rw [pushed, if_pos room, ← same]
    exact ⟨serving, rfl⟩
  · have dropped : (clashState s).port = { (flushCheck (clashed s)).port with overflow := true } :=
      if_neg (by rw [same]; exact room)
    rw [dropped, if_neg room]
    exact ⟨serving, same⟩

end

/-- Settles O37, by what becomes of the link: a frame in send, an attempt of a reset frame, or a free link. -/
theorem ownSeatFrameEntersClash : Obligations.OwnSeatFrameEntersClash := by
  intro kind source body f s valid run own
  obtain ⟨serving, notices⟩ := clashState_port s
  refine ⟨settle (enterClash s), by rw [exec_received, receive_of_own_in_run valid run own], ?_⟩
  rw [enterClash_eq, select_clashState, settle_station, settle_link, settle_floor, settle_mic, settle_capture,
    settle_share_screen1, settle_share_screen2, settle_share_claim, settle_share_release, settle_meeting, settle_calendar,
    settle_presence, settle_mix, settle_config, settle_profiles, settle_port]
  by_cases free : s.link.idle = true
  · rw [if_pos free]
    obtain ⟨sending, finishing⟩ : s.link.inSend = none ∧ s.link.finishing = false := by simpa [Link.idle] using free
    refine ⟨rfl, ⟨rfl, rfl, rfl, rfl, rfl⟩, fun x hx => ?_, fun _ _ => ⟨rfl, rfl⟩, fun _ busy => ?_, rfl,
      ⟨rfl, rfl, rfl, rfl⟩, rfl, rfl, ⟨rfl, rfl, rfl, rfl⟩, ⟨rfl, rfl⟩, ⟨rfl, rfl, rfl, rfl⟩, serving, notices⟩
    · exact absurd (sending.symm.trans hx) nofun
    · exact absurd (finishing.symm.trans busy) nofun
  · rw [if_neg free]
    refine ⟨rfl, ⟨rfl, rfl, rfl, rfl, rfl⟩, fun x hx => ⟨?_, rfl⟩, fun sending finishing => ?_, fun sending _ => ⟨?_, rfl⟩,
      rfl, ⟨rfl, rfl, rfl, rfl⟩, rfl, rfl, ⟨rfl, rfl, rfl, rfl⟩, ⟨rfl, rfl⟩, ⟨rfl, rfl, rfl, rfl⟩, serving, notices⟩
    · simp [clashState, hx]
    · exact absurd (by simp [Link.idle, sending, finishing]) free
    · simp [clashState, sending]

/-! ## The meeting filter (R8) -/

theorem filterPasses_iff {s : State} {id : Bid} (h : s.meeting.id = some id) (m : Option Bid) :
    s.filterPasses m = true ↔ s.meeting.state ≠ .idle ∧ m = some id := by
  simp only [State.filterPasses, Bool.and_eq_true, decide_eq_true_eq, inMeeting_iff, h]
  exact ⟨fun ⟨⟨run, _⟩, same⟩ => ⟨run, same⟩, fun ⟨run, same⟩ => ⟨⟨run, same ▸ nofun⟩, same⟩⟩

theorem filterPasses_false {s : State} {m : Option Bid} (h : s.meeting.state = .idle ∨ m ≠ s.meeting.id) :
    s.filterPasses m = false := by
  rw [← Bool.not_eq_true]
  simp only [State.filterPasses, Bool.and_eq_true, decide_eq_true_eq, inMeeting_iff]
  exact fun ⟨⟨run, _⟩, same⟩ => h.elim run (fun k => k same)

theorem filtered_of_fails {m : Option Bid} {s : State} (h : s.filterPasses m = false) (k : State → State) :
    filtered m k s = s := if_neg (by simp [h])

/-- R8: what the filter does not pass leaves no trace but its sender's peer entry. -/
theorem deliver_of_fails {k : Nat} {b : Body} {m : Option Bid} {s : State} (kind : filteredId b = some m)
    (h : s.filterPasses m = false) : deliver { source := k, body := b } s = heard k s := by
  have fails : (heard k s).filterPasses m = false := (heard_filterPasses k s m).trans h
  unfold deliver
  cases b with
  | beacon | cancel | extendAsk | extendAnswer | endNow => cases kind
  | voice | request | withdraw | opening | close | yield | grant | clear | priority | timeAdd | share | unshare =>
    obtain rfl := Option.some.inj kind
    exact filtered_of_fails fails _

/-- R17: an outcome that the filter does not pass is not handed on. -/
theorem sentOutcome_of_fails {f : Frame} {m : Option Bid} {s : State} (kind : filteredId f.body = some m)
    (h : s.filterPasses m = false) : sentOutcome f s = s := by
  unfold sentOutcome
  cases body : f.body with
  | endNow => rw [body] at kind; cases kind
  | opening | grant | clear | priority | share =>
    rw [body] at kind
    obtain rfl := Option.some.inj kind
    exact filtered_of_fails h _
  | close =>
    rw [body] at kind
    obtain rfl := Option.some.inj kind
    dsimp only
    rw [filtered_of_fails h, ite_self]
  | _ => rfl

theorem abandonedOutcome_of_fails {f : Frame} {m : Option Bid} {s : State} (kind : filteredId f.body = some m)
    (h : s.filterPasses m = false) : abandonedOutcome f s = s := by
  unfold abandonedOutcome
  cases body : f.body with
  | endNow | extendAsk => rw [body] at kind; cases kind
  | opening | share =>
    rw [body] at kind
    obtain rfl := Option.some.inj kind
    exact filtered_of_fails h _
  | _ => rfl

/-! ## The end of an attempt (R16) -/

theorem freeLink_eq (s : State) : freeLink s = s.linkFreed := rfl

theorem attemptClear_of_sending {s : State} {x : Sending} (free : s.link.finishing = false)
    (sending : s.link.inSend = some x) (valid : x.voided = false) : attemptClear s = (sentOutcome x.frame s).linkFreed := by
  simp [attemptClear, free, sending, valid, freeLink_eq]

theorem attemptFailed_of_last {s : State} {x : Sending} (free : s.link.finishing = false)
    (sending : s.link.inSend = some x) (valid : x.voided = false) (last : 8 ≤ x.attempt) :
    attemptFailed s = (abandonedOutcome x.frame (countAbandoned x s)).linkFreed := by
  simp [attemptFailed, free, sending, valid, freeLink_eq, Config.maxAttempts, Nat.not_lt.2 last]

theorem countAbandoned_eq (x : Sending) (s : State) : countAbandoned x s = { s with
    link := { s.link with abandoned := if s.link.abandoned < 65535 then s.link.abandoned + 1 else s.link.abandoned },
    port := if x.clash then s.port else s.port.push (.sendFailed x.frame.body.kindCode.toNat) } := by
  cases clash : x.clash with
  | true => rw [countAbandoned, clash]; rfl
  | false => rw [countAbandoned, clash]; rfl

/-- Settles O38. -/
theorem meetingFilterPassesTheActiveMeetingAlone : Obligations.MeetingFilterPassesTheActiveMeetingAlone := by
  refine ⟨fun s id m named => filterPasses_iff named m, fun kind source body k b m s delivered filtered other => ?_,
    fun x m s free sending valid filtered other => ⟨?_, fun last => ?_⟩, fun s => ?_, fun s m unnamed => ?_,
    countAbandoned_eq⟩
  · rw [exec_of_delivered delivered, deliver_of_fails filtered (filterPasses_false other)]
  · refine congrArg (fun t => Host.Outcome.next (settle t)) ?_
    rw [attemptClear_of_sending free sending valid, sentOutcome_of_fails filtered (filterPasses_false other)]
  · have fails : (countAbandoned x s).filterPasses m = false := by
      have meeting : (countAbandoned x s).meeting = s.meeting := by rw [countAbandoned_eq]
      exact filterPasses_false (by rw [meeting]; exact other)
    refine congrArg (fun t => Host.Outcome.next (settle t)) ?_
    rw [attemptFailed_of_last free sending valid last, abandonedOutcome_of_fails filtered fails]
  · cases state : s.meeting.state <;> simp [State.meetingId, State.inMeeting, state]
  · cases m with
    | none => simp [State.filterPasses]
    | some id => exact filterPasses_false (.inr (by simp [unnamed]))

/-! ## The calendar kinds -/

@[simp] theorem heard_view (k : Nat) (s : State) : (heard k s).calendar.view = s.calendar.view := by
  unfold heard
  dsimp only
  split
  · rw [(evalMic_table _).frame.view]
  · rfl

theorem arriveEntry_config (k : Nat) (w : WireEntry) (s : State) : (arriveEntry k w s).config = s.config :=
  (arriveEntry_keeps k w s).evolves.same.config

theorem heard_config (k : Nat) (s : State) : (heard k s).config = s.config := (heard_keeps k s).evolves.same.config

/-- R148: an answer from the holder about its own entry, in three cases of the ask. -/
theorem onExtendAnswer_of_holder {k a g : Nat} {id : Bid} {ok : Bool} {w : WireEntry} {s : State} (holder : id.holder = k)
    (own : w.id = id) : onExtendAnswer k id a ok g w s =
      match (settle (arriveEntry k w s)).calendar.ask with
      | some x =>
          if a = (settle (arriveEntry k w s)).ownSeat ∧ x.id = id then
            extendResult id (if ok then .accepted else .refused) g (clearAsk (settle (arriveEntry k w s)))
          else settle (arriveEntry k w s)
      | none => settle (arriveEntry k w s) :=
  if_pos ⟨holder, own⟩

/-- Settles O35. -/
theorem calendarFramesApplyTheirRules : Obligations.CalendarFramesApplyTheirRules := by
  rintro source body k id s u rfl
  refine ⟨fun cancel => exec_of_delivered cancel, fun m ask => ⟨fun e found held chair => ?_, fun other => ?_⟩,
    fun a g ok w answer => ⟨fun other => ?_, fun holder own => ⟨fun x v settled asked same asker => ?_, fun other => ?_⟩⟩,
    fun endNow => ⟨fun e found chair => ?_, fun other => ?_⟩⟩
  · have taken : onExtendAsk k id m (heard k s) = holderDecision e k m (heard k s) := by
      rw [onExtendAsk, heard_view, found]
      exact if_pos ⟨held, chair⟩
    rw [← taken]
    exact exec_of_delivered ask
  · have untaken : onExtendAsk k id m (heard k s) = heard k s := by
      rw [onExtendAsk, heard_view]
      cases found : viewFind s.calendar.view id with
      | none => rfl
      | some e => exact if_neg fun ⟨held, chair⟩ => (other e found).elim (fun h => by simp [h] at held) (fun h => h chair)
    exact (exec_of_delivered ask).trans (congrArg (fun t => Host.Outcome.next (settle t)) untaken)
  · have untaken : onExtendAnswer k id a ok g w (heard k s) = heard k s :=
      if_neg fun ⟨holder, own⟩ => other.elim (fun h => h holder) (fun h => h own)
    exact (exec_of_delivered answer).trans (congrArg (fun t => Host.Outcome.next (settle t)) untaken)
  · have ownSeat : (settle (arriveEntry k w (heard k s))).ownSeat = s.config.seat := by
      rw [State.ownSeat, settle_config, arriveEntry_config, heard_config]
    have taken : onExtendAnswer k id a ok g w (heard k s) = extendResult id (if ok then .accepted else .refused) g
        { v with calendar := { v.calendar with ask := none } } := by
      rw [onExtendAnswer_of_holder holder own, ownSeat, ← settled, asked]
      exact if_pos ⟨asker, same⟩
    exact (exec_of_delivered answer).trans (congrArg (fun t => Host.Outcome.next (settle t)) taken)
  · have ownSeat : (settle (arriveEntry k w (heard k s))).ownSeat = s.config.seat := by
      rw [State.ownSeat, settle_config, arriveEntry_config, heard_config]
    have untaken : onExtendAnswer k id a ok g w (heard k s) = settle (arriveEntry k w (heard k s)) := by
      rw [onExtendAnswer_of_holder holder own, ownSeat, settle_calendar]
      cases asked : (arriveEntry k w (heard k s)).calendar.ask with
      | none => rfl
      | some x => exact if_neg fun ⟨asker, same⟩ => other.elim (fun h => h x asked same) (fun h => h asker)
    refine (exec_of_delivered answer).trans (congrArg Host.Outcome.next ?_)
    exact (congrArg settle untaken).trans (settle_settle _)
  · have taken : onEndNow k id (heard k s) = endOrRemove id .endNow (heard k s) := by
      rw [onEndNow, heard_view, found]
      exact if_pos chair
    rw [← taken]
    exact exec_of_delivered endNow
  · have untaken : onEndNow k id (heard k s) = heard k s := by
      rw [onEndNow, heard_view]
      cases found : viewFind s.calendar.view id with
      | none => rfl
      | some e => exact if_neg (other e found)
    exact (exec_of_delivered endNow).trans (congrArg (fun t => Host.Outcome.next (settle t)) untaken)

end Sys2Proof.Machine

namespace Sys2Proof.Machine

/-! SUPPORT. The floor frames past the filter (R40, R42 to R48) and what they do at the own seat (R76, R77). -/

/-! ## Delivery past the filter -/

theorem heard_chairSeat (k j : Nat) (s : State) : (heard k s).isChairSeat j = s.isChairSeat j := by
  simp [State.isChairSeat, State.inMeeting]

/-- R8: a frame of a filtered kind that the filter passes is handed to its owner, in the state that has heard it. -/
theorem exec_of_passed {kind source : Byte} {body : List Byte} {k : Nat} {b : Body} {m : Option Bid} {s : State}
    {act : State → State} (delivered : Delivered s kind source body { source := k, body := b })
    (owner : deliver { source := k, body := b } s = filtered m act (heard k s)) (passes : s.filterPasses m = true) :
    exec (LinkFrame.received kind source body) s = .next (settle (act (heard k s))) := by
  rw [exec_of_delivered delivered, owner, filtered_of_passes ((heard_filterPasses k s m).trans passes)]

/-! ## Steps of the view without a net change -/

theorem Floor.join_of_queued {f : Floor} {k : Nat} (h : f.isQueued k = true) (q : Nat) : f.join k q = f := if_pos h

theorem Floor.join_of_unqueued {f : Floor} {k : Nat} (h : f.isQueued k = false) (q : Nat) :
    f.join k q = { f with queue := insertQueue { seat := k, requestStamp := q, granted := false } f.queue } :=
  if_neg (by simp [h])

/-- R40: a seat in neither collection joins the queue; the counter is raised in every case. -/
theorem Floor.request_eq (f : Floor) (k q : Nat) : f.request k q = { f with
    stamp := max f.stamp q,
    queue := if f.isOpen k = true ∨ f.isQueued k = true then f.queue
             else insertQueue { seat := k, requestStamp := q, granted := false } f.queue } := by
  by_cases isOpen : f.isOpen k = true
  · rw [if_pos (.inl isOpen)]
    exact if_pos isOpen
  · have joins : f.request k q = (f.raise q).join k q := if_neg isOpen
    rw [joins]
    cases isQueued : f.isQueued k with
    | true =>
      rw [Floor.join_of_queued (f := f.raise q) isQueued, if_pos (.inr rfl)]
      rfl
    | false =>
      rw [Floor.join_of_unqueued (f := f.raise q) isQueued, if_neg (by simp [isOpen])]
      rfl

theorem storeView_of_same {f : Floor} {s : State} (opens : f.openSet = s.floor.openSet) :
    storeView f s = { s with floor := f } :=
  storeStep_without_net (removals_plain _ _) (entries_of_same_openSet opens)

/-- R77: a step of the priority state alone that turns it on is handed to the own-microphone rules. -/
theorem floorStep_priorityOn {f : Floor} {s : State} (opens : f.openSet = s.floor.openSet)
    (off : s.floor.priority = false) (on : f.priority = true) :
    floorStep (.plain f) s = evalMic (micPriorityOn (settle { s with floor := f })) := by
  have stored : storeStep (.plain f) s = { s with floor := f } := storeView_of_same opens
  simp [floorStep, stored, removals_plain, off, show (FloorStep.plain f).floor.priority = true from on]

/-- Settles O40. -/
theorem seatFramesChangeTheView : Obligations.SeatFramesChangeTheView := by
  refine ⟨fun source body k q m s u heardNow passes => ?_, fun f k q =>
    ⟨rfl, fun queued => Floor.join_of_queued queued q, fun unqueued => Floor.join_of_unqueued unqueued q⟩⟩
  subst heardNow
  refine ⟨fun request => ?_, fun o c d opening class' => ?_, fun yielded => exec_of_passed yielded rfl passes⟩
  · have joined : onRequest k q (heard k s) = evalMic { heard k s with floor := (heard k s).floor.request k q } :=
      floorStep_plain (by rw [Floor.request_eq]) (by rw [Floor.request_eq])
    rw [← Floor.request_eq, ← joined]
    exact exec_of_passed request rfl passes
  · have running : s.inMeeting = true := by
      simp only [State.filterPasses, Bool.and_eq_true] at passes
      exact passes.1.1
    have taken : (heard k s).classTaken k c = d := by
      rw [class', State.classTaken, heard_chairSeat]
      simp [State.isChairSeat, running]
    have opened : onOpening k o q c (heard k s) = floorStep
        ((heard k s).floor.opening k d o q (heard k s).blockNumber (heard k s).meeting.profile.limit) (heard k s) := by
      rw [onOpening, taken]
      rfl
    rw [← opened]
    exact exec_of_passed opening rfl passes

/-! ## The own microphone under the chair's frames (R76) -/

/-- R66: in CLOSED there is nothing to decide. -/
theorem evalMic_of_closed {s : State} (h : s.mic.state = .closed) : evalMic s = settle s := by
  have closed : ownSide (settle s) = settle s := by
    unfold ownSide
    rw [settle_mic, h]
    exact ite_self _
  rw [evalMic, closed, settle_settle]

theorem flushCheck_eq (s : State) : flushCheck s = { s with port :=
    if s.port.serving = true ∧ s.link.queue = [] then
      { s.port with serving := false, reply := { status := .ok, data := [] } } else s.port } := by
  unfold flushCheck
  simp only [Bool.and_eq_true, List.isEmpty_iff]
  by_cases h : s.port.serving = true ∧ s.link.queue = []
  · rw [if_pos h, if_pos h]
    rfl
  · rw [if_neg h, if_neg h]

/-- R14: a frame of kind MIC in the queue is withdrawn. -/
theorem withdrawOpen_of_queued {s : State} (h : ∃ f ∈ s.link.queue, f.internalKind = some .mic) :
    withdrawOpen s = (flushCheck { s with link := { s.link with
      queue := s.link.queue.filter (fun f => decide (f.internalKind ≠ some .mic)) } }, .withdrawn) :=
  if_pos (by simpa using h)

/-- R14: without one in the queue the withdrawal changes nothing, and its answer is not "withdrawn". -/
theorem withdrawOpen_of_unqueued {s : State} (h : ∀ f ∈ s.link.queue, f.internalKind ≠ some .mic) :
    ∃ w, w ≠ .withdrawn ∧ withdrawOpen s = (s, w) := by
  have unqueued : ¬ (s.link.queue.any fun f => decide (f.internalKind = some .mic)) = true := by simpa using h
  unfold withdrawOpen
  rw [if_neg unqueued]
  split
  · split
    · split
      · exact ⟨.none, nofun, rfl⟩
      · exact ⟨.started, nofun, rfl⟩
    · exact ⟨.none, nofun, rfl⟩
  · exact ⟨.none, nofun, rfl⟩

theorem withdrawLostOpen_of_unqueued {s : State} (h : ∀ f ∈ s.link.queue, f.internalKind ≠ some .mic) :
    withdrawLostOpen s = s := by
  obtain ⟨w, notWithdrawn, answer⟩ := withdrawOpen_of_unqueued h
  unfold withdrawLostOpen
  rw [answer]
  cases w with
  | withdrawn => exact absurd rfl notWithdrawn
  | started | none => rfl

/-- R68: in OPENING with no own OPEN in the queue there is nothing to withdraw. -/
theorem evalMic_of_opening_unqueued {s : State} (opening : s.mic.state = .opening)
    (h : ∀ f ∈ s.link.queue, f.internalKind ≠ some .mic) : evalMic s = settle s := by
  have same : withdrawLostOpen (settle s) = settle s := withdrawLostOpen_of_unqueued (by rw [settle_link]; exact h)
  have kept : ownSide (settle s) = settle s := by
    unfold ownSide
    rw [settle_mic, opening]
    simp only [same, ite_self]
  rw [evalMic, kept, settle_settle]

theorem viewClear_of_unqueued {s : State} (h : s.floor.isQueued s.ownSeat = false) :
    viewClear s = evalMic { s with floor := { s.floor with queue := [] } } := by
  unfold viewClear
  rw [storeView_of_same (f := { s.floor with queue := [] }) rfl, h]
  rfl

theorem viewClear_of_queued {s : State} (h : s.floor.isQueued s.ownSeat = true) :
    viewClear s = evalMic (micCleared { s with floor := { s.floor with queue := [] } }) := by
  unfold viewClear
  rw [storeView_of_same (f := { s.floor with queue := [] }) rfl, h]
  rfl

section
variable {s : State} {target : Nat} {why : Reason}

theorem viewClose_of_other (h : target ≠ s.ownSeat) :
    viewClose target why s = evalMic (settle (storeStep (s.floor.removed target why) s)) :=
  congrArg evalMic (if_neg h)

theorem viewClose_of_own (h : target = s.ownSeat) :
    viewClose target why s = evalMic (micChairClose why (settle (storeStep (s.floor.removed target why) s))) :=
  congrArg evalMic (if_pos h)

end

theorem micPriorityOn_of_unmet {s : State} (h : s.meeting.profile.priorityCloses = false ∨ s.mic.state ≠ .open ∨
    s.mic.cls ≠ some .delegate) : micPriorityOn s = s :=
  if_neg fun ⟨closes, isOpen, delegate⟩ => by
    rcases h with h | h | h
    · exact absurd closes (by simp [h])
    · exact h isOpen
    · exact h delegate

/-- R47: a PRIORITY that the view takes, by what it does to the priority state. -/
theorem viewPriority_off (s : State) : viewPriority false s = evalMic { s with floor := { s.floor with priority := false } } := by
  have stored : storeStep (.plain { s.floor with priority := false }) s = { s with floor := { s.floor with priority := false } } :=
    storeView_of_same (f := { s.floor with priority := false }) rfl
  have set : s.floor.setPriority false s.meeting.profile.priorityAllowed = { s.floor with priority := false } := rfl
  rw [viewPriority, set]
  unfold floorStep
  rw [stored, removals_plain]
  simp [FloorStep.plain, evalMic_settle]

theorem viewPriority_refused {s : State} (h : s.meeting.profile.priorityAllowed = false) : viewPriority true s = evalMic s := by
  have set : s.floor.setPriority true s.meeting.profile.priorityAllowed = s.floor := by
    rw [h]
    rfl
  rw [viewPriority, set]
  exact floorStep_plain rfl rfl

theorem setPriority_allowed {s : State} (h : s.meeting.profile.priorityAllowed = true) :
    s.floor.setPriority true s.meeting.profile.priorityAllowed = { s.floor with priority := true } := by
  rw [h]
  rfl

theorem viewPriority_on_quiet {s : State} (h : s.meeting.profile.priorityAllowed = true)
    (quiet : s.floor.priority = true ∨ s.meeting.profile.priorityCloses = false ∨ s.mic.state ≠ .open ∨
      s.mic.cls ≠ some .delegate) :
    viewPriority true s = evalMic { s with floor := { s.floor with priority := true } } := by
  rw [viewPriority, setPriority_allowed h]
  cases was : s.floor.priority with
  | true => exact floorStep_plain rfl was.symm
  | false =>
    have unmet := quiet.resolve_left (by simp [was])
    rw [floorStep_priorityOn (f := { s.floor with priority := true }) rfl was rfl,
      micPriorityOn_of_unmet (by rw [settle_meeting, settle_mic]; exact unmet), evalMic_settle]

theorem viewPriority_on_closes {s : State} (h : s.meeting.profile.priorityAllowed = true) (was : s.floor.priority = false)
    (closes : s.meeting.profile.priorityCloses = true) (isOpen : s.mic.state = .open) (delegate : s.mic.cls = some .delegate) :
    viewPriority true s = evalMic (micClose .chair (settle { s with floor := { s.floor with priority := true } })) := by
  rw [viewPriority, setPriority_allowed h, floorStep_priorityOn (f := { s.floor with priority := true }) rfl was rfl]
  refine congrArg evalMic (if_pos ?_)
  rw [settle_meeting, settle_mic]
  exact ⟨closes, isOpen, delegate⟩

/-- R46 and R76: a CLEAR at a queued own seat in OPENING. -/
theorem viewClear_of_withdrawn {s : State} (queued : s.floor.isQueued s.ownSeat = true) (opening : s.mic.state = .opening)
    (mine : ∃ f ∈ s.link.queue, f.internalKind = some .mic) :
    viewClear s = settle (micOff (flushCheck { s with
      floor := { s.floor with queue := [] },
      link := { s.link with queue := s.link.queue.filter (fun f => decide (f.internalKind ≠ some .mic)) } })) := by
  rw [viewClear_of_queued queued]
  unfold micCleared
  rw [show ({ s with floor := { s.floor with queue := [] } } : State).mic.state = .opening from opening]
  dsimp only
  rw [withdrawOpen_of_queued (s := { s with floor := { s.floor with queue := [] } }) mine]
  exact evalMic_of_closed rfl

theorem viewClear_of_notWithdrawn {s : State} (queued : s.floor.isQueued s.ownSeat = true) (opening : s.mic.state = .opening)
    (none : ∀ f ∈ s.link.queue, f.internalKind ≠ some .mic) :
    viewClear s = settle { s with floor := { s.floor with queue := [] } } := by
  obtain ⟨w, notWithdrawn, answer⟩ := withdrawOpen_of_unqueued (s := { s with floor := { s.floor with queue := [] } }) none
  have same : micCleared { s with floor := { s.floor with queue := [] } } = { s with floor := { s.floor with queue := [] } } := by
    unfold micCleared
    rw [show ({ s with floor := { s.floor with queue := [] } } : State).mic.state = .opening from opening]
    dsimp only
    rw [answer]
    cases w with
    | withdrawn => exact absurd rfl notWithdrawn
    | started | none => rfl
  rw [viewClear_of_queued queued, same]
  exact evalMic_of_opening_unqueued opening none

/-- Settles O41. -/
theorem chairFramesAreTakenFromTheChairAlone : Obligations.ChairFramesAreTakenFromTheChairAlone := by
  refine ⟨fun source body k target m s u heardNow passes => ?_, fun target why s u stored => ?_, fun s k => ?_⟩
  · have chair : u.isChairSeat k = s.isChairSeat k := by rw [heardNow]; exact heard_chairSeat k k s
    have meeting : u.meeting = s.meeting := by rw [heardNow]; exact heard_meeting k s
    have own : u.ownSeat = s.config.seat := by rw [heardNow, State.ownSeat, heard_config]
    have untaken {act : State → State} (h : s.isChairSeat k = false) : (if u.isChairSeat k then act u else u) = u :=
      if_neg (by simp [chair, h])
    have taken {act : State → State} (h : s.isChairSeat k = true) : (if u.isChairSeat k then act u else u) = act u :=
      if_pos (chair.trans h)
    refine ⟨fun why close => ?_, fun grant => ?_, fun clear => ?_, fun on priority => ?_, fun n timeAdd => ?_⟩
    · have run := exec_of_passed close rfl passes
      rw [← heardNow] at run
      refine ⟨fun allowed => run.trans (congrArg (fun t => Host.Outcome.next (settle t)) (if_pos ?_)),
        fun other notChair => run.trans (congrArg (fun t => Host.Outcome.next (settle t)) (if_neg ?_))⟩
      · rwa [chair]
      · rw [chair, notChair]
        exact fun h => h.elim other nofun
    · have run := exec_of_passed grant rfl passes
      rw [← heardNow] at run
      refine ⟨fun h => run.trans ?_, fun h => run.trans (congrArg (fun t => Host.Outcome.next (settle t)) (untaken h))⟩
      have stepped : onGrant k target u = evalMic { u with floor := u.floor.grant target } :=
        (taken h).trans (floorStep_plain rfl rfl)
      rw [stepped]
      rfl
    · have run := exec_of_passed clear rfl passes
      rw [← heardNow] at run
      have run (h : s.isChairSeat k = true) : exec (.receiveClear source body) s = .next (settle (viewClear u)) :=
        run.trans (congrArg (fun t => Host.Outcome.next (settle t)) (taken h))
      refine ⟨fun h unqueued => ?_, fun h queued waiting => ?_, fun h queued opening => ⟨fun q p mine queue port => ?_,
        fun none => ?_⟩, fun h => ?_⟩
      · rw [run h, viewClear_of_unqueued (by rw [own]; exact unqueued)]
      · have cleared : micCleared { u with floor := { u.floor with queue := [] } }
            = micOff { u with floor := { u.floor with queue := [] } } := by
          unfold micCleared
          rw [show ({ u with floor := { u.floor with queue := [] } } : State).mic.state = .waiting from waiting]
        rw [run h, viewClear_of_queued (by rw [own]; exact queued), cleared, evalMic_of_closed rfl, settle_settle]
        rfl
      · rw [run h, viewClear_of_withdrawn (by rw [own]; exact queued) opening mine, settle_settle, flushCheck_eq, port, queue]
        rfl
      · rw [run h, viewClear_of_notWithdrawn (by rw [own]; exact queued) opening none, settle_settle]
      · have run := exec_of_passed clear rfl passes
        rw [← heardNow] at run
        exact run.trans (congrArg (fun t => Host.Outcome.next (settle t)) (untaken h))
    · have run := exec_of_passed priority rfl passes
      rw [← heardNow] at run
      have run' (h : s.isChairSeat k = true) : exec (.receivePriority source body) s = .next (settle (viewPriority on u)) :=
        run.trans (congrArg (fun t => Host.Outcome.next (settle t)) (taken h))
      refine ⟨fun h off => ?_, fun h isOn allowed quiet => ?_, fun h isOn allowed was closes isOpen delegate => ?_,
        fun h isOn refused => ?_, fun h => run.trans (congrArg (fun t => Host.Outcome.next (settle t)) (untaken h))⟩
      · rw [run' h, off, viewPriority_off]
      · rw [run' h, isOn, viewPriority_on_quiet (by rw [meeting]; exact allowed) (by rw [meeting]; exact quiet)]
      · rw [run' h, isOn, viewPriority_on_closes (by rw [meeting]; exact allowed) was (by rw [meeting]; exact closes) isOpen
          delegate]
      · rw [run' h, isOn, viewPriority_refused (by rw [meeting]; exact refused)]
        exact ⟨rfl, fun closed => by rw [evalMic_of_closed closed, settle_settle]⟩
    · have run := exec_of_passed timeAdd rfl passes
      rw [← heardNow] at run
      refine ⟨fun h mine => run.trans (congrArg (fun t => Host.Outcome.next (settle t)) (if_pos ?_)),
        fun other => run.trans (congrArg (fun t => Host.Outcome.next (settle t)) (if_neg ?_))⟩
      · exact ⟨chair.trans h, by rw [own]; exact mine⟩
      · rw [chair, own]
        exact fun ⟨isChair, mine⟩ => other.elim (fun h => by simp [h] at isChair) (fun h => h mine)
  · have mic : u.mic = s.mic := by rw [stored, settle_mic, storeStep_mic]
    have micOf {t : MicState} (h : s.mic.state = t) : u.mic.state = t := by rw [mic]; exact h
    have ofOwn (h : target = s.config.seat) : viewClose target why s = evalMic (micChairClose why u) := by
      rw [stored]; exact viewClose_of_own h
    refine ⟨fun quiet => ?_, fun own opening => ?_, fun own isOpen => ?_⟩
    · by_cases own : target = s.ownSeat
      · rw [ofOwn own]
        refine congrArg evalMic ?_
        unfold micChairClose
        rcases quiet with other | closed | waiting
        · exact absurd own other
        · rw [micOf closed]
        · rw [micOf waiting]
      · rw [stored]
        exact viewClose_of_other own
    · rw [ofOwn own]
      refine ⟨fun unpending => congrArg evalMic ?_, fun pending => congrArg evalMic ?_⟩
      · have unpendingNow : u.mic.closePending = none := by rw [mic]; exact unpending
        unfold micChairClose
        simp only [micOf opening, unpendingNow]
      · obtain ⟨w, pendingNow⟩ : ∃ w, u.mic.closePending = some w := by
          rw [mic]
          exact Option.ne_none_iff_exists'.1 pending
        unfold micChairClose
        simp only [micOf opening, pendingNow]
    · rw [ofOwn own]
      refine congrArg evalMic ?_
      unfold micChairClose
      rw [micOf isOpen]
      rfl
  · simp only [State.isChairSeat, Bool.and_eq_true, inMeeting_iff, decide_eq_true_eq, and_assoc]

end Sys2Proof.Machine

namespace Sys2Proof.Machine

/-! SUPPORT. The own microphone by its state (chapter 4): the evaluation (R66 to R68, R74), presses (R64, R65, R73), and
the speaking budget and silence (R78 to R81). -/

/-! ## Stamps and the meeting id -/

theorem nextStamp_eq {f : Floor} (h : f.stamp ≤ maxStamp) : f.nextStamp = min (f.stamp + 1) maxStamp := by
  unfold Floor.nextStamp
  split <;> omega

theorem issued_eq {f : Floor} (h : f.stamp ≤ maxStamp) : f.issued = { f with stamp := f.nextStamp } := by
  have next : max f.stamp f.nextStamp = f.nextStamp := by
    rw [nextStamp_eq h]
    omega
  rw [Floor.issued, Floor.raise, next]

theorem meetingId_of_running {s : State} (h : s.meeting.state ≠ .idle) : s.meetingId = s.meeting.id :=
  if_pos (inMeeting_iff.2 h)

/-! ## Eligibility (R66) -/

section
variable {s : State}

theorem settle_eligible : (settle s).eligible = s.eligible := by
  simp only [State.eligible, State.inMeeting, State.chairPresent, State.ownSeat, State.limit, settle_meeting, settle_config,
    settle_presence, settle_floor]
  rfl

theorem settle_overrideCloses : (settle s).overrideCloses = s.overrideCloses := by
  simp only [State.overrideCloses, State.ownSeat, State.limit, settle_meeting, settle_config, settle_floor]
  rfl

theorem settle_inMeeting : (settle s).inMeeting = s.inMeeting := by
  simp only [State.inMeeting, settle_meeting]

theorem chairPresent_iff : s.chairPresent = true ↔
    s.meeting.chair ≠ 0 ∧ (s.meeting.chair = s.config.seat ∨ (s.presence.peer s.meeting.chair).state = .present) := by
  have own : s.ownSeat = s.config.seat := rfl
  simp [State.chairPresent, ← own]

/-- R66: without a chair's grant a place is free for every position up to the limit. -/
theorem eligible_of_position {p : Nat} (running : s.meeting.state ≠ .idle) (position : s.floor.position s.config.seat = some p)
    (free : s.meeting.profile.mode ≠ .chairGrant ∨ s.chairPresent = false) :
    s.eligible = true ↔ p + s.floor.delegates.length ≤ s.meeting.profile.limit := by
  have notGranting : ¬ (s.meeting.profile.mode = .chairGrant ∧ s.chairPresent = true) := by
    rintro ⟨mode, present⟩
    exact free.elim (fun h => h mode) (by simp [present])
  have one : 1 ≤ p := le_of_positionFrom position
  rw [State.eligible, inMeeting_iff.2 running, if_neg notGranting, State.ownSeat, position]
  have room : p ≤ s.meeting.profile.limit - s.floor.delegates.length ↔ p + s.floor.delegates.length ≤ s.meeting.profile.limit := by
    omega
  rw [← room]
  exact decide_eq_true_iff

theorem eligible_of_chairGrant (running : s.meeting.state ≠ .idle) (mode : s.meeting.profile.mode = .chairGrant)
    (present : s.chairPresent = true) :
    s.eligible = true ↔ ∃ r : QueueRecord, s.floor.queueRecord s.config.seat = some r ∧ r.granted = true := by
  rw [State.eligible, inMeeting_iff.2 running, if_pos ⟨mode, present⟩, State.ownSeat]
  cases s.floor.queueRecord s.config.seat <;> simp

theorem overrideCloses_iff : s.overrideCloses = true ↔ s.meeting.profile.mode = .override ∧
    s.floor.delegates.length = s.meeting.profile.limit ∧
    (∃ r : OpenRecord, s.floor.delegates.head? = some r ∧ r.seat = s.config.seat) ∧ s.floor.queue ≠ [] := by
  unfold State.overrideCloses State.limit State.ownSeat
  cases s.floor.delegates.head? <;> simp [and_assoc]

/-! ## The evaluation by state -/

theorem ownSide_of_idle (h : s.meeting.state = .idle) : ownSide s = s :=
  if_neg (by simp [State.inMeeting, h])

theorem evalMic_of_idle (h : s.meeting.state = .idle) : evalMic s = settle s := by
  rw [evalMic, ownSide_of_idle (by rw [settle_meeting]; exact h), settle_settle]

/-- What the evaluation of a running meeting decides in a state of the own microphone. -/
theorem ownSide_of_running (h : s.meeting.state ≠ .idle) : ownSide s =
    match s.mic.state with
    | .closed => s
    | .waiting => if s.eligible then offerOpen s else s
    | .opening =>
        if s.mic.cls = some .delegate ∧ s.mic.closePending = none ∧ s.eligible = false then withdrawLostOpen s else s
    | .open => if s.mic.cls = some .delegate ∧ s.overrideCloses = true then micClose .override s else s :=
  if_pos (inMeeting_iff.2 h)

section
variable (running : s.meeting.state ≠ .idle)
include running

theorem evalMic_of_waiting (waiting : s.mic.state = .waiting) :
    evalMic s = if s.eligible then settle (offerOpen (settle s)) else settle s := by
  rw [evalMic, ownSide_of_running (by rw [settle_meeting]; exact running), settle_mic, waiting]
  dsimp only
  rw [settle_eligible]
  split
  · rfl
  · exact settle_settle s

theorem evalMic_of_opening (opening : s.mic.state = .opening) : evalMic s =
    if s.mic.cls = some .delegate ∧ s.mic.closePending = none ∧ s.eligible = false then
      settle (withdrawLostOpen (settle s)) else settle s := by
  rw [evalMic, ownSide_of_running (by rw [settle_meeting]; exact running), settle_mic, opening]
  dsimp only
  rw [settle_eligible]
  split
  · rfl
  · exact settle_settle s

theorem evalMic_of_open (isOpen : s.mic.state = .open) : evalMic s =
    if s.mic.cls = some .delegate ∧ s.overrideCloses = true then settle (micClose .override (settle s)) else settle s := by
  rw [evalMic, ownSide_of_running (by rw [settle_meeting]; exact running), settle_mic, isOpen]
  dsimp only
  rw [settle_overrideCloses]
  split
  · rfl
  · exact settle_settle s

end

/-- R68: the withdrawal of an own OPEN that is in the queue. -/
theorem withdrawLostOpen_of_queued {t : State} (h : ∃ f ∈ t.link.queue, f.internalKind = some .mic) :
    withdrawLostOpen t = { flushCheck { t with link := { t.link with
      queue := t.link.queue.filter (fun f => decide (f.internalKind ≠ some .mic)) } } with
        mic := { t.mic with state := .waiting, cls := none, openStamp := 0 } } := by
  unfold withdrawLostOpen
  rw [withdrawOpen_of_queued h, flushCheck_eq]

end

/-- Settles O46. -/
theorem ownSideIsEvaluatedByItsState : Obligations.OwnSideIsEvaluatedByItsState := by
  refine ⟨?_, fun s => chairPresent_iff⟩
  rintro s u rfl
  refine ⟨fun quiet => quiet.elim evalMic_of_idle evalMic_of_closed, fun running =>
    ⟨fun p position free => eligible_of_position running position free,
      fun mode present => eligible_of_chairGrant running mode present, fun waiting not => ?_,
      fun waiting eligible k hk bound => ?_, fun opening delegate unpending lost => ⟨fun q p mine queue port => ?_,
        fun none => evalMic_of_opening_unqueued opening none⟩, fun opening stays => ?_,
      fun isOpen => ⟨fun r delegate mode full head own waiting => ?_, fun stays => ?_⟩⟩⟩
  · rw [evalMic_of_waiting running waiting, if_neg (by simp [not])]
  · have stamp : (settle s).floor.stamp ≤ maxStamp := by rw [settle_floor]; exact bound
    have next : (settle s).floor.nextStamp = k := by rw [nextStamp_eq stamp, settle_floor, hk]
    have id : (settle s).meetingId = s.meeting.id := by
      rw [meetingId_of_running (by rw [settle_meeting]; exact running), settle_meeting]
    rw [evalMic_of_waiting running waiting, if_pos eligible]
    unfold offerOpen
    dsimp only
    rw [issued_eq stamp, next, id, settle_mic]
  · rw [evalMic_of_opening running opening, if_pos ⟨delegate, unpending, lost⟩,
      withdrawLostOpen_of_queued (by rw [settle_link]; exact mine), flushCheck_eq, port, queue]
    dsimp only
    rw [settle_link, settle_port]
  · refine (evalMic_of_opening running opening).trans (if_neg ?_)
    rintro ⟨delegate, unpending, lost⟩
    rcases stays with h | h | h
    · exact h delegate
    · exact h unpending
    · exact absurd h (by simp [lost])
  · exact (evalMic_of_open running isOpen).trans
      (if_pos ⟨delegate, overrideCloses_iff.2 ⟨mode, full, ⟨r, head, own⟩, waiting⟩⟩)
  · refine (evalMic_of_open running isOpen).trans (if_neg ?_)
    rintro ⟨delegate, closes⟩
    obtain ⟨mode, full, ⟨r, head, own⟩, waiting⟩ := overrideCloses_iff.1 closes
    rcases stays with h | h | h | h | h
    · exact h delegate
    · exact h mode
    · exact h full
    · exact h r head own
    · exact waiting h

/-! ## A close of the own accord (R55, R65) -/

theorem removals_removed {f : Floor} {k : Nat} {why : Reason} (h : f.isOpen k = true) :
    (f.removed k why).removals f = [(k, why)] := by
  have gone : (f.dropOpen k).isOpen k = false := by
    rw [← Bool.not_eq_true, Floor.isOpen_iff]
    rintro ⟨r, mem, seat⟩
    simp [Floor.dropOpen, seat] at mem
  simp [Floor.removed, FloorStep.removals, h, gone]

theorem entries_removed (f : Floor) (k : Nat) (why : Reason) : (f.removed k why).entries f = [] := by
  simp only [FloorStep.entries, List.map_eq_nil_iff, List.filter_eq_nil_iff]
  intro r mem
  have was : f.isOpen r.seat = true := Floor.isOpen_iff.2 ⟨r, (List.mem_filter.1 mem).1, rfl⟩
  simp [was]

/-- R37 to R39: the own seat leaves the own open set: the notice, and the voice slot emptied. The own seat has no source
slot. -/
theorem storeStep_ownRemoved {s : State} {why : Reason} (h : s.floor.isOpen s.ownSeat = true) :
    storeStep (s.floor.removed s.ownSeat why) s = emptyVoice (notify (.closed s.ownSeat why)
      { s with floor := s.floor.dropOpen s.ownSeat }) := by
  have slots : bindNet s.ownSeat [s.ownSeat] [] s.mix.slots = s.mix.slots := by simp [bindNet]
  unfold storeStep
  rw [removals_removed h, entries_removed]
  simp [slots, notifyAll, Floor.removed]

theorem push_of_room {p : Port} (h : p.notices.length < 16) (n : Notice) : p.push n = { p with notices := p.notices ++ [n] } :=
  if_pos h

/-- R55 and R65: a close from an open set that holds the own seat, with room for its notice. -/
theorem micClose_of_open {s : State} {why : Reason} (h : s.floor.isOpen s.config.seat = true)
    (room : s.port.notices.length < 16) :
    micClose why s = leaveOpenRelease (offerFrame (.close s.meetingId s.config.seat why)
      (settle { s with floor := { s.floor with openSet := s.floor.openSet.filter (fun r => decide (r.seat ≠ s.config.seat)) },
                       mic := .reset, capture := { s.capture with placing := false },
                       link := { s.link with voiceSlot := none },
                       port := { s.port with notices := s.port.notices ++ [.closed s.config.seat why] } })) := by
  have stored := storeStep_ownRemoved (s := micOff s) (why := why) h
  have pushed : (micOff s).port.push (.closed s.ownSeat why)
      = { s.port with notices := s.port.notices ++ [.closed s.config.seat why] } := push_of_room (p := s.port) room _
  have whole : storeStep (s.floor.removed s.ownSeat why) (micOff s)
      = { s with floor := s.floor.dropOpen s.ownSeat, mic := .reset, capture := { s.capture with placing := false },
                 link := { s.link with voiceSlot := none },
                 port := (micOff s).port.push (.closed s.ownSeat why) } := stored
  unfold micClose
  rw [whole, pushed]
  rfl

/-! ## Presses (R64, R65, R73) -/

section
variable {s : State}

theorem pressTaken_iff : s.pressTaken = true ↔ s.config.role = .seat ∧ s.station = .run ∧ s.meeting.state ≠ .idle := by
  simp [State.pressTaken, State.inMeeting, and_assoc]

theorem opening_of_kindCode {b : Body} (h : b.kindCode = 0x43#8) : ∃ m o q c, b = .opening m o q c := by
  cases b with
  | opening m o q c => exact ⟨m, o, q, c, rfl⟩
  | _ => exact absurd h (by simp [Body.kindCode])

/-- R14: "started" for an own OPEN in send. -/
theorem withdrawOpen_of_started {x : Sending} (unqueued : ∀ f ∈ s.link.queue, f.internalKind ≠ some .mic)
    (sending : s.link.inSend = some x) (valid : x.voided = false) (opening : x.frame.body.kindCode = 0x43#8) :
    withdrawOpen s = (s, .started) := by
  obtain ⟨m, o, q, c, body⟩ := opening_of_kindCode opening
  have none : ¬ (s.link.queue.any fun f => decide (f.internalKind = some .mic)) = true := by simpa using unqueued
  unfold withdrawOpen
  rw [if_neg none]
  simp [sending, body, valid]

/-- R14: "none" where no own OPEN is in the queue or in send. -/
theorem withdrawOpen_of_none (unqueued : ∀ f ∈ s.link.queue, f.internalKind ≠ some .mic)
    (other : ∀ x : Sending, s.link.inSend = some x → x.voided = true ∨ x.frame.body.kindCode ≠ 0x43#8) :
    withdrawOpen s = (s, .none) := by
  have none : ¬ (s.link.queue.any fun f => decide (f.internalKind = some .mic)) = true := by simpa using unqueued
  unfold withdrawOpen
  rw [if_neg none]
  cases sending : s.link.inSend with
  | none => rfl
  | some x =>
    cases body : x.frame.body with
    | opening m o q c =>
      have voided : x.voided = true := (other x sending).resolve_right (fun h => h (by rw [body]; rfl))
      simp [body, voided]
    | _ => simp [body]

theorem closeOpening_of_started {x : Sending} {why : Reason} (unqueued : ∀ f ∈ s.link.queue, f.internalKind ≠ some .mic)
    (sending : s.link.inSend = some x) (valid : x.voided = false) (opening : x.frame.body.kindCode = 0x43#8) :
    closeOpening why s = { s with mic := { s.mic with closePending := some why } } := by
  unfold closeOpening
  rw [withdrawOpen_of_started unqueued sending valid opening]

theorem closeOpening_of_none {why : Reason} (unqueued : ∀ f ∈ s.link.queue, f.internalKind ≠ some .mic)
    (other : ∀ x : Sending, s.link.inSend = some x → x.voided = true ∨ x.frame.body.kindCode ≠ 0x43#8) :
    closeOpening why s = s := by
  unfold closeOpening
  rw [withdrawOpen_of_none unqueued other]

theorem closeOpening_of_queued {why : Reason} {t : State} (mine : ∃ f ∈ s.link.queue, f.internalKind = some .mic)
    (withdrawn : t = flushCheck { s with link := { s.link with
      queue := s.link.queue.filter (fun f => decide (f.internalKind ≠ some .mic)) } }) :
    closeOpening why s = if s.mic.cls = some .chair then micOff t else micWithdraw t := by
  unfold closeOpening
  rw [withdrawOpen_of_queued mine, ← withdrawn]

theorem micWithdraw_eq (s : State) : micWithdraw s = offerFrame (.withdraw s.meetingId) { s with
    floor := { s.floor with queue := s.floor.queue.filter (fun r => decide (r.seat ≠ s.config.seat)) },
    mic := .reset, capture := { s.capture with placing := false } } := by
  unfold micWithdraw
  rw [storeView_of_same (f := s.floor.dropQueue s.ownSeat) (s := micOff s) rfl]
  rfl

theorem micPressed_of_taken (h : s.pressTaken = true) : micPressed s = takePress s := if_pos h

theorem micPressed_of_flash (h : s.pressTaken = false) (role : s.config.role = .seat) (station : s.station ≠ .clash) :
    micPressed s = startFlash s := (if_neg (by simp [h])).trans (if_pos ⟨role, station⟩)

theorem micPressed_of_clash (clash : s.station = .clash) : micPressed s = s :=
  (if_neg fun h => by simp [pressTaken_iff, clash] at h).trans (if_neg fun h => h.2 clash)

theorem takePress_of_closed (closed : s.mic.state = .closed) :
    takePress s = if s.isChair then chairOpens s else requestFloor s := by
  unfold takePress
  rw [closed]

theorem takePress_of_waiting (waiting : s.mic.state = .waiting) : takePress s = micWithdraw s := by
  unfold takePress
  rw [waiting]

theorem takePress_of_open (isOpen : s.mic.state = .open) : takePress s = micClose .speaker s := by
  unfold takePress
  rw [isOpen]

theorem takePress_of_opening (opening : s.mic.state = .opening) (unpending : s.mic.closePending = none) :
    takePress s = closeOpening .speaker s := by
  unfold takePress
  rw [opening]
  simp only [unpending]

theorem takePress_of_pending {why : Reason} (opening : s.mic.state = .opening) (pending : s.mic.closePending = some why) :
    takePress s = { s with mic := { s.mic with closePending := none } } := by
  unfold takePress
  rw [opening]
  simp only [pending]

/-- R65: a delegate's press in CLOSED where its seat is in neither collection. -/
theorem requestFloor_of_free {k : Nat} (bound : s.floor.stamp ≤ maxStamp) (next : s.floor.nextStamp = k)
    (notOpen : s.floor.isOpen s.config.seat = false) (unqueued : s.floor.isQueued s.config.seat = false) :
    requestFloor s = evalMic (offerFrame (.request s.meetingId k)
      { s with floor := { s.floor with
                 stamp := k,
                 queue := insertQueue { seat := s.config.seat, requestStamp := k, granted := false } s.floor.queue },
               mic := { OwnMic.reset with state := .waiting, requestStamp := k } }) := by
  have counter : max s.floor.stamp k = k := by
    rw [← next, nextStamp_eq bound]
    omega
  have joined : s.floor.request s.ownSeat k = { s.floor with
      stamp := k,
      queue := insertQueue { seat := s.config.seat, requestStamp := k, granted := false } s.floor.queue } := by
    rw [Floor.request_eq, counter, if_neg (by simp [State.ownSeat, notOpen, unqueued])]
    rfl
  unfold requestFloor
  dsimp only
  rw [next, joined, storeView_of_same (s := { s with mic := { OwnMic.reset with state := .waiting, requestStamp := k } })
    (f := { s.floor with
      stamp := k,
      queue := insertQueue { seat := s.config.seat, requestStamp := k, granted := false } s.floor.queue }) rfl]

end

/-- Settles O47. -/
theorem pressAppliesTheTable : Obligations.PressAppliesTheTable := by
  refine ⟨fun s role run running => ?_, fun why s => ?_, fun s taken => ?_, fun s u pressed role => ?_, fun s role => ?_⟩
  · have isTaken : s.pressTaken = true := pressTaken_iff.2 ⟨role, run, running⟩
    have id : s.meetingId = s.meeting.id := meetingId_of_running running
    refine ⟨fun idle => ?_, fun u pressed => ?_, fun k closed bound hk => ?_, fun waiting => ?_,
      fun why opening pending => takePress_of_pending opening pending,
      fun x opening unpending unqueued sending valid isOpen => ?_, fun isOpen mine room => ?_,
      fun opening unpending => takePress_of_opening opening unpending⟩
    · have ready : RunTaken s := ⟨idle, by rw [run]; nofun⟩
      exact congrArg Host.Outcome.next ((runGroup_of_taken ready _).trans (if_pos isTaken))
    · have takes : micPressed u = takePress u :=
        micPressed_of_taken (pressTaken_iff.2 (by rw [pressed]; exact ⟨role, run, running⟩))
      have hasButtons : s.hasButtons = true := decide_eq_true role
      rw [← takes, pressed]
      exact congrArg Host.Outcome.next (if_pos hasButtons)
    · have next : s.floor.nextStamp = k := by rw [nextStamp_eq bound, hk]
      rw [takePress_of_closed closed]
      refine ⟨fun chair => ?_, fun r record delegate notOpen unqueued => ?_⟩
      · rw [if_pos chair]
        unfold chairOpens
        dsimp only
        rw [issued_eq bound, next, id]
      · rw [if_neg (by simp [delegate]), requestFloor_of_free bound next notOpen unqueued, record, id]
    · rw [takePress_of_waiting waiting, micWithdraw_eq, id]
    · rw [takePress_of_opening opening unpending, closeOpening_of_started unqueued sending valid isOpen]
    · rw [takePress_of_open isOpen, micClose_of_open mine room, id]
  · refine ⟨fun x unqueued sending valid opening => closeOpening_of_started unqueued sending valid opening,
      fun unqueued other => closeOpening_of_none unqueued other, fun q p mine queue port => ?_⟩
    rw [closeOpening_of_queued mine rfl, flushCheck_eq, port, queue]
    refine ⟨fun chair => ?_, fun delegate => ?_⟩
    · rw [if_pos chair]
      rfl
    · rw [if_neg delegate, micWithdraw_eq]
      rfl
  · refine ⟨fun untaken => ?_, fun role run idle => ?_⟩
    · have notTaken : ¬ s.pressTaken = true := fun h => by
        obtain ⟨role, run, _⟩ := pressTaken_iff.1 h
        exact untaken.elim (fun k => k role) (by simp [run])
      have noFlash : ¬ (s.config.role = .seat ∧ s.station = .run) := fun ⟨role, run⟩ =>
        untaken.elim (fun k => k role) (by simp [run])
      exact congrArg Host.Outcome.next ((runGroup_of_taken taken _).trans ((if_neg notTaken).trans (if_neg noFlash)))
    · have notTaken : ¬ s.pressTaken = true := fun h => (pressTaken_iff.1 h).2.2 idle
      exact congrArg Host.Outcome.next ((runGroup_of_taken taken _).trans ((if_neg notTaken).trans (if_pos ⟨role, run⟩)))
  · have hasButtons : s.hasButtons = true := decide_eq_true role
    have run : exec .micPress s = .next (settle (micPressed u)) := by
      rw [pressed]
      exact congrArg Host.Outcome.next (if_pos hasButtons)
    have station : u.station = s.station := by rw [pressed]
    refine ⟨fun idle => ?_, fun clash => ?_⟩
    · have notTaken : u.pressTaken = false := by
        rw [← Bool.not_eq_true, pressTaken_iff, pressed]
        rintro ⟨_, running, meeting⟩
        exact idle.elim (fun setup => by simp [setup] at running) (fun h => meeting h.2)
      rw [run, micPressed_of_flash notTaken (by rw [pressed]; exact role) (by rw [station]; rcases idle with h | h <;> simp [h])]
      rfl
    · rw [run, micPressed_of_clash (station.trans clash)]
  · have noButtons : ¬ s.hasButtons = true := by simpa [State.hasButtons] using role
    exact congrArg Host.Outcome.next (if_neg noButtons)

/-! ## The speaking budget (R78 to R80) -/

section
variable {s : State}

theorem warn_of_unlimited (h : s.mic.remaining = none) : warn s = s := by
  unfold warn
  rw [h]

section
variable {n : Nat} (h : s.mic.remaining = some n)
include h

/-- R78: the warning test under a limited budget. -/
theorem warn_of_limited : warn s =
    if 0 < s.meeting.profile.warning ∧ n ≤ s.meeting.profile.warning ∧ s.mic.warned = false then
      notify (.timeWarning s.ownSeat) { s with mic := { s.mic with warned := true } }
    else if s.meeting.profile.warning < n then { s with mic := { s.mic with warned := false } } else s := by
  unfold warn
  simp only [h]

theorem warningTest_of_warns (limited : 0 < s.meeting.profile.warning) (near : n ≤ s.meeting.profile.warning)
    (fresh : s.mic.warned = false) : warningTest s
      = settle (notify (.timeWarning s.config.seat) { settle s with mic := { (settle s).mic with warned := true } }) := by
  have warns : warn (settle s) = notify (.timeWarning (settle s).ownSeat)
      { settle s with mic := { (settle s).mic with warned := true } } :=
    (warn_of_limited (by rw [settle_mic]; exact h)).trans (if_pos (by
      rw [settle_meeting, settle_mic]
      exact ⟨limited, near, fresh⟩))
  rw [warningTest, warns, State.ownSeat, settle_config]

theorem warningTest_of_far (far : s.meeting.profile.warning < n) :
    warningTest s = settle { settle s with mic := { (settle s).mic with warned := false } } := by
  have clears : warn (settle s) = { settle s with mic := { (settle s).mic with warned := false } } := by
    refine (warn_of_limited (by rw [settle_mic]; exact h)).trans ((if_neg ?_).trans (if_pos ?_))
    · rw [settle_meeting]
      exact fun k => by omega
    · rwa [settle_meeting]
  rw [warningTest, clears]

theorem warningTest_of_quiet (near : n ≤ s.meeting.profile.warning)
    (quiet : s.meeting.profile.warning = 0 ∨ s.mic.warned = true) : warningTest s = settle s := by
  have same : warn (settle s) = settle s := by
    rw [warn_of_limited (by rw [settle_mic]; exact h), settle_meeting, settle_mic, if_neg, if_neg (by omega)]
    rintro ⟨limited, _, fresh⟩
    exact quiet.elim (by omega) (by simp [fresh])
  rw [warningTest, same, settle_settle]

theorem budgetSecondPasses_of_overrun (over' : s.mic.overrun = true) : budgetSecondPasses s = { s with mic := { s.mic with
    overrunCount := if s.mic.overrunCount < 999 then s.mic.overrunCount + 1 else s.mic.overrunCount } } := by
  unfold budgetSecondPasses
  simp only [h]
  exact if_pos over'

theorem budgetSecondPasses_of_counting (counting : s.mic.overrun = false) : budgetSecondPasses s =
    if n - 1 = 0 then budgetExpires (warningTest { s with mic := { s.mic with remaining := some (n - 1) } })
    else warningTest { s with mic := { s.mic with remaining := some (n - 1) } } := by
  unfold budgetSecondPasses
  simp only [h]
  exact if_neg (by simp [counting])

theorem micTimeAdd_of_delegate (k : Nat) (isOpen : s.mic.state = .open) (delegate : s.mic.cls = some .delegate) :
    micTimeAdd k s = if s.mic.overrun then
        warningTest { s with mic := { s.mic with remaining := some k, overrun := false, overrunCount := 0 } }
      else warningTest { s with mic := { s.mic with remaining := some (min 600 (n + k)) } } := by
  unfold micTimeAdd
  rw [if_pos ⟨isOpen, delegate⟩]
  simp only [h]
  rfl

theorem exec_budgetSecond (isOpen : s.mic.state = .open) : exec .budgetSecond s
    = .next (settle (budgetSecondPasses { s with mic := { s.mic with secondCount := 0 } })) :=
  congrArg Host.Outcome.next (if_pos (by simp [State.budgetRuns, isOpen, h]))

theorem exec_budgetExpiry (isOpen : s.mic.state = .open) (counting : s.mic.overrun = false) : exec .budgetExpiry s
    = .next (settle (budgetExpires (warningTest { s with mic := { s.mic with remaining := some 0, secondCount := 0 } }))) :=
  congrArg Host.Outcome.next (if_pos ⟨by simp [State.budgetRuns, isOpen, h], counting⟩)

end

theorem micTimeAdd_of_not_limited (k : Nat) (h : s.mic.state ≠ .open ∨ s.mic.cls ≠ some .delegate ∨ s.mic.remaining = none) :
    micTimeAdd k s = s := by
  unfold micTimeAdd
  split
  next delegate =>
    have unlimited : s.mic.remaining = none := (h.resolve_left (fun k => k delegate.1)).resolve_left (fun k => k delegate.2)
    simp only [unlimited]
  · rfl

theorem budgetExpires_hard (hard : s.meeting.profile.budgetKind = .hard) :
    budgetExpires s = notify (.timeExpired s.config.seat) (micClose .timeout s) := by
  unfold budgetExpires
  rw [hard]
  rfl

theorem budgetExpires_soft (soft : s.meeting.profile.budgetKind = .soft) : budgetExpires s
    = notify (.timeExpired s.config.seat) { s with mic := { s.mic with overrun := true, overrunCount := 0 } } := by
  unfold budgetExpires
  rw [soft]
  rfl

/-! ## Silence (R81) -/

theorem silenceLimit_eq (limited : 0 < s.meeting.profile.silence ∨ s.meeting.profile.mode = .voice) :
    s.silenceLimit = some (if 0 < s.meeting.profile.silence then s.meeting.profile.silence * 250 else 750) := by
  unfold State.silenceLimit
  by_cases own : 0 < s.meeting.profile.silence
  · simp only [if_pos own]
    rfl
  · simp only [if_neg own, if_pos (limited.resolve_left own)]
    rfl

theorem silenceLimit_none (own : s.meeting.profile.silence = 0) (mode : s.meeting.profile.mode ≠ .voice) :
    s.silenceLimit = none := by
  simp [State.silenceLimit, own, mode]

theorem silenceBlock_of_other (h : s.mic.state ≠ .open ∨ s.mic.cls ≠ some .delegate ∨ s.capture.talking = true) :
    silenceBlock s = s :=
  if_neg fun ⟨isOpen, delegate, quiet⟩ =>
    h.elim (fun k => k isOpen) (fun h => h.elim (fun k => k delegate) (by simp [quiet]))

/-- R81: a block of talk state QUIET of an OPEN delegate. -/
theorem silenceBlock_of_quiet {n : Nat} {t : State} (isOpen : s.mic.state = .open) (delegate : s.mic.cls = some .delegate)
    (quiet : s.capture.talking = false) (count : n = if s.mic.silence < 15000 then s.mic.silence + 1 else s.mic.silence)
    (counted : t = { s with mic := { s.mic with silence := n } }) :
    (s.silenceLimit = none → silenceBlock s = t) ∧
    (∀ limit : Nat, s.silenceLimit = some limit → silenceBlock s = if limit ≤ n then micClose .silence t else t) := by
  subst count counted
  have taken : s.mic.state = .open ∧ s.mic.cls = some .delegate ∧ s.capture.talking = false := ⟨isOpen, delegate, quiet⟩
  unfold silenceBlock
  rw [if_pos taken]
  refine ⟨fun none => ?_, fun limit h => ?_⟩
  · simp only [none]
    rfl
  · simp only [h]
    rfl

theorem budgetBlock_of_idle (h : s.mic.state ≠ .open ∨ s.mic.remaining = none) : budgetBlock s = s :=
  if_neg fun ⟨isOpen, limited⟩ => h.elim (fun k => k isOpen) limited

theorem budgetBlock_of_running (isOpen : s.mic.state = .open) (limited : s.mic.remaining ≠ none) : budgetBlock s =
    if s.mic.secondCount + 1 < 250 then { s with mic := { s.mic with secondCount := s.mic.secondCount + 1 } }
    else budgetSecondPasses { s with mic := { s.mic with secondCount := 0 } } := if_pos ⟨isOpen, limited⟩

end

/-- Settles O48. -/
theorem budgetAndSilenceCloseTheMicrophone : Obligations.BudgetAndSilenceCloseTheMicrophone := by
  refine ⟨fun s isOpen => ⟨fun n u remaining counting hu => ?_, fun n remaining last counting => ?_,
      fun n remaining overrun => ?_, fun n u remaining counting quiet hu => ?_,
      fun n u v remaining counting limited fresh hu hv => ?_, fun delegate quiet limited => ?_⟩, ?_, fun s => ?_⟩
  · have run : exec .budgetSecond s = .next (settle (warningTest
        { s with mic := { s.mic with remaining := some (n + 1), secondCount := 0 } })) := by
      rw [exec_budgetSecond remaining isOpen, budgetSecondPasses_of_counting
        (s := { s with mic := { s.mic with secondCount := 0 } }) remaining counting]
      rfl
    have left : ({ s with mic := { s.mic with remaining := some (n + 1), secondCount := 0 } } : State).mic.remaining
      = some (n + 1) := rfl
    rw [run, hu]
    refine ⟨fun limited near fresh => ?_, fun far => ?_, fun warned near => ?_⟩
    · rw [warningTest_of_warns left limited near fresh, settle_settle]
    · rw [warningTest_of_far left far, settle_settle]
    · rw [warningTest_of_quiet left near (.inr warned), settle_settle]
  · have zero : n - 1 = 0 := by omega
    rw [exec_budgetSecond remaining isOpen, budgetSecondPasses_of_counting
      (s := { s with mic := { s.mic with secondCount := 0 } }) remaining counting, zero, if_pos rfl]
  · rw [exec_budgetSecond remaining isOpen,
      budgetSecondPasses_of_overrun (s := { s with mic := { s.mic with secondCount := 0 } }) remaining overrun]
  · have tested : warningTest { s with mic := { s.mic with remaining := some 0, secondCount := 0 } } = u := by
      rw [hu]
      exact warningTest_of_quiet (n := 0) rfl (Nat.zero_le _) quiet
    have profile : u.meeting.profile = s.meeting.profile := by rw [hu, settle_meeting]
    have seat : u.config.seat = s.config.seat := by rw [hu, settle_config]
    rw [exec_budgetExpiry remaining isOpen counting, tested, ← seat]
    exact ⟨fun hard => by rw [budgetExpires_hard (by rw [profile]; exact hard)],
      fun soft => by rw [budgetExpires_soft (by rw [profile]; exact soft)]⟩
  · have tested : warningTest { s with mic := { s.mic with remaining := some 0, secondCount := 0 } } = v := by
      rw [hv, hu]
      exact warningTest_of_warns (n := 0) rfl limited (Nat.zero_le _) fresh
    have profile : v.meeting.profile = s.meeting.profile := by rw [hv, settle_meeting, hu]; exact congrArg _ (settle_meeting _)
    have seat : v.config.seat = s.config.seat := by rw [hv, settle_config, hu]; exact congrArg _ (settle_config _)
    rw [exec_budgetExpiry remaining isOpen counting, tested]
    refine ⟨fun hard => ?_, fun soft => ?_⟩
    · rw [budgetExpires_hard (by rw [profile]; exact hard), seat]
    · rw [budgetExpires_soft (by rw [profile]; exact soft), seat]
  · refine congrArg Host.Outcome.next (if_pos ⟨isOpen, delegate, quiet, ?_⟩)
    rw [silenceLimit_eq limited]
    exact Option.some_ne_none _
  · rintro s u rfl
    refine ⟨fun unlimited => ?_, fun n remaining => ⟨warningTest_of_warns remaining, warningTest_of_far remaining,
        warningTest_of_quiet remaining⟩, rfl, fun k => ⟨micTimeAdd_of_not_limited k, fun n isOpen delegate remaining => ?_⟩,
      budgetExpires_hard, budgetExpires_soft, fun why mine room => micClose_of_open mine room⟩
    · rw [warningTest, warn_of_unlimited (by rw [settle_mic]; exact unlimited), settle_settle]
    · rw [micTimeAdd_of_delegate remaining k isOpen delegate]
      exact ⟨fun counting => if_neg (by simp [counting]), fun overrun => if_pos overrun⟩
  · refine ⟨budgetBlock_of_idle, fun isOpen limited => ?_, silenceBlock_of_other,
      fun n limit t isOpen delegate quiet count hlimit counted => ?_⟩
    · obtain ⟨n, remaining⟩ := Option.ne_none_iff_exists'.1 limited
      rw [budgetBlock_of_running isOpen limited]
      refine ⟨fun within => if_pos (by omega), fun full => ?_⟩
      rw [exec_budgetSecond remaining isOpen, if_neg (by omega)]
    · obtain ⟨unlimited, limited⟩ := silenceBlock_of_quiet isOpen delegate quiet count counted
      refine ⟨fun stays => ?_, fun reached h => ?_⟩
      · by_cases h : 0 < s.meeting.profile.silence ∨ s.meeting.profile.mode = .voice
        · rw [limited _ (silenceLimit_eq h), ← hlimit, if_neg]
          rcases stays with within | ⟨own, mode⟩
          · omega
          · exact absurd h (by simp [own, mode])
        · obtain ⟨own, mode⟩ := not_or.1 h
          exact unlimited (silenceLimit_none (by omega) mode)
      · rw [limited _ (silenceLimit_eq h), ← hlimit, if_pos reached]

end Sys2Proof.Machine

namespace Sys2Proof.Machine

/-! SUPPORT. The chair's commands (R82 to R85, R145, R146, R158) and the own claim's commands (R173, R175). -/

/-! ## Codes of the chair's commands -/

section
variable {b : Byte}

theorem grantConditionOf_any (h : b.toNat = 1) : grantConditionOf b = some .any := by
  unfold grantConditionOf
  rw [h]
  rfl

theorem grantConditionOf_ifHead (h : b.toNat = 2) : grantConditionOf b = some .ifHead := by
  unfold grantConditionOf
  rw [h]
  rfl

theorem grantConditionOf_ifQueued (h : b.toNat = 3) : grantConditionOf b = some .ifQueued := by
  unfold grantConditionOf
  rw [h]
  rfl

theorem grantConditionOf_none (h : b.toNat = 0 ∨ 3 < b.toNat) : grantConditionOf b = none := by
  unfold grantConditionOf
  split
  · omega
  · omega
  · omega
  · rfl

theorem closeConditionOf_any (h : b.toNat = 1) : closeConditionOf b = some false := by
  unfold closeConditionOf
  rw [h]
  rfl

theorem closeConditionOf_ifFirst (h : b.toNat = 2) : closeConditionOf b = some true := by
  unfold closeConditionOf
  rw [h]
  rfl

theorem closeConditionOf_none (h : b.toNat = 0 ∨ 2 < b.toNat) : closeConditionOf b = none := by
  unfold closeConditionOf
  split
  · omega
  · omega
  · rfl

/-- R83: the condition that a code of GRANT names, and when it holds of a seat. -/
theorem grantHolds_of_code (low : 1 ≤ b.toNat) (high : b.toNat ≤ 3) (f : Floor) (k : Nat) :
    ∃ c, grantConditionOf b = some c ∧ (f.grantHolds k c = true ↔ b.toNat = 1 ∨
      (b.toNat = 2 ∧ f.position k = some 1) ∨ (b.toNat = 3 ∧ f.isQueued k = true)) := by
  obtain any | head | queued : b.toNat = 1 ∨ b.toNat = 2 ∨ b.toNat = 3 := by omega
  · exact ⟨.any, grantConditionOf_any any, by simp [any, Floor.grantHolds]⟩
  · exact ⟨.ifHead, grantConditionOf_ifHead head, by simp [head, Floor.grantHolds]⟩
  · exact ⟨.ifQueued, grantConditionOf_ifQueued queued, by simp [queued, Floor.grantHolds]⟩

/-- R84: the condition that a code of CLOSE_SEAT names, and when it refuses a seat. -/
theorem closeHolds_of_code (low : 1 ≤ b.toNat) (high : b.toNat ≤ 2) (f : Floor) (k : Nat) :
    ∃ c, closeConditionOf b = some c ∧ (¬ (c = true ∧ f.isFirstDelegate k = false) ↔ b.toNat = 1 ∨
      (b.toNat = 2 ∧ f.delegates.head?.map (fun r => r.seat) = some k)) := by
  obtain any | first : b.toNat = 1 ∨ b.toNat = 2 := by omega
  · exact ⟨false, closeConditionOf_any any, by simp [any]⟩
  · exact ⟨true, closeConditionOf_ifFirst first, by simp [first, Floor.isFirstDelegate]⟩

theorem yesNoOf_low (h : b.toNat ≤ 1) : ∃ on, yesNoOf b = some on := by
  obtain zero | one : b.toNat = 0 ∨ b.toNat = 1 := by omega
  · exact ⟨false, by unfold yesNoOf; rw [zero]; rfl⟩
  · exact ⟨true, by unfold yesNoOf; rw [one]; rfl⟩

end

/-! ## The checks (R82) -/

section
variable {s : State}

theorem isChair_iff : s.isChair = true ↔ s.meeting.state ≠ .idle ∧ s.config.seat = s.meeting.chair ∧ s.config.seat ≠ 0 := by
  have own : s.ownSeat = s.config.seat := rfl
  simp only [State.isChair, State.isChairSeat, Bool.and_eq_true, inMeeting_iff, decide_eq_true_eq, and_assoc, ← own]

/-- R82: the two refusals that stand before the rest of a chair's command. -/
theorem chairOnly_of_refused {x : Status} (h : (s.station = .clash ∧ x = .badState) ∨
    (s.station = .run ∧ s.isChair = false ∧ x = .notChair)) (k : State → State) : chairOnly s k = s.answered x := by
  rcases h with ⟨clash, rfl⟩ | ⟨run, notChair, rfl⟩
  · exact if_pos clash
  · exact (if_neg (by simp [run])).trans (if_neg (by simp [notChair]))

theorem ChairTaken.taken (h : ChairTaken s) : RunTaken s := ⟨h.idle, by rw [h.station]; nofun⟩

theorem ChairTaken.chairOnly (h : ChairTaken s) (k : State → State) : chairOnly s k = k s :=
  (if_neg (by simp [h.station])).trans (if_pos h.chair)

theorem ChairTaken.running (h : ChairTaken s) : s.meeting.state ≠ .idle := (isChair_iff.1 h.chair).1

theorem ChairTaken.meetingId (h : ChairTaken s) : s.meetingId = s.meeting.id := meetingId_of_running h.running

theorem ChairTaken.runGroup (h : ChairTaken s) (k : State → State) :
    runGroup s (fun t => Machine.chairOnly t k) = k s := by
  rw [runGroup_of_taken h.taken, h.chairOnly]

/-- R13: a host-originated frame is admitted below five. -/
theorem admitFrame_eq (b : Body) : admitFrame b s =
    if hostFrames s.link.queue < 5 then settle (offerHost b (s.answered .ok)) else s.answered .queueFull := by
  simp only [admitFrame, State.admitsHost, decide_eq_true_eq]
  rfl

/-! ## Each command past its parameters -/

theorem exec_addTime {seat : Byte} (taken : RunTaken s) (seconds : BitVec 16) (h : 1 ≤ seat.toNat ∧ seat.toNat ≤ 48) :
    exec (.addTime seat seconds) s = .next (chairOnly s fun u =>
      admitFrame (.timeAdd u.meetingId seat.toNat (max 1 (min seconds.toNat 600))) u) := by
  refine congrArg Host.Outcome.next ((runGroup_of_taken taken _).trans ?_)
  rw [seatOf_some h, Nat.min_comm]
  rfl

theorem exec_grant {seat cond : Byte} {c : GrantCondition} (taken : RunTaken s) (h : 1 ≤ seat.toNat ∧ seat.toNat ≤ 48)
    (code : grantConditionOf cond = some c) : exec (.grant seat cond) s = .next (chairOnly s fun u =>
      if u.floor.grantHolds seat.toNat c = false then answer .notMatched u
      else if u.limit ≤ u.floor.delegates.length then answer .full u
      else admitFrame (.grant u.meetingId seat.toNat) u) := by
  refine congrArg Host.Outcome.next ((runGroup_of_taken taken _).trans ?_)
  rw [seatOf_some h, code]

theorem exec_closeSeat {seat cond : Byte} {c : Bool} (taken : RunTaken s) (h : 1 ≤ seat.toNat ∧ seat.toNat ≤ 48)
    (code : closeConditionOf cond = some c) : exec (.closeSeat seat cond) s = .next (chairOnly s fun u =>
      if c = true ∧ u.floor.isFirstDelegate seat.toNat = false then answer .notMatched u
      else if seat.toNat = u.ownSeat then answer .badParam u
      else admitFrame (.close u.meetingId seat.toNat .chair) u) := by
  refine congrArg Host.Outcome.next ((runGroup_of_taken taken _).trans ?_)
  rw [seatOf_some h, code]

theorem exec_priority {value : Byte} {on : Bool} (taken : RunTaken s) (code : yesNoOf value = some on) :
    exec (.priority value) s = .next (chairOnly s fun u =>
      if u.meeting.profile.priorityAllowed then settle (offerFrame (.priority u.meetingId on) (answer .ok u))
      else answer .badState u) := by
  refine congrArg Host.Outcome.next ((runGroup_of_taken taken _).trans ?_)
  rw [code]

theorem exec_grant_badParam {seat cond : Byte} (taken : RunTaken s)
    (h : seatOf seat = none ∨ grantConditionOf cond = none) : exec (.grant seat cond) s = .next (s.answered .badParam) := by
  refine congrArg Host.Outcome.next ((runGroup_of_taken taken _).trans ?_)
  rcases h with h | h
  · rw [h]
    rfl
  · rw [h]
    cases seatOf seat <;> rfl

theorem exec_closeSeat_badParam {seat cond : Byte} (taken : RunTaken s)
    (h : seatOf seat = none ∨ closeConditionOf cond = none) :
    exec (.closeSeat seat cond) s = .next (s.answered .badParam) := by
  refine congrArg Host.Outcome.next ((runGroup_of_taken taken _).trans ?_)
  rcases h with h | h
  · rw [h]
    rfl
  · rw [h]
    cases seatOf seat <;> rfl

/-- R85: the PRIORITY button where it is an order of the chair. -/
theorem priorityButton_of_chair (on : Bool) (role : s.config.role = .seat) (run : s.station = .run) (chair : s.isChair = true)
    (allowed : s.meeting.profile.priorityAllowed = true) :
    priorityButton on s = offerFrame (.priority s.meeting.id on) s := by
  rw [← meetingId_of_running (isChair_iff.1 chair).1]
  exact if_pos ⟨role, run, chair, allowed⟩

theorem priorityButton_of_untaken (on : Bool)
    (h : s.station ≠ .run ∨ s.isChair = false ∨ s.meeting.profile.priorityAllowed = false) : priorityButton on s = s :=
  if_neg fun ⟨_, run, chair, allowed⟩ => by simp [run, chair, allowed] at h

/-- R62: the command of a change of the PRIORITY button's stable state. -/
theorem exec_priorityButton (on : Bool) : exec (if on then .priorityPress else .priorityRelease) s = .next
    (if s.config.role = .seat then
      settle (priorityButton on { s with controls := { s.controls with priority := { pressed := on, difference := 0 } } })
    else s) := by
  have sampled : (s.hasButtons = true) = (s.config.role = .seat) := propext decide_eq_true_iff
  cases on with
  | true =>
    refine congrArg Host.Outcome.next ?_
    rw [← if_congr (iff_of_eq sampled) rfl rfl]
    rfl
  | false =>
    refine congrArg Host.Outcome.next ?_
    rw [← if_congr (iff_of_eq sampled) rfl rfl]
    rfl

end

/-- Settles O49. -/
theorem chairCommandsCheckThenOffer : Obligations.ChairCommandsCheckThenOffer := by
  refine ⟨fun seat cond value seconds s taken => ?_, fun seat cond seconds s out chair low high hout => ?_, fun on s chair => ?_,
    fun on s u role pressed => ?_, fun on s role => ?_, fun s => isChair_iff⟩
  · refine ⟨fun outside => ?_, fun code => exec_grant_badParam taken (.inr (grantConditionOf_none code)),
      fun code => exec_closeSeat_badParam taken (.inr (closeConditionOf_none code)), fun code => ?_, fun x refused => ?_⟩
    · have none := seatOf_none outside
      refine ⟨congrArg Host.Outcome.next ((runGroup_of_taken taken _).trans ?_), exec_grant_badParam taken (.inl none),
        exec_closeSeat_badParam taken (.inl none)⟩
      rw [none]
      rfl
    · refine congrArg Host.Outcome.next ((runGroup_of_taken taken _).trans ?_)
      rw [yesNoOf_none code]
      rfl
    · have only (k : State → State) : runGroup s (fun t => chairOnly t k) = s.answered x :=
        (runGroup_of_taken taken _).trans (chairOnly_of_refused refused k)
      refine ⟨fun low high => ⟨?_, fun one three => ?_, fun one two => ?_⟩, fun flag => ?_, congrArg Host.Outcome.next (only _),
        congrArg Host.Outcome.next (only _), fun minutes => congrArg Host.Outcome.next (only _)⟩
      · rw [exec_addTime taken seconds ⟨low, high⟩, chairOnly_of_refused refused]
      · obtain ⟨c, code, _⟩ := grantHolds_of_code one three s.floor seat.toNat
        rw [exec_grant taken ⟨low, high⟩ code, chairOnly_of_refused refused]
      · obtain ⟨c, code, _⟩ := closeHolds_of_code one two s.floor seat.toNat
        rw [exec_closeSeat taken ⟨low, high⟩ code, chairOnly_of_refused refused]
      · obtain ⟨on, code⟩ := yesNoOf_low flag
        rw [exec_priority taken code, chairOnly_of_refused refused]
  · have admitted (b : Body) : admitFrame b s = out b := by rw [admitFrame_eq, hout]
    refine ⟨?_, ?_, fun holds meaning one three => ?_, fun holds meaning one two => ?_⟩
    · rw [exec_addTime chair.taken seconds ⟨low, high⟩, chair.chairOnly, admitted, chair.meetingId]
    · refine congrArg Host.Outcome.next ((chair.runGroup _).trans ?_)
      rw [admitted, chair.meetingId]
    · obtain ⟨c, code, grants⟩ := grantHolds_of_code one three s.floor seat.toNat
      rw [← meaning] at grants
      rw [exec_grant chair.taken ⟨low, high⟩ code, chair.chairOnly, admitted, chair.meetingId]
      refine ⟨fun not => ?_, fun granted full => ?_, fun granted room => ?_⟩
      · rw [← grants, Bool.not_eq_true] at not
        rw [if_pos not, answer_eq]
      · rw [if_neg (by simp [grants.2 granted]), if_pos (show s.limit ≤ _ from full), answer_eq]
      · rw [if_neg (by simp [grants.2 granted]), if_neg (show ¬ s.limit ≤ _ from Nat.not_le.2 room)]
    · obtain ⟨c, code, closes⟩ := closeHolds_of_code one two s.floor seat.toNat
      rw [← meaning] at closes
      rw [exec_closeSeat chair.taken ⟨low, high⟩ code, chair.chairOnly, admitted, chair.meetingId]
      refine ⟨fun not => ?_, fun matched own => ?_, fun matched other => ?_⟩
      · rw [if_pos (not_not.1 fun h => not (closes.1 h)), answer_eq]
      · rw [if_neg (closes.2 matched), if_pos (show _ = s.ownSeat from own), answer_eq]
      · rw [if_neg (closes.2 matched), if_neg (show ¬ _ = s.ownSeat from other)]
  · rw [exec_priority chair.taken (yesNoOf_flagByte on), chair.chairOnly, chair.meetingId]
    exact ⟨fun not => by rw [if_neg (by simp [not]), answer_eq], fun allowed => by rw [if_pos allowed, answer_eq]⟩
  · have run : exec (if on then .priorityPress else .priorityRelease) s = .next (settle (priorityButton on u)) := by
      rw [exec_priorityButton, if_pos role, pressed]
    rw [run]
    refine ⟨fun station chair allowed => ?_, fun untaken => ?_⟩
    · have same : u.meeting = s.meeting := by rw [pressed]
      rw [priorityButton_of_chair on (by rw [pressed]; exact role) (by rw [pressed]; exact station)
        (by rw [pressed]; exact chair) (by rw [pressed]; exact allowed), same]
    · rw [priorityButton_of_untaken on (by rw [pressed]; exact untaken)]
  · rw [exec_priorityButton, if_neg role]

/-! ## The own claim (R173, R175) -/

section
variable {s : State}

theorem inMeeting_false_iff : s.inMeeting = false ↔ s.meeting.state = .idle := by simp [State.inMeeting]

theorem claimRefusal_badState (h : s.config.role ≠ .seat ∨ s.station = .clash ∨ s.meeting.state = .idle) :
    s.claimRefusal = some .badState := if_pos (by rw [inMeeting_false_iff]; exact h)

section
variable (role : s.config.role = .seat) (run : s.station = .run) (running : s.meeting.state ≠ .idle)
include role run running

theorem claimRefusal_of_running : s.claimRefusal =
    if s.meeting.profile.shareRule = .floorOnly ∧ s.mic.state ≠ .open ∧ s.isChair = false then some .notOpen
    else if s.share.claim = .claiming then some .busy else none :=
  if_neg (by simp [role, run, inMeeting_false_iff, running])

theorem claimRefusal_notOpen (rule : s.meeting.profile.shareRule = .floorOnly) (shut : s.mic.state ≠ .open)
    (notChair : s.isChair = false) : s.claimRefusal = some .notOpen := by
  rw [claimRefusal_of_running role run running, if_pos ⟨rule, shut, notChair⟩]

theorem claimRefusal_of_allowed (h : s.meeting.profile.shareRule = .free ∨ s.mic.state = .open ∨ s.isChair = true) :
    s.claimRefusal = if s.share.claim = .claiming then some .busy else none := by
  rw [claimRefusal_of_running role run running, if_neg]
  rintro ⟨rule, shut, notChair⟩
  simp [rule, shut, notChair] at h

end

theorem exec_share_of_refused {screen : Byte} {x : Status} (taken : RunTaken s) (low : screen.toNat ≤ 2)
    (h : s.claimRefusal = some x) : exec (.share screen) s = .next (s.answered x) := by
  refine congrArg Host.Outcome.next ((runGroup_of_taken taken _).trans ((if_neg (by omega)).trans ?_))
  rw [h]
  rfl

theorem exec_share_of_passed {screen : Byte} (taken : RunTaken s) (low : screen.toNat ≤ 2) (h : s.claimRefusal = none) :
    exec (.share screen) s = .next (settle (makeClaim
      (if screen.toNat = 0 then s.config.shareScreen else screen.toNat) (s.answered .ok))) := by
  refine congrArg Host.Outcome.next ((runGroup_of_taken taken _).trans ((if_neg (by omega)).trans ?_))
  rw [h]
  rfl

/-- R62: the command of a press of the SHARE button. -/
theorem exec_sharePress {u : State} (role : s.config.role = .seat)
    (h : u = { s with controls := { s.controls with share := { pressed := true, difference := 0 } } }) :
    exec .sharePress s = .next (settle (sharePressed u)) := by
  have sampled : s.hasButtons = true := decide_eq_true role
  rw [h]
  exact congrArg Host.Outcome.next (if_pos sampled)

theorem sharePressed_of_refused {x : Status} (none : s.share.claim = .none) (h : s.claimRefusal = some x) :
    sharePressed s = s := by
  unfold sharePressed
  rw [if_pos none, h]

theorem sharePressed_of_passed (none : s.share.claim = .none) (h : s.claimRefusal = Option.none) :
    sharePressed s = makeClaim s.config.shareScreen s := by
  unfold sharePressed
  rw [if_pos none, h]

theorem sharePressed_of_claimed (claimed : s.share.claim ≠ .none) : sharePressed s =
    if s.config.role ≠ .seat ∨ s.station = .clash ∨ s.inMeeting = false then s else releaseClaim s := if_neg claimed

theorem sharePressed_of_badState (h : s.station = .clash ∨ s.meeting.state = .idle) : sharePressed s = s := by
  have refused : s.config.role ≠ .seat ∨ s.station = .clash ∨ s.meeting.state = .idle := .inr h
  by_cases none : s.share.claim = .none
  · exact sharePressed_of_refused none (claimRefusal_badState refused)
  · rw [sharePressed_of_claimed none, if_pos (by rw [inMeeting_false_iff]; exact refused)]

theorem makeClaim_eq (n : Nat) (h : s.floor.stamp ≤ maxStamp) : makeClaim n s =
    { offerFrame (.share s.meetingId n s.floor.nextStamp) { s with floor := { s.floor with stamp := s.floor.nextStamp } } with
      share := { s.share with claim := .claiming, claimScreen := n, claimStamp := s.floor.nextStamp, release := false } } := by
  unfold makeClaim
  dsimp only
  rw [issued_eq h, offerFrame_share]
  rfl

/-- R175: under FLOOR_ONLY a station that is not the chair releases its claim, and no other does. -/
theorem leaveOpenRelease_of_floorOnly (rule : s.meeting.profile.shareRule = .floorOnly) (notChair : s.isChair = false)
    (claimed : s.share.claim ≠ .none) : leaveOpenRelease s = releaseClaim s := if_pos ⟨rule, notChair, claimed⟩

theorem leaveOpenRelease_of_other (h : s.meeting.profile.shareRule = .free ∨ s.isChair = true ∨ s.share.claim = .none) :
    leaveOpenRelease s = s := if_neg fun ⟨rule, notChair, claimed⟩ => by simp [rule, notChair, claimed] at h

section
variable {u : State} {x : Offered} (h : offer (.unshare s.meetingId) s = (u, x))
include h

theorem share_of_offered : u.share = s.share := by
  have first : (offer (.unshare s.meetingId) s).1.share = s.share := offerFrame_share _ _
  rw [h] at first
  exact first

theorem releaseClaim_of_none (none : s.share.claim = .none) : releaseClaim s = u := by
  unfold releaseClaim
  rw [h, none]

theorem releaseClaim_of_claiming (claiming : s.share.claim = .claiming) : releaseClaim s =
    if x = .cancelled then { u with share := (s.share.clearSeat s.ownSeat).noClaim }
    else { u with share := { s.share with release := true } } := by
  have share := share_of_offered h
  unfold releaseClaim
  rw [h, claiming]
  dsimp only
  rw [share]

theorem releaseClaim_of_sharing (sharing : s.share.claim = .sharing) :
    releaseClaim s = { u with share := (s.share.clearSeat s.ownSeat).noClaim } := by
  have share := share_of_offered h
  unfold releaseClaim
  rw [h, sharing]
  dsimp only
  rw [share]

end

end

/-- Settles O50. -/
theorem shareCommandsClaimAndRelease : Obligations.ShareCommandsClaimAndRelease := by
  refine ⟨fun screen s taken => ⟨fun high => ?_, fun low => ⟨fun refused => ?_, fun role run running =>
      ⟨fun rule shut notChair => ?_, fun allowed => ⟨fun claiming => ?_, fun other n named => ?_⟩⟩⟩⟩,
    fun s u role run running pressed => ⟨fun none allowed => ?_, fun none rule shut notChair => ?_, fun claimed => ?_⟩,
    fun s u role pressed untaken => ?_, fun s role => ?_, fun s taken => ⟨fun refused => ?_, fun role run running => ?_⟩,
    fun s n k bound hk => ?_, fun s u x gone offered hgone => ?_⟩
  · exact congrArg Host.Outcome.next ((runGroup_of_taken taken _).trans (if_pos high))
  · exact exec_share_of_refused taken low (claimRefusal_badState refused)
  · exact exec_share_of_refused taken low (claimRefusal_notOpen role run running rule shut notChair)
  · exact exec_share_of_refused taken low ((claimRefusal_of_allowed role run running allowed).trans (if_pos claiming))
  · rw [named]
    exact exec_share_of_passed taken low ((claimRefusal_of_allowed role run running allowed).trans (if_neg other))
  · have passes : u.claimRefusal = Option.none := by
      rw [claimRefusal_of_allowed (by rw [pressed]; exact role) (by rw [pressed]; exact run) (by rw [pressed]; exact running)
        (by rw [pressed]; exact allowed), if_neg (by rw [pressed]; simp [none])]
    have screen : u.config = s.config := by rw [pressed]
    rw [exec_sharePress role pressed, sharePressed_of_passed (by rw [pressed]; exact none) passes, screen]
  · have refused : u.claimRefusal = some .notOpen := claimRefusal_notOpen (by rw [pressed]; exact role)
      (by rw [pressed]; exact run) (by rw [pressed]; exact running) (by rw [pressed]; exact rule) (by rw [pressed]; exact shut)
      (by rw [pressed]; exact notChair)
    rw [exec_sharePress role pressed, sharePressed_of_refused (by rw [pressed]; exact none) refused]
  · rw [exec_sharePress role pressed, sharePressed_of_claimed (by rw [pressed]; exact claimed), if_neg]
    rw [pressed, inMeeting_false_iff]
    simp [role, run, running]
  · rw [exec_sharePress role pressed, sharePressed_of_badState]
    rw [pressed]
    exact untaken.elim .inl fun h => .inr (h.elim id fun ⟨idle, setup⟩ => idle.setup setup)
  · have noButtons : ¬ s.hasButtons = true := by simpa [State.hasButtons] using role
    exact congrArg Host.Outcome.next (if_neg noButtons)
  · exact congrArg Host.Outcome.next ((runGroup_of_taken taken _).trans (if_pos (by rw [inMeeting_false_iff]; exact refused)))
  · exact congrArg Host.Outcome.next ((runGroup_of_taken taken _).trans
      (if_neg (by rw [inMeeting_false_iff]; simp [role, run, running])))
  · rw [makeClaim_eq n bound, nextStamp_eq bound, hk]
  · rw [hgone]
    exact ⟨releaseClaim_of_none offered, fun claiming cancelled => (releaseClaim_of_claiming offered claiming).trans (if_pos cancelled),
      fun claiming kept => (releaseClaim_of_claiming offered claiming).trans (if_neg kept), releaseClaim_of_sharing offered,
      leaveOpenRelease_of_floorOnly, leaveOpenRelease_of_other⟩

end Sys2Proof.Machine

namespace Sys2Proof.Machine

/-! SUPPORT. Bookings (R136 to R138, R144), the arrival of an entry (R140 to R142), grants (R145) and the chair's end and
extension of a meeting (R146, R158). -/

/-! ## Insertion at a place by order -/

section
variable {α : Type} {c : α} {lt : α → α → Bool} {ins : List α → List α} (nil : ins [] = [c])
  (cons : ∀ x xs, ins (x :: xs) = if lt c x then c :: x :: xs else x :: ins xs)
include nil cons

/-- What is inserted stands behind everything before the first element it precedes. -/
theorem insert_splits (v : List α) : ∃ l r : List α, v = l ++ r ∧ ins v = l ++ c :: r ∧ (∀ x ∈ l, lt c x = false) ∧
    (∀ x : α, r.head? = some x → lt c x = true) := by
  induction v with
  | nil => exact ⟨[], [], rfl, nil, nofun, nofun⟩
  | cons x xs ih =>
    cases first : lt c x with
    | true =>
      refine ⟨[], x :: xs, rfl, by rw [cons, first]; rfl, nofun, fun y head => ?_⟩
      obtain rfl := Option.some.inj head
      exact first
    | false =>
      obtain ⟨l, r, whole, inserted, before, after⟩ := ih
      refine ⟨x :: l, r, by rw [whole]; rfl, ?_, List.forall_mem_cons.2 ⟨first, before⟩, after⟩
      rw [cons, first, inserted]
      rfl

/-- A list in a transitive order stays in it. -/
theorem insert_pairwise {v : List α} (trans : ∀ a b d, lt a b = true → lt b d = true → lt a d = true)
    (total : ∀ x ∈ v, lt c x = false → lt x c = true) (sorted : v.Pairwise (fun a b => lt a b = true)) :
    (ins v).Pairwise (fun a b => lt a b = true) := by
  obtain ⟨l, r, rfl, inserted, before, after⟩ := insert_splits nil cons v
  obtain ⟨left, right, across⟩ := List.pairwise_append.1 sorted
  have behind : ∀ x ∈ r, lt c x = true := by
    cases r with
    | nil => exact nofun
    | cons y ys =>
      have first := after y rfl
      exact List.forall_mem_cons.2 ⟨first, fun x hx => trans _ _ _ first ((List.pairwise_cons.1 right).1 x hx)⟩
  rw [inserted]
  refine List.pairwise_append.2 ⟨left, List.pairwise_cons.2 ⟨behind, right⟩, fun x hx => List.forall_mem_cons.2 ⟨?_, across x hx⟩⟩
  exact total x (List.mem_append_left _ hx) (before x hx)

end

theorem viewKeyLt_iff {a b : Nat} {x y : Bid} : viewKeyLt a x b y = true ↔ a < b ∨ (a = b ∧
    (x.holder < y.holder ∨ (x.holder = y.holder ∧ x.serial < y.serial))) := by
  simp [viewKeyLt]

theorem Bid.ext_iff' {x y : Bid} : x = y ↔ x.holder = y.holder ∧ x.serial = y.serial := by
  cases x
  cases y
  simp

/-! ## Notices and the evaluation around a changed view -/

section
variable {s : State}

/-- Notices change the Host Port alone. -/
theorem notifyAll_setView (l : List Notice) (v : List Entry) (s : State) :
    setView v (notifyAll l s) = notifyAll l (setView v s) := by
  induction l generalizing s with
  | nil => rfl
  | cons n rest ih => exact ih (notify n s)

theorem notifyAll_calendarChanged (l : List Notice) (f : Calendar → Calendar) (s : State) :
    { notifyAll l s with calendar := f (notifyAll l s).calendar } = notifyAll l { s with calendar := f s.calendar } := by
  induction l generalizing s with
  | nil => rfl
  | cons n rest ih => exact ih (notify n s)

theorem evaluate_settle : evaluate (settle s) = evaluate s := by rw [evaluate, settle_settle, evaluate]

/-- R135: an entry that is not active changes the view alone, and the record is evaluated. -/
theorem handOnEntry_of_inactive {e : Entry} (h : e.active = false) : handOnEntry e s = evaluate s := by
  unfold handOnEntry
  rw [h]
  exact evaluate_settle

/-- R135: in a sound view an entry is found by its id. -/
theorem viewFind_of_mem {v : List Entry} {e : Entry} (ids : (v.map (fun x => x.wire.id)).Nodup) (mem : e ∈ v) :
    viewFind v e.wire.id = some e := by
  cases found : viewFind v e.wire.id with
  | none => exact absurd rfl (viewFind_none found e mem)
  | some x =>
    obtain ⟨memx, same⟩ := viewFind_some found
    rw [List.inj_on_of_nodup_map ids memx mem same]

theorem viewFind_none_of {v : List Entry} {id : Bid} (h : ∀ e ∈ v, e.wire.id ≠ id) : viewFind v id = none :=
  List.find?_eq_none.2 fun e mem => by simpa using h e mem

/-! ## R144: CANCEL_BOOKING -/

theorem endOrRemove_of_none {id : Bid} {why : EndReason} (h : ∀ e ∈ s.calendar.view, e.wire.id ≠ id) :
    endOrRemove id why s = s := by
  unfold endOrRemove
  rw [viewFind_none_of h]

theorem endOrRemove_of_inactive {id : Bid} {why : EndReason} {e : Entry} (found : viewFind s.calendar.view id = some e)
    (inactive : e.active = false) : endOrRemove id why s = removeEntry id s := by
  unfold endOrRemove
  rw [found]
  exact if_neg (by simp [inactive])

theorem endOrRemove_of_active {id : Bid} {why : EndReason} {e : Entry} (found : viewFind s.calendar.view id = some e)
    (active : e.active = true) : endOrRemove id why s = endMeetingFor why s := by
  unfold endOrRemove
  rw [found]
  exact if_pos active

theorem admitsHost_of_room (h : hostFrames s.link.queue < 5) : ¬ s.admitsHost = false := by
  rw [Bool.not_eq_false]
  exact decide_eq_true h

theorem admitsHost_of_full (h : 5 ≤ hostFrames s.link.queue) : s.admitsHost = false := decide_eq_false (Nat.not_lt.2 h)

theorem viewHolds_iff {v : List Entry} {id : Bid} : viewHolds v id = true ↔ ∃ e ∈ v, e.held = true ∧ e.wire.id = id := by
  simp [viewHolds]

end

/-- Settles O32. -/
theorem cancelBookingSendsAndRemoves : Obligations.CancelBookingSendsAndRemoves := by
  refine ⟨fun holder serial s u id taken hid hu => ⟨fun refused => ?_, fun e sound run mem held same => ?_⟩,
    fun id why s => ⟨endOrRemove_of_none, fun e found => ⟨endOrRemove_of_inactive found, endOrRemove_of_active found⟩⟩⟩
  · subst hid
    refine congrArg Host.Outcome.next ((runGroup_of_taken taken _).trans ?_)
    by_cases clash : s.station = .clash
    · exact if_pos clash
    · refine (if_neg clash).trans (if_pos ?_)
      rw [← Bool.not_eq_true, viewHolds_iff]
      rintro ⟨e, mem, held, same⟩
      exact refused.resolve_left clash e mem held same
  · subst hid
    have holds : ¬ viewHolds s.calendar.view { holder := holder.toNat, serial := serial.toNat } = false := by
      rw [Bool.not_eq_false, viewHolds_iff]
      exact ⟨e, mem, held, same⟩
    have view : u.calendar.view = s.calendar.view := by rw [hu, offerHost_calendar_view]; rfl
    have found : viewFind u.calendar.view { holder := holder.toNat, serial := serial.toNat } = some e := by
      rw [view, ← same]
      exact viewFind_of_mem sound.calendar.ids mem
    have checked : exec (.cancelBooking holder serial) s = .next (if s.admitsHost = false then answer .queueFull s
        else settle (endOrRemove { holder := holder.toNat, serial := serial.toNat } .cancelled u)) := by
      rw [hu]
      exact congrArg Host.Outcome.next ((runGroup_of_taken taken _).trans
        ((if_neg (by rw [run]; nofun)).trans (if_neg holds)))
    have admits (room : hostFrames s.link.queue < 5) : exec (.cancelBooking holder serial) s
        = .next (settle (endOrRemove { holder := holder.toNat, serial := serial.toNat } .cancelled u)) := by
      rw [checked, if_neg (admitsHost_of_room room)]
    refine ⟨fun full => ?_, fun room inactive => ?_, fun room active => ?_⟩
    · rw [checked, if_pos (admitsHost_of_full full), answer_eq]
    · rw [admits room, endOrRemove_of_inactive found inactive, ← view]
      rfl
    · rw [admits room, endOrRemove_of_active found active]

/-! ## R145, R146 and R158: the chair's end and extension -/

section
variable {s : State}

theorem activeId_eq {id : Bid} (h : s.meeting.id = some id) : s.activeId = id := by
  rw [State.activeId, h]
  rfl

theorem heldActive_of_held {e : Entry} (found : viewFind s.calendar.view s.activeId = some e) (held : e.held = true) :
    s.heldActive = some e := by
  unfold State.heldActive
  rw [found]
  exact if_pos held

theorem heldActive_of_heard {e : Entry} (found : viewFind s.calendar.view s.activeId = some e) (heard : e.held = false) :
    s.heldActive = none := by
  unfold State.heldActive
  rw [found]
  exact if_neg (by simp [heard])

/-- R145: a grant below 5 minutes is a refusal. -/
theorem holderDecision_of_refused {e : Entry} {asker m : Nat} (h : grantFor s.calendar.view e.wire m < 5) :
    holderDecision e asker m s = offerFrame (.extendAnswer e.wire.id asker false 0 e.wire) s := if_neg (by omega)

theorem extensionMinutes_eq (n : Nat) : extensionMinutes n = max 5 (min ((n + 4) / 5 * 5) 60) := by
  rw [extensionMinutes, clampNat, Nat.min_comm]

theorem extendHeld_of_refused {e : Entry} {m : Nat} (h : grantFor s.calendar.view e.wire m < 5) :
    extendHeld e m s = extendResult e.wire.id .refused 0 (settle (holderDecision e s.ownSeat m s)) := if_neg (by omega)

theorem extendHeld_of_granted {e : Entry} {m : Nat} (h : 5 ≤ grantFor s.calendar.view e.wire m) :
    extendHeld e m s = extendResult e.wire.id .accepted (grantFor s.calendar.view e.wire m)
      (settle (holderDecision e s.ownSeat m s)) := if_pos h

theorem exec_extendMeeting (chair : ChairTaken s) (minutes : Byte) (free : s.calendar.ask = none) :
    (∀ e : Entry, s.heldActive = some e → exec (.extendMeeting minutes) s
      = .next (settle (extendHeld e (extensionMinutes minutes.toNat) (s.answered .ok)))) ∧
    (s.heldActive = none → exec (.extendMeeting minutes) s = .next (extendHeard (extensionMinutes minutes.toNat) s)) := by
  have asking : ¬ s.calendar.ask.isSome = true := by simp [free]
  refine ⟨fun e held => ?_, fun none => ?_⟩
  · refine congrArg Host.Outcome.next ((chair.runGroup _).trans ((if_neg asking).trans ?_))
    rw [held]
    rfl
  · refine congrArg Host.Outcome.next ((chair.runGroup _).trans ((if_neg asking).trans ?_))
    rw [none]

end

/-- Settles O34. -/
theorem chairEndsAndExtendsTheMeeting : Obligations.ChairEndsAndExtendsTheMeeting := by
  refine ⟨fun s id chair named => ⟨fun asked => ?_, fun free full => ?_, fun free room => ?_⟩,
    fun minutes s id e m chair sound named mem same hm => ?_, fun e asker m g w s hg hw => ⟨fun low => ?_, fun u enough hu => ?_⟩,
    ?_, fun id a s => ⟨fun asking same => ?_, fun other => ?_⟩, fun id g x s => ?_⟩
  · exact congrArg Host.Outcome.next ((chair.runGroup _).trans (if_pos asked))
  · exact congrArg Host.Outcome.next ((chair.runGroup _).trans ((if_neg (by simp [free])).trans
      (if_pos (admitsHost_of_full full))))
  · refine congrArg Host.Outcome.next ((chair.runGroup _).trans ((if_neg (by simp [free])).trans
      ((if_neg (admitsHost_of_room room)).trans ?_)))
    dsimp only
    rw [activeId_eq named, offerHost_meeting]
    rfl
  · have found : viewFind s.calendar.view s.activeId = some e := by
      rw [activeId_eq named, ← same]
      exact viewFind_of_mem sound.calendar.ids mem
    have asked : extensionMinutes minutes.toNat = m := by rw [extensionMinutes_eq, hm]
    refine ⟨fun asking => ?_, fun free held low => ?_, fun g free held hg enough => ?_, fun free heard full => ?_,
      fun u free heard room hu => ?_⟩
    · exact congrArg Host.Outcome.next ((chair.runGroup _).trans (if_pos (Option.isSome_iff_ne_none.2 asking)))
    · rw [(exec_extendMeeting chair minutes free).1 e (heldActive_of_held found held), asked,
        extendHeld_of_refused (s := s.answered .ok) low, holderDecision_of_refused (s := s.answered .ok) low, same]
      rfl
    · rw [(exec_extendMeeting chair minutes free).1 e (heldActive_of_held found held), asked,
        extendHeld_of_granted (s := s.answered .ok) (hg ▸ enough), same, hg]
      rfl
    · rw [(exec_extendMeeting chair minutes free).2 (heldActive_of_heard found heard)]
      exact congrArg Host.Outcome.next (if_neg (by simp [admitsHost_of_full full]))
    · rw [(exec_extendMeeting chair minutes free).2 (heldActive_of_heard found heard), asked, hu, ← activeId_eq named]
      exact congrArg Host.Outcome.next (if_pos (by simpa using admitsHost_of_room room))
  · exact holderDecision_of_refused (hg ▸ low)
  · subst hg hw hu
    exact if_pos enough
  · rintro id s u rfl
    have unasked : ({ s with meeting := { s.meeting with endAsked := false } } : State).meetingId = s.meetingId := rfl
    refine ⟨fun running same => if_pos ?_, fun other => if_neg ?_⟩
    · rw [unasked, meetingId_of_running running, same]
    · rw [unasked]
      intro named
      unfold State.meetingId at named
      split at named
      next running => exact other.elim (inMeeting_iff.1 running) (fun h => h named)
      · cases named
  · unfold extendAskAbandoned askUnanswered
    rw [asking]
    simp only [same, if_true]
    rfl
  · unfold extendAskAbandoned
    rcases other with free | ⟨asking, other⟩
    · rw [free]
    · rw [asking]
      exact if_neg other
  · cases x <;> rfl

end Sys2Proof.Machine

namespace Sys2Proof.Machine

/-! SUPPORT. Own bookings (R136, R137), restored and arriving entries (R138, R140 to R142), the tests of R141 and the
grant of R145. -/

/-! ## Room (R136, R142) -/

section
variable {v : List Entry}

/-- The last HEARD entry that is not active, where the entries behind it are HELD or active. -/
theorem lastEvictable_of_split {l r : List Entry} {e : Entry} (whole : v = l ++ e :: r) (heard : e.held = false)
    (inactive : e.active = false) (rest : ∀ x ∈ r, x.held = true ∨ x.active = true) : lastEvictable v = some e := by
  have none : r.filter (fun e => !e.held && !e.active) = [] := by
    rw [List.filter_eq_nil_iff]
    intro x hx
    rcases rest x hx with h | h <;> simp [h]
  simp [lastEvictable, whole, List.filter_append, heard, inactive, none]

theorem lastEvictable_none (h : ∀ x ∈ v, x.held = true ∨ x.active = true) : lastEvictable v = none := by
  rw [lastEvictable, List.getLast?_eq_none_iff, List.filter_eq_nil_iff]
  intro x hx
  rcases h x hx with k | k <;> simp [k]

theorem evictForOwn_of_room (h : v.length < 32) : evictForOwn v = v := if_pos h

theorem evictForOwn_of_full {e : Entry} (full : 32 ≤ v.length) (last : lastEvictable v = some e) :
    evictForOwn v = viewDrop v e.wire.id := by
  have crowded : ¬ v.length < Config.viewEntries := Nat.not_lt.2 full
  unfold evictForOwn
  rw [if_neg crowded, last]

theorem makeRoom_of_room (c : WireEntry) (h : v.length < 32) : makeRoom c v = some v := if_pos h

theorem makeRoom_of_full {c : WireEntry} {e : Entry} (full : 32 ≤ v.length) (last : lastEvictable v = some e) :
    makeRoom c v = if c.start < e.wire.start then some (viewDrop v e.wire.id) else none := by
  have crowded : ¬ v.length < Config.viewEntries := Nat.not_lt.2 full
  unfold makeRoom
  rw [if_neg crowded, last]

theorem makeRoom_of_none {c : WireEntry} (full : 32 ≤ v.length) (last : lastEvictable v = none) : makeRoom c v = none := by
  have crowded : ¬ v.length < Config.viewEntries := Nat.not_lt.2 full
  unfold makeRoom
  rw [if_neg crowded, last]

end

/-! ## BOOK (R136) -/

theorem bookingParams_iff {minute profile chair : Nat} {title : List Byte} : bookingParams minute profile chair title = true ↔
    minute ≤ 1439 ∧ profile ≤ 3 ∧ chair ≤ 48 ∧ title.length ≤ 24 := by
  simp [bookingParams, and_assoc]

theorem bookingDuration_eq (n : Nat) : bookingDuration n = max 15 (min ((n + 4) / 5 * 5) 720) := by
  rw [bookingDuration, clampNat, Nat.min_comm]

section
variable {day minute duration : BitVec 16} {profile chair : Byte} {title : List Byte} {s : State} {n start : Nat}

/-- R136: the checks of BOOK in RUN, in their order, and the booking. -/
theorem exec_book (taken : RunTaken s) (hn : n = max 15 (min ((duration.toNat + 4) / 5 * 5) 720))
    (hstart : start = day.toNat * 1440 + minute.toNat) : exec (.book day minute duration profile chair title) s = .next
    (if s.station = .clash then s.answered .badState
     else if bookingParams minute.toNat profile.toNat chair.toNat title = false then s.answered .badParam
     else if s.calendar.clock.set = false then s.answered .timeNotSet
     else if start < s.calendar.clock.minuteNumber then s.answered .badParam
     else if 8 ≤ heldCount s.calendar.view then s.answered .full
     else if viewFree s.calendar.view start (start + n) = false then s.answered .conflict
     else settle (createBooking day.toNat minute.toNat n profile.toNat chair.toNat title
       (reply .ok (bidBytes { holder := s.ownSeat, serial := s.nextSerial }) s))) := by
  subst hn hstart
  rw [← bookingDuration_eq]
  exact congrArg Host.Outcome.next (runGroup_of_taken taken _)

/-- R136: the booking that is created is not active: the view and the serial counter change, and the record is
evaluated. -/
theorem createBooking_eq (startDay startMinute : Nat) (s : State) : createBooking startDay startMinute n profile.toNat chair.toNat title s
    = evaluate { s with calendar := { s.calendar with
        serial := (s.nextSerial + 1) % 256,
        view := insertEntry
          { wire := { id := { holder := s.config.seat, serial := s.nextSerial }, version := 0, startDay := startDay,
                      startMinute := startMinute, duration := n, profile := profile.toNat, chair := chair.toNat,
                      createdDay := s.calendar.clock.day, createdSecond := s.calendar.clock.second, title := title },
            held := true, active := false, age := 0 }
          (evictForOwn s.calendar.view) } } := handOnEntry_of_inactive rfl

end

/-- Settles O29. -/
theorem bookChecksInOrderThenInserts : Obligations.BookChecksInOrderThenInserts := by
  refine ⟨fun day minute duration profile chair title s n start taken hn hstart => ?_, fun v => ⟨evictForOwn_of_room, ?_⟩,
    fun v => rfl, fun c v before order => ⟨?_, ?_⟩⟩
  · rw [exec_book taken hn hstart]
    refine ⟨fun clash => by rw [if_pos clash], fun run => ?_⟩
    rw [if_neg (by rw [run]; nofun)]
    refine ⟨fun outside => ?_, fun h1 h2 h3 h4 => ?_⟩
    · rw [if_pos]
      rw [← Bool.not_eq_true, bookingParams_iff]
      omega
    · have params : ¬ bookingParams minute.toNat profile.toNat chair.toNat title = false := by
        rw [Bool.not_eq_false, bookingParams_iff]
        exact ⟨h1, h2, h3, h4⟩
      rw [if_neg params]
      refine ⟨fun unset => by rw [if_pos unset], fun set => ?_⟩
      rw [if_neg (by rw [set]; nofun)]
      refine ⟨fun past => by rw [if_pos past], fun future => ?_⟩
      rw [if_neg (Nat.not_lt.2 future)]
      refine ⟨fun full => by rw [if_pos full], fun room => ?_⟩
      rw [if_neg (Nat.not_le.2 room)]
      refine ⟨fun busy => ?_, fun free k hk => ?_⟩
      · rw [if_pos]
        rw [← Bool.not_eq_true, viewFree_iff]
        obtain ⟨e, mem, h1, h2⟩ := busy
        intro h
        have := h e mem
        omega
      · rw [if_neg (by rw [Bool.not_eq_false, viewFree_iff]; exact free), createBooking_eq, hk]
        rfl
  · rintro l r e full rfl heard inactive rest
    exact evictForOwn_of_full full (lastEvictable_of_split rfl heard inactive rest)
  · have keyed (a b : Entry) : viewKeyLt a.wire.start a.wire.id b.wire.start b.wire.id = true ↔ before a b := by
      rw [viewKeyLt_iff, order]
    obtain ⟨l, r, whole, inserted, left, right⟩ := insert_splits
      (lt := fun a b : Entry => viewKeyLt a.wire.start a.wire.id b.wire.start b.wire.id) (ins := insertEntry c) rfl
      (fun x xs => rfl) v
    refine ⟨l, r, whole, inserted, fun x hx => ?_, fun x head => (keyed _ _).1 (right x head)⟩
    rw [← keyed, left x hx]
    nofun
  · intro sorted fresh
    have keyed (a b : Entry) : viewKeyLt a.wire.start a.wire.id b.wire.start b.wire.id = true ↔ before a b := by
      rw [viewKeyLt_iff, order]
    refine (insert_pairwise (c := c) (lt := fun a b : Entry => viewKeyLt a.wire.start a.wire.id b.wire.start b.wire.id)
      (ins := insertEntry c) rfl (fun x xs => rfl) (fun a b d => viewKeyLt_trans) (fun x hx not => ?_)
      (sorted.imp fun h => (keyed _ _).2 h)).imp fun h => (keyed _ _).1 h
    exact viewKeyLt_of_not (by rw [not]; nofun) (Ne.symm (fresh x hx))

/-! ## Serials, tests and grants (R137, R141, R145) -/

/-- R137: counting on, the first serial that no entry bears. -/
theorem freeSerial_first {v : List Entry} {seat : Nat} (n k : Nat)
    (h : ∃ j, j < n ∧ viewFind v { holder := seat, serial := (k + j) % 256 } = none) :
    ∃ j, j < n ∧ freeSerial v seat n k = (k + j) % 256 ∧
      ∀ i, i < j → viewFind v { holder := seat, serial := (k + i) % 256 } ≠ none := by
  induction n generalizing k with
  | zero =>
    obtain ⟨j, hj, _⟩ := h
    omega
  | succ n ih =>
    by_cases free : viewFind v { holder := seat, serial := k % 256 } = none
    · exact ⟨0, by omega, if_pos (by simp [free]), fun i hi => by omega⟩
    · have next : freeSerial v seat (n + 1) k = freeSerial v seat n (k + 1) := if_neg (by simpa using free)
      obtain ⟨j, hj, found⟩ := h
      obtain ⟨i, rfl⟩ : ∃ i, j = i + 1 := ⟨j - 1, by
        rcases Nat.eq_zero_or_pos j with rfl | pos
        · exact absurd found free
        · omega⟩
      obtain ⟨m, hm, first, taken⟩ := ih (k + 1) ⟨i, by omega, by rw [Nat.add_right_comm]; exact found⟩
      refine ⟨m + 1, by omega, by rw [next, first, Nat.add_right_comm, Nat.add_assoc], fun p hp => ?_⟩
      rcases Nat.eq_zero_or_pos p with rfl | pos
      · exact free
      · have := taken (p - 1) (by omega)
        rwa [show k + 1 + (p - 1) = k + p by omega] at this

theorem createdBefore_iff {d t d' t' : Nat} : createdBefore d t d' t' = true ↔ d < d' ∨ (d = d' ∧ t < t') := by
  simp [createdBefore]

/-- R141: the four tests. -/
theorem beats_iff (c e : Entry) : c.beats e = true ↔
    (c.active = true ∧ e.active = false) ∨ (c.active = e.active ∧
      (c.wire.createdDay < e.wire.createdDay ∨ (c.wire.createdDay = e.wire.createdDay ∧
        (c.wire.createdSecond < e.wire.createdSecond ∨ (c.wire.createdSecond = e.wire.createdSecond ∧
          (c.wire.id.holder < e.wire.id.holder ∨
            (c.wire.id.holder = e.wire.id.holder ∧ c.wire.id.serial < e.wire.id.serial))))))) := by
  unfold Entry.beats
  by_cases active : c.active = e.active
  · rw [if_neg (not_not.2 active)]
    simp only [createdBefore_iff, active, true_and]
    split
    next h => simp; omega
    next h =>
      split
      next h' => simp; omega
      next h' =>
        split
        next h'' => simp; omega
        next h'' =>
          split
          next h3 => simp; omega
          next h3 => simp; omega
  · rw [if_pos active]
    cases hc : c.active <;> cases he : e.active <;> simp_all

/-- R145: the greatest multiple of 5 within what is asked, what 720 minutes leave and what is free. -/
theorem grantFor_of_free {v : List Entry} {w : WireEntry} {f : Nat} (m : Nat) (h : freeAfter v w.finish = some f) :
    grantFor v w m = min (min m (720 - w.duration)) f / 5 * 5 := by
  unfold grantFor
  rw [h]

theorem grantFor_of_unlimited {v : List Entry} {w : WireEntry} (m : Nat) (h : freeAfter v w.finish = none) :
    grantFor v w m = min m (720 - w.duration) / 5 * 5 := by
  unfold grantFor
  rw [h]

/-- Settles O30. -/
theorem serialsTestsAndGrantsFollowTheirRules : Obligations.SerialsTestsAndGrantsFollowTheirRules := by
  refine ⟨fun s sound => ?_, fun a b c ha hb hc => ⟨fun other => ?_, fun first second => ?_⟩, fun s e m sound mem g hg => ?_,
    fun w x => ⟨rfl, rfl, by simp [WireEntry.overlaps]⟩, beats_iff⟩
  · obtain ⟨j, hj, first, taken⟩ := freeSerial_first 256 s.calendar.serial
      (exists_freeSerial sound.calendar.entries s.ownSeat s.calendar.serial)
    refine ⟨j, hj, first, nextSerial_free sound.calendar, fun i hi => ?_⟩
    obtain ⟨e, found⟩ := Option.ne_none_iff_exists'.1 (taken i hi)
    exact ⟨e, viewFind_some found⟩
  · have ids : ¬ (a.wire.id.holder = b.wire.id.holder ∧ a.wire.id.serial = b.wire.id.serial) := by
      rw [← Bid.ext_iff']
      exact other
    rw [← Bool.not_eq_true, beats_iff, beats_iff, ha, hb]
    simp only [Bool.false_eq_true, false_and, false_or, true_and]
    omega
  · rw [beats_iff, ha, hb] at first
    rw [beats_iff, hb, hc] at second
    rw [beats_iff, ha, hc]
    simp only [Bool.false_eq_true, false_and, false_or, true_and] at first second ⊢
    omega
  · have clear (x : Entry) (hx : x ∈ s.calendar.view) (hf : e.wire.finish ≤ x.wire.start) : e.wire.finish + g ≤ x.wire.start := by
      have moved := grant_clear (asked := m) sound.calendar.apart hx hf
      have finish : (e.wire.extended (grantFor s.calendar.view e.wire m)).finish = e.wire.finish + g := by
        rw [hg]
        simp [WireEntry.extended, WireEntry.finish, WireEntry.start, Nat.add_assoc]
      rwa [finish] at moved
    cases found : s.calendar.view.find? (fun x => decide (e.wire.finish ≤ x.wire.start)) with
    | none =>
      rw [grantFor_of_unlimited m (by rw [freeAfter, found]; rfl)] at hg
      exact ⟨⟨by omega, by omega, by omega, clear⟩, fun h h1 h2 h3 _ => by omega⟩
    | some y =>
      have start : e.wire.finish ≤ y.wire.start := by simpa using List.find?_some found
      have free : freeAfter s.calendar.view e.wire.finish = some (y.wire.start - e.wire.finish) := by
        rw [freeAfter, found]
        rfl
      rw [grantFor_of_free m free] at hg
      refine ⟨⟨by omega, by omega, by omega, clear⟩, fun h h1 h2 h3 within => ?_⟩
      have := within y (List.mem_of_find?_eq_some found) start
      omega

/-! ## Resolution and arrival (R138, R140 to R142) -/

theorem newerVersion_iff {v w : Nat} (hv : v < 256) (hw : w < 256) :
    newerVersion v w = true ↔ ∃ d : Nat, 1 ≤ d ∧ d ≤ 127 ∧ v = (w + d) % 256 := by
  simp only [newerVersion, Bool.and_eq_true, decide_eq_true_eq]
  exact ⟨fun _ => ⟨(v + 256 - w % 256) % 256, by omega, by omega, by omega⟩, fun ⟨d, _⟩ => by omega⟩

section
variable {c : Entry} {v : List Entry}

/-- R141: a candidate that loses against any entry it overlaps. -/
theorem resolve_of_loses (h : ∃ e ∈ v, c.wire.overlaps e.wire = true ∧ c.beats e = false) : resolve c v = none := by
  obtain ⟨e, mem, overlap, loses⟩ := h
  refine if_neg fun all => ?_
  have := List.all_eq_true.1 all e mem
  simp [overlap, loses] at this

/-- R141: a candidate that beats every entry it overlaps, and the HELD entries it removes. -/
theorem resolve_of_wins (h : ∀ e ∈ v, c.wire.overlaps e.wire = true → c.beats e = true) :
    resolve c v = some (v.filter (fun e => !c.wire.overlaps e.wire),
      (v.filter (fun e => c.wire.overlaps e.wire && e.held)).map (fun e => e.wire.id)) := by
  refine if_pos (List.all_eq_true.2 fun e mem => ?_)
  cases overlap : c.wire.overlaps e.wire with
  | false => rfl
  | true => simp [h e mem overlap]

theorem notifyLost_eq (v : List Entry) (s : State) :
    notifyLost (v.map (fun e => e.wire.id)) s = notifyAll (v.map (fun e => .bookingConflict e.wire.id)) s := by
  rw [notifyLost, List.map_map]
  rfl

end

section
variable {s : State} {w : WireEntry} {k : Nat}

theorem takesCandidate_iff : s.takesCandidate k w = true ↔ w.id.holder = k ∧
    ¬ (s.calendar.clock.set = true ∧ w.finish ≤ s.calendar.clock.minuteNumber) ∧ s.meeting.endedEarly ≠ some w.id := by
  simp only [State.takesCandidate, Bool.and_eq_true, decide_eq_true_eq, Bool.not_eq_true', Bool.and_eq_false_iff,
    decide_eq_false_iff_not, and_assoc, not_and_or, Bool.not_eq_true, ne_eq]

theorem arriveEntry_of_untaken (h : ¬ s.takesCandidate k w = true) : arriveEntry k w s = s := if_neg h

theorem arriveEntry_of_known {old : Entry} (taken : s.takesCandidate k w = true)
    (found : viewFind s.calendar.view w.id = some old) : arriveEntry k w s =
      if newerVersion w.version old.wire.version then replaceEntry old w s else refreshAge w.id s := by
  unfold arriveEntry
  rw [if_pos taken, found]

theorem arriveEntry_of_new (taken : s.takesCandidate k w = true) (fresh : ∀ e ∈ s.calendar.view, e.wire.id ≠ w.id) :
    arriveEntry k w s = newEntry w s := by
  unfold arriveEntry
  rw [if_pos taken, viewFind_none_of fresh]

section
variable {c old : Entry} {rest : List Entry} (hc : c = { wire := w, held := false, active := old.active, age := 0 })
  (hrest : rest = s.calendar.view.filter (fun e => decide (e.wire.id ≠ w.id)))
include hc hrest

/-- R140: a newer version that loses leaves the view. -/
theorem replaceEntry_of_loses (h : ∃ e ∈ rest, c.wire.overlaps e.wire = true ∧ c.beats e = false) :
    replaceEntry old w s = setView rest s := by
  subst hc hrest
  unfold replaceEntry
  dsimp only
  rw [viewDrop, resolve_of_loses h]

/-- R140: a newer version that wins replaces the entry. -/
theorem replaceEntry_of_wins (h : ∀ e ∈ rest, c.wire.overlaps e.wire = true → c.beats e = true) :
    replaceEntry old w s = handOnEntry c (notifyAll
      ((rest.filter (fun e => c.wire.overlaps e.wire && e.held)).map (fun e => .bookingConflict e.wire.id))
      (setView (insertEntry c (rest.filter (fun e => !c.wire.overlaps e.wire))) s)) := by
  subst hc hrest
  unfold replaceEntry
  dsimp only
  rw [viewDrop, resolve_of_wins h]
  dsimp only
  rw [notifyLost_eq, notifyAll_setView]

end

section
variable {c : Entry} (hc : c = { wire := w, held := false, active := false, age := 0 })
include hc

theorem newEntry_of_loses (h : ∃ e ∈ s.calendar.view, c.wire.overlaps e.wire = true ∧ c.beats e = false) :
    newEntry w s = s := by
  subst hc
  unfold newEntry
  dsimp only
  rw [resolve_of_loses h]

section
variable (h : ∀ e ∈ s.calendar.view, c.wire.overlaps e.wire = true → c.beats e = true) {v : List Entry} {lost : List Notice}
  (hv : v = s.calendar.view.filter (fun e => !c.wire.overlaps e.wire))
  (hlost : lost = (s.calendar.view.filter (fun e => c.wire.overlaps e.wire && e.held)).map (fun e => .bookingConflict e.wire.id))
include h hv hlost

theorem newEntry_of_full (full : makeRoom w v = none) : newEntry w s = notifyAll lost (setView v s) := by
  subst hc hv hlost
  unfold newEntry
  dsimp only
  rw [resolve_of_wins h]
  dsimp only
  rw [full]
  dsimp only
  rw [notifyLost_eq, notifyAll_setView]

theorem newEntry_of_room {room : List Entry} (made : makeRoom w v = some room) :
    newEntry w s = evaluate (notifyAll lost (setView (insertEntry c room) s)) := by
  subst hc hv hlost
  unfold newEntry
  dsimp only
  rw [resolve_of_wins h]
  dsimp only
  rw [made]
  dsimp only
  rw [handOnEntry_of_inactive rfl, notifyLost_eq, notifyAll_setView, notifyAll_setView]
  rfl

end
end
end

section
variable {day minute duration : BitVec 16} {profile chair : Byte} {title : List Byte} {serial version : Byte}
  {createdDay : BitVec 16} {createdSecond : BitVec 32} {s : State}

/-- R138: the checks of RESTORE_BOOKING in their order. -/
theorem exec_restoreBooking {w : WireEntry} (taken : RunTaken s)
    (hw : w = restoredEntry s.config.seat day minute duration profile chair title serial version createdDay createdSecond) :
    exec (.restoreBooking day minute duration profile chair title serial version createdDay createdSecond) s = .next
    (if s.station = .clash then s.answered .badState
     else if bookingParams minute.toNat profile.toNat chair.toNat title = false ∨ 86399 < createdSecond.toNat then
       s.answered .badParam
     else if s.calendar.clock.set = false then s.answered .timeNotSet
     else if w.finish ≤ s.calendar.clock.minuteNumber then s.answered .badParam
     else if (viewFind s.calendar.view w.id).isSome then s.answered .conflict
     else if 8 ≤ heldCount s.calendar.view then s.answered .full
     else restoreEntry w s) := by
  subst hw
  exact congrArg Host.Outcome.next (runGroup_of_taken taken _)

variable {c : Entry} {w : WireEntry} (hc : c = { wire := w, held := true, active := false, age := 0 })
include hc

theorem restoreEntry_of_loses (h : ∃ e ∈ s.calendar.view, c.wire.overlaps e.wire = true ∧ c.beats e = false) :
    restoreEntry w s = s.answered .conflict := by
  subst hc
  unfold restoreEntry
  dsimp only
  rw [resolve_of_loses h]
  rfl

variable (h : ∀ e ∈ s.calendar.view, c.wire.overlaps e.wire = true → c.beats e = true) {v : List Entry}
  (hv : v = s.calendar.view.filter (fun e => !c.wire.overlaps e.wire))
include h hv

theorem restoreEntry_of_full (full : makeRoom w v = none) : restoreEntry w s = s.answered .full := by
  subst hc hv
  unfold restoreEntry
  dsimp only
  rw [resolve_of_wins h]
  dsimp only
  rw [full]
  rfl

/-- R138: the restored entry takes its place, the removed HELD entries raise their notices, and the record is
evaluated. -/
theorem restoreEntry_of_room {room : List Entry} (made : makeRoom w v = some room) : restoreEntry w s = settle (evaluate (notifyAll
    ((s.calendar.view.filter (fun e => c.wire.overlaps e.wire && e.held)).map (fun e => .bookingConflict e.wire.id))
    { s with
      port := { s.port with reply := { status := .ok, data := bidBytes w.id } },
      calendar := { s.calendar with serial := (w.id.serial + 1) % 256, view := insertEntry c room } })) := by
  subst hc hv
  unfold restoreEntry
  dsimp only
  rw [resolve_of_wins h]
  dsimp only
  rw [made]
  dsimp only
  rw [handOnEntry_of_inactive rfl, notifyLost_eq, notifyAll_calendarChanged _ (fun k => { k with
    serial := (w.id.serial + 1) % 256, view := insertEntry { wire := w, held := true, active := false, age := 0 } room })]
  rfl

end

/-- Settles O31. -/
theorem restoreBookingResolvesLikeAnArrival : Obligations.RestoreBookingResolvesLikeAnArrival := by
  refine ⟨fun c v => ⟨makeRoom_of_room c, ?_, fun full none => makeRoom_of_none full (lastEvictable_none none)⟩, ?_,
    fun k w s => ⟨fun untaken => ?_, fun holder future live => ?_⟩, ?_, fun v w hv hw => newerVersion_iff hv hw,
    fun v id => ⟨rfl, rfl⟩⟩
  · rintro l r e full rfl heard inactive rest
    exact makeRoom_of_full full (lastEvictable_of_split rfl heard inactive rest)
  · intro day minute duration profile chair title serial version createdDay createdSecond s c idle run set h1 h2 h3 h4 h5 hc
      future fresh room
    have taken : RunTaken s := ⟨idle, by rw [run]; nofun⟩
    have entry : c = { wire := c.wire, held := true, active := false, age := 0 } := by rw [hc]
    have wire : c.wire = restoredEntry s.config.seat day minute duration profile chair title serial version createdDay
        createdSecond := by
      rw [hc, restoredEntry, bookingDuration_eq]
    have id : c.wire.id = { holder := s.config.seat, serial := serial.toNat } := by rw [hc]
    have params : ¬ (bookingParams minute.toNat profile.toNat chair.toNat title = false ∨ 86399 < createdSecond.toNat) := by
      rw [← Bool.not_eq_true, bookingParams_iff]
      omega
    have passes : exec (.restoreBooking day minute duration profile chair title serial version createdDay createdSecond) s
        = .next (restoreEntry c.wire s) := by
      rw [exec_restoreBooking taken wire, if_neg (by rw [run]; nofun), if_neg params, if_neg (by rw [set]; nofun),
        if_neg (Nat.not_le.2 future), viewFind_none_of fresh, if_neg nofun, if_neg (Nat.not_le.2 room)]
    rw [passes]
    refine ⟨fun loses => by rw [restoreEntry_of_loses entry loses], fun v wins hv => ⟨fun full => ?_, fun w made => ?_⟩⟩
    · rw [restoreEntry_of_full entry wins hv full]
    · rw [restoreEntry_of_room entry wins hv made, id]
      have code : bidBytes { holder := s.config.seat, serial := serial.toNat } = [byte s.config.seat, serial] := by
        simp [bidBytes, byte]
      rw [code]
  · refine arriveEntry_of_untaken fun h => ?_
    obtain ⟨holder, future, live⟩ := takesCandidate_iff.1 h
    rcases untaken with other | past | gone
    · exact other holder
    · exact future past
    · exact live gone
  · have taken : s.takesCandidate k w = true := takesCandidate_iff.2 ⟨holder, fun ⟨set, past⟩ =>
      future.elim (by simp [set]) (fun h => by omega), live⟩
    refine ⟨fun old found => ⟨fun stale => ?_, fun c rest newer hc hrest => ⟨fun loses => ?_, fun u wins hu => ?_⟩⟩,
      fun c fresh hc => ⟨fun loses => ?_, fun v lost wins hv hlost => ⟨fun full => ?_, fun room made => ?_⟩⟩⟩
    · rw [arriveEntry_of_known taken found, if_neg (by simp [stale])]
      rfl
    · rw [arriveEntry_of_known taken found, if_pos newer, replaceEntry_of_loses hc hrest loses]
      rfl
    · rw [arriveEntry_of_known taken found, if_pos newer, replaceEntry_of_wins hc hrest wins, hu, hc]
      rfl
    · rw [arriveEntry_of_new taken fresh, newEntry_of_loses hc loses]
    · rw [arriveEntry_of_new taken fresh, newEntry_of_full hc wins hv hlost full]
      rfl
    · rw [arriveEntry_of_new taken fresh, newEntry_of_room hc wins hv hlost made]
      rfl
  · intro day minute duration profile chair title serial version createdDay createdSecond s finish outside known x taken
      hfinish houtside hknown refused
    obtain ⟨w, wire⟩ : ∃ w, w = restoredEntry s.config.seat day minute duration profile chair title serial version createdDay
        createdSecond := ⟨_, rfl⟩
    have finishes : w.finish = finish := by
      rw [wire, hfinish, ← bookingDuration_eq]
      rfl
    have params : (bookingParams minute.toNat profile.toNat chair.toNat title = false ∨ 86399 < createdSecond.toNat) ↔ outside := by
      rw [← Bool.not_eq_true, bookingParams_iff, houtside]
      omega
    have bears : (viewFind s.calendar.view w.id).isSome ↔ known := by
      rw [viewFind, List.find?_isSome, hknown, wire]
      simp [restoredEntry, Bid.ext_iff']
    rw [exec_restoreBooking taken wire, finishes]
    rcases refused with ⟨clash, rfl⟩ | ⟨run, out, rfl⟩ | ⟨run, inside, unset, rfl⟩ | ⟨run, inside, set, rest⟩
    · rw [if_pos clash]
    · rw [if_neg (by rw [run]; nofun), if_pos (params.2 out)]
    · rw [if_neg (by rw [run]; nofun), if_neg (fun h => inside (params.1 h)), if_pos unset]
    · rw [if_neg (by rw [run]; nofun), if_neg (fun h => inside (params.1 h)), if_neg (by rw [set]; nofun)]
      rcases rest with ⟨past, rfl⟩ | ⟨future, bearer, rfl⟩ | ⟨future, fresh, full, rfl⟩
      · rw [if_pos past]
      · rw [if_neg (Nat.not_le.2 future), if_pos (bears.2 bearer)]
      · rw [if_neg (Nat.not_le.2 future), if_neg (fun h => fresh (bears.1 h)), if_pos full]

end Sys2Proof.Machine

namespace Sys2Proof.Machine

/-! SUPPORT. A meeting's start (R154, R29), its end (R160) and walk-in meetings (R162). -/

/-! ## Freeing the slots of several seats (R101) -/

theorem freeSeats_eq (out : List Nat) (l : List Slot) : out.foldl (fun m k => freeSeat k m) l
    = l.map (fun y => if y.state ≠ .free ∧ y.seat ∈ out then Slot.freed else y) := by
  induction out generalizing l with
  | nil => simp
  | cons k rest ih =>
    rw [List.foldl_cons, ih, freeSeat, List.map_map]
    refine List.map_congr_left fun y _ => ?_
    by_cases bound : y.state ≠ .free
    · by_cases here : y.seat = k
      · simp [bound, here, Slot.freed]
      · simp [bound, here]
    · simp only [Function.comp, bound, false_and, if_false]

/-- R38 and R101: a net change without entries frees the slots of the seats that left, the own one apart. -/
theorem bindNet_nil (own : Nat) (out : List Nat) (l : List Slot) : bindNet own out [] l
    = l.map (fun y => if y.state ≠ .free ∧ y.seat ≠ own ∧ y.seat ∈ out then Slot.freed else y) := by
  have freed : bindNet own out [] l = (out.filter (fun k => decide (k ≠ own))).foldl (fun m k => freeSeat k m) l := rfl
  rw [freed, freeSeats_eq]
  refine List.map_congr_left fun y _ => if_congr ?_ rfl rfl
  rw [List.mem_filter, decide_eq_true_eq, and_comm (a := y.seat ∈ out)]

/-! ## What a start leaves of claim, window and reply -/

/-- A NONE claim stays NONE, the queue window stays at its start, and the reply of an IDLE port stays. -/
structure Rests (s t : State) : Prop where
  claim : s.share.claim = .none → s.share.release = false → t.share.claim = .none ∧ t.share.release = false
  window : s.screen.windowStart = 1 → t.screen.windowStart = 1
  port : s.port.serving = false → t.port.serving = false ∧ t.port.reply = s.port.reply

namespace Rests

theorem refl (s : State) : Rests s s := ⟨fun c r => ⟨c, r⟩, id, fun p => ⟨p, rfl⟩⟩

theorem trans {s t u : State} (h : Rests s t) (k : Rests t u) : Rests s u :=
  ⟨fun c r => k.claim (h.claim c r).1 (h.claim c r).2, k.window ∘ h.window,
    fun p => ⟨(k.port (h.port p).1).1, ((k.port (h.port p).1).2).trans (h.port p).2⟩⟩

theorem ite {s t u : State} {p : Prop} [Decidable p] (h : p → Rests s t) (k : ¬ p → Rests s u) :
    Rests s (if p then t else u) := by
  split
  · exact h ‹_›
  · exact k ‹_›

theorem foldl {α : Type} {g : State → α → State} (hg : ∀ s a, Rests s (g s a)) (l : List α) (s : State) :
    Rests s (l.foldl g s) := by
  induction l generalizing s with
  | nil => exact .refl s
  | cons a rest ih => exact (hg s a).trans (ih _)

/-- A step that writes neither claim, window, serving nor reply. -/
theorem of_same {s t : State} (c : t.share.claim = s.share.claim) (r : t.share.release = s.share.release)
    (w : t.screen.windowStart = s.screen.windowStart) (p : t.port.serving = s.port.serving)
    (y : t.port.reply = s.port.reply) : Rests s t :=
  ⟨fun hc hr => ⟨c.trans hc, r.trans hr⟩, fun hw => w.trans hw, fun hp => ⟨p.trans hp, y⟩⟩

/-- A step of link and port. -/
theorem of_port {s t : State} (share : t.share = s.share) (screen : t.screen = s.screen)
    (port : s.port.serving = false → t.port.serving = false ∧ t.port.reply = s.port.reply) : Rests s t :=
  ⟨fun hc hr => by rw [share]; exact ⟨hc, hr⟩, fun hw => by rw [screen]; exact hw, port⟩

theorem settle (s : State) : Rests s (settle s) := by
  refine ⟨fun c r => ⟨by rw [settle_share_claim]; exact c, by rw [settle_share_release]; exact r⟩, fun w => ?_,
    fun p => by rw [settle_port]; exact ⟨p, rfl⟩⟩
  rw [settle_screen_windowStart]
  unfold State.windowShown
  split
  · rfl
  · exact w

theorem settled {s t : State} (h : Rests s t) : Rests s (Machine.settle t) := h.trans (.settle t)

theorem push_same (p : Port) (n : Notice) : (p.push n).serving = p.serving ∧ (p.push n).reply = p.reply := by
  unfold Port.push
  split <;> exact ⟨rfl, rfl⟩

theorem notify (n : Notice) (s : State) : Rests s (notify n s) :=
  .of_same rfl rfl rfl (push_same s.port n).1 (push_same s.port n).2

theorem notifyAll (l : List Notice) (s : State) : Rests s (notifyAll l s) := .foldl (fun t n => .notify n t) l s

theorem showTransient (x : List Byte) (s : State) : Rests s (showTransient x s) := .of_same rfl rfl rfl rfl rfl

theorem flushCheck (s : State) : Rests s (flushCheck s) :=
  .of_port (by simp) (by simp) fun idle => by
    have same : Machine.flushCheck s = s := if_neg (by simp [idle])
    rw [same]
    exact ⟨idle, rfl⟩

theorem select (s : State) : Rests s (select s) := by
  refine .of_port (by simp) (by simp) fun idle => ?_
  have runs : (selectRun s).port.serving = false ∧ (selectRun s).port.reply = s.port.reply := by
    unfold selectRun
    split
    · exact ⟨idle, rfl⟩
    · split
      next f rest _ =>
        exact (flushCheck { s with link := { s.link with queue := rest, inSend := some (.first f false) } }).port idle
      · split <;> exact ⟨idle, rfl⟩
  unfold Machine.select
  split
  · split
    · exact ⟨idle, rfl⟩
    · exact runs
    · split <;> exact ⟨idle, rfl⟩
  · exact ⟨idle, rfl⟩

theorem offer (b : Body) (s : State) : Rests s (offer b s).1 := by
  unfold Machine.offer
  split
  · exact .refl s
  · have queued : Rests s { s with link := { s.link with queue := (coalesce (s.own b) s.link.queue).1 } } :=
      .of_same rfl rfl rfl rfl rfl
    exact (queued.trans (.flushCheck _)).trans (.select _)

theorem offerFrame (b : Body) (s : State) : Rests s (offerFrame b s) := .offer b s

theorem withdrawOpen (s : State) : Rests s (withdrawOpen s).1 := by
  by_cases mine : ∃ f ∈ s.link.queue, f.internalKind = some .mic
  · rw [withdrawOpen_of_queued mine]
    exact (of_same rfl rfl rfl rfl rfl : Rests s { s with link := { s.link with
      queue := s.link.queue.filter (fun f => decide (f.internalKind ≠ some .mic)) } }).trans (.flushCheck _)
  · obtain ⟨w, _, same⟩ := withdrawOpen_of_unqueued (s := s) (by simpa using mine)
    rw [same]
    exact .refl s

theorem storeStep (x : FloorStep) (s : State) : Rests s (storeStep x s) :=
  .of_port (by simp) (by simp) fun idle => by
    unfold Machine.storeStep
    dsimp only
    split <;> simp [idle, emptyVoice]

theorem micOff (s : State) : Rests s (micOff s) := .of_same rfl rfl rfl rfl rfl

/-- R175: a NONE claim is not released. -/
theorem leaveOpenRelease (s : State) : Rests s (leaveOpenRelease s) := by
  have released : Rests s (Machine.offer (.unshare s.meetingId) s).1 := .offer _ s
  refine ⟨fun c r => ?_, fun w => ?_, fun p => ?_⟩
  · rw [leaveOpenRelease_of_other (.inr (.inr c))]
    exact ⟨c, r⟩
  · unfold Machine.leaveOpenRelease releaseClaim
    split
    · split
      · exact released.window w
      · dsimp only
        split <;> exact released.window w
      · exact released.window w
    · exact w
  · unfold Machine.leaveOpenRelease releaseClaim
    split
    · split
      · exact released.port p
      · dsimp only
        split <;> exact released.port p
      · exact released.port p
    · exact ⟨p, rfl⟩

theorem micClose (why : Reason) (s : State) : Rests s (micClose why s) :=
  (((micOff s).trans (storeStep _ _)).settled.trans (offerFrame _ _)).trans (leaveOpenRelease _)

theorem micDisplaced (s : State) : Rests s (micDisplaced s) := by
  have requeued : Rests s (Machine.showTransient (text "Floor full - requeued") (Machine.notify (.floorConflict s.ownSeat)
      (Machine.settle (Machine.offerFrame (.yield s.meetingId s.mic.requestStamp) (setPlacing false { s with
        mic := { OwnMic.reset with state := .waiting, requestStamp := s.mic.requestStamp } }))))) :=
    ((((of_same rfl rfl rfl rfl rfl : Rests s (setPlacing false { s with
      mic := { OwnMic.reset with state := .waiting, requestStamp := s.mic.requestStamp } })).trans
      (offerFrame _ _)).settled).trans (notify _ _)).trans (showTransient _ _)
  exact .ite (fun _ => requeued.trans (leaveOpenRelease _)) (fun _ => requeued)

theorem micPriorityOn (s : State) : Rests s (micPriorityOn s) := .ite (fun _ => micClose _ s) (fun _ => .refl s)

end Rests

/-- R68: a withdrawal changes link, port and the own-microphone record. -/
theorem withdrawLostOpen_eq (s : State) :
    withdrawLostOpen s = { (withdrawOpen s).1 with mic := (withdrawLostOpen s).mic } := by
  unfold withdrawLostOpen
  split
  next t h => rw [h]
  next t w h => rw [h]

namespace Rests

theorem ownSide (s : State) : Rests s (ownSide s) := by
  unfold Machine.ownSide
  split
  · split
    · exact .refl s
    · refine .ite (fun _ => ?_) (fun _ => .refl s)
      have issued : Rests s { s with floor := s.floor.issued, mic := { s.mic with
          state := .opening, cls := some .delegate, openStamp := s.floor.nextStamp, closePending := none } } :=
        .of_same rfl rfl rfl rfl rfl
      exact issued.trans (offerFrame _ _)
    · refine .ite (fun _ => ?_) (fun _ => .refl s)
      rw [withdrawLostOpen_eq]
      exact (withdrawOpen s).trans (.of_same rfl rfl rfl rfl rfl)
    · exact .ite (fun _ => micClose _ s) (fun _ => .refl s)
  · exact .refl s

theorem evalMic (s : State) : Rests s (evalMic s) := ((settle s).trans (ownSide _)).settled

theorem floorStep (x : FloorStep) (s : State) : Rests s (floorStep x s) := by
  have stored : Rests s (Machine.settle (Machine.storeStep x s)) := (storeStep x s).settled
  have displaced : Rests s (if (x.removals s.floor).contains (s.ownSeat, .displaced) then
      Machine.micDisplaced (Machine.settle (Machine.storeStep x s)) else Machine.settle (Machine.storeStep x s)) :=
    .ite (fun _ => stored.trans (micDisplaced _)) (fun _ => stored)
  exact (ite (fun _ => displaced.trans (micPriorityOn _)) (fun _ => displaced)).trans (evalMic _)

theorem shareLost (screen k : Nat) (s : State) : Rests s (shareLost screen k s) := (notify _ s).trans (showTransient _ _)

theorem claimRule_claim (h : Share) (k screen stamp chair : Nat) : (h.claimRule k screen stamp chair).claim = h.claim ∧
    (h.claimRule k screen stamp chair).release = h.release := by
  have other : (h.leaveOther k screen).claim = h.claim ∧ (h.leaveOther k screen).release = h.release := by
    unfold Share.leaveOther Share.setScreen
    split
    · split <;> exact ⟨rfl, rfl⟩
    · exact ⟨rfl, rfl⟩
  unfold Share.claimRule Share.setScreen
  split
  · split <;> exact other
  · exact other

theorem shareClaimed (k screen stamp : Nat) (s : State) : Rests s (shareClaimed k screen stamp s) := by
  refine (floorStep (.plain (s.floor.raise stamp)) s).trans ?_
  unfold Machine.shareClaimed
  generalize Machine.floorStep (.plain (s.floor.raise stamp)) s = t
  have ruled := claimRule_claim t.share k screen stamp t.meeting.chair
  have claimed : Rests t { t with share := t.share.claimRule k screen stamp t.meeting.chair } :=
    .of_same ruled.1 ruled.2 rfl rfl rfl
  refine .ite (fun _ => ?_) (fun _ => claimed)
  refine (claimed.trans (Rests.settled ?_)).trans (shareLost _ _ _)
  exact .ite (fun _ => ⟨fun _ _ => ⟨rfl, rfl⟩, id, fun p => ⟨p, rfl⟩⟩) (fun _ => .refl _)

theorem shareSync (k : Nat) (reported : Option (Nat × Nat)) (s : State) : Rests s (shareSync k reported s) := by
  unfold Machine.shareSync
  split
  · exact .of_same rfl rfl rfl rfl rfl
  · exact .ite (fun _ => floorStep _ s) (fun _ => shareClaimed _ _ _ s)

theorem replaySeat (id : Bid) (s : State) (k : Nat) : Rests s (replaySeat id s k) :=
  .ite (fun _ => ((ite (fun _ => floorStep _ s) (fun _ => .refl s)).trans
    (.ite (fun _ => shareSync _ _ _) (fun _ => .refl _))).settled) (fun _ => .refl s)

theorem replay (id : Bid) (s : State) : Rests s (replay id s) := .foldl (fun t k => replaySeat id t k) _ s

end Rests

end Sys2Proof.Machine

namespace Sys2Proof.Machine

/-! SUPPORT. A meeting's start (R154, R29), its end (R160) and walk-in meetings (R162). -/

/-! ## The record and the table at a start -/

/-- R154: the state at a start, before the page is composed. -/
def startedTable (e : Entry) (s : State) : State := screenAtStart (mixAtStart (clearView (recordStart e s)))

/-- R154: the state that the warning test of a start meets. -/
def startedMeeting (e : Entry) (s : State) : State := notify (.meetingStart e.wire.id) (replay e.wire.id (settle (startedTable e s)))

theorem startMeetingFor_eq (e : Entry) (s : State) :
    startMeetingFor e s = evalMic (meetingWarningTest (startedMeeting e s)) := rfl

theorem startedTable_eq (e : Entry) (s : State) : startedTable e s = { s with
    calendar := { s.calendar with view := s.calendar.view.map (fun x =>
      if x.wire.id = e.wire.id then { x with active := true, age := 0 } else x) },
    meeting := { s.meeting with
      state := .active, id := some e.wire.id, profile := s.profiles.getD e.wire.profile .powerOn, chair := e.wire.chair,
      start := e.wire.start, finish := e.wire.finish, endAsked := false },
    floor := { openSet := [], queue := [], stamp := 0, priority := false },
    mix := { s.mix with
      reduction := 0, quiet := 0, overflowMark := false,
      slots := s.mix.slots.map (fun y =>
        if y.state ≠ .free ∧ y.seat ≠ s.config.seat ∧ s.floor.isOpen y.seat = true then
          { seat := 0, state := .free, fifo := [], last := none, stale := 0, overflow := false } else y) },
    share := { s.share with
      screen1 := none, screen2 := none, claim := .none, claimScreen := 0, claimStamp := 0, release := false },
    screen := { s.screen with windowStart := 1, windowCount := 0 } } := by
  have slots : bindNet s.ownSeat (s.floor.openSet.map (fun r => r.seat)) [] s.mix.slots = s.mix.slots.map (fun y =>
      if y.state ≠ .free ∧ y.seat ≠ s.config.seat ∧ s.floor.isOpen y.seat = true then
        { seat := 0, state := .free, fifo := [], last := none, stale := 0, overflow := false } else y) := by
    rw [bindNet_nil]
    refine List.map_congr_left fun y _ => if_congr ?_ rfl rfl
    rw [Floor.isOpen_iff, List.mem_map]
    rfl
  rw [← slots]
  rfl

theorem startedMeeting_table (e : Entry) (s : State) : tableOnly (startedTable e s) (startedMeeting e s) :=
  (((settle_table _).trans (replay_table _ _)).trans (notify_table _ _)).frame

theorem startedMeeting_rests (e : Entry) (s : State) : Rests (startedTable e s) (startedMeeting e s) :=
  ((Rests.settle _).trans (.replay _ _)).trans (.notify _ _)

/-- R155: the warning test moves the record between ACTIVE and ENDING, and can add a notice. -/
theorem meetingWarningTest_changes (s : State) : ∃ (x : MeetingState) (l : List Notice),
    meetingWarningTest s = notifyAll l { s with meeting := { s.meeting with state := x } } ∧
      (x = .idle ↔ s.meeting.state = .idle) := by
  have unchanged : ∃ (x : MeetingState) (l : List Notice), s = notifyAll l { s with meeting := { s.meeting with state := x } } ∧
      (x = .idle ↔ s.meeting.state = .idle) := ⟨s.meeting.state, [], rfl, Iff.rfl⟩
  unfold meetingWarningTest
  dsimp only
  split
  · split
    · exact unchanged
    next active =>
      split
      · split
        next id _ => exact ⟨.ending, [.meetingWarning id s.meeting.profile.endWarning], rfl, by simp [active]⟩
        · exact ⟨.ending, [], rfl, by simp [active]⟩
      · exact unchanged
    next ending =>
      split
      · exact unchanged
      · exact ⟨.active, [], rfl, by simp [ending]⟩
  · exact unchanged

theorem push_prefix (p : Port) (n : Notice) : p.notices <+: (p.push n).notices := by
  unfold Port.push
  split
  · exact List.prefix_append _ _
  · exact List.prefix_rfl

theorem notifyAll_prefix (l : List Notice) (s : State) : s.port.notices <+: (notifyAll l s).port.notices := by
  induction l generalizing s with
  | nil => exact List.prefix_rfl
  | cons n rest ih => exact (push_prefix s.port n).trans (ih (notify n s))

/-! ## The evaluation over an empty view -/

theorem eligible_of_empty {s : State} (h : s.floor.queue = []) : s.eligible = false := by
  simp [State.eligible, Floor.queueRecord, Floor.position, h, positionFrom]

/-- R66: with nobody queued the evaluation changes neither view, notices nor screens. -/
theorem evalMic_of_empty {s : State} (h : s.floor.queue = []) : (evalMic s).floor = s.floor ∧
    (evalMic s).port.notices = s.port.notices ∧ (evalMic s).share.screen1 = s.share.screen1 ∧
    (evalMic s).share.screen2 = s.share.screen2 := by
  have kept (t : State) (h : evalMic s = settle t) (f : t.floor = s.floor) (n : t.port.notices = s.port.notices)
      (a : t.share.screen1 = s.share.screen1) (b : t.share.screen2 = s.share.screen2) :
      (evalMic s).floor = s.floor ∧ (evalMic s).port.notices = s.port.notices ∧
        (evalMic s).share.screen1 = s.share.screen1 ∧ (evalMic s).share.screen2 = s.share.screen2 := by
    rw [h, settle_floor, settle_port, settle_share_screen1, settle_share_screen2]
    exact ⟨f, n, a, b⟩
  by_cases running : s.meeting.state = .idle
  · exact kept s (evalMic_of_idle running) rfl rfl rfl rfl
  · cases state : s.mic.state with
    | closed => exact kept s (evalMic_of_closed state) rfl rfl rfl rfl
    | waiting =>
      exact kept s ((evalMic_of_waiting running state).trans (if_neg (by simp [eligible_of_empty h]))) rfl rfl rfl rfl
    | opening =>
      by_cases lost : s.mic.cls = some .delegate ∧ s.mic.closePending = none ∧ s.eligible = false
      · refine kept _ ((evalMic_of_opening running state).trans (if_pos lost)) ?_ ?_ ?_ ?_ <;>
          rw [withdrawLostOpen_eq] <;> simp
      · exact kept s ((evalMic_of_opening running state).trans (if_neg lost)) rfl rfl rfl rfl
    | _ =>
      have stays : ¬ (s.mic.cls = some .delegate ∧ s.overrideCloses = true) := fun c =>
        (overrideCloses_iff.1 c.2).2.2.2 h
      exact kept s ((evalMic_of_open running state).trans (if_neg stays)) rfl rfl rfl rfl

/-! ## Replay (R29) -/

section
variable {id : Bid} {s : State}

theorem replaySeat_of_other {k : Nat} (h : (s.presence.peer k).state ≠ .present ∨ 500 < (s.presence.peer k).beaconAge ∨
    (s.presence.peer k).meeting ≠ some id) : replaySeat id s k = s :=
  if_neg fun ⟨present, young, same⟩ => h.elim (fun k => k present)
    (fun h => h.elim (fun k => absurd young (by simpa [Config.replayAge] using k)) (fun k => k same))

/-- R29: with no peer PRESENT nothing is replayed. -/
theorem replay_of_none (h : ∀ k, (s.presence.peer k).state ≠ .present) : replay id s = s := by
  unfold replay
  generalize allSeats = l
  induction l with
  | nil => rfl
  | cons k rest ih => rw [List.foldl_cons, replaySeat_of_other (.inl (h k)), ih]

theorem reconcileBeacon_of_passes {m : Option Bid} {k : Nat} {mic : Option (Nat × Nat)} {request : Option Nat} {prio : Bool}
    (h : s.filterPasses m = true) : reconcileBeacon k m mic request prio s = floorStep (s.floor.reconcile k mic request prio
      (s.isChairSeat k) s.blockNumber s.meeting.profile.limit s.meeting.profile.priorityAllowed) s := if_pos h

theorem shareBeacon_of_passes {m : Option Bid} {k : Nat} {reported : Option (Nat × Nat)} (h : s.filterPasses m = true) :
    shareBeacon k m reported s = shareSync k reported s := if_pos h

/-- R29: a peer's floor state is reconciled, then its share state applied. -/
theorem replaySeat_of_present {k : Nat} {p : Peer} (hp : p = s.presence.peer k) (present : p.state = .present)
    (young : p.beaconAge ≤ 500) (same : p.meeting = some id) (running : s.meeting.state ≠ .idle) (named : s.meeting.id = some id) :
    replaySeat id s k = settle (shareSync k p.share (floorStep (s.floor.reconcile k p.mic p.request p.priority
      (s.isChairSeat k) s.blockNumber s.meeting.profile.limit s.meeting.profile.priorityAllowed) s)) := by
  subst hp
  have passes : s.filterPasses (some id) = true := (filterPasses_iff named _).2 ⟨running, rfl⟩
  have taken : replaySeat id s k = settle (shareBeacon k (s.presence.peer k).meeting (s.presence.peer k).share
      (reconcileBeacon k (s.presence.peer k).meeting (s.presence.peer k).mic (s.presence.peer k).request
        (s.presence.peer k).priority s)) := if_pos ⟨present, young, same⟩
  have after := filterPasses_congr (reconcileBeacon_table k (some id) (s.presence.peer k).mic (s.presence.peer k).request
    (s.presence.peer k).priority s).frame.meeting (some id)
  rw [taken, same, shareBeacon_of_passes (after.trans passes), reconcileBeacon_of_passes passes]

end

/-- What the warning test of a start leaves: the record runs on, notices can have joined, and nothing else is new. -/
structure Warned (s t : State) : Prop where
  meeting : ∃ x : MeetingState, x ≠ .idle ∧ t.meeting = { s.meeting with state := x }
  calendar : t.calendar = s.calendar
  mix : t.mix = s.mix
  floor : t.floor = s.floor
  share : t.share = s.share
  screen : t.screen = s.screen
  notices : s.port.notices <+: t.port.notices
  rests : Rests s t

theorem meetingWarningTest_warned {s : State} (running : s.meeting.state ≠ .idle) : Warned s (meetingWarningTest s) := by
  obtain ⟨x, l, warned, idle⟩ := meetingWarningTest_changes s
  have moved : Rests s { s with meeting := { s.meeting with state := x } } := .of_same rfl rfl rfl rfl rfl
  rw [warned]
  exact ⟨⟨x, fun h => running (idle.1 h), notifyAll_meeting _ _⟩, notifyAll_calendar _ _, notifyAll_mix _ _,
    notifyAll_floor _ _, notifyAll_share _ _, notifyAll_screen _ _, notifyAll_prefix l { s with meeting := { s.meeting with state := x } }, moved.trans (.notifyAll l _)⟩

theorem startedMeeting_running (e : Entry) (s : State) : (startedMeeting e s).meeting.state ≠ .idle := by
  rw [(startedMeeting_table e s).meeting]
  nofun

section
variable {s t : State}

theorem tableOnly.windowCount (h : tableOnly s t) : t.screen.windowCount = s.screen.windowCount := by
  have k := congrArg (fun u : State => u.screen.windowCount) h
  exact k

theorem tableOnly.limiter (h : tableOnly s t) : t.mix.reduction = s.mix.reduction ∧ t.mix.quiet = s.mix.quiet ∧
    t.mix.overflowMark = s.mix.overflowMark := by
  have k := congrArg (fun u : State => (u.mix.reduction, u.mix.quiet, u.mix.overflowMark)) h
  exact ⟨congrArg (fun p => p.1) k, congrArg (fun p => p.2.1) k, congrArg (fun p => p.2.2) k⟩

end

/-! ## What a start leaves -/

section
variable (e : Entry) (s : State)

theorem startMeetingFor_meeting : ∃ x : MeetingState, x ≠ .idle ∧
    (startMeetingFor e s).meeting = { (startedTable e s).meeting with state := x } := by
  have warned := meetingWarningTest_warned (startedMeeting_running e s)
  obtain ⟨x, run, same⟩ := warned.meeting
  refine ⟨x, run, ?_⟩
  rw [startMeetingFor_eq, (evalMic_table _).frame.meeting, same, (startedMeeting_table e s).meeting]

theorem startMeetingFor_view : (startMeetingFor e s).calendar.view = (startedTable e s).calendar.view := by
  have warned := meetingWarningTest_warned (startedMeeting_running e s)
  rw [startMeetingFor_eq, (evalMic_table _).frame.view, warned.calendar, (startedMeeting_table e s).view]

theorem startMeetingFor_serial : (startMeetingFor e s).calendar.serial = s.calendar.serial := by
  have warned := meetingWarningTest_warned (startedMeeting_running e s)
  rw [startMeetingFor_eq, (evalMic_table _).frame.serial, warned.calendar, (startedMeeting_table e s).serial]
  rfl

theorem startMeetingFor_rests : Rests (startedTable e s) (startMeetingFor e s) :=
  ((startedMeeting_rests e s).trans (meetingWarningTest_warned (startedMeeting_running e s)).rests).trans (.evalMic _)

theorem startMeetingFor_limiter : (startMeetingFor e s).mix.reduction = 0 ∧ (startMeetingFor e s).mix.quiet = 0 ∧
    (startMeetingFor e s).mix.overflowMark = false := by
  have warned := meetingWarningTest_warned (startedMeeting_running e s)
  obtain ⟨r, q, o⟩ := (evalMic_table (meetingWarningTest (startedMeeting e s))).frame.limiter
  obtain ⟨r', q', o'⟩ := (startedMeeting_table e s).limiter
  rw [startMeetingFor_eq, r, q, o, warned.mix, r', q', o']
  exact ⟨rfl, rfl, rfl⟩

theorem startMeetingFor_windowCount : (startMeetingFor e s).screen.windowCount = 0 := by
  have warned := meetingWarningTest_warned (startedMeeting_running e s)
  rw [startMeetingFor_eq, (evalMic_table _).frame.windowCount, warned.screen, (startedMeeting_table e s).windowCount]
  rfl

/-- R29 and R154: with no peer PRESENT the start leaves an empty table. -/
theorem startMeetingFor_of_nobody (none : ∀ k, (s.presence.peer k).state ≠ .present) :
    (startMeetingFor e s).floor = .cleared ∧
    ((startMeetingFor e s).share.screen1 = Option.none ∧ (startMeetingFor e s).share.screen2 = Option.none) ∧
    (s.port.notices = [] → ∃ rest : List Notice, (startMeetingFor e s).port.notices = .meetingStart e.wire.id :: rest) := by
  have warned := meetingWarningTest_warned (startedMeeting_running e s)
  have plain : startedMeeting e s = notify (.meetingStart e.wire.id) (settle (startedTable e s)) := by
    unfold startedMeeting
    rw [replay_of_none (by rw [settle_presence]; exact none)]
  have floor : (startedMeeting e s).floor = (startedTable e s).floor := by rw [plain]; exact settle_floor _
  obtain ⟨view, notices, first, second⟩ := evalMic_of_empty (s := meetingWarningTest (startedMeeting e s))
    (by rw [warned.floor, floor]; rfl)
  rw [startMeetingFor_eq, view, notices, first, second, warned.floor, warned.share, floor]
  refine ⟨rfl, ⟨?_, ?_⟩, fun empty => ?_⟩
  · rw [plain]
    exact settle_share_screen1 _
  · rw [plain]
    exact settle_share_screen2 _
  · have started : (settle (startedTable e s)).port = s.port := settle_port _
    have one : (startedMeeting e s).port.notices = [.meetingStart e.wire.id] := by
      rw [plain, notify, started]
      exact (congrArg Port.notices (push_of_room (by simp [empty]) _)).trans (by rw [empty]; rfl)
    obtain ⟨rest, more⟩ := warned.notices
    exact ⟨rest, by rw [← more, one]; rfl⟩

end

/-- Settles O27. -/
theorem meetingStartTakesTheEntry : Obligations.MeetingStartTakesTheEntry := by
  refine ⟨?_, fun e s w t hw ht => ?_, fun id s => rfl, fun id k p s v hp =>
    ⟨fun other => replaySeat_of_other (hp ▸ other), fun present young same running named hv => ?_⟩⟩
  · rintro e s t rfl
    obtain ⟨x, run, meeting⟩ := startMeetingFor_meeting e s
    have rests := startMeetingFor_rests e s
    refine ⟨?_, startMeetingFor_view e s, startMeetingFor_limiter e s, rests.claim rfl rfl,
      ⟨rests.window rfl, startMeetingFor_windowCount e s⟩, fun none => ?_⟩
    · rw [meeting]
      exact ⟨run, rfl, rfl, rfl, rfl, rfl, rfl⟩
    · obtain ⟨floor, screens, first⟩ := startMeetingFor_of_nobody e s none
      rw [floor]
      exact ⟨⟨rfl, rfl, rfl, rfl⟩, screens, first⟩
  · have table : t = startedMeeting e s := by rw [ht, hw, ← startedTable_eq]; rfl
    have active : t.meeting.state = .active := by rw [table, (startedMeeting_table e s).meeting]; rfl
    have named : t.meeting.id = some e.wire.id := by rw [table, (startedMeeting_table e s).meeting]; rfl
    rw [startMeetingFor_eq, ← table]
    refine ⟨fun early => ?_, fun warns near => ?_⟩
    · rcases early with unwarned | early
      · rw [meetingWarningTest_of_unwarned unwarned]
      · rw [meetingWarningTest_of_early active early]
    · rw [meetingWarningTest_of_approach active named warns near]
  · rw [hv]
    exact replaySeat_of_present hp present young same running named

end Sys2Proof.Machine

namespace Sys2Proof.Machine

/-! SUPPORT. A meeting's end (R160) and walk-in meetings (R162). -/

/-! ## The steps of an end -/

section
variable (id : Bid) (why : EndReason) (s : State)

/-- R160, steps 3 to 5: table, screens, entry and record cleared. -/
def closedFrom (s1 : State) : State :=
  let s2 := { s1 with meeting := { s1.meeting with state := .idle, id := none, chair := 0, endAsked := false } }
  let s4 := settle (clearShare (micOff (clearView s2)))
  settle { s4 with calendar := { s4.calendar with view := viewDrop s4.calendar.view id, ask := none } }

/-- R160: the state after step 5. -/
def closedTable : State := closedFrom id (endedOwnSide s)

/-- R160: an early end records the id of the ended meeting. -/
def closedRecord : State :=
  if why = .time then closedTable id s
  else { closedTable id s with meeting := { (closedTable id s).meeting with endedEarly := some id, endedEarlyAge := 0 } }

theorem closeMeeting_eq : closeMeeting id why s = notify (.meetingEnd id why) (closedRecord id why s) := rfl

theorem endedOwnSide_table : TableStep s (endedOwnSide s) := ((settle_table s).trans (micMeetingEnd_table _)).settled

theorem closedFrom_meeting : (closedFrom id s).meeting = { s.meeting with state := .idle, id := none, chair := 0, endAsked := false } :=
  (settle_meeting _).trans (settle_meeting _)

theorem closedFrom_calendar : (closedFrom id s).calendar = { s.calendar with view := viewDrop s.calendar.view id, ask := none } := by
  have table : (settle (clearShare (micOff (clearView { s with meeting := { s.meeting with
      state := .idle, id := none, chair := 0, endAsked := false } })))).calendar = s.calendar := settle_calendar _
  unfold closedFrom
  dsimp only
  rw [settle_calendar, table]

theorem closedFrom_port : (closedFrom id s).port = s.port := (settle_port _).trans (settle_port _)

theorem closedFrom_mix : (closedFrom id s).mix = (clearView s).mix := (settle_mix _).trans (settle_mix _)

theorem closedFrom_station : (closedFrom id s).station = s.station := (settle_station _).trans (settle_station _)

theorem closedTable_meeting : (closedTable id s).meeting
    = { s.meeting with state := .idle, id := none, chair := 0, endAsked := false } := by
  rw [closedTable, closedFrom_meeting, (endedOwnSide_table s).frame.meeting]

theorem closedTable_view : (closedTable id s).calendar.view = s.calendar.view.filter (fun e => decide (e.wire.id ≠ id)) := by
  rw [closedTable, closedFrom_calendar, (endedOwnSide_table s).frame.view]
  rfl

theorem closedTable_ask : (closedTable id s).calendar.ask = none := by rw [closedTable, closedFrom_calendar]

theorem closedTable_port : (closedTable id s).port = (endedOwnSide s).port := closedFrom_port _ _

theorem closedTable_mix : (closedTable id s).mix = (clearView (endedOwnSide s)).mix := closedFrom_mix _ _

theorem closedTable_station : (closedTable id s).station = s.station := by
  rw [closedTable, closedFrom_station, (endedOwnSide_table s).frame.station]

/-- What the record of the early end leaves. -/
theorem closedRecord_eq : closedRecord id why s = { closedTable id s with meeting := { (closedTable id s).meeting with
    endedEarly := if why = .time then s.meeting.endedEarly else some id,
    endedEarlyAge := if why = .time then s.meeting.endedEarlyAge else 0 } } := by
  unfold closedRecord
  split
  · have early : (closedTable id s).meeting.endedEarly = s.meeting.endedEarly ∧
        (closedTable id s).meeting.endedEarlyAge = s.meeting.endedEarlyAge := by
      rw [closedTable_meeting]
      exact ⟨rfl, rfl⟩
    rw [← early.1, ← early.2]
  · rfl

end

/-- The ended-early id and the Host Port are read by no page, lamp or selector. -/
theorem Settled.ended {s : State} (h : Settled s) (x : Option Bid) (n : Nat) (p : Port) :
    Settled { s with meeting := { s.meeting with endedEarly := x, endedEarlyAge := n }, port := p } :=
  ⟨congrArg (fun u : State => { u with meeting := { s.meeting with endedEarly := x, endedEarlyAge := n }, port := p }) h.lamps,
    congrArg (fun u : State => { u with meeting := { s.meeting with endedEarly := x, endedEarlyAge := n }, port := p }) h.selector,
    h.window, h.page, h.transfer⟩

theorem closeMeeting_settled (id : Bid) (why : EndReason) (s : State) : settle (closeMeeting id why s) = closeMeeting id why s := by
  have table : Settled (closedTable id s) := settle_settled _
  rw [closeMeeting_eq, closedRecord_eq]
  exact (table.ended _ _ _).eq

theorem evalMic_settled (s : State) : settle (evalMic s) = evalMic s := settle_settle _

theorem startDue_settled {s : State} (h : settle s = s) : settle (startDue s) = startDue s := by
  unfold startDue
  split
  · split
    · exact evalMic_settled _
    · exact h
  · exact h

/-! ## The own side at an end (R86) -/

section
variable {s : State}

theorem settle_meetingId : (settle s).meetingId = s.meetingId := by
  unfold State.meetingId State.inMeeting
  rw [settle_meeting]

theorem endedOwnSide_of_quiet (h : s.mic.state = .closed ∨ s.mic.state = .waiting) : endedOwnSide s = settle s := by
  have quiet : micMeetingEnd (settle s) = settle s := by
    unfold micMeetingEnd
    rw [settle_mic]
    rcases h with h | h <;> rw [h]
  rw [endedOwnSide, quiet, settle_settle]

theorem endedOwnSide_of_opening (h : s.mic.state = .opening) : endedOwnSide s
    = settle (offerFrame (.close s.meetingId s.config.seat .meetingEnd) (micOff (settle s))) := by
  have ends : micMeetingEnd (settle s) = offerFrame (.close (settle s).meetingId (settle s).ownSeat .meetingEnd)
      (micOff (settle s)) := by
    unfold micMeetingEnd
    rw [settle_mic, h]
  rw [endedOwnSide, ends, settle_meetingId, State.ownSeat, settle_config]

theorem endedOwnSide_of_open (h : s.mic.state = .open) : endedOwnSide s
    = settle (offerFrame (.close s.meetingId s.config.seat .meetingEnd)
        (storeStep (s.floor.removed s.config.seat .meetingEnd) (micOff (settle s)))) := by
  have ends : micMeetingEnd (settle s) = offerFrame (.close (settle s).meetingId (settle s).ownSeat .meetingEnd)
      (storeStep ((settle s).floor.removed (settle s).ownSeat .meetingEnd) (micOff (settle s))) := by
    unfold micMeetingEnd
    rw [settle_mic, h]
  rw [endedOwnSide, ends, settle_meetingId, State.ownSeat, settle_config, settle_floor]

/-- R37 to R39: the own seat leaves an open set that holds it, with room for the notice. -/
theorem storeStep_ownLeaves {why : Reason} (h : s.floor.isOpen s.config.seat = true) (room : s.port.notices.length < 16) :
    storeStep (s.floor.removed s.config.seat why) (micOff s)
      = { s with floor := { s.floor with openSet := s.floor.openSet.filter (fun r => decide (r.seat ≠ s.config.seat)) },
                 mic := .reset, capture := { s.capture with placing := false },
                 link := { s.link with voiceSlot := none },
                 port := { s.port with notices := s.port.notices ++ [.closed s.config.seat why] } } := by
  have stored := storeStep_ownRemoved (s := micOff s) (why := why) h
  have pushed : (micOff s).port.push (.closed s.ownSeat why)
      = { s.port with notices := s.port.notices ++ [.closed s.config.seat why] } := push_of_room (p := s.port) room _
  have whole : storeStep (s.floor.removed s.config.seat why) (micOff s)
      = { s with floor := s.floor.dropOpen s.ownSeat, mic := .reset, capture := { s.capture with placing := false },
                 link := { s.link with voiceSlot := none },
                 port := (micOff s).port.push (.closed s.ownSeat why) } := stored
  rw [whole, pushed]
  rfl

/-- R100: the own seat has no slot, so slots that follow the open set still do when it has left. -/
theorem slotsFollow_of_ownLeft {t : State} (follow : SlotsFollow s) (slots : t.mix.slots = s.mix.slots)
    (config : t.config = s.config) (station : t.station = s.station)
    (others : ∀ k, k ≠ s.ownSeat → t.floor.isOpen k = s.floor.isOpen k) : SlotsFollow t := by
  have mix : t.hasMix = s.hasMix := by rw [State.hasMix, config]; rfl
  refine ⟨fun h k => ?_, by rw [slots]; exact follow.once, by rw [mix, station, slots]; exact follow.free⟩
  rw [slots, follow.bound (mix ▸ h) k, State.ownSeat, State.ownSeat, config]
  by_cases own : k = s.config.seat
  · simp [own]
  · rw [others k own]

theorem isOpen_removed_other {f : Floor} {k j : Nat} (h : k ≠ j) (why : Reason) : (f.removed j why).floor.isOpen k = f.isOpen k := by
  rw [Bool.eq_iff_iff, Floor.isOpen_iff, Floor.isOpen_iff]
  constructor
  · rintro ⟨r, mem, seat⟩
    exact ⟨r, (List.mem_filter.1 mem).1, seat⟩
  · rintro ⟨r, mem, seat⟩
    exact ⟨r, List.mem_filter.2 ⟨mem, by simpa [seat] using h⟩, seat⟩

/-- R37: what a step that removes one seat takes out is that seat alone. -/
theorem othersOf_removed (f : Floor) (k : Nat) (why : Reason) :
    othersOf k (((f.removed k why).removals f).map (fun p => p.1)) = [] := by
  have one : ∀ p ∈ (f.removed k why).removals f, p.1 = k := by
    intro p hp
    have left := (FloorStep.mem_removals.1 hp).1
    unfold Floor.removed at left
    split at left
    · rw [List.mem_singleton.1 left]
    · cases left
  rw [List.filter_eq_nil_iff]
  intro j hj
  obtain ⟨p, hp, rfl⟩ := List.mem_map.1 hj
  simp [one p hp]

theorem endedOwnSide_follow (follow : SlotsFollow s) : SlotsFollow (endedOwnSide s) := by
  have settled (t : State) (k : SlotsFollow t) : SlotsFollow (settle t) :=
    slotsFollow_of_ownLeft k (by rw [settle_mix]) (settle_config t) (settle_station t) (fun _ _ => by rw [settle_floor])
  cases state : s.mic.state with
  | closed => rw [endedOwnSide_of_quiet (.inl state)]; exact settled s follow
  | waiting => rw [endedOwnSide_of_quiet (.inr state)]; exact settled s follow
  | opening =>
    rw [endedOwnSide_of_opening state]
    refine settled _ (slotsFollow_of_ownLeft follow ?_ ?_ ?_ fun k _ => ?_)
    · rw [offerFrame_mix]
      exact congrArg Mix.slots (settle_mix s)
    · rw [offerFrame_config]
      exact settle_config s
    · rw [offerFrame_station]
      exact settle_station s
    · rw [offerFrame_floor]
      exact congrArg (fun f => Floor.isOpen f k) (settle_floor s)
  | _ =>
    rw [endedOwnSide_of_open state]
    refine settled _ (slotsFollow_of_ownLeft follow ?_ ?_ ?_ fun k other => ?_)
    · have floor : (micOff (settle s)).floor = s.floor := settle_floor s
      have own : (micOff (settle s)).ownSeat = s.config.seat := congrArg StationConfig.seat (settle_config s)
      have slots : (micOff (settle s)).mix.slots = s.mix.slots := congrArg Mix.slots (settle_mix s)
      have none : bindNet s.config.seat (((s.floor.removed s.config.seat .meetingEnd).removals s.floor).map (fun p => p.1)) []
          s.mix.slots = s.mix.slots := by
        unfold bindNet
        rw [show (((s.floor.removed s.config.seat .meetingEnd).removals s.floor).map (fun p => p.1)).filter
          (fun k => decide (k ≠ s.config.seat)) = [] from othersOf_removed _ _ _]
        rfl
      rw [offerFrame_mix, storeStep_slots, floor, own, slots, entries_removed, none, ite_self]
    · rw [offerFrame_config, storeStep_config]
      exact settle_config s
    · rw [offerFrame_station, storeStep_station]
      exact settle_station s
    · rw [offerFrame_floor, storeStep_floor]
      exact isOpen_removed_other other _

end

theorem all_free_of_boundSeats {l : List Slot} (h : boundSeats l = []) : ∀ x ∈ l, x.state = .free := by
  intro x mem
  by_contra bound
  have here : x.seat ∈ boundSeats l := mem_boundSeats.2 ⟨x, mem, bound, rfl⟩
  rw [h] at here
  cases here

/-- Settles O28. -/
theorem meetingEndClearsTheTable : Obligations.MeetingEndClearsTheTable := by
  rintro id why s t rfl
  have settled := closeMeeting_settled id why s
  have port : (closeMeeting id why s).port = (endedOwnSide s).port.push (.meetingEnd id why) := by
    rw [closeMeeting_eq, closedRecord_eq]
    exact congrArg (fun p => Port.push p (.meetingEnd id why)) (closedTable_port id s)
  have mix : (closeMeeting id why s).mix = (clearView (endedOwnSide s)).mix := by
    rw [closeMeeting_eq, closedRecord_eq]
    exact closedTable_mix id s
  obtain ⟨⟨⟨screen1, screen2⟩, claim⟩, release⟩ := closeMeeting_share id why s
  refine ⟨?_, fun quiet => ?_, ?_, ?_, ⟨closeMeeting_mic id why s, closeMeeting_placing id why s, ⟨screen1, screen2, claim, release⟩,
    ?_, ?_, ?_, fun closed room => ?_, fun follow => ?_, fun running named station => ?_⟩⟩
  · rw [closeMeeting_eq, closedRecord_eq]
    dsimp only [notify]
    rw [closedTable_meeting]
    exact ⟨rfl, rfl, rfl, rfl, rfl, rfl, rfl⟩
  · rw [closeMeeting_link, endedOwnSide_of_quiet quiet, settle_link]
  · rintro v rfl
    refine ⟨fun opening => ?_, fun isOpen mine room => ?_⟩
    · rw [closeMeeting_link, endedOwnSide_of_opening opening, settle_link]
      rfl
    · have seat : (settle s).config.seat = s.config.seat := by rw [settle_config]
      have stored := storeStep_ownLeaves (s := settle s) (why := .meetingEnd)
        (by rw [settle_config, settle_floor]; exact mine) (by rw [settle_port]; omega)
      rw [seat, settle_floor, settle_port] at stored
      have ended : endedOwnSide s = settle (offerFrame (.close s.meetingId s.config.seat .meetingEnd) _) :=
        (endedOwnSide_of_open isOpen).trans (congrArg (fun u => settle (offerFrame _ u)) stored)
      refine ⟨?_, ?_⟩
      · rw [closeMeeting_link, ended, settle_link, settle_floor, settle_port]
      · have notices : (endedOwnSide s).port.notices = s.port.notices ++ [.closed s.config.seat .meetingEnd] := by
          rw [ended, settle_port, offerFrame_port_notices]
        rw [port, push_of_room (by rw [notices, List.length_append, List.length_singleton]; omega)]
        dsimp only
        rw [notices, List.append_assoc]
        rfl
  · rw [closeMeeting_floor]
    exact ⟨rfl, rfl, rfl, rfl⟩
  · rw [closeMeeting_eq, closedRecord_eq]
    exact closedTable_view id s
  · rw [closeMeeting_eq, closedRecord_eq]
    exact closedTable_ask id s
  · obtain ⟨r, q, _⟩ := (endedOwnSide_table s).frame.limiter
    rw [mix]
    exact ⟨r, q, (endedOwnSide_table s).frame.volume⟩
  · have before : (endedOwnSide s).port = s.port := by rw [endedOwnSide_of_quiet (.inl closed), settle_port]
    rw [port, before, push_of_room room]
  · rw [mix]
    exact all_free_of_boundSeats (clearView_boundSeats (endedOwnSide_follow follow))
  · have ended : endMeetingFor why s = startDue (closeMeeting id why s) := by
      unfold endMeetingFor
      rw [meetingId_of_running running, named]
    have stays : (closeMeeting id why s).station = s.station := by
      rw [closeMeeting_eq, closedRecord_eq]
      exact closedTable_station id s
    rw [ended, evaluate, settled, runRecord_of_idle (by rw [stays]; exact station) (closeMeeting_state id why s),
      startDue_settled settled]

end Sys2Proof.Machine

namespace Sys2Proof.Machine

/-! SUPPORT. Walk-in meetings (R162). -/

/-! ## The minutes free and the duration taken -/

section
variable {v : List Entry} {now : Nat}

theorem freeFrom_of_clear (clear : ∀ e ∈ v, ¬ (e.wire.start ≤ now ∧ now < e.wire.finish)) :
    freeFrom v now = (v.find? (fun e => decide (now < e.wire.start))).map (fun e => e.wire.start - now) :=
  if_neg (by simpa using clear)

/-- R135: the first entry in view order that starts later is the earliest of those that do. -/
theorem find_later (sound : CalendarSound v) {y : Entry} (found : v.find? (fun e => decide (now < e.wire.start)) = some y) :
    now < y.wire.start ∧ ∀ x ∈ v, now < x.wire.start → y.wire.start ≤ x.wire.start := by
  obtain ⟨later, l, r, whole, before⟩ := List.find?_eq_some_iff_append.1 found
  refine ⟨by simpa using later, fun x mem after => ?_⟩
  rw [whole] at mem
  rcases List.mem_append.1 mem with left | right
  · have := before x left
    simp only [Bool.not_eq_true', decide_eq_false_iff_not] at this
    exact absurd after this
  · exact sound.start_le whole right

theorem exists_find_later {e : Entry} (mem : e ∈ v) (later : now < e.wire.start) :
    ∃ y, v.find? (fun e => decide (now < e.wire.start)) = some y := by
  have := List.find?_isSome (xs := v) (p := fun e => decide (now < e.wire.start))
  exact Option.isSome_iff_exists.1 (this.2 ⟨e, mem, by simpa using later⟩)

/-- R162: the duration taken where nothing starts later. -/
theorem walkInTaken_of_unlimited (clear : ∀ e ∈ v, ¬ (e.wire.start ≤ now ∧ now < e.wire.finish))
    (none : ∀ e ∈ v, e.wire.start ≤ now) (asked : Nat) : walkInTaken v now asked = some asked := by
  have free : freeFrom v now = Option.none := by
    rw [freeFrom_of_clear clear, Option.map_eq_none_iff, List.find?_eq_none]
    intro x mem
    simpa using none x mem
  unfold walkInTaken
  rw [free]

theorem walkInTaken_of_next (sound : CalendarSound v) (clear : ∀ e ∈ v, ¬ (e.wire.start ≤ now ∧ now < e.wire.finish))
    {e : Entry} (mem : e ∈ v) (later : now < e.wire.start)
    (first : ∀ x ∈ v, now < x.wire.start → e.wire.start ≤ x.wire.start) (asked : Nat) : walkInTaken v now asked =
      if e.wire.start - now < 15 then none else some (min asked ((e.wire.start - now) / 5 * 5)) := by
  obtain ⟨y, found⟩ := exists_find_later mem later
  obtain ⟨after, least⟩ := find_later sound found
  have same : y.wire.start = e.wire.start :=
    Nat.le_antisymm (least e mem later) (first y (List.mem_of_find?_eq_some found) after)
  have free : freeFrom v now = some (e.wire.start - now) := by
    rw [freeFrom_of_clear clear, found, Option.map_some, same]
  unfold walkInTaken
  rw [free]

/-- R162: below 15 minutes nothing is taken. -/
theorem walkInTaken_of_close (sound : CalendarSound v) (clear : ∀ e ∈ v, ¬ (e.wire.start ≤ now ∧ now < e.wire.finish))
    {e : Entry} (mem : e ∈ v) (later : now < e.wire.start) (close : e.wire.start < now + 15) (asked : Nat) :
    walkInTaken v now asked = none := by
  obtain ⟨y, found⟩ := exists_find_later mem later
  obtain ⟨after, least⟩ := find_later sound found
  have near := least e mem later
  rw [walkInTaken_of_next sound clear (List.mem_of_find?_eq_some found) after least, if_pos (by omega)]

end

/-! ## The command -/

section
variable {duration : BitVec 16} {profile : Byte} {title : List Byte} {s : State}

/-- R162: the checks of START_MEETING in their order. -/
theorem exec_startMeeting (taken : RunTaken s) : exec (.startMeeting duration profile title) s = .next
    (if s.station = .clash then s.answered .badState
     else if 3 < profile.toNat ∨ 24 < title.length then s.answered .badParam
     else if s.calendar.clock.set = false then s.answered .timeNotSet
     else if s.meeting.state ≠ .idle then s.answered .badState
     else if 8 ≤ heldCount s.calendar.view then s.answered .full
     else match walkInTaken s.calendar.view s.calendar.clock.minuteNumber (walkInDuration duration.toNat) with
       | none => s.answered .conflict
       | some n => settle (createBooking s.calendar.clock.day s.calendar.clock.minute n profile.toNat s.walkInChair title
           (reply .ok (bidBytes { holder := s.ownSeat, serial := s.nextSerial }) s))) :=
  congrArg Host.Outcome.next (runGroup_of_taken taken _)

theorem walkInDuration_eq (n : Nat) : walkInDuration n = if n = 0 then 60 else max 15 (min ((n + 4) / 5 * 5) 720) := by
  rw [walkInDuration, bookingDuration_eq]

theorem walkInDuration_pos (n : Nat) : 15 ≤ walkInDuration n := by
  rw [walkInDuration_eq]
  split <;> omega

end

/-! ## The booking and its start -/

/-- R136 and R162: the entry of an own booking. -/
def bookedEntry (s : State) (day minute n profile chair : Nat) (title : List Byte) (active : Bool) : Entry :=
  { wire := { id := { holder := s.config.seat, serial := s.nextSerial }, version := 0, startDay := day, startMinute := minute,
              duration := n, profile := profile, chair := chair, createdDay := s.calendar.clock.day,
              createdSecond := s.calendar.clock.second, title := title },
    held := true, active := active, age := 0 }

/-- The mark of a start alone turns on the entry that a booking has put into the view. -/
theorem mark_insertEntry {e f : Entry} {v : List Entry} (wire : f.wire = e.wire)
    (marked : { e with active := true, age := 0 } = f) (fresh : ∀ x ∈ v, x.wire.id ≠ e.wire.id) :
    (insertEntry e v).map (fun x => if x.wire.id = e.wire.id then { x with active := true, age := 0 } else x)
      = insertEntry f v := by
  induction v with
  | nil => simp [insertEntry, marked]
  | cons x xs ih =>
    obtain ⟨other, others⟩ := List.forall_mem_cons.1 fresh
    have unmarked : xs.map (fun x => if x.wire.id = e.wire.id then { x with active := true, age := 0 } else x) = xs := by
      refine (List.map_congr_left fun y mem => if_neg (others y mem)).trans (List.map_id' xs)
    simp only [insertEntry, wire]
    split
    · simp [marked, other, unmarked]
    · simp [other, ih others]

theorem find_unique {v : List Entry} {p : Entry → Bool} {e : Entry} (mem : e ∈ v) (holds : p e = true)
    (unique : ∀ x ∈ v, p x = true → x = e) : v.find? p = some e := by
  cases found : v.find? p with
  | none => exact absurd holds (List.find?_eq_none.1 found e mem)
  | some x => rw [unique x (List.mem_of_find?_eq_some found) (List.find?_some found)]

section
variable {s : State} {n profile chair : Nat} {title : List Byte} (set : s.calendar.clock.set = true)
  (idle : s.meeting.state = .idle) (run : s.station = .run) (none : ∀ e ∈ s.calendar.view, e.wire.due s.calendar.clock = false)
  (long : 15 ≤ n)
include set idle run none long

/-- R162 and R153: the evaluation that a walk-in booking brings about starts its meeting. -/
theorem createBooking_starts {t : State} (same : t = { s with port := t.port }) :
    createBooking s.calendar.clock.day s.calendar.clock.minute n profile chair title t
      = settle (startMeetingFor (bookedEntry s s.calendar.clock.day s.calendar.clock.minute n profile chair title false)
          (settle { t with calendar := { s.calendar with
            serial := (s.nextSerial + 1) % 256,
            view := insertEntry (bookedEntry s s.calendar.clock.day s.calendar.clock.minute n profile chair title false)
              (evictForOwn s.calendar.view) } })) := by
  have booked : createBooking s.calendar.clock.day s.calendar.clock.minute n profile chair title t
      = evaluate { t with calendar := { s.calendar with
          serial := (s.nextSerial + 1) % 256,
          view := insertEntry (bookedEntry s s.calendar.clock.day s.calendar.clock.minute n profile chair title false)
            (evictForOwn s.calendar.view) } } := by
    rw [same]
    exact handOnEntry_of_inactive rfl
  have dueNow : (bookedEntry s s.calendar.clock.day s.calendar.clock.minute n profile chair title false).wire.due
      s.calendar.clock = true := by
    rw [due_iff]
    have start : (bookedEntry s s.calendar.clock.day s.calendar.clock.minute n profile chair title false).wire.start
        = s.calendar.clock.minuteNumber := rfl
    have finish : (bookedEntry s s.calendar.clock.day s.calendar.clock.minute n profile chair title false).wire.finish
        = s.calendar.clock.minuteNumber + n := rfl
    rw [start, finish]
    exact ⟨set, Nat.le_refl _, by omega⟩
  have found := find_unique (p := fun e => e.wire.due s.calendar.clock)
    (mem_insertEntry (v := evictForOwn s.calendar.view).2 (.inl rfl)) dueNow fun x mem due =>
      (mem_insertEntry.1 mem).resolve_right fun old => by simp [none x (evictForOwn_mem x old)] at due
  have station : t.station = s.station := by rw [same]
  have meeting : t.meeting = s.meeting := by rw [same]
  rw [booked, evaluate, runRecord_of_idle, startDue_of_due]
  · rw [settle_station, station, run]
    nofun
  · rw [settle_meeting, meeting, idle]
  · rw [settle_calendar]
    exact found
  · rw [settle_station, station, run]
    nofun
  · rw [settle_meeting, meeting, idle]

end

/-- Settles O33. -/
theorem walkInStartsAtOnce : Obligations.WalkInStartsAtOnce := by
  refine ⟨fun duration profile title s asked sound port run low short set idle room none hasked => ?_,
    fun duration profile title s taken => ?_⟩
  · have taken : RunTaken s := ⟨port, by rw [run]; nofun⟩
    have clear : ∀ e ∈ s.calendar.view, ¬ (e.wire.start ≤ s.calendar.clock.minuteNumber ∧
        s.calendar.clock.minuteNumber < e.wire.finish) := fun e mem inside => by
      have := none e mem
      rw [← Bool.not_eq_true, due_iff] at this
      exact this ⟨set, inside⟩
    have asks : walkInDuration duration.toNat = asked := by rw [walkInDuration_eq, hasked]
    have long : 15 ≤ asked := asks ▸ walkInDuration_pos duration.toNat
    rw [exec_startMeeting taken, if_neg (by rw [run]; nofun), if_neg (by omega), if_neg (by rw [set]; nofun),
      if_neg (by simp [idle]), if_neg (Nat.not_le.2 room), asks]
    refine ⟨fun ⟨e, mem, later, close⟩ => ?_, fun n hn => ?_⟩
    · rw [walkInTaken_of_close sound.calendar clear mem later close]
    · have walked : walkInTaken s.calendar.view s.calendar.clock.minuteNumber asked = some n ∧ 15 ≤ n := by
        rcases hn with ⟨never, rfl⟩ | ⟨e, mem, far, first, rfl⟩
        · exact ⟨walkInTaken_of_unlimited clear never _, long⟩
        · rw [walkInTaken_of_next sound.calendar clear mem (by omega) first, if_neg (by omega)]
          exact ⟨rfl, by omega⟩
      obtain ⟨took, enough⟩ := walked
      rw [took]
      dsimp only
      obtain ⟨e, he⟩ : ∃ e, e = bookedEntry s s.calendar.clock.day s.calendar.clock.minute n profile.toNat s.walkInChair
        title false := ⟨_, rfl⟩
      obtain ⟨w, hw⟩ : ∃ w : State, w = settle { s with
          port := { s.port with reply := { status := .ok, data := bidBytes { holder := s.ownSeat, serial := s.nextSerial } } },
          calendar := { s.calendar with
            serial := (s.nextSerial + 1) % 256, view := insertEntry e (evictForOwn s.calendar.view) } } := ⟨_, rfl⟩
      have starts : createBooking s.calendar.clock.day s.calendar.clock.minute n profile.toNat s.walkInChair title
          (reply .ok (bidBytes { holder := s.ownSeat, serial := s.nextSerial }) s) = settle (startMeetingFor e w) := by
        rw [createBooking_starts set idle run none enough rfl, hw, he]
        rfl
      obtain ⟨x, running, record⟩ := startMeetingFor_meeting e w
      have view : w.calendar.view = insertEntry e (evictForOwn s.calendar.view) := by rw [hw, settle_calendar]
      have startView : (startMeetingFor e w).calendar.view = insertEntry { e with active := true, age := 0 }
          (evictForOwn s.calendar.view) := by
        rw [startMeetingFor_view]
        refine (congrArg _ view).trans (mark_insertEntry rfl rfl fun y mem => ?_)
        rw [he]
        exact nextSerial_free sound.calendar y (evictForOwn_mem y mem)
      have answered := (startMeetingFor_rests e w).port (by rw [hw]; exact (congrArg Port.serving (settle_port _)).trans port)
      have profiles : w.profiles = s.profiles := by rw [hw, settle_profiles]
      refine ⟨_, rfl, ?_⟩
      rw [starts, settle_settle, settle_port, settle_meeting, settle_calendar, record, startView, startMeetingFor_serial,
        answered.2]
      refine ⟨?_, running, ?_, ?_, ?_, ?_, ?_, ?_, fun f hf => ?_⟩
      · have kept : (startedTable e w).port.reply = w.port.reply := rfl
        rw [kept, hw, settle_port]
        rfl
      · rw [he]; rfl
      · rw [he]; rfl
      · rw [he]; rfl
      · rw [he]; rfl
      · have named : ({ (startedTable e w).meeting with state := x } : Meeting).profile = w.profiles.getD e.wire.profile .powerOn := rfl
        rw [named, profiles, he]
        rfl
      · rw [hw, settle_calendar]
      · have same : { e with active := true, age := 0 } = f := by
          rw [he, hf]
          rfl
        rw [same]
        exact ⟨mem_insertEntry.2 (.inl rfl), rfl⟩
  · rw [exec_startMeeting taken]
    refine ⟨fun clash => by rw [if_pos clash], fun run => ?_⟩
    rw [if_neg (by rw [run]; nofun)]
    refine ⟨fun out => by rw [if_pos out], fun low short => ?_⟩
    rw [if_neg (by omega)]
    refine ⟨fun unset => by rw [if_pos unset], fun set => ?_⟩
    rw [if_neg (by rw [set]; nofun)]
    exact ⟨fun running => by rw [if_pos running], fun idle full => by rw [if_neg (by simp [idle]), if_pos full]⟩

end Sys2Proof.Machine

namespace Sys2Proof.Machine

/-! SUPPORT. The two collections of the view as sorted lists (R33, R34), entering a seat and displacement by what stands
in them afterwards (R42, R49). -/

/-! ## Records by seat -/

/-- In a list with no seat twice, looking for a seat finds its record. -/
theorem find_seat {α : Type} {seat : α → Nat} {l : List α} (seats : (l.map seat).Nodup) {k : Nat} {r : α} :
    l.find? (fun x => decide (seat x = k)) = some r ↔ r ∈ l ∧ seat r = k := by
  constructor
  · intro found
    exact ⟨List.mem_of_find?_eq_some found, by simpa using List.find?_some found⟩
  · rintro ⟨mem, rfl⟩
    induction l with
    | nil => cases mem
    | cons x xs ih =>
      obtain ⟨fresh, rest⟩ := List.nodup_cons.1 (List.map_cons ▸ seats)
      rcases List.mem_cons.1 mem with rfl | mem
      · exact List.find?_cons_of_pos (by simp)
      · have ne : seat x ≠ seat r := fun e => fresh (e ▸ List.mem_map_of_mem mem)
        rw [List.find?_cons_of_neg (by simpa using ne), ih rest mem]

theorem ViewsSound.openRecord_iff {f : Floor} (h : ViewsSound f) {k : Nat} {r : OpenRecord} :
    f.openRecord k = some r ↔ r ∈ f.openSet ∧ r.seat = k := find_seat h.openSeats

theorem ViewsSound.queueRecord_iff {f : Floor} (h : ViewsSound f) {k : Nat} {r : QueueRecord} :
    f.queueRecord k = some r ↔ r ∈ f.queue ∧ r.seat = k := find_seat h.queueSeats

theorem Floor.openRecord_none {f : Floor} {k : Nat} : f.openRecord k = none ↔ f.isOpen k = false := by
  simp [openRecord, isOpen]

/-! ## Sorted lists -/

theorem OpenRecord.before_asymm {a b : OpenRecord} (h : a.before b = true) (k : b.before a = true) : a = b := by
  simp only [before, Bool.or_eq_true, Bool.and_eq_true, decide_eq_true_eq] at h k
  omega

theorem QueueRecord.before_asymm {a b : QueueRecord} (h : a.before b = true) (k : b.before a = true) : a = b := by
  simp only [before, Bool.or_eq_true, Bool.and_eq_true, decide_eq_true_eq] at h k
  omega

theorem insertOpen_perm (r : OpenRecord) (l : List OpenRecord) : (insertOpen r l).Perm (r :: l) := by
  induction l with
  | nil => exact .refl _
  | cons x xs ih =>
    unfold insertOpen
    split
    · exact .refl _
    · exact (ih.cons x).trans (.swap r x xs)

theorem insertQueue_perm (r : QueueRecord) (l : List QueueRecord) : (insertQueue r l).Perm (r :: l) := by
  induction l with
  | nil => exact .refl _
  | cons x xs ih =>
    unfold insertQueue
    split
    · exact .refl _
    · exact (ih.cons x).trans (.swap r x xs)

/-- R33: the open set is determined by what stands in it. -/
theorem openOrder_unique {l m : List OpenRecord} (hl : l.Pairwise (fun a b => a.before b = true))
    (hm : m.Pairwise (fun a b => a.before b = true)) (h : l.Perm m) : l = m :=
  h.eq_of_pairwise (fun _ _ _ _ => OpenRecord.before_asymm) hl hm

/-- R34: the request queue is determined by what stands in it. -/
theorem queueOrder_unique {l m : List QueueRecord} (hl : l.Pairwise (fun a b => a.before b = true))
    (hm : m.Pairwise (fun a b => a.before b = true)) (h : l.Perm m) : l = m :=
  h.eq_of_pairwise (fun _ _ _ _ => QueueRecord.before_asymm) hl hm

/-- The DELEGATE records of a list, in its order. -/
def delegatesOf (l : List OpenRecord) : List OpenRecord := l.filter (fun r => decide (r.cls = .delegate))

/-- The CHAIR records of a list, in its order. -/
def chairsOf (l : List OpenRecord) : List OpenRecord := l.filter (fun r => decide (r.cls = .chair))

theorem Floor.delegates_eq (f : Floor) : f.delegates = delegatesOf f.openSet := rfl

theorem classes_perm (l : List OpenRecord) : (delegatesOf l ++ chairsOf l).Perm l := by
  have split : chairsOf l = l.filter (fun r => !decide (r.cls = .delegate)) := by
    refine List.filter_congr fun r _ => ?_
    cases r.cls <;> rfl
  rw [split]
  exact List.filter_append_perm _ _

/-- R33: the open set is determined by its DELEGATE and its CHAIR records. -/
theorem ViewsSound.openSet_ext {f g : Floor} (hf : ViewsSound f) (hg : ViewsSound g) (delegates : f.delegates = g.delegates)
    (chairs : (chairsOf f.openSet).Perm (chairsOf g.openSet)) : f.openSet = g.openSet := by
  refine openOrder_unique hf.openOrder hg.openOrder ?_
  refine (classes_perm f.openSet).symm.trans (List.Perm.trans ?_ (classes_perm g.openSet))
  rw [← Floor.delegates_eq, ← Floor.delegates_eq, delegates]
  exact chairs.append_left _

/-! ## Joining and entering -/

theorem Floor.dropQueue_views {f : Floor} (h : ViewsSound f) (k : Nat) : ViewsSound (f.dropQueue k) where
  openOrder := h.openOrder
  queueOrder := h.queueOrder.filter _
  openSeats := h.openSeats
  queueSeats := h.queueSeats.sublist (List.filter_sublist.map _)
  apart r mem := isQueued_false.2 fun x hx => isQueued_false.1 (h.apart r mem) x (List.mem_filter.1 hx).1

theorem Floor.join_views {f : Floor} {k : Nat} (h : ViewsSound f) (closed : f.isOpen k = false) (q : Nat) :
    ViewsSound (f.join k q) := by
  cases queued : f.isQueued k with
  | true => exact (join_of_queued queued q).symm ▸ h
  | false =>
    rw [join_of_unqueued queued q]
    have fresh := isQueued_false.1 queued
    refine ⟨h.openOrder, insertQueue_order h.queueOrder fresh, h.openSeats, insertQueue_nodup h.queueSeats fresh, fun r mem => ?_⟩
    refine isQueued_false.2 fun x hx => ?_
    rcases mem_insertQueue.1 hx with rfl | hx
    · exact fun e => isOpen_false.1 closed r mem e.symm
    · exact isQueued_false.1 (h.apart r mem) x hx

theorem Floor.enter_views {f : Floor} (h : ViewsSound f) (k : Nat) (c : OpenClass) (o q b : Nat) :
    ViewsSound (f.enter k c o q b) := by
  have others : ∀ x ∈ (f.dropOpen k).openSet, x.seat ≠ (f.entered k c o q b).seat := fun x hx => by
    simpa [entered] using (List.mem_filter.1 hx).2
  have rest := dropQueue_views h k
  refine ⟨?_, rest.queueOrder, ?_, rest.queueSeats, fun r mem => ?_⟩
  · rw [enter_eq]; exact insertOpen_order (h.openOrder.filter _) others
  · rw [enter_eq]; exact insertOpen_nodup (h.openSeats.sublist (List.filter_sublist.map _)) others
  · rcases mem_enter.1 mem with rfl | ⟨old, _⟩
    · exact isQueued_false.2 fun x hx => by simpa [entered] using (List.mem_filter.1 hx).2
    · exact rest.apart r old

/-- R42: what an entering seat leaves in the queue. -/
theorem Floor.enter_queue (f : Floor) (k : Nat) (c : OpenClass) (o q b : Nat) :
    (f.enter k c o q b).queue = f.queue.filter (fun r => decide (r.seat ≠ k)) := rfl

theorem Floor.entered_of_closed {f : Floor} {k : Nat} (closed : f.isOpen k = false) (c : OpenClass) (o q b : Nat) :
    f.entered k c o q b = { seat := k, cls := c, openStamp := o, requestStamp := q, since := b } := by
  rw [entered, openRecord_none.2 closed]
  rfl

/-! ## Displacement -/

/-- R49: the queue record of a displaced seat. -/
def OpenRecord.requeued (r : OpenRecord) : QueueRecord := { seat := r.seat, requestStamp := r.requestStamp, granted := false }

theorem Floor.requeue_views {l : List OpenRecord} {f : Floor} (h : ViewsSound f) (closed : ∀ r ∈ l, f.isOpen r.seat = false) :
    ViewsSound (f.requeue l) := by
  induction l generalizing f with
  | nil => exact h
  | cons r rs ih =>
    obtain ⟨first, rest⟩ := List.forall_mem_cons.1 closed
    refine ih (join_views h first r.requestStamp) fun x hx => ?_
    exact (isOpen_congr (join_openSet f r.seat r.requestStamp) x.seat).trans (rest x hx)

/-- R49: every displaced seat joins the queue, none of them being there. -/
theorem Floor.requeue_queue {l : List OpenRecord} {f : Floor} (seats : (l.map (fun r => r.seat)).Nodup)
    (fresh : ∀ r ∈ l, f.isQueued r.seat = false) : (f.requeue l).queue.Perm (l.map OpenRecord.requeued ++ f.queue) := by
  induction l generalizing f with
  | nil => exact .refl _
  | cons r rs ih =>
    obtain ⟨once, seats⟩ := List.nodup_cons.1 (List.map_cons ▸ seats)
    obtain ⟨first, rest⟩ := List.forall_mem_cons.1 fresh
    have joined : (f.join r.seat r.requestStamp).queue = insertQueue r.requeued f.queue := by
      rw [join_of_unqueued first]; rfl
    have stillFresh : ∀ x ∈ rs, (f.join r.seat r.requestStamp).isQueued x.seat = false := fun x hx => by
      refine isQueued_false.2 fun y hy => ?_
      rcases mem_insertQueue.1 (joined ▸ hy) with rfl | hy
      · exact fun e => once (List.mem_map.2 ⟨x, hx, e.symm⟩)
      · exact isQueued_false.1 (rest x hx) y hy
    calc (f.requeue (r :: rs)).queue
      _ = ((f.join r.seat r.requestStamp).requeue rs).queue := rfl
      _ |>.Perm (rs.map OpenRecord.requeued ++ insertQueue r.requeued f.queue) := joined ▸ ih seats stillFresh
      _ |>.Perm (rs.map OpenRecord.requeued ++ r.requeued :: f.queue) := (insertQueue_perm _ _).append_left _
      _ |>.Perm (r.requeued :: (rs.map OpenRecord.requeued ++ f.queue)) := List.perm_middle

theorem ViewsSound.delegateSeats {f : Floor} (h : ViewsSound f) : (f.delegates.map (fun r => r.seat)).Nodup :=
  h.openSeats.sublist (List.filter_sublist.map _)

theorem ViewsSound.excessSeats {f : Floor} (h : ViewsSound f) (limit : Nat) :
    ((f.excess limit).map (fun r => r.seat)).Nodup :=
  h.delegateSeats.sublist ((List.drop_sublist _ _).map _)

/-- The view between the two halves of a displacement: the records beyond the first L delegates are out. -/
def Floor.kept (f : Floor) (limit : Nat) : Floor :=
  { f with openSet := f.openSet.filter (fun r => !(f.excess limit).contains r) }

theorem Floor.displace_eq (f : Floor) (limit : Nat) : f.displace limit = (f.kept limit).requeue (f.excess limit) := rfl

theorem Floor.kept_closed {f : Floor} (h : ViewsSound f) (limit : Nat) : ∀ r ∈ f.excess limit, (f.kept limit).isOpen r.seat = false := by
  intro r out
  refine isOpen_false.2 fun x hx e => ?_
  obtain ⟨mem, stays⟩ := List.mem_filter.1 hx
  obtain rfl := eq_of_seat h.openSeats mem (mem_excess out) e
  simp [out] at stays

theorem Floor.displace_views {f : Floor} (h : ViewsSound f) (limit : Nat) : ViewsSound (f.displace limit) := by
  refine requeue_views ⟨h.openOrder.filter _, h.queueOrder, h.openSeats.sublist (List.filter_sublist.map _), h.queueSeats, ?_⟩
    (kept_closed h limit)
  exact fun r mem => h.apart r (List.mem_filter.1 mem).1

theorem Floor.displace_queue {f : Floor} (h : ViewsSound f) (limit : Nat) :
    (f.displace limit).queue.Perm ((f.delegates.drop limit).map OpenRecord.requeued ++ f.queue) :=
  requeue_queue (h.excessSeats limit) fun r out => h.apart r (mem_excess out)

/-- R49: displacement keeps the first L DELEGATE records. -/
theorem Floor.delegates_displace {f : Floor} (h : ViewsSound f) (limit : Nat) :
    (f.displace limit).delegates = f.delegates.take limit := by
  have once : (f.delegates.take limit ++ f.excess limit).Nodup := by
    rw [excess, List.take_append_drop]
    exact List.Nodup.of_map _ h.delegateSeats
  have kept : ∀ r ∈ f.delegates.take limit, (!(f.excess limit).contains r) = true := fun r mem => by
    simpa using fun out => (List.nodup_append.1 once).2.2 r mem r out rfl
  have gone : (f.excess limit).filter (fun r => !(f.excess limit).contains r) = [] := by simp
  calc (f.displace limit).delegates
    _ = f.delegates.filter (fun r => !(f.excess limit).contains r) := by
      simp only [delegates, displace_openSet, List.filter_filter, Bool.and_comm]
    _ = (f.delegates.take limit ++ f.excess limit).filter (fun r => !(f.excess limit).contains r) := by
      rw [excess, List.take_append_drop]
    _ = f.delegates.take limit := by rw [List.filter_append, List.filter_eq_self.2 kept, gone, List.append_nil]

/-- R49: displacement keeps every CHAIR record. -/
theorem Floor.chairs_displace (f : Floor) (limit : Nat) : chairsOf (f.displace limit).openSet = chairsOf f.openSet := by
  rw [displace_openSet, chairsOf, chairsOf, List.filter_filter]
  refine List.filter_congr fun r _ => ?_
  cases chair : decide (r.cls = OpenClass.chair) with
  | false => rfl
  | true =>
    have inside : r ∉ f.excess limit := fun out => by
      have delegate : r.cls = .delegate := by simpa using (List.mem_filter.1 (List.mem_of_mem_drop out)).2
      rw [delegate] at chair
      cases chair
    simpa using inside

end Sys2Proof.Machine

namespace Sys2Proof.Machine

/-! Openings of the view: what each leaves, and that two openings end in the same view (R42, R49, R51; section 3.4). -/

/-! ## The steps of an opening -/

/-- R42 and R51: an opening whose record does not have its stamps yet is entered, and displacement runs. -/
theorem Floor.opens_of_new {f : Floor} {k o q : Nat}
    (new : ∀ r : OpenRecord, f.openRecord k = some r → r.openStamp ≠ o ∨ r.requestStamp ≠ q) (n limit : Nat) (c : OpenClass) :
    f.implicit k c o q n limit = (({ f with stamp := max (max f.stamp o) q } : Floor).enter k c o q n).displaceStep limit ∧
    f.opening k c o q n limit = (({ f with stamp := max (max f.stamp o) q } : Floor).enter k c o q n).displaceStep limit := by
  have found : ((f.raise o).raise q).openRecord k = f.openRecord k := rfl
  unfold implicit opening
  dsimp only
  rw [found]
  cases record : f.openRecord k with
  | none => exact ⟨rfl, rfl⟩
  | some r =>
    have differs := new r record
    exact ⟨if_neg (by rintro ⟨e, e'⟩; exact differs.elim (· e) (· e')),
      if_neg (by rintro ⟨e, e', _⟩; exact differs.elim (· e) (· e'))⟩

/-- R51: a VOICE frame with the record's own stamps changes only the counter. -/
theorem Floor.implicit_of_same {f : Floor} {k : Nat} {r : OpenRecord} (found : f.openRecord k = some r) (n limit : Nat)
    (c : OpenClass) : f.implicit k c r.openStamp r.requestStamp n limit =
      { floor := { f with stamp := max (max f.stamp r.openStamp) r.requestStamp }, left := [] } := by
  have found' : ((f.raise r.openStamp).raise r.requestStamp).openRecord k = some r := found
  unfold implicit
  dsimp only
  rw [found']
  exact if_pos ⟨rfl, rfl⟩

/-- R42: an OPEN with the record's own stamps and class changes only the counter. -/
theorem Floor.opening_of_same {f : Floor} (h : ViewsSound f) {k : Nat} {r : OpenRecord} (found : f.openRecord k = some r)
    (n limit : Nat) : f.opening k r.cls r.openStamp r.requestStamp n limit =
      { floor := { f with stamp := max (max f.stamp r.openStamp) r.requestStamp }, left := [] } := by
  have found' : ((f.raise r.openStamp).raise r.requestStamp).openRecord k = some r := found
  obtain ⟨mem, rfl⟩ := h.openRecord_iff.1 found
  unfold opening
  dsimp only
  rw [found']
  exact if_pos ⟨rfl, rfl, rfl, h.apart r mem⟩

/-- R42: an OPEN with the record's own stamps and another class updates the record. -/
theorem Floor.opening_of_class {f : Floor} {k : Nat} {r : OpenRecord} (found : f.openRecord k = some r) {c : OpenClass}
    (other : r.cls ≠ c) (n limit : Nat) : f.opening k c r.openStamp r.requestStamp n limit =
      (({ f with stamp := max (max f.stamp r.openStamp) r.requestStamp } : Floor).enter k c r.openStamp r.requestStamp n
        ).displaceStep limit := by
  have found' : ((f.raise r.openStamp).raise r.requestStamp).openRecord k = some r := found
  unfold opening
  dsimp only
  rw [found']
  exact if_neg fun all => other all.2.2.1

/-! ## What an entered seat leaves -/

/-- R42: the record of an entered seat. -/
theorem Floor.openRecord_enter_self {f : Floor} (h : ViewsSound f) (k : Nat) (c : OpenClass) (o q n : Nat) :
    (f.enter k c o q n).openRecord k = some (f.entered k c o q n) :=
  (enter_views h k c o q n).openRecord_iff.2 ⟨mem_enter.2 (.inl rfl), rfl⟩

/-- R42: no other seat's record moves. -/
theorem Floor.records_enter_other {f : Floor} (h : ViewsSound f) {k j : Nat} (ne : j ≠ k) (c : OpenClass) (o q n : Nat) :
    (f.enter k c o q n).openRecord j = f.openRecord j ∧ (f.enter k c o q n).queueRecord j = f.queueRecord j := by
  have views := enter_views h k c o q n
  constructor
  · refine Option.ext fun r => ?_
    rw [views.openRecord_iff, h.openRecord_iff, mem_enter]
    constructor
    · rintro ⟨rfl | ⟨old, _⟩, seat⟩
      · exact (ne seat.symm).elim
      · exact ⟨old, seat⟩
    · rintro ⟨old, rfl⟩
      exact ⟨.inr ⟨old, ne⟩, rfl⟩
  · refine Option.ext fun r => ?_
    rw [views.queueRecord_iff, h.queueRecord_iff, enter_queue, List.mem_filter]
    constructor
    · rintro ⟨⟨old, _⟩, seat⟩
      exact ⟨old, seat⟩
    · rintro ⟨old, rfl⟩
      exact ⟨⟨old, decide_eq_true ne⟩, rfl⟩

theorem Floor.isQueued_enter (f : Floor) (k : Nat) (c : OpenClass) (o q n : Nat) : (f.enter k c o q n).isQueued k = false :=
  by
  refine isQueued_false.2 fun x mem => ?_
  rw [enter_queue] at mem
  exact of_decide_eq_true (List.mem_filter.1 mem).2

/-! ## Positions -/

theorem positionFrom_of_absent {k : Nat} {l : List QueueRecord} (absent : ∀ r ∈ l, r.seat ≠ k) (i : Nat) :
    positionFrom k i l = none := by
  induction l generalizing i with
  | nil => rfl
  | cons x xs ih =>
    obtain ⟨first, rest⟩ := List.forall_mem_cons.1 absent
    exact (if_neg first).trans (ih rest (i + 1))

theorem positionFrom_of_split {l r : List QueueRecord} {x : QueueRecord} (before : ∀ y ∈ l, y.seat ≠ x.seat) (i : Nat) :
    positionFrom x.seat i (l ++ x :: r) = some (i + l.length) := by
  induction l generalizing i with
  | nil => exact if_pos rfl
  | cons y ys ih =>
    obtain ⟨first, rest⟩ := List.forall_mem_cons.1 before
    rw [List.cons_append, positionFrom, if_neg first, ih rest (i + 1), List.length_cons]
    congr 1
    omega

/-! ## O43 -/

theorem enterLeaves (f : Floor) (k o q n : Nat) (c : OpenClass) (h : ViewsSound f) :
    ViewsSound (f.enter k c o q n) ∧ (f.enter k c o q n).isQueued k = false ∧ (f.enter k c o q n).stamp = f.stamp ∧
    (f.enter k c o q n).priority = f.priority ∧
    (f.enter k c o q n).openRecord k = some (f.entered k c o q n) ∧
    (∀ j : Nat, j ≠ k → (f.enter k c o q n).openRecord j = f.openRecord j ∧
      (f.enter k c o q n).queueRecord j = f.queueRecord j) :=
  ⟨f.enter_views h k c o q n, f.isQueued_enter k c o q n, rfl, rfl, f.openRecord_enter_self h k c o q n,
    fun _ ne => f.records_enter_other h ne c o q n⟩

theorem displaceLeaves (f : Floor) (limit : Nat) (h : ViewsSound f) :
    ViewsSound (f.displace limit) ∧ (f.displace limit).stamp = f.stamp ∧ (f.displace limit).priority = f.priority ∧
    (f.displace limit).delegates = f.delegates.take limit ∧
    chairsOf (f.displace limit).openSet = chairsOf f.openSet ∧
    (∀ r ∈ f.delegates.drop limit, (f.displace limit).queueRecord r.seat = some r.requeued) ∧
    (∀ p ∈ f.queue, p ∈ (f.displace limit).queue) ∧
    (f.displace limit).queue.length = f.queue.length + (f.delegates.length - limit) := by
  have views := f.displace_views h limit
  have queue := f.displace_queue h limit
  refine ⟨views, f.displace_stamp limit, f.displace_priority limit, f.delegates_displace h limit, f.chairs_displace limit, ?_, ?_, ?_⟩
  · intro r out
    exact views.queueRecord_iff.2 ⟨queue.mem_iff.2 (List.mem_append_left _ (List.mem_map_of_mem out)), rfl⟩
  · exact fun p mem => queue.mem_iff.2 (List.mem_append_right _ mem)
  · rw [queue.length_eq, List.length_append, List.length_map, List.length_drop, Nat.add_comm]

/-- Settles O43. -/
theorem openingEntersThenDisplaces : Obligations.OpeningEntersThenDisplaces := by
  refine ⟨?_, ?_, ?_, fun _ _ => rfl, ?_, ?_, ?_⟩
  · rintro f _ k o q n c h rfl
    exact enterLeaves f k o q n c h
  · rintro f _ limit h rfl
    exact displaceLeaves f limit h
  · rintro f _ k o q n limit c h rfl
    refine ⟨?_, fun new => Floor.opens_of_new new n limit c⟩
    rintro r found rfl rfl
    refine ⟨Floor.implicit_of_same found n limit c, ?_, fun other => Floor.opening_of_class found other n limit⟩
    rintro rfl
    exact Floor.opening_of_same h found n limit
  · intro a b c d
    simp [OpenRecord.before, QueueRecord.before]
  · intro c v
    exact ⟨insert_splits (ins := insertQueue c) (lt := QueueRecord.before) rfl (fun _ _ => rfl) v, insertQueue_order⟩
  · intro f k
    refine ⟨Floor.isOpen_iff, Floor.isQueued_iff, rfl, rfl, rfl, ?_, ?_⟩
    · exact fun closed => positionFrom_of_absent (Floor.isQueued_false.1 closed) 1
    · rintro l r x whole rfl before
      rw [Floor.position, whole, positionFrom_of_split before 1, Nat.add_comm]

/-! ## Two openings -/

/-- The delegates with a record of any class entered: a CHAIR record is none of them. -/
def enterDelegate (r : OpenRecord) (l : List OpenRecord) : List OpenRecord :=
  if r.cls = .delegate then insertOpen r l else l

theorem take_insertOpen_take (r : OpenRecord) (l : List OpenRecord) (n : Nat) :
    (insertOpen r (l.take n)).take n = (insertOpen r l).take n := by
  induction l generalizing n with
  | nil => simp
  | cons x xs ih =>
    cases n with
    | zero => rfl
    | succ n =>
      cases first : r.before x with
      | true => cases n <;> simp [insertOpen, first, List.take_take]
      | false => simp [insertOpen, first, ih]

theorem take_enterDelegate_take (r : OpenRecord) (l : List OpenRecord) (n : Nat) :
    (enterDelegate r (l.take n)).take n = (enterDelegate r l).take n := by
  unfold enterDelegate
  split
  · exact take_insertOpen_take r l n
  · rw [List.take_take, Nat.min_self]

theorem enterDelegate_perm (r : OpenRecord) (l : List OpenRecord) : (enterDelegate r l).Perm (delegatesOf [r] ++ l) := by
  unfold enterDelegate delegatesOf
  split
  · rename_i delegate; simpa [delegate] using insertOpen_perm r l
  · rename_i chair; simp [chair]

theorem enterDelegate_order {r : OpenRecord} {l : List OpenRecord} (h : l.Pairwise (fun a b => a.before b = true))
    (fresh : ∀ x ∈ l, x.seat ≠ r.seat) : (enterDelegate r l).Pairwise (fun a b => a.before b = true) := by
  unfold enterDelegate
  split
  · exact insertOpen_order h fresh
  · exact h

/-- What two enterings push out one after the other is what they push out together. -/
theorem drop_enterDelegate_perm (r : OpenRecord) (l : List OpenRecord) (n : Nat) :
    ((enterDelegate r (l.take n)).drop n ++ l.drop n).Perm ((enterDelegate r l).drop n) := by
  refine (List.perm_append_left_iff ((enterDelegate r l).take n)).1 ?_
  calc (enterDelegate r l).take n ++ ((enterDelegate r (l.take n)).drop n ++ l.drop n)
    _ = enterDelegate r (l.take n) ++ l.drop n := by
      rw [← take_enterDelegate_take, ← List.append_assoc, List.take_append_drop]
    _ |>.Perm (delegatesOf [r] ++ l.take n ++ l.drop n) := (enterDelegate_perm r _).append_right _
    _ = delegatesOf [r] ++ l := by rw [List.append_assoc, List.take_append_drop]
    _ |>.Perm (enterDelegate r l) := (enterDelegate_perm r l).symm
    _ = (enterDelegate r l).take n ++ (enterDelegate r l).drop n := (List.take_append_drop _ _).symm

theorem Floor.delegate_fresh {f : Floor} {k : Nat} (closed : f.isOpen k = false) : ∀ x ∈ f.delegates, x.seat ≠ k :=
  fun x mem => isOpen_false.1 closed x (List.mem_filter.1 mem).1

theorem Floor.openSet_enter_perm {f : Floor} {k : Nat} (closed : f.isOpen k = false) (c : OpenClass) (o q n : Nat) :
    (f.enter k c o q n).openSet.Perm (f.entered k c o q n :: f.openSet) := by
  have whole : (f.dropOpen k).openSet = f.openSet :=
    List.filter_eq_self.2 fun r mem => decide_eq_true (isOpen_false.1 closed r mem)
  rw [enter_eq]
  exact whole ▸ insertOpen_perm _ _

/-- R42: the delegates after a seat that was not open has entered. -/
theorem Floor.delegates_enter {f : Floor} (h : ViewsSound f) {k : Nat} (closed : f.isOpen k = false) (c : OpenClass)
    (o q n : Nat) : (f.enter k c o q n).delegates = enterDelegate (f.entered k c o q n) f.delegates := by
  refine openOrder_unique ((enter_views h k c o q n).openOrder.filter _)
    (enterDelegate_order (h.openOrder.filter _) (delegate_fresh closed)) ?_
  refine ((openSet_enter_perm closed c o q n).filter _).trans (.trans ?_ (enterDelegate_perm _ _).symm)
  rw [← List.singleton_append, List.filter_append]
  exact .refl _

/-- What a seat that was not open leaves when it opens, in one step of the view. -/
structure Opened (f g : Floor) (r : OpenRecord) (limit : Nat) : Prop where
  views : ViewsSound g
  delegates : g.delegates = (enterDelegate r f.delegates).take limit
  chairs : (chairsOf g.openSet).Perm (chairsOf [r] ++ chairsOf f.openSet)
  queue : g.queue.Perm (((enterDelegate r f.delegates).drop limit).map OpenRecord.requeued ++
    f.queue.filter (fun p => decide (p.seat ≠ r.seat)))
  stamp : g.stamp = max (max f.stamp r.openStamp) r.requestStamp
  priority : g.priority = f.priority

/-- The record of a seat that opens at block `n`. -/
def freshRecord (k : Nat) (c : OpenClass) (o q n : Nat) : OpenRecord :=
  { seat := k, cls := c, openStamp := o, requestStamp := q, since := n }

/-- R42 and R49: a seat that is not open enters, and displacement runs. -/
theorem Floor.opening_opened {f : Floor} (h : ViewsSound f) {k : Nat} (closed : f.isOpen k = false) (c : OpenClass)
    (o q n limit : Nat) : Opened f (f.opening k c o q n limit).floor (freshRecord k c o q n) limit := by
  have new : ∀ r : OpenRecord, f.openRecord k = some r → r.openStamp ≠ o ∨ r.requestStamp ≠ q := fun r found => by
    rw [openRecord_none.2 closed] at found
    cases found
  rw [(opens_of_new new n limit c).2]
  generalize raised : ({ f with stamp := max (max f.stamp o) q } : Floor) = g
  have views : ViewsSound g := raised ▸ ⟨h.openOrder, h.queueOrder, h.openSeats, h.queueSeats, h.apart⟩
  have closed' : g.isOpen k = false := raised ▸ closed
  have record : g.entered k c o q n = freshRecord k c o q n := entered_of_closed closed' c o q n
  have entered := enter_views views k c o q n
  have delegates := delegates_enter views closed' c o q n
  rw [record] at delegates
  have sameDelegates : g.delegates = f.delegates := raised ▸ rfl
  rw [sameDelegates] at delegates
  refine ⟨displace_views entered limit, ?_, ?_, ?_, ?_, ?_⟩
  · exact (delegates_displace entered limit).trans (congrArg _ delegates)
  · show (chairsOf (((g.enter k c o q n).displace limit).openSet)).Perm _
    rw [chairs_displace]
    refine ((openSet_enter_perm closed' c o q n).filter _).trans ?_
    rw [record, ← List.singleton_append, List.filter_append]
    exact raised ▸ .refl _
  · refine (displace_queue entered limit).trans ?_
    rw [delegates, enter_queue]
    exact raised ▸ .refl _
  · exact (displace_stamp _ _).trans (raised ▸ rfl)
  · exact (displace_priority _ _).trans (raised ▸ rfl)

theorem mem_enterDelegate {r x : OpenRecord} {l : List OpenRecord} (h : x ∈ enterDelegate r l) : x = r ∨ x ∈ l := by
  unfold enterDelegate at h
  split at h
  · exact mem_insertOpen.1 h
  · exact .inr h

/-- A seat stays closed while another one opens. -/
theorem Opened.closed {f g : Floor} {r : OpenRecord} {limit k : Nat} (h : Opened f g r limit) (closed : f.isOpen k = false)
    (other : r.seat ≠ k) : g.isOpen k = false := by
  refine Floor.isOpen_false.2 fun x mem => ?_
  rcases List.mem_append.1 ((classes_perm g.openSet).mem_iff.2 mem) with delegate | chair
  · rw [← Floor.delegates_eq, h.delegates] at delegate
    rcases mem_enterDelegate (List.mem_of_mem_take delegate) with rfl | old
    · exact other
    · exact Floor.delegate_fresh closed x old
  · rcases List.mem_append.1 (h.chairs.mem_iff.1 chair) with new | old
    · obtain rfl : x = r := by simpa using (List.mem_filter.1 new).1
      exact other
    · exact Floor.isOpen_false.1 closed x (List.mem_filter.1 old).1

/-- The delegates after two enterings, in either order. -/
theorem enterDelegate_comm {r t : OpenRecord} {l : List OpenRecord} (sorted : l.Pairwise (fun a b => a.before b = true))
    (ne : r.seat ≠ t.seat) (fresh : ∀ x ∈ l, x.seat ≠ r.seat) (fresh' : ∀ x ∈ l, x.seat ≠ t.seat) :
    enterDelegate t (enterDelegate r l) = enterDelegate r (enterDelegate t l) := by
  have first : ∀ x ∈ enterDelegate r l, x.seat ≠ t.seat := fun x mem => by
    rcases mem_enterDelegate mem with rfl | old
    · exact ne
    · exact fresh' x old
  have second : ∀ x ∈ enterDelegate t l, x.seat ≠ r.seat := fun x mem => by
    rcases mem_enterDelegate mem with rfl | old
    · exact ne.symm
    · exact fresh x old
  refine openOrder_unique (enterDelegate_order (enterDelegate_order sorted fresh) first)
    (enterDelegate_order (enterDelegate_order sorted fresh') second) ?_
  calc enterDelegate t (enterDelegate r l)
    _ |>.Perm (delegatesOf [t] ++ enterDelegate r l) := enterDelegate_perm t _
    _ |>.Perm (delegatesOf [t] ++ (delegatesOf [r] ++ l)) := (enterDelegate_perm r l).append_left _
    _ |>.Perm (delegatesOf [r] ++ (delegatesOf [t] ++ l)) := by
      simpa [← List.append_assoc] using List.perm_append_comm.append_right l
    _ |>.Perm (delegatesOf [r] ++ enterDelegate t l) := ((enterDelegate_perm t l).append_left _).symm
    _ |>.Perm (enterDelegate r (enterDelegate t l)) := (enterDelegate_perm r _).symm

/-- The queue after two openings: the seats are out of it, and all that the two push out is in it. -/
theorem Opened.queue_twice {f g e : Floor} {r t : OpenRecord} {limit : Nat} (one : Opened f g r limit)
    (two : Opened g e t limit) (ne : r.seat ≠ t.seat) (closed : f.isOpen t.seat = false) :
    e.queue.Perm (((enterDelegate t (enterDelegate r f.delegates)).drop limit).map OpenRecord.requeued ++
      f.queue.filter (fun p => decide (p.seat ≠ t.seat) && decide (p.seat ≠ r.seat))) := by
  have left := one.delegates
  have requeued := one.queue
  generalize both : enterDelegate r f.delegates = l at left requeued
  have keepsOut : (((l.drop limit).map OpenRecord.requeued).filter (fun p => decide (p.seat ≠ t.seat))) =
      (l.drop limit).map OpenRecord.requeued := by
    refine List.filter_eq_self.2 fun p mem => ?_
    obtain ⟨x, out, rfl⟩ := List.mem_map.1 mem
    refine decide_eq_true ?_
    rcases mem_enterDelegate (both ▸ List.mem_of_mem_drop out) with rfl | old
    · exact ne
    · exact Floor.delegate_fresh closed x old
  have out := (drop_enterDelegate_perm t l limit).map OpenRecord.requeued
  rw [List.map_append, ← left] at out
  refine two.queue.trans (((requeued.filter _).append_left _).trans ?_)
  rw [List.filter_append, keepsOut, List.filter_filter, ← List.append_assoc]
  exact out.append_right _

/-- Settles O44: each end of the two orders has the same delegates, the same CHAIR records and the same queue, and a sound
view is determined by them. -/
theorem twoOpeningsEndInTheSameView : Obligations.TwoOpeningsEndInTheSameView := by
  intro f a b oa qa ob qb n limit ca cb views ne closedA closedB
  have a1 := Floor.opening_opened views closedA ca oa qa n limit
  have b1 := Floor.opening_opened views closedB cb ob qb n limit
  have b2 := Floor.opening_opened a1.views (a1.closed closedB ne) cb ob qb n limit
  have a2 := Floor.opening_opened b1.views (b1.closed closedA ne.symm) ca oa qa n limit
  have comm := enterDelegate_comm (r := freshRecord a ca oa qa n) (t := freshRecord b cb ob qb n) (l := f.delegates)
    (views.openOrder.filter _) ne (Floor.delegate_fresh closedA) (Floor.delegate_fresh closedB)
  generalize (f.opening a ca oa qa n limit).floor = g at *
  generalize (f.opening b cb ob qb n limit).floor = e at *
  generalize (g.opening b cb ob qb n limit).floor = x at *
  generalize (e.opening a ca oa qa n limit).floor = y at *
  have delegates : x.delegates = y.delegates := by
    rw [b2.delegates, a1.delegates, take_enterDelegate_take, a2.delegates, b1.delegates, take_enterDelegate_take]
    exact congrArg _ comm
  have chairs : (chairsOf x.openSet).Perm (chairsOf y.openSet) := by
    refine (b2.chairs.trans (a1.chairs.append_left _)).trans (.trans ?_ (a2.chairs.trans (b1.chairs.append_left _)).symm)
    simpa [← List.append_assoc] using List.perm_append_comm.append_right (chairsOf f.openSet)
  have queue : x.queue = y.queue := by
    refine queueOrder_unique b2.views.queueOrder a2.views.queueOrder ?_
    refine (a1.queue_twice b2 ne closedB).trans (.trans ?_ (b1.queue_twice a2 ne.symm closedA).symm)
    rw [comm]
    exact .of_eq (by simp only [Bool.and_comm])
  have openSet := b2.views.openSet_ext a2.views delegates chairs
  have stamp : x.stamp = y.stamp := by
    rw [b2.stamp, a1.stamp, a2.stamp, b1.stamp]
    simp only [freshRecord]
    omega
  have priority : x.priority = y.priority := by rw [b2.priority, a1.priority, a2.priority, b1.priority]
  cases x
  cases y
  simp_all

end Sys2Proof.Machine

namespace Sys2Proof.Machine

/-! What a step of the view hands on (R37 to R39), and the own side after it (R50, R72, R77). -/

/-! ## Notices and slots of a stored step -/

theorem notifyAll_of_room (l : List Notice) (s : State) (room : s.port.notices.length + l.length ≤ 16) :
    (notifyAll l s).port.notices = s.port.notices ++ l := by
  induction l generalizing s with
  | nil => exact (List.append_nil _).symm
  | cons n rest ih =>
    rw [List.length_cons] at room
    have joined : (notify n s).port.notices = s.port.notices ++ [n] :=
      congrArg Port.notices (push_of_room (show s.port.notices.length < 16 by omega) n)
    have later : (notify n s).port.notices.length + rest.length ≤ 16 := by
      rw [joined, List.length_append]
      simp only [List.length_cons, List.length_nil]
      omega
    have whole := ih (notify n s) later
    rw [joined, List.append_assoc] at whole
    exact whole

/-- R38: at a station with a mix the slots of the seats that left are freed, then those of the seats that entered bound. -/
theorem bindNet_eq (own : Nat) (out entered : List Nat) (l : List Slot) : bindNet own out entered l
    = (entered.filter (fun k => decide (k ≠ own))).foldl (fun m k => bindFirst k m)
        (l.map (fun y => if y.state ≠ .free ∧ y.seat ≠ own ∧ y.seat ∈ out then Slot.freed else y)) := by
  rw [← bindNet_nil]
  rfl

theorem storeStep_mix (x : FloorStep) (s : State) : (storeStep x s).mix =
    { s.mix with slots := (storeStep x s).mix.slots } := by
  unfold storeStep
  dsimp only
  split <;> simp [notifyAll_mix]

/-- R9: the voice slot is emptied where the own seat has left, and the link is untouched elsewhere. -/
theorem storeStep_link_left {x : FloorStep} {s : State} (h : ∃ why : Reason, (s.config.seat, why) ∈ x.removals s.floor) :
    (storeStep x s).link.voiceSlot = none := by
  obtain ⟨why, mem⟩ := h
  have left : ((x.removals s.floor).any (fun p => decide (p.1 = s.ownSeat))) = true :=
    List.any_eq_true.2 ⟨_, mem, decide_eq_true rfl⟩
  unfold storeStep
  dsimp only
  rw [if_pos left]
  rfl

theorem storeStep_link_stays {x : FloorStep} {s : State} (h : ∀ why : Reason, (s.config.seat, why) ∉ x.removals s.floor) :
    (storeStep x s).link = s.link := by
  have stays : ¬ (x.removals s.floor).any (fun p => decide (p.1 = s.ownSeat)) = true := by
    rw [List.any_eq_true]
    rintro ⟨⟨k, why⟩, mem, own⟩
    obtain rfl : k = s.config.seat := of_decide_eq_true own
    exact h why mem
  unfold storeStep
  dsimp only
  rw [if_neg stays]
  exact notifyAll_link _ _

theorem notifyAll_port (l : List Notice) {s t : State} (h : s.port = t.port) : (notifyAll l s).port = (notifyAll l t).port := by
  induction l generalizing s t with
  | nil => exact h
  | cons n rest ih => exact ih (s := notify n s) (t := notify n t) (congrArg (fun p : Port => p.push n) h)

theorem storeStep_port (x : FloorStep) (s : State) : (storeStep x s).port =
    (notifyAll ((x.removals s.floor).map (fun p => .closed p.1 p.2) ++ (x.entries s.floor).map .opened) s).port := by
  unfold storeStep
  dsimp only
  split <;> exact notifyAll_port _ rfl

theorem storeStep_notices {x : FloorStep} {s : State}
    (room : s.port.notices.length + (x.removals s.floor).length + (x.entries s.floor).length ≤ 16) :
    (storeStep x s).port.notices = s.port.notices ++ (x.removals s.floor).map (fun p => .closed p.1 p.2)
      ++ (x.entries s.floor).map (fun k => .opened k) := by
  have joined := notifyAll_of_room ((x.removals s.floor).map (fun p => .closed p.1 p.2) ++ (x.entries s.floor).map .opened) s
    (by simp only [List.length_append, List.length_map]; omega)
  rw [storeStep_port, joined, ← List.append_assoc]

theorem hasMix_iff (s : State) : s.hasMix = true ↔ s.config.role ≠ .door := by
  simp [State.hasMix]

theorem storeStep_mix_door {x : FloorStep} {s : State} (door : s.config.role = .door) : (storeStep x s).mix = s.mix := by
  rw [storeStep_mix, storeStep_slots, if_neg (fun h => (hasMix_iff s).1 h door)]

theorem storeStep_mix_slots {x : FloorStep} {s : State} (noDoor : s.config.role ≠ .door) : (storeStep x s).mix = { s.mix with
    slots := ((x.entries s.floor).filter (fun k => decide (k ≠ s.config.seat))).foldl (fun l k => bindFirst k l)
      (s.mix.slots.map (fun y => if y.state ≠ .free ∧ y.seat ≠ s.config.seat ∧ (∃ p ∈ x.removals s.floor, p.1 = y.seat) then
        Slot.freed else y)) } := by
  rw [storeStep_mix, storeStep_slots, if_pos ((hasMix_iff s).2 noDoor), bindNet_eq]
  refine congrArg (fun l : List Slot => ({ s.mix with slots := List.foldl (fun m k => bindFirst k m) l _ } : Mix)) (List.map_congr_left fun y _ => if_congr ?_ rfl rfl)
  rw [List.mem_map]
  rfl

/-- R101: the lowest-numbered FREE slot is bound. -/
theorem bindFirst_of_none {k : Nat} {l : List Slot} (h : ∀ z ∈ l, z.state ≠ .free) : bindFirst k l = l := by
  induction l with
  | nil => rfl
  | cons y ys ih =>
    obtain ⟨first, rest⟩ := List.forall_mem_cons.1 h
    rw [bindFirst, if_neg first, ih rest]

theorem bindFirst_of_free {k : Nat} {l r : List Slot} {y : Slot} (h : ∀ z ∈ l, z.state ≠ .free) (free : y.state = .free) :
    bindFirst k (l ++ y :: r) = l ++ { Slot.freed with seat := k, state := .filling } :: r := by
  induction l with
  | nil => exact if_pos free
  | cons z zs ih =>
    obtain ⟨first, rest⟩ := List.forall_mem_cons.1 h
    rw [List.cons_append, bindFirst, if_neg first, ih rest, List.cons_append]

theorem freeing_nothing {p : Slot → Prop} [DecidablePred p] (h : ∀ y, ¬ p y) (l : List Slot) :
    l.map (fun y => if p y then Slot.freed else y) = l := by
  simp [h]

/-! ## The own side after a step -/

theorem micDisplaced_eq (s : State) : micDisplaced s =
    if s.mic.state = .open then leaveOpenRelease (showTransient (text "Floor full - requeued") (notify (.floorConflict s.config.seat)
      (settle (offerFrame (.yield s.meetingId s.mic.requestStamp)
        (setPlacing false { s with mic := { OwnMic.reset with state := .waiting, requestStamp := s.mic.requestStamp } })))))
    else showTransient (text "Floor full - requeued") (notify (.floorConflict s.config.seat)
      (settle (offerFrame (.yield s.meetingId s.mic.requestStamp)
        (setPlacing false { s with mic := { OwnMic.reset with state := .waiting, requestStamp := s.mic.requestStamp } })))) :=
  rfl

/-- R37 to R39, R50 and R77: the own side after a stored step. -/
theorem floorStep_eq (x : FloorStep) (s : State) : floorStep x s = evalMic
    (let u := if (x.removals s.floor).contains (s.ownSeat, .displaced) then micDisplaced (settle (storeStep x s))
      else settle (storeStep x s)
     if !s.floor.priority && x.floor.priority then micPriorityOn u else u) := rfl

/-- Settles O45. -/
theorem stepHandsOnItsNetChange : Obligations.StepHandsOnItsNetChange := by
  refine ⟨?_, ?_, ?_, fun _ _ => rfl, ?_⟩
  · rintro x s _ rfl
    refine ⟨storeStep_floor x s, storeStep_notices, fun _ => FloorStep.mem_entries, fun _ _ => FloorStep.mem_removals,
      ⟨rfl, rfl⟩, ?_, storeStep_mix_door, ?_, ?_, storeStep_link_left, storeStep_link_stays⟩
    · rintro _ noDoor rfl
      exact storeStep_mix_slots noDoor
    · intro k why noDoor removals entries other
      rw [storeStep_mix_slots noDoor, removals, entries]
      refine List.map_congr_left fun y _ => if_congr ?_ rfl rfl
      constructor
      · rintro ⟨bound, _, p, mem, seat⟩
        obtain rfl := List.mem_singleton.1 mem
        exact ⟨bound, seat.symm⟩
      · rintro ⟨bound, rfl⟩
        exact ⟨bound, other, _, List.mem_singleton_self _, rfl⟩
    · intro k l r y noDoor removals entries other slots taken free
      rw [storeStep_mix_slots noDoor, removals, entries]
      have single : [k].filter (fun k => decide (k ≠ s.config.seat)) = [k] := List.filter_eq_self.2 fun j mem =>
        decide_eq_true (List.mem_singleton.1 mem ▸ other)
      rw [single]
      have same := freeing_nothing (p := fun y => y.state ≠ .free ∧ y.seat ≠ s.config.seat ∧ (∃ p ∈ ([] : List (Nat × Reason)), p.1 = y.seat))
        (by rintro y ⟨_, _, _, mem, _⟩; cases mem) s.mix.slots
      refine (congrArg (bindFirst k) same).trans ?_
      rw [slots]
      exact bindFirst_of_free taken free
  · rintro x s _ v own on rfl ownIff onIff stays displaced
    have first : v = if (x.removals s.floor).contains (s.ownSeat, .displaced) then micDisplaced (settle (storeStep x s))
        else settle (storeStep x s) := by
      by_cases left : own
      · exact (displaced left).trans (if_pos (List.contains_iff_mem.2 (ownIff.1 left))).symm
      · exact (stays left).trans (if_neg fun mem => left (ownIff.2 (List.contains_iff_mem.1 mem))).symm
    have whole := floorStep_eq x s
    rw [← first] at whole
    have turns : on ↔ (!s.floor.priority && x.floor.priority) = true := by
      rw [onIff, Bool.and_eq_true, Bool.not_eq_true']
    refine ⟨?_, ?_, ?_⟩
    · intro off
      exact whole.trans (congrArg evalMic (if_neg (fun h => off (turns.2 h))))
    · intro turned closes opened delegate
      exact whole.trans (congrArg evalMic ((if_pos (turns.1 turned)).trans (if_pos ⟨closes, opened, delegate⟩)))
    · intro turned unmet
      exact whole.trans (congrArg evalMic ((if_pos (turns.1 turned)).trans (micPriorityOn_of_unmet unmet)))
  · rintro s v rfl
    exact ⟨fun opened => (micDisplaced_eq s).trans (if_pos opened), fun other => (micDisplaced_eq s).trans (if_neg other)⟩
  · exact fun k l r y taken => ⟨bindFirst_of_none taken, bindFirst_of_free taken⟩

end Sys2Proof.Machine

namespace Sys2Proof.Machine

/-! The delivery of VOICE, SHARE, UNSHARE and BEACON (R7, R22 to R31, R51, R54, R171, R172). -/

/-! ## Reconciliation, part by part (R54) -/

/-- R35 and R54: the reported stamps raise the counter. -/
theorem Floor.raiseReported_eq (f : Floor) (mic : Option (Nat × Nat)) (request : Option Nat) : f.raiseReported mic request =
    { f with
      stamp := max (max f.stamp (max ((mic.map (fun p => p.1)).getD 0) ((mic.map (fun p => p.2)).getD 0))) (request.getD 0) } := by
  cases mic <;> cases request <;> simp [raiseReported, raise, Nat.max_assoc]

/-- R36 and R54: the chair's report alone moves the priority state, and on only where the profile allows it. -/
theorem Floor.reconcilePriority_eq (f : Floor) (prio chair allowed : Bool) : f.reconcilePriority prio chair allowed =
    { f with priority := if chair then (if prio then f.priority || allowed else false) else f.priority } := by
  cases chair with
  | false => rfl
  | true =>
    cases prio with
    | false => rfl
    | true =>
      cases allowed with
      | true => simp [reconcilePriority, setPriority]
      | false => simp [reconcilePriority, setPriority]

theorem Floor.reconcileRequest_of_open {f : Floor} {k : Nat} (h : f.isOpen k = true) (q : Nat) :
    f.reconcileRequest k (some q) = f := if_pos h

theorem Floor.reconcileRequest_of_none {f : Floor} {k : Nat} (h : f.isOpen k = false) (q : Nat) (none : f.queueRecord k = none) :
    f.reconcileRequest k (some q) = f.join k q := by
  unfold reconcileRequest
  dsimp only
  rw [none, h]
  rfl

theorem Floor.reconcileRequest_of_same {f : Floor} {k : Nat} (h : f.isOpen k = false) {r : QueueRecord}
    (found : f.queueRecord k = some r) : f.reconcileRequest k (some r.requestStamp) = f := by
  unfold reconcileRequest
  dsimp only
  rw [found, h]
  exact if_pos rfl

theorem Floor.reconcileRequest_of_other {f : Floor} {k q : Nat} (h : f.isOpen k = false) {r : QueueRecord}
    (found : f.queueRecord k = some r) (ne : r.requestStamp ≠ q) : f.reconcileRequest k (some q) =
      { f with queue := insertQueue { r with requestStamp := q } (f.dropQueue k).queue } := by
  unfold reconcileRequest
  dsimp only
  rw [found, h]
  exact if_neg ne

theorem Floor.reconcileRequest_priority (f : Floor) (k : Nat) (request : Option Nat) :
    (f.reconcileRequest k request).priority = f.priority := by
  unfold reconcileRequest
  split
  · rfl
  · split
    · rfl
    · split
      · exact join_priority _ _ _
      · split <;> rfl

theorem Floor.queueRecord_none {f : Floor} {k : Nat} : f.queueRecord k = none ↔ f.isQueued k = false := by
  simp [queueRecord, isQueued]

theorem Floor.dropOpen_closed (f : Floor) (k : Nat) : (f.dropOpen k).isOpen k = false := by
  simp [isOpen_dropOpen]

/-- R54: after a seat has entered, the request part changes nothing more. -/
theorem Floor.reconcileRequest_enter (f : Floor) (k : Nat) (c : OpenClass) (o q n : Nat) (request : Option Nat) :
    (f.enter k c o q n).reconcileRequest k request = f.enter k c o q n := by
  cases request with
  | some r => exact reconcileRequest_of_open (by rw [isOpen_enter, decide_eq_true rfl, Bool.true_or]) r
  | none =>
    have gone : (f.enter k c o q n).dropQueue k = f.enter k c o q n := by
      rw [enter_eq]
      simp [dropQueue]
    exact gone

theorem Floor.reconcile_of_closed (f : Floor) (k : Nat) (request : Option Nat) (prio chair : Bool) (n limit : Nat) (allowed : Bool) :
    f.reconcile k none request prio chair n limit allowed =
      { floor := (((f.raiseReported none request).dropOpen k).reconcileRequest k request).reconcilePriority prio chair allowed,
        left := if f.isOpen k then [(k, .sync)] else [] } := by
  rw [← isOpen_congr (raiseReported_openSet f none request)]
  rfl

/-- R54: a beacon whose open record is the one the view holds. -/
theorem Floor.reconcile_of_same {f : Floor} {k : Nat} {r : OpenRecord} (found : f.openRecord k = some r) (request : Option Nat)
    (prio chair : Bool) (n limit : Nat) (allowed : Bool) :
    f.reconcile k (some (r.openStamp, r.requestStamp)) request prio chair n limit allowed =
      .plain (((f.raiseReported (some (r.openStamp, r.requestStamp)) request).reconcileRequest k request).reconcilePriority
        prio chair allowed) := by
  have raised : (f.raiseReported (some (r.openStamp, r.requestStamp)) request).openRecord k = some r := by
    rw [raiseReported_eq]; exact found
  unfold reconcile
  dsimp only
  rw [raised]
  exact if_pos (by simp)

/-- R54: a beacon whose open record is another one than the view holds, or that the view does not hold. -/
theorem Floor.reconcile_of_new {f : Floor} {k o q : Nat}
    (new : ∀ r : OpenRecord, f.openRecord k = some r → r.openStamp ≠ o ∨ r.requestStamp ≠ q) (request : Option Nat)
    (prio chair : Bool) (n limit : Nat) (allowed : Bool) :
    f.reconcile k (some (o, q)) request prio chair n limit allowed =
      (((f.raiseReported (some (o, q)) request).enter k (implicitClass chair) o q n).reconcilePriority prio chair
        allowed).displaceStep limit := by
  have raised : (f.raiseReported (some (o, q)) request).openRecord k = f.openRecord k := by rw [raiseReported_eq]; rfl
  have differs : ¬ (f.openRecord k).any (fun r => decide (r.openStamp = o) && decide (r.requestStamp = q)) = true := by
    cases found : f.openRecord k with
    | none => nofun
    | some r => simpa [Decidable.not_and_iff_not_or_not, -not_and] using new r found
  rw [← reconcileRequest_enter _ k (implicitClass chair) o q n request]
  unfold reconcile
  dsimp only
  rw [raised]
  exact if_neg differs

/-- R54: reconciliation with a beacon that reports a closed microphone, with and without a request. -/
theorem Floor.reconcile_closed_parts (f : Floor) (k : Nat) (request : Option Nat) (prio chair : Bool) (n limit : Nat)
    (allowed : Bool) :
    let x := f.reconcile k none request prio chair n limit allowed
    x.left = (if f.isOpen k then [(k, .sync)] else []) ∧
    x.floor.openSet = f.openSet.filter (fun r => decide (r.seat ≠ k)) ∧
    x.floor.stamp = max f.stamp (request.getD 0) ∧
    x.floor.priority = (if chair then (if prio then f.priority || allowed else false) else f.priority) ∧
    (request = none → x.floor.queue = f.queue.filter (fun r => decide (r.seat ≠ k))) ∧
    (∀ q : Nat, request = some q →
      (f.queueRecord k = none → x.floor.queue = insertQueue { seat := k, requestStamp := q, granted := false } f.queue) ∧
      (∀ r : QueueRecord, f.queueRecord k = some r → r.requestStamp = q → x.floor.queue = f.queue) ∧
      (∀ r : QueueRecord, f.queueRecord k = some r → r.requestStamp ≠ q → x.floor.queue
        = insertQueue { r with requestStamp := q } (f.queue.filter (fun r => decide (r.seat ≠ k))))) := by
  rw [reconcile_of_closed, reconcilePriority_eq, raiseReported_eq]
  dsimp only
  rw [reconcileRequest_stamp, reconcileRequest_priority, reconcileRequest_openSet]
  refine ⟨rfl, rfl, by simp [dropOpen], rfl, ?_, ?_⟩
  · rintro rfl
    rfl
  · rintro q rfl
    generalize raised : ({ f with stamp := _ } : Floor).dropOpen k = g
    have closed : g.isOpen k = false := raised ▸ dropOpen_closed _ k
    have sameRecord : g.queueRecord k = f.queueRecord k := raised ▸ rfl
    have sameQueue : g.queue = f.queue := raised ▸ rfl
    refine ⟨fun none => ?_, fun r found same => ?_, fun r found ne => ?_⟩
    · rw [reconcileRequest_of_none closed q (sameRecord.trans none),
        join_of_unqueued (queueRecord_none.1 (sameRecord.trans none)), sameQueue]
    · subst same
      rw [reconcileRequest_of_same closed (sameRecord.trans found), sameQueue]
    · rw [reconcileRequest_of_other closed (sameRecord.trans found) ne, ← sameQueue]
      rfl

theorem Floor.reconcile_same_parts (f : Floor) {k : Nat} {r : OpenRecord} (found : f.openRecord k = some r)
    (request : Option Nat) (prio chair : Bool) (n limit : Nat) (allowed : Bool) :
    let x := f.reconcile k (some (r.openStamp, r.requestStamp)) request prio chair n limit allowed
    x.left = [] ∧ x.floor = { f with
      stamp := max (max f.stamp (max r.openStamp r.requestStamp)) (request.getD 0),
      priority := if chair then (if prio then f.priority || allowed else false) else f.priority,
      queue := if request = none then f.queue.filter (fun r => decide (r.seat ≠ k)) else f.queue } := by
  have raisedOpen : (f.raiseReported (some (r.openStamp, r.requestStamp)) request).isOpen k = true := by
    rw [isOpen_congr (raiseReported_openSet _ _ _)]
    exact Bool.of_not_eq_false fun closed => by rw [openRecord_none.2 closed] at found; cases found
  rw [reconcile_of_same found]
  refine ⟨rfl, ?_⟩
  cases request with
  | none => rw [reconcilePriority_eq, raiseReported_eq]; rfl
  | some p => rw [reconcileRequest_of_open raisedOpen, reconcilePriority_eq, raiseReported_eq]; rfl

theorem Floor.reconcile_new_step (f : Floor) {k o q : Nat}
    (new : ∀ r : OpenRecord, f.openRecord k = some r → r.openStamp ≠ o ∨ r.requestStamp ≠ q) (request : Option Nat)
    (prio chair : Bool) (n limit : Nat) (allowed : Bool) :
    f.reconcile k (some (o, q)) request prio chair n limit allowed = (({ f with
      stamp := max (max f.stamp (max o q)) (request.getD 0),
      priority := if chair then (if prio then f.priority || allowed else false) else f.priority } : Floor).enter k
        (if chair then .chair else .delegate) o q n).displaceStep limit := by
  rw [reconcile_of_new new, reconcilePriority_eq, raiseReported_eq, enter_eq, enter_eq]
  rfl

/-! ## A seat is heard (R22, R28) -/

theorem Presence.getElem?_peer {t : Presence} {k : Nat} (whole : t.peers.length = 48) (low : 1 ≤ k) (high : k ≤ 48) :
    t.peers[k - 1]? = some (t.peer k) := by
  have seat : isSeat k = true := by simp [isSeat, low, high, Config.seats]
  have inside : k - 1 < t.peers.length := by omega
  rw [Presence.peer, if_pos seat, List.getD_eq_getElem?_getD, List.getElem?_eq_getElem inside]
  rfl

theorem Presence.setPeer_of_seat {t : Presence} {k : Nat} (low : 1 ≤ k) (high : k ≤ 48) (p : Peer) :
    t.setPeer k p = { t with peers := t.peers.set (k - 1) p } :=
  if_pos (by simp [isSeat, low, high, Config.seats])

theorem Delivered.seat {s : State} {kind source : Byte} {body : List Byte} {f : Frame} (h : Delivered s kind source body f) :
    1 ≤ f.source ∧ f.source ≤ 48 := by
  have valid := h.valid
  unfold parseFrame at valid
  split at valid
  · rename_i seat
    obtain ⟨b, _, rfl⟩ := Option.map_eq_some_iff.1 valid
    simp only [isSeat, Bool.and_eq_true, decide_eq_true_eq] at seat
    exact seat
  · cases valid

/-- R22 and R28: hearing a seat writes its peer entry, and beyond it does what an evaluation of the own side can. -/
theorem heard_tableOnly (k : Nat) (s : State) : tableOnly
    { s with presence := s.presence.setPeer k { s.presence.peer k with state := .present, frameAge := 0 } } (heard k s) := by
  unfold heard
  dsimp only
  split
  · exact (evalMic_table _).frame
  · exact (TableStep.refl _).frame

/-- R25: the peer entry that a beacon of a heard seat leaves. -/
def BeaconBody.peer (b : BeaconBody) : Peer :=
  { state := .present, role := some b.role, name := b.name, frameAge := 0, beaconAge := 0, meeting := b.meeting,
    mic := b.mic, request := b.request, share := b.share, priority := b.priority }

/-- R25: the entry of a seat that has been heard takes what its beacon carries. -/
theorem beaconEntry {k : Nat} {b : BeaconBody} {s : State} (whole : s.presence.peers.length = 48) (low : 1 ≤ k) (high : k ≤ 48) :
    ((heard k s).presence.setPeer k (((heard k s).presence.peer k).fromBeacon b)) =
      { (heard k s).presence with peers := (heard k s).presence.peers.set (k - 1) b.peer } := by
  rw [Presence.setPeer_of_seat low high, (heard_tableOnly k s).presence, Presence.setPeer_of_seat low high]
  have inside : k - 1 < s.presence.peers.length := by omega
  have after := Presence.getElem?_peer (t := { s.presence with
    peers := s.presence.peers.set (k - 1) { s.presence.peer k with state := .present, frameAge := 0 } }) (by simpa using whole) low high
  rw [List.getElem?_set_self inside] at after
  rw [← Option.some.inj after]
  rfl

/-- R30: when a beacon's time is adopted. -/
theorem adopts_iff (s : State) (b : BeaconBody) : s.adopts b = true ↔
    s.config.follower = true ∧ b.role = .door ∧ ¬ (b.day = 65535 ∧ b.second = 86399) ∧
      (s.calendar.clock.set = false ∨
        s.calendar.clock.day * 86400 + s.calendar.clock.second + 2 ≤ b.day * 86400 + b.second ∨
        b.day * 86400 + b.second + 2 ≤ s.calendar.clock.day * 86400 + s.calendar.clock.second) := by
  simp only [State.adopts, Bool.and_eq_true, Bool.or_eq_true, Bool.not_eq_true', decide_eq_true_eq, and_assoc, or_assoc,
    ← Bool.not_eq_true]
  rfl

/-- R26: the parts of a beacon, in their order. -/
theorem onBeacon_parts {k : Nat} {b : BeaconBody} {s v0 v1 v2 v3 v4 v5 : State}
    (h0 : v0 = { s with presence := s.presence.setPeer k ((s.presence.peer k).fromBeacon b) })
    (h1 : v1 = if v0.adopts b then setClock b.day b.second v0 else v0)
    (none2 : b.endedEarly = none → v2 = v1)
    (some2 : ∀ id : Bid, b.endedEarly = some id → v2 = settle (endOrRemove id .endedEarly v1))
    (none3 : b.entry = none → v3 = v2)
    (some3 : ∀ w : WireEntry, b.entry = some w → v3 = settle (arriveEntry k w v2))
    (h4 : v4 = reconcileBeacon k b.meeting b.mic b.request b.priority v3)
    (h5 : v5 = shareBeacon k b.meeting b.share v4) : onBeacon k b s = v5 := by
  subst h0 h1 h4 h5
  unfold onBeacon
  dsimp only
  cases early : b.endedEarly with
  | none =>
    cases entry : b.entry with
    | none => rw [none3 entry, none2 early]
    | some w => rw [some3 w entry, none2 early]
  | some id =>
    cases entry : b.entry with
    | none => rw [none3 entry, some2 id early]
    | some w => rw [some3 w entry, some2 id early]

/-- R22 and R26: a delivered beacon. -/
theorem exec_beacon {source : Byte} {body : List Byte} {k : Nat} {b : BeaconBody} {s v0 v1 v2 v3 v4 v5 : State}
    (whole : s.presence.peers.length = 48) (delivered : Delivered s 0x20#8 source body { source := k, body := .beacon b })
    (h0 : v0 = { heard k s with
      presence := { (heard k s).presence with peers := (heard k s).presence.peers.set (k - 1) b.peer } })
    (h1 : v1 = if v0.adopts b then setClock b.day b.second v0 else v0)
    (none2 : b.endedEarly = none → v2 = v1)
    (some2 : ∀ id : Bid, b.endedEarly = some id → v2 = settle (endOrRemove id .endedEarly v1))
    (none3 : b.entry = none → v3 = v2)
    (some3 : ∀ w : WireEntry, b.entry = some w → v3 = settle (arriveEntry k w v2))
    (h4 : v4 = reconcileBeacon k b.meeting b.mic b.request b.priority v3)
    (h5 : v5 = shareBeacon k b.meeting b.share v4) : exec (.receiveBeacon source body) s = .next (settle v5) := by
  obtain ⟨low, high⟩ := delivered.seat
  rw [← beaconEntry whole low high] at h0
  rw [← onBeacon_parts h0 h1 none2 some2 none3 some3 h4 h5]
  exact exec_of_delivered delivered

/-- R30 and R31: the sender's time, adopted or not. -/
theorem adopted_time {b : BeaconBody} {adopted : Prop} {s v : State} (test : adopted ↔ s.adopts b = true) (stays : ¬ adopted → v = s)
    (moves : ∀ w : State, adopted → w = settle { s with calendar := { s.calendar with
        clock := { day := b.day, second := b.second, count := 0, set := true } } } →
      v = evaluate { w with calendar := { w.calendar with
        view := w.calendar.view.filter (fun e => e.active || decide (b.day * 1440 + b.second / 60 < e.wire.finish)) } }) :
    v = if s.adopts b then setClock b.day b.second s else s := by
  by_cases taken : adopted
  · rw [if_pos (test.1 taken), moves _ taken rfl, setClock, clockChanged_of_set rfl rfl, settle_calendar]
    rfl
  · rw [if_neg (fun h => taken (test.2 h)), stays taken]

theorem implicitClass_of_run {s : State} (run : s.meeting.state ≠ .idle) (k : Nat) :
    implicitClass (s.isChairSeat k) = if k = s.meeting.chair ∧ k ≠ 0 then .chair else .delegate := by
  unfold implicitClass
  refine if_congr ?_ rfl rfl
  simp only [State.isChairSeat, Bool.and_eq_true, decide_eq_true_eq, inMeeting_iff]
  constructor
  · rintro ⟨⟨_, chair⟩, named⟩
    exact ⟨chair, named⟩
  · rintro ⟨chair, named⟩
    exact ⟨⟨run, chair⟩, named⟩

/-- R51 and R102: a VOICE frame past the filter opens its seat, then reaches its slot. -/
theorem exec_voice {source : Byte} {body : List Byte} {k o q n : Nat} {m : Option Bid} {talking : Bool} {xs : List Int} {s : State}
    (delivered : Delivered s 0x10#8 source body { source := k, body := .voice m o q n talking xs })
    (passes : s.filterPasses m = true) : exec (.receiveVoice source body) s =
      .next (settle (mixReceive k { block := n, talking := talking, samples := xs }
        (floorStep ((heard k s).floor.implicit k (if k = s.meeting.chair ∧ k ≠ 0 then .chair else .delegate) o q
          (heard k s).blockNumber (heard k s).meeting.profile.limit) (heard k s)))) := by
  have taken := exec_of_passed (act := onVoice k o q n talking xs) delivered rfl passes
  rw [onVoice, heard_chairSeat, implicitClass_of_run (filterPasses_run passes)] at taken
  exact taken

/-- Settles O42. -/
theorem voiceShareAndBeaconAreDelivered : Obligations.VoiceShareAndBeaconAreDelivered := by
  refine ⟨?_, ?_, ?_, ?_, fun t k p whole low high => ⟨Presence.getElem?_peer whole low high, Presence.setPeer_of_seat low high p⟩⟩
  · rintro k _ s _ whole low high rfl rfl
    have set := Presence.setPeer_of_seat (t := s.presence) low high { s.presence.peer k with state := .present, frameAge := 0 }
    rw [← set]
    refine ⟨fun quiet => if_neg ?_, fun back chair => if_pos ⟨back, chair⟩⟩
    rintro ⟨back, chair⟩
    exact quiet.elim back (fun no => by rw [no] at chair; cases chair)
  · rintro source body k m s _ rfl
    refine ⟨fun o q n talking xs passes delivered => ?_, fun screen stamp passes delivered => exec_of_passed delivered rfl passes,
      fun passes delivered => exec_of_passed delivered rfl passes⟩
    exact exec_voice delivered passes
  · intro source body k b r adopted s u v0 v1 v2 v3 v4 v5 whole heardNow delivered record before test stays moves none2 some2
      none3 some3 h4 h5
    subst heardNow record
    have frame := heard_tableOnly k s
    have clock : v0.calendar.clock = s.calendar.clock := by rw [before]; exact frame.clock
    have config : v0.config = s.config := by rw [before]; exact frame.config
    have test' : adopted ↔ v0.adopts b = true := by rw [adopts_iff, config, clock]; exact test
    exact exec_beacon whole delivered before (adopted_time test' stays moves) none2 some2 none3 some3 h4 h5
  · rintro f _ k mic request prio chair allowed n limit _ rfl rfl
    refine ⟨?_, ?_, ?_⟩
    · rintro rfl
      have parts := f.reconcile_closed_parts k request prio chair n limit allowed
      simpa using parts
    · rintro o q r rfl found rfl rfl
      exact f.reconcile_same_parts found request prio chair n limit allowed
    · rintro o q rfl new
      exact f.reconcile_new_step new request prio chair n limit allowed

end Sys2Proof.Machine

namespace Sys2Proof.Machine

/-! The share map: the claim rule, claims of other seats, and the outcomes of the own SHARE (R171 to R175). -/

/-! ## The claim rule -/

theorem Share.presenter_one (h : Share) : h.presenter 1 = h.screen1 := rfl

theorem Share.presenter_two (h : Share) : h.presenter 2 = h.screen2 := rfl

/-- R171: whom a claim leaves on the screen it names. -/
def claimed (held : Option Presenter) (seat stamp chair : Nat) : Option Presenter :=
  if claimWins held seat stamp chair then some { seat := seat, stamp := stamp } else held

/-- R171: a claim of screen 1. -/
theorem Share.claimRule_one (h : Share) (seat stamp chair : Nat) : h.claimRule seat 1 stamp chair =
    { h with screen1 := claimed h.screen1 seat stamp chair, screen2 := h.screen2.filter (fun p => decide (p.seat ≠ seat)) } := by
  have other : h.leaveOther seat 1 = { h with screen2 := h.screen2.filter (fun p => decide (p.seat ≠ seat)) } := by
    rcases h with ⟨one, two, _, _, _, _, _⟩
    cases two with
    | none => rfl
    | some p =>
      by_cases own : p.seat = seat <;> simp [leaveOther, presents, presenter, otherScreen, setScreen, Option.filter, own]
  rw [claimRule, other, presenter_one, claimed]
  split <;> rfl

/-- R171: a claim of screen 2. -/
theorem Share.claimRule_two (h : Share) (seat stamp chair : Nat) : h.claimRule seat 2 stamp chair =
    { h with screen1 := h.screen1.filter (fun p => decide (p.seat ≠ seat)), screen2 := claimed h.screen2 seat stamp chair } := by
  have other : h.leaveOther seat 2 = { h with screen1 := h.screen1.filter (fun p => decide (p.seat ≠ seat)) } := by
    rcases h with ⟨one, two, _, _, _, _, _⟩
    cases one with
    | none => rfl
    | some p =>
      by_cases own : p.seat = seat <;> simp [leaveOther, presents, presenter, otherScreen, setScreen, Option.filter, own]
  rw [claimRule, other, presenter_two, claimed]
  split <;> rfl

theorem claimed_none (seat stamp chair : Nat) : claimed none seat stamp chair = some { seat := seat, stamp := stamp } := rfl

theorem claimWins_some {p : Presenter} {seat stamp chair : Nat} : claimWins (some p) seat stamp chair = true ↔
    (p.seat ≠ chair ∨ seat = chair) ∧ (p.stamp < stamp ∨ (p.stamp = stamp ∧ p.seat < seat)) := by
  simp only [claimWins, Bool.and_eq_true, Bool.or_eq_true, Bool.not_eq_true', decide_eq_true_eq, ← Bool.not_eq_true]
  refine and_congr_left fun _ => ?_
  rw [Decidable.not_and_iff_not_or_not, Decidable.not_not]

theorem claimed_some (p : Presenter) (seat stamp chair : Nat) :
    (p.seat = chair → seat ≠ chair → claimed (some p) seat stamp chair = some p) ∧
    (p.seat ≠ chair ∨ seat = chair →
      (p.stamp < stamp ∨ (p.stamp = stamp ∧ p.seat < seat) →
        claimed (some p) seat stamp chair = some { seat := seat, stamp := stamp }) ∧
      (stamp < p.stamp ∨ (p.stamp = stamp ∧ seat ≤ p.seat) → claimed (some p) seat stamp chair = some p)) := by
  refine ⟨fun held other => if_neg ?_, fun free => ⟨fun later => if_pos (claimWins_some.2 ⟨free, later⟩), fun earlier => if_neg ?_⟩⟩
  · rw [claimWins_some]
    exact fun wins => wins.1.elim (· held) other
  · rw [claimWins_some]
    rintro ⟨_, later⟩
    omega

theorem Share.left_some {o : Option Presenter} {p : Presenter} (h : o = some p) (seat : Nat) :
    o.filter (fun p => decide (p.seat ≠ seat)) = if p.seat = seat then none else some p := by
  subst h
  by_cases own : p.seat = seat <;> simp [own]

/-- The note to R172: two claims of one screen by seats that are not the chair leave the same presenter in either order:
the later stamp, and of two equal ones the higher seat, stays. -/
theorem claimed_comm {o : Option Presenter} {a b ka kb chair : Nat} (ne : a ≠ b) (ha : a ≠ chair) (hb : b ≠ chair) :
    claimed (claimed o a ka chair) b kb chair = claimed (claimed o b kb chair) a ka chair := by
  have outbids {x y kx ky : Nat} (hx : x ≠ chair) (later : kx < ky ∨ (kx = ky ∧ x < y)) :
      claimed (some { seat := x, stamp := kx }) y ky chair = some { seat := y, stamp := ky } :=
    ((claimed_some _ _ _ _).2 (.inl hx)).1 later
  have yields {x y kx ky : Nat} (hx : x ≠ chair) (earlier : ky < kx ∨ (kx = ky ∧ y ≤ x)) :
      claimed (some { seat := x, stamp := kx }) y ky chair = some { seat := x, stamp := kx } :=
    ((claimed_some _ _ _ _).2 (.inl hx)).2 earlier
  have two : claimed (some { seat := a, stamp := ka }) b kb chair = claimed (some { seat := b, stamp := kb }) a ka chair := by
    by_cases later : ka < kb ∨ (ka = kb ∧ a < b)
    · rw [outbids ha later, yields hb (by omega)]
    · rw [yields ha (by omega), outbids hb (by omega)]
  cases o with
  | none => exact two
  | some p =>
    by_cases held : p.seat = chair
    · rw [(claimed_some p a ka chair).1 held ha, (claimed_some p b kb chair).1 held hb, (claimed_some p a ka chair).1 held ha]
    · obtain ⟨aOver, aUnder⟩ := (claimed_some p a ka chair).2 (.inl held)
      obtain ⟨bOver, bUnder⟩ := (claimed_some p b kb chair).2 (.inl held)
      by_cases aWins : p.stamp < ka ∨ (p.stamp = ka ∧ p.seat < a)
      · by_cases bWins : p.stamp < kb ∨ (p.stamp = kb ∧ p.seat < b)
        · rw [aOver aWins, bOver bWins, two]
        · rw [aOver aWins, bUnder (by omega), aOver aWins, yields ha (by omega)]
      · by_cases bWins : p.stamp < kb ∨ (p.stamp = kb ∧ p.seat < b)
        · rw [bOver bWins, aUnder (by omega), bOver bWins, yields hb (by omega)]
        · rw [aUnder (by omega), bUnder (by omega), aUnder (by omega)]

theorem left_comm (o : Option Presenter) (a b : Nat) :
    (o.filter (fun p => decide (p.seat ≠ a))).filter (fun p => decide (p.seat ≠ b)) =
      (o.filter (fun p => decide (p.seat ≠ b))).filter (fun p => decide (p.seat ≠ a)) := by
  simp only [Option.filter_filter, Bool.and_comm]

theorem Share.claimRule_comm (h : Share) {a b ka kb screen chair : Nat} (named : screen = 1 ∨ screen = 2) (ne : a ≠ b)
    (ha : a ≠ chair) (hb : b ≠ chair) : (h.claimRule a screen ka chair).claimRule b screen kb chair
      = (h.claimRule b screen kb chair).claimRule a screen ka chair := by
  rcases named with rfl | rfl
  · simp only [claimRule_one, claimed_comm ne ha hb, left_comm h.screen2 a b]
  · simp only [claimRule_two, claimed_comm ne ha hb, left_comm h.screen1 a b]

/-- R171: whom a claim leaves on the screen it names, whatever screen that is. -/
theorem Share.presenter_claimRule (h : Share) (seat screen stamp chair : Nat) :
    (h.claimRule seat screen stamp chair).presenter screen = claimed (h.presenter screen) seat stamp chair := by
  have other : (h.leaveOther seat screen).presenter screen = h.presenter screen := by
    unfold leaveOther
    split
    · by_cases one : screen = 1 <;> simp [presenter, setScreen, otherScreen, one]
    · rfl
  unfold claimRule claimed
  split
  · unfold presenter setScreen
    by_cases one : screen = 1 <;> simp [one]
  · exact other

theorem Share.claimRule_screens (h : Share) (seat screen stamp chair : Nat) : h.claimRule seat screen stamp chair
    = { h with screen1 := (h.claimRule seat screen stamp chair).screen1,
               screen2 := (h.claimRule seat screen stamp chair).screen2 } := by
  have set (g : Share) (n : Nat) (p : Option Presenter) : g.setScreen n p
      = { g with screen1 := (g.setScreen n p).screen1, screen2 := (g.setScreen n p).screen2 } := by
    unfold setScreen
    split <;> rfl
  have leave : h.leaveOther seat screen
      = { h with screen1 := (h.leaveOther seat screen).screen1, screen2 := (h.leaveOther seat screen).screen2 } := by
    unfold leaveOther
    split
    · exact set _ _ _
    · rfl
  unfold claimRule
  split
  · rw [set]
    generalize h.leaveOther seat screen = g at leave ⊢
    rw [leave]
  · exact leave

theorem Share.presents_iff {h : Share} {seat screen : Nat} :
    h.presents seat screen = true ↔ ∃ p : Presenter, h.presenter screen = some p ∧ p.seat = seat := by
  unfold presents
  cases h.presenter screen <;> simp

/-! ## A claim of another seat -/

theorem floorStep_config_of_plain (f : Floor) {s : State} (openSet : f.openSet = s.floor.openSet)
    (priority : f.priority = s.floor.priority) : (floorStep { floor := f, left := [] } s).config = s.config := by
  rw [show ({ floor := f, left := [] } : FloorStep) = .plain f from rfl, floorStep_plain openSet priority,
    (evalMic_table _).frame.config]

theorem shareClaimed_cases {k screen stamp : Nat} {s t : State} {g lostClaim : Share} {lost : Prop}
    (stepped : t = floorStep { floor := { s.floor with stamp := max s.floor.stamp stamp }, left := [] } s)
    (ruled : g = t.share.claimRule k screen stamp t.meeting.chair)
    (none : lostClaim = { g with claim := .none, claimScreen := 0, claimStamp := 0, release := false })
    (test : lost ↔ (∃ p : Presenter, t.share.presenter screen = some p ∧ p.seat = s.config.seat) ∧
      ∀ p : Presenter, g.presenter screen = some p → p.seat ≠ s.config.seat) :
    (¬ lost → shareClaimed k screen stamp s = { t with share := g }) ∧
    (lost → shareClaimed k screen stamp s = shareLost screen k
      (settle { t with share := if t.share.claim = .sharing then lostClaim else g })) := by
  have own : t.ownSeat = s.config.seat := by
    rw [stepped, State.ownSeat]
    exact congrArg (fun c => c.seat) (floorStep_config_of_plain (s := s) { s.floor with stamp := max s.floor.stamp stamp } rfl rfl)
  have lost' : lost ↔ (t.share.presents t.ownSeat screen && !g.presents t.ownSeat screen) = true := by
    rw [test, Bool.and_eq_true, Bool.not_eq_true', ← Bool.not_eq_true, Share.presents_iff, Share.presents_iff, own]
    refine and_congr_right fun _ => ⟨?_, ?_⟩
    · rintro away ⟨p, here, seat⟩
      exact away p here seat
    · exact fun away p here seat => away ⟨p, here, seat⟩
  have whole : shareClaimed k screen stamp s = if t.share.presents t.ownSeat screen && !g.presents t.ownSeat screen then
      shareLost screen k (settle (if t.share.claim = .sharing then { t with share := g.noClaim } else { t with share := g }))
      else { t with share := g } := by
    rw [ruled, stepped]
    rfl
  refine ⟨fun stays => whole.trans (if_neg fun h => stays (lost'.2 h)), fun gone => (whole.trans (if_pos (lost'.1 gone))).trans ?_⟩
  rw [none]
  congr 2
  split <;> rfl

theorem takenText_eq {screen : Nat} (named : screen = 1 ∨ screen = 2) :
    takenText screen = if screen = 1 then text "Screen 1 taken" else text "Screen 2 taken" := by
  rcases named with rfl | rfl <;> decide

/-! ## The outcomes of the own SHARE -/

theorem Share.claimFromMap_own {h : Share} {seat screen : Nat} {p : Presenter} (held : h.presenter screen = some p)
    (own : p.seat = seat) : h.claimFromMap seat screen
      = { h with claim := .sharing, claimScreen := screen, claimStamp := p.stamp, release := false } := by
  unfold claimFromMap
  rw [held]
  exact if_pos own

theorem Share.claimFromMap_other {h : Share} {seat screen : Nat} {p : Presenter} (held : h.presenter screen = some p)
    (other : p.seat ≠ seat) : h.claimFromMap seat screen = h.noClaim := by
  unfold claimFromMap
  rw [held]
  exact if_neg other

theorem Share.claimFromMap_released (h : Share) (seat screen own : Nat) :
    ((h.claimFromMap seat screen).clearSeat own).noClaim = (h.clearSeat own).noClaim := by
  unfold claimFromMap
  split
  · split <;> rfl
  · rfl

section
variable {screen stamp : Nat} {s : State} {g : Share}

/-- R174: SENT of the own SHARE with the release mark set. -/
theorem shareSent_of_release (ruled : g = s.share.claimRule s.config.seat screen stamp s.meeting.chair)
    (marked : s.share.release = true) : shareSent screen stamp s =
      { s with floor := { s.floor with stamp := max s.floor.stamp stamp }, share := (g.clearSeat s.config.seat).noClaim } := by
  subst ruled
  have whole : shareSent screen stamp s = _ := if_pos marked
  rw [whole, claimReleased]
  exact congrArg (fun h => ({ s with floor := s.floor.raise stamp, share := h } : State)) (Share.claimFromMap_released _ _ _ _)

/-- R174: SENT of the own SHARE where the claim takes its screen. -/
theorem shareSent_of_won (ruled : g = s.share.claimRule s.config.seat screen stamp s.meeting.chair)
    (unmarked : s.share.release = false) (won : claimWins (s.share.presenter screen) s.config.seat stamp s.meeting.chair = true) :
    shareSent screen stamp s = { s with
      floor := { s.floor with stamp := max s.floor.stamp stamp },
      share := g.claimFromMap s.config.seat screen } := by
  subst ruled
  exact (if_neg (by rw [unmarked]; nofun)).trans (if_pos won)

/-- R174: SENT of the own SHARE where the claim does not take its screen. -/
theorem shareSent_of_lost (ruled : g = s.share.claimRule s.config.seat screen stamp s.meeting.chair)
    (unmarked : s.share.release = false) (lost : claimWins (s.share.presenter screen) s.config.seat stamp s.meeting.chair ≠ true)
    {p : Presenter} (held : g.presenter screen = some p) :
    shareSent screen stamp s = shareLost screen p.seat (settle { s with
      floor := { s.floor with stamp := max s.floor.stamp stamp },
      share := g.claimFromMap s.config.seat screen }) := by
  subst ruled
  have whole : shareSent screen stamp s = _ := (if_neg (by rw [unmarked]; nofun)).trans (if_neg lost)
  rw [whole]
  dsimp only
  rw [show (s.share.claimRule s.ownSeat screen stamp s.meeting.chair).presenter screen = some p from held]
  rfl

end

/-- Settles O51. -/
theorem claimsOnAScreenEndAlikeInEitherOrder : Obligations.ClaimsOnAScreenEndAlikeInEitherOrder := by
  refine ⟨?_, ?_, fun h seat screen stamp chair => h.claimRule_screens seat screen stamp chair,
    fun h a b ka kb screen chair named ne ha hb => h.claimRule_comm named ne ha hb,
    fun k screen stamp s t g lostClaim lost => shareClaimed_cases, ?_, ?_, ?_, ?_, fun _ => ⟨rfl, rfl⟩⟩
  · rintro h _ seat stamp chair rfl
    rw [Share.claimRule_one]
    refine ⟨fun empty => ?_, fun p held => ?_, fun p held => Share.left_some held seat, fun empty => ?_⟩
    · exact congrArg (fun o => claimed o seat stamp chair) empty
    · dsimp only
      rw [held]
      exact claimed_some p seat stamp chair
    · exact congrArg (Option.filter (fun p => decide (p.seat ≠ seat))) empty
  · rintro h _ seat stamp chair rfl
    rw [Share.claimRule_two]
    refine ⟨fun empty => ?_, fun p held => ?_, fun p held => Share.left_some held seat, fun empty => ?_⟩
    · exact congrArg (fun o => claimed o seat stamp chair) empty
    · dsimp only
      rw [held]
      exact claimed_some p seat stamp chair
    · exact congrArg (Option.filter (fun p => decide (p.seat ≠ seat))) empty
  · rintro screen k _ s named rfl
    rw [shareLost, takenText_eq named]
    rfl
  · exact fun k s => ⟨rfl, fun screen stamp _ same => if_pos same, fun screen stamp other => if_neg other⟩
  · rintro screen stamp s _ g named ruled rfl
    have held := Share.presenter_claimRule s.share s.config.seat screen stamp s.meeting.chair
    rw [← ruled] at held
    refine ⟨shareSent_of_release ruled, fun p unmarked own seat old => ?_, fun unmarked now before => ?_,
      fun p unmarked now other => ?_⟩
    · have lost : claimWins (s.share.presenter screen) s.config.seat stamp s.meeting.chair ≠ true := by
        rw [own, Ne, claimWins_some]
        rintro ⟨_, later⟩
        omega
      have stays : g.presenter screen = some p := by rw [held, claimed, if_neg lost, own]
      rw [shareSent_of_lost ruled unmarked lost stays, Share.claimFromMap_own stays seat, seat]
    · have won : claimWins (s.share.presenter screen) s.config.seat stamp s.meeting.chair = true := by
        by_contra lost
        rw [claimed, if_neg lost] at held
        exact before (held.symm.trans now)
      rw [shareSent_of_won ruled unmarked won, Share.claimFromMap_own now rfl]
    · have lost : claimWins (s.share.presenter screen) s.config.seat stamp s.meeting.chair ≠ true := by
        intro won
        rw [claimed, if_pos won, now] at held
        exact other (congrArg Presenter.seat (Option.some.inj held))
      rw [shareSent_of_lost ruled unmarked lost now, Share.claimFromMap_other now other]
      rfl
  · intro s
    refine ⟨fun other => if_neg other, fun claiming marked => (if_pos claiming).trans (if_pos marked),
      fun claiming unmarked => ⟨fun screen stamp held => ?_, fun closed => ?_⟩⟩
    · have whole : shareAbandoned s = _ := (if_pos claiming).trans (if_neg (by rw [unmarked]; nofun))
      rw [whole, show s.share.holds s.ownSeat = some (screen, stamp) from held]
    · have whole : shareAbandoned s = _ := (if_pos claiming).trans (if_neg (by rw [unmarked]; nofun))
      rw [whole, show s.share.holds s.ownSeat = none from closed]
      rfl

end Sys2Proof.Machine

namespace Sys2Proof.Machine

/-! The end of an attempt: SENT and ABANDONED of the frame in send, and what each does at its owner (R16, R17, R56, R69,
R70). -/

section
variable {s : State} {x : Sending}

/-! ## The end of an attempt -/

theorem attempt_of_voided (free : s.link.finishing = false) (sending : s.link.inSend = some x) (voided : x.voided = true) :
    attemptClear s = s.linkFreed ∧ attemptFailed s = s.linkFreed := by
  simp [attemptClear, attemptFailed, free, sending, voided, freeLink_eq]

theorem attemptFailed_of_another (free : s.link.finishing = false) (sending : s.link.inSend = some x) (valid : x.voided = false)
    (another : x.attempt < 8) : attemptFailed s =
      { s with link := { s.link with inSend := some { x with attempt := x.attempt + 1 } } } := by
  simp [attemptFailed, free, sending, valid, Config.maxAttempts, another]

theorem attempt_of_finishing (finishing : s.link.finishing = true) :
    attemptClear s = select { s with link := { s.link with finishing := false } } ∧
    attemptFailed s = select { s with link := { s.link with finishing := false } } :=
  ⟨if_pos finishing, if_pos finishing⟩

theorem attempt_of_empty (free : s.link.finishing = false) (empty : s.link.inSend = none) :
    attemptClear s = s ∧ attemptFailed s = s := by
  simp [attemptClear, attemptFailed, free, empty]

/-! ## SENT and ABANDONED of the own OPEN -/

/-- The state between the step of the own OPEN's SENT and the own-microphone rules (R56). -/
def ownOpened (o q : Nat) (d : OpenClass) (y : FloorStep) (s : State) : State :=
  { settle (storeStep y s) with mic := { s.mic with cls := some d, openStamp := o, requestStamp := q, closePending := none } }

theorem ownOpened_mic (y : FloorStep) (s : State) : (settle (storeStep y s)).mic = s.mic :=
  (settle_mic _).trans (storeStep_mic y s)

theorem ownOpened_floor (y : FloorStep) (s : State) : (settle (storeStep y s)).floor = y.floor :=
  (settle_floor _).trans (storeStep_floor y s)

section
variable {o q : Nat} {c d : OpenClass} {y : FloorStep} {u : State}

theorem openSent_of_open (cls : d = s.classTaken s.ownSeat c)
    (step : y = s.floor.opening s.ownSeat d o q s.blockNumber s.limit) (next : u = ownOpened o q d y s)
    (isOpen : y.floor.isOpen s.ownSeat = true) :
    (s.mic.closePending = none →
      openSent o q c s = evalMic (startBudget (setPlacing true { u with mic := { u.mic with state := .open, silence := 0 } }))) ∧
    (∀ why : Reason, s.mic.closePending = some why →
      openSent o q c s = micClose why (settle (setPlacing true { u with mic := { u.mic with state := .open, silence := 0 } }))) := by
  have mic := ownOpened_mic y s
  have floor := ownOpened_floor y s
  unfold openSent
  dsimp only
  rw [← cls, ← step]
  unfold ownOpened at next
  generalize settle (storeStep y s) = t at *
  subst next
  rw [if_pos (by rw [floor]; exact isOpen), mic]
  exact ⟨fun none => by rw [none], fun why pending => by rw [pending]⟩

theorem openSent_of_displaced (cls : d = s.classTaken s.ownSeat c)
    (step : y = s.floor.opening s.ownSeat d o q s.blockNumber s.limit) (next : u = ownOpened o q d y s)
    (closed : y.floor.isOpen s.ownSeat = false) :
    (s.mic.closePending = none → openSent o q c s = evalMic (micDisplaced u)) ∧
    (∀ why : Reason, s.mic.closePending = some why →
      openSent o q c s = micWithdraw (offerFrame (.close s.meetingId s.ownSeat why) u)) := by
  have mic := ownOpened_mic y s
  have floor := ownOpened_floor y s
  unfold openSent
  dsimp only
  rw [← cls, ← step]
  unfold ownOpened at next
  generalize settle (storeStep y s) = t at *
  subst next
  rw [if_neg (by rw [floor, closed]; nofun), mic]
  exact ⟨fun none => by rw [none], fun why pending => by rw [pending]⟩

end

/-- R55: the WITHDRAW of a seat whose meeting and own seat are those of an earlier state. -/
theorem micWithdraw_of_same {t w : State} (meeting : w.meeting = t.meeting) (config : w.config = t.config) :
    micWithdraw w = offerFrame (.withdraw t.meetingId) { w with
      floor := { w.floor with queue := w.floor.queue.filter (fun r => decide (r.seat ≠ t.config.seat)) },
      mic := .reset, capture := { w.capture with placing := false } } := by
  have id : w.meetingId = t.meetingId := by simp [State.meetingId, State.inMeeting, meeting]
  have stored : storeView (w.floor.dropQueue w.ownSeat) (micOff w) = { micOff w with floor := w.floor.dropQueue w.ownSeat } :=
    storeView_of_same rfl
  rw [micWithdraw, stored, id, ← config]
  rfl

theorem openAbandoned_of_opening (opening : s.mic.state = .opening) :
    (s.mic.cls = some .chair ∨ s.floor.isQueued s.ownSeat = false → openAbandoned s = micOff s) ∧
    (s.mic.cls ≠ some .chair → s.floor.isQueued s.ownSeat = true →
      (s.mic.closePending = none →
        openAbandoned s = evalMic { s with mic := { s.mic with state := .waiting, cls := none, openStamp := 0 } }) ∧
      (s.mic.closePending ≠ none → openAbandoned s = micWithdraw s)) := by
  have taken : openAbandoned s = _ := if_pos opening
  refine ⟨fun back => ?_, fun delegate queued => ?_⟩
  · by_cases chair : s.mic.cls = some .chair
    · exact taken.trans (if_pos chair)
    · exact (taken.trans (if_neg chair)).trans (if_neg (by rw [back.resolve_left chair]; nofun))
  · have stays := (taken.trans (if_neg delegate)).trans (if_pos queued)
    rw [stays]
    cases s.mic.closePending with
    | none => exact ⟨fun _ => rfl, fun pending => absurd rfl pending⟩
    | some why => exact ⟨nofun, fun _ => rfl⟩

/-! ## The own GRANT, CLEAR and PRIORITY -/

theorem viewGrant_eq (target : Nat) (s : State) : viewGrant target s = evalMic (settle { s with floor := { s.floor with
    queue := s.floor.queue.map (fun r => if r.seat = target then { r with granted := true } else r) } }) := by
  rw [evalMic_settle]
  exact floorStep_plain rfl rfl

theorem micCleared_of_opening {v : State} {w : Withdrawal} (opening : s.mic.state = .opening) (answer : withdrawOpen s = (v, w)) :
    micCleared s = if w = .withdrawn then micOff v else v := by
  unfold micCleared
  rw [opening]
  dsimp only
  rw [answer]
  cases w <;> rfl

theorem micCleared_of_waiting (waiting : s.mic.state = .waiting) : micCleared s = micOff s := by
  unfold micCleared
  rw [waiting]

theorem micCleared_of_other (other : s.mic.state = .closed ∨ s.mic.state = .open) : micCleared s = s := by
  unfold micCleared
  rcases other with h | h <;> rw [h]

end

theorem viewClear_cases (s u : State) (cleared : u = { s with floor := { s.floor with queue := [] } }) :
    (s.floor.isQueued s.config.seat = false ∨ s.mic.state = .closed ∨ s.mic.state = .open → viewClear s = evalMic u) ∧
    (s.floor.isQueued s.config.seat = true →
      (s.mic.state = .waiting → viewClear s = evalMic (micOff u)) ∧
      (s.mic.state = .opening →
        (∀ v : State, withdrawOpen u = (v, .withdrawn) → viewClear s = evalMic (micOff v)) ∧
        (∀ (v : State) (x : Withdrawal), withdrawOpen u = (v, x) → x ≠ .withdrawn → viewClear s = evalMic v))) := by
  have mic : u.mic = s.mic := by rw [cleared]
  have whole (queued : s.floor.isQueued s.config.seat = true) : viewClear s = evalMic (micCleared u) := by
    rw [cleared]
    exact viewClear_of_queued queued
  refine ⟨fun quiet => ?_, fun queued => ⟨fun waiting => ?_, fun opening => ⟨fun v answer => ?_, fun v w answer kept => ?_⟩⟩⟩
  · cases queued : s.floor.isQueued s.config.seat with
    | false => rw [cleared]; exact viewClear_of_unqueued queued
    | true => rw [whole queued, micCleared_of_other (mic ▸ quiet.resolve_left (by rw [queued]; nofun))]
  · rw [whole queued, micCleared_of_waiting (by rw [mic]; exact waiting)]
  · rw [whole queued, micCleared_of_opening (by rw [mic]; exact opening) answer]
    rfl
  · rw [whole queued, micCleared_of_opening (by rw [mic]; exact opening) answer, if_neg kept]

theorem viewPriority_cases (on : Bool) (s u : State) (turned : u = settle { s with floor := { s.floor with
      priority := if on then s.floor.priority || s.meeting.profile.priorityAllowed else false } }) :
    (on = true → s.meeting.profile.priorityAllowed = true → s.floor.priority = false →
      s.meeting.profile.priorityCloses = true → s.mic.state = .open → s.mic.cls = some .delegate →
      viewPriority on s = evalMic (micClose .chair u)) ∧
    (on = false ∨ s.meeting.profile.priorityAllowed = false ∨ s.floor.priority = true ∨
        s.meeting.profile.priorityCloses = false ∨ s.mic.state ≠ .open ∨ s.mic.cls ≠ some .delegate →
      viewPriority on s = evalMic u) := by
  cases on with
  | false => exact ⟨nofun, fun _ => by rw [turned, evalMic_settle, viewPriority_off]; rfl⟩
  | true =>
    cases allowed : s.meeting.profile.priorityAllowed with
    | false =>
      refine ⟨nofun, fun _ => ?_⟩
      rw [turned, evalMic_settle, viewPriority_refused allowed, allowed]
      exact congrArg evalMic (by simp)
    | true =>
      have raised : u = settle { s with floor := { s.floor with priority := true } } := by rw [turned, allowed]; simp
      refine ⟨fun _ _ was closes isOpen delegate => ?_, fun quiet => ?_⟩
      · rw [raised]
        exact viewPriority_on_closes allowed was closes isOpen delegate
      · rw [raised, evalMic_settle]
        exact viewPriority_on_quiet allowed ((quiet.resolve_left nofun).resolve_left nofun)

theorem sent_of_close {m : Option Bid} {target source : Nat} {why : Reason} (s : State) :
    (if target = source then s else filtered m (viewClose target why) s) =
      if s.filterPasses m = true ∧ target ≠ source then viewClose target why s else s := by
  by_cases own : target = source
  · rw [if_pos own, if_neg fun h => h.2 own]
  · rw [if_neg own, filtered]
    exact if_congr ⟨fun passes => ⟨passes, own⟩, And.left⟩ rfl rfl

/-- Settles O52. -/
theorem attemptsEndInSentOrAbandoned : Obligations.AttemptsEndInSentOrAbandoned := by
  refine ⟨?_, ?_, ?_, ?_, viewGrant_eq, fun s u => viewClear_cases s u, fun on s u => viewPriority_cases on s u⟩
  · intro s x free sending
    refine ⟨fun voided => ?_, fun valid => ⟨fun v outcome => ?_, fun another => ?_, fun u v last counted outcome => ?_⟩⟩
    · obtain ⟨clear, failed⟩ := attempt_of_voided free sending voided
      exact ⟨congrArg (fun t => Host.Outcome.next (settle t)) clear, congrArg (fun t => Host.Outcome.next (settle t)) failed⟩
    · have owner : sentOutcome x.frame s = v := by
        have cases := outcome _ rfl
        unfold sentOutcome
        cases body : x.frame.body <;> rw [body] at cases
        case close => exact (sent_of_close s).trans cases.symm
        all_goals exact cases.symm
      rw [← owner, ← attemptClear_of_sending free sending valid]
      rfl
    · rw [← attemptFailed_of_another free sending valid another]
      rfl
    · have owner : abandonedOutcome x.frame (countAbandoned x s) = v := by
        have cases := outcome _ rfl
        have same (m : Option Bid) : s.filterPasses m = u.filterPasses m := by rw [counted]; rfl
        simp only [same] at cases
        rw [countAbandoned_eq, ← counted]
        unfold abandonedOutcome
        cases body : x.frame.body <;> rw [body] at cases <;> exact cases.symm
      rw [← owner, ← attemptFailed_of_last free sending valid last]
      rfl
  · intro o q c d y s u v cls step next opened
    have next' : u = ownOpened o q d y s := next
    have meeting : u.meeting = s.meeting := by rw [next]; exact (settle_meeting _).trans (storeStep_meeting y s)
    have config : u.config = s.config := by rw [next]; exact (settle_config _).trans (storeStep_config y s)
    refine ⟨fun isOpen => ?_, fun closed => ?_⟩
    · rw [opened]
      exact openSent_of_open cls step next' isOpen
    · obtain ⟨displaced, withdrawn⟩ := openSent_of_displaced cls step next' closed
      refine ⟨displaced, fun why w pending offered => ?_⟩
      rw [withdrawn why pending, show s.ownSeat = s.config.seat from rfl, ← offered]
      refine micWithdraw_of_same ?_ ?_
      · rw [offered, offerFrame_meeting, meeting]
      · rw [offered, offerFrame_config, config]
  · rintro s _ rfl
    refine ⟨fun other => if_neg other, fun opening => ?_⟩
    obtain ⟨back, stays⟩ := openAbandoned_of_opening opening
    refine ⟨back, fun delegate queued => ?_⟩
    obtain ⟨waits, withdraws⟩ := stays delegate queued
    refine ⟨waits, fun pending => (withdraws pending).trans ?_⟩
    exact micWithdraw_of_same rfl rfl
  · intro s
    refine ⟨fun finishing => ?_, fun free empty => ?_⟩
    · obtain ⟨clear, failed⟩ := attempt_of_finishing finishing
      exact ⟨congrArg (fun t => Host.Outcome.next (settle t)) clear, congrArg (fun t => Host.Outcome.next (settle t)) failed⟩
    · obtain ⟨clear, failed⟩ := attempt_of_empty free empty
      exact ⟨congrArg (fun t => Host.Outcome.next (settle t)) clear, congrArg (fun t => Host.Outcome.next (settle t)) failed⟩

end Sys2Proof.Machine

namespace Sys2Proof.Machine

/-! The holders of the link: selection, the beacon that starts, coalescing, admission and withdrawal (R9 to R15, R20,
R139). -/

section
variable {s : State}

/-! ## Selection (R15) -/

theorem Link.idle_iff {l : Link} : l.idle = true ↔ l.inSend = none ∧ l.finishing = false := by
  simp [Link.idle]

theorem select_of_busy (h : s.link.inSend ≠ none ∨ s.link.finishing = true ∨ s.station = .setup) : select s = s := by
  unfold select
  by_cases idle : s.link.idle = true
  · obtain ⟨free, rest⟩ := Link.idle_iff.1 idle
    have setup : s.station = .setup := (h.resolve_left (· free)).resolve_left (by rw [rest]; nofun)
    rw [if_pos idle, setup]
  · exact if_neg idle

theorem select_of_run (free : s.link.inSend = none) (rest : s.link.finishing = false) (run : s.station = .run) :
    select s = selectRun s := by
  unfold select
  rw [if_pos (Link.idle_iff.2 ⟨free, rest⟩), run]

theorem select_clash_of_free (free : s.link.inSend = none) (rest : s.link.finishing = false) (clash : s.station = .clash) :
    select s = if s.link.beaconSlot = some .clash then startClashBeacon s else s := by
  unfold select
  rw [if_pos (Link.idle_iff.2 ⟨free, rest⟩), clash]

theorem selectRun_of_voice {f : Frame} (voice : s.link.voiceSlot = some f) : selectRun s = { s with link := { s.link with
    voiceSlot := none, inSend := some { frame := f, attempt := 1, clash := false, voided := false } } } := by
  unfold selectRun
  rw [voice]
  rfl

theorem selectRun_of_queue {f : Frame} {rest : List Frame} (voice : s.link.voiceSlot = none) (queue : s.link.queue = f :: rest) :
    selectRun s = flushCheck { s with link := { s.link with
      queue := rest, inSend := some { frame := f, attempt := 1, clash := false, voided := false } } } := by
  unfold selectRun
  rw [voice, queue]
  rfl

theorem selectRun_of_nothing (voice : s.link.voiceSlot = none) (queue : s.link.queue = []) (beacon : s.link.beaconSlot = none) :
    selectRun s = s := by
  unfold selectRun
  rw [voice, queue, beacon]
  rfl

theorem selectRun_of_pending (voice : s.link.voiceSlot = none) (queue : s.link.queue = []) (beacon : s.link.beaconSlot ≠ none) :
    selectRun s = startBeacon s := by
  unfold selectRun
  rw [voice, queue]
  exact if_pos (Option.isSome_iff_ne_none.2 beacon)

/-- R183: a FLUSH goes on while the queue holds a frame. -/
theorem flushCheck_goesOn (h : s.port.serving = false ∨ s.link.queue ≠ []) : flushCheck s = s := by
  rw [flushCheck_eq, if_neg (by rintro ⟨serving, empty⟩; exact h.elim (fun no => by rw [no] at serving; cases serving) (· empty))]

/-- R183: a FLUSH completes with an emptied queue. -/
theorem flushCheck_completes (serving : s.port.serving = true) (empty : s.link.queue = []) : flushCheck s =
    { s with port := { s.port with serving := false, reply := { status := .ok, data := [] } } } := by
  rw [flushCheck_eq, if_pos ⟨serving, empty⟩]

/-! ## The beacon that starts (R20, R139) -/

theorem Clock.reported_eq {c : Clock} {day second : Nat} (set : c.set = true → day = c.day ∧ second = c.second)
    (unset : c.set = false → day = 65535 ∧ second = 86399) : c.reported = (day, second) := by
  unfold Clock.reported
  cases h : c.set with
  | true => obtain ⟨rfl, rfl⟩ := set h; rfl
  | false => obtain ⟨rfl, rfl⟩ := unset h; rfl

theorem meetingId_eq (s : State) : s.meetingId = if s.meeting.state = .idle then none else s.meeting.id := by
  by_cases idle : s.meeting.state = .idle
  · simp [State.meetingId, State.inMeeting, idle]
  · simp [State.meetingId, State.inMeeting, idle]

theorem Share.holds_eq (h : Share) (k : Nat) : h.holds k =
    ((h.screen1.filter (fun p => decide (p.seat = k))).map (fun p => (1, p.stamp))).or
      ((h.screen2.filter (fun p => decide (p.seat = k))).map (fun p => (2, p.stamp))) := by
  unfold holds
  cases h.screen1 with
  | none =>
    cases h.screen2 with
    | none => rfl
    | some q => by_cases two : q.seat = k <;> simp [Option.filter, two]
  | some p =>
    cases h.screen2 with
    | none => by_cases one : p.seat = k <;> simp [Option.filter, one]
    | some q => by_cases one : p.seat = k <;> by_cases two : q.seat = k <;> simp [Option.filter, one, two]

theorem heldWires_head (v : List Entry) :
    ((v.filter (fun e => e.held)).map (fun e => e.wire)).head? = (v.find? (fun e => e.held)).map (fun e => e.wire) := by
  rw [List.head?_map, List.head?_filter]

theorem heldWires_find (v : List Entry) (p : WireEntry → Bool) :
    ((v.filter (fun e => e.held)).map (fun e => e.wire)).find? p =
      (v.find? (fun e => e.held && p e.wire)).map (fun e => e.wire) := by
  simp [List.find?_map, List.find?_filter, Bool.decide_and]

/-- R139: the first held entry behind the rotation mark. -/
theorem nextHeld_of_behind {v : List Entry} {mark : RotationMark} {e : Entry}
    (found : v.find? (fun e => e.held && viewKeyLt mark.start mark.id e.wire.start e.wire.id) = some e) :
    nextHeld v (some mark) = some e.wire := by
  unfold nextHeld
  dsimp only
  rw [heldWires_find, found]
  rfl

/-- R139: with none behind the mark, the first held entry of all. -/
theorem nextHeld_of_last {v : List Entry} {mark : RotationMark}
    (none : ∀ e ∈ v, e.held = true → viewKeyLt mark.start mark.id e.wire.start e.wire.id = false) :
    nextHeld v (some mark) = (v.find? (fun e => e.held)).map (fun e => e.wire) := by
  have nothing : v.find? (fun e => e.held && viewKeyLt mark.start mark.id e.wire.start e.wire.id) = Option.none := by
    refine List.find?_eq_none.2 fun e mem => ?_
    rw [Bool.and_eq_true]
    rintro ⟨held, behind⟩
    rw [none e mem held] at behind
    cases behind
  unfold nextHeld
  dsimp only
  rw [heldWires_find, nothing, heldWires_head]
  rfl

/-! ## Coalescing (R12) -/

theorem coalesce_new {f : Frame} {l : List Frame} (new : ∀ y ∈ l, y.internalKind ≠ f.internalKind) :
    coalesce f l = (l ++ [f], .joined) := by
  induction l with
  | nil => rfl
  | cons y ys ih =>
    obtain ⟨first, rest⟩ := List.forall_mem_cons.1 new
    rw [coalesce, if_neg first, ih rest]
    rfl

theorem coalesce_met {f x : Frame} {l r : List Frame} (before : ∀ y ∈ l, y.internalKind ≠ f.internalKind)
    (same : x.internalKind = f.internalKind) : coalesce f (l ++ x :: r) =
      if inversePair x f then (l ++ r, .cancelled) else (l ++ f :: r, .replaced) := by
  induction l with
  | nil => exact if_pos same
  | cons y ys ih =>
    obtain ⟨first, rest⟩ := List.forall_mem_cons.1 before
    rw [List.cons_append, coalesce, if_neg first, ih rest]
    split <;> rfl

theorem inversePair_iff (x f : Frame) : inversePair x f = true ↔
    (∃ (m n : Option Bid) (o q : Nat) (c : OpenClass) (why : Reason),
      x.body = .opening m o q c ∧ f.body = .close n f.source why) ∨
    (∃ (m n : Option Bid) (q : Nat), x.body = .request m q ∧ f.body = .withdraw n) ∨
    (∃ (m n : Option Bid) (k q : Nat), x.body = .share m k q ∧ f.body = .unshare n) ∨
    (∃ m n : Option Bid, x.body = .priority m true ∧ f.body = .priority n false) := by
  constructor
  · intro inverse
    unfold inversePair at inverse
    split at inverse
    · rename_i m o q c n target why queued offered
      exact .inl ⟨m, n, o, q, c, why, queued, of_decide_eq_true inverse ▸ offered⟩
    · rename_i queued offered
      exact .inr (.inl ⟨_, _, _, queued, offered⟩)
    · rename_i queued offered
      exact .inr (.inr (.inl ⟨_, _, _, _, queued, offered⟩))
    · rename_i m on n off queued offered
      obtain ⟨rfl, rfl⟩ : on = true ∧ off = false := by simpa using inverse
      exact .inr (.inr (.inr ⟨m, n, queued, offered⟩))
    · cases inverse
  · rintro (⟨m, n, o, q, c, why, queued, offered⟩ | ⟨m, n, q, queued, offered⟩ | ⟨m, n, k, q, queued, offered⟩ |
      ⟨m, n, queued, offered⟩) <;> simp [inversePair, queued, offered]

/-! ## Offering and placing (R9, R12) -/

theorem offer_of_taken {b : Body} {f : Frame} {l : List Frame} {x : Offered} (station : s.station ≠ .clash)
    (own : f = { source := s.config.seat, body := b }) (merged : coalesce f s.link.queue = (l, x)) :
    offer b s = (select (flushCheck { s with link := { s.link with queue := l } }), x) := by
  subst own
  have whole : offer b s = _ := if_neg station
  rw [whole]
  dsimp only
  rw [show coalesce (s.own b) s.link.queue = (l, x) from merged]

theorem placeVoice_of_taken {b : Body} (station : s.station ≠ .clash) : placeVoice b s = select { s with
    link := { s.link with
      voiceSlot := some { source := s.config.seat, body := b },
      voiceSkips := if s.link.voiceSlot.isSome then sat16 s.link.voiceSkips else s.link.voiceSkips } } :=
  if_neg station

end

/-- Settles O53. -/
theorem holdersReplaceCancelAndSelect : Obligations.HoldersReplaceCancelAndSelect := by
  refine ⟨?_, ?_, ?_, ?_, ?_, fun _ _ => ⟨rfl, rfl⟩, ?_, ?_, ?_, ?_, ?_, inversePair_iff, ?_⟩
  · intro s
    refine ⟨select_of_busy, fun free rest run => ?_, fun free rest clash => ?_⟩
    · rw [select_of_run free rest run]
      refine ⟨fun f => selectRun_of_voice, fun f others voice queue => ?_, fun x voice queue beacon sent => ?_, selectRun_of_nothing⟩
      · rw [selectRun_of_queue voice queue]
        exact ⟨fun goes => flushCheck_goesOn (by exact goes), fun serving last => flushCheck_completes (by exact serving) (by exact last)⟩
      · rw [selectRun_of_pending voice queue beacon, sent]
        rfl
    · rw [select_clash_of_free free rest clash]
      exact ⟨fun pending => if_pos pending, fun other => if_neg other⟩
  · intro s day second set unset
    have reported := Clock.reported_eq set unset
    rw [composeBeacon, composeClashBeacon, reported, meetingId_eq]
    exact ⟨rfl, rfl⟩
  · intro h k
    rw [Share.holds_eq]
    refine ⟨fun p first own => by simp [first, own, Option.filter], fun away => ?_⟩
    have left : h.screen1.filter (fun p => decide (p.seat = k)) = none :=
      Option.filter_eq_none_iff.2 fun p first => by simpa using away p first
    rw [left]
    refine ⟨fun p second own => by simp [second, own, Option.filter], fun gone => ?_⟩
    rw [Option.filter_eq_none_iff.2 fun p second => by simpa using gone p second]
    rfl
  · rintro v mark _ rfl
    exact ⟨heldWires_head v, fun e => nextHeld_of_behind, nextHeld_of_last⟩
  · exact fun m n i j => viewKeyLt_iff
  · intro f x l r _ before
    refine ⟨coalesce_new before, fun same inverse => ?_, fun same other => ?_⟩
    · rw [coalesce_met before same, if_pos inverse]
    · rw [coalesce_met before same, if_neg (by rw [other]; nofun)]
  · intro b s
    refine ⟨fun clash => ⟨if_pos clash, if_pos clash⟩, fun station busy empty => ?_, fun f station busy waits => ?_,
      fun run free rest empty => ?_⟩
    · rw [placeVoice_of_taken station, empty]
      exact select_of_busy busy
    · rw [placeVoice_of_taken station, waits]
      exact select_of_busy busy
    · rw [placeVoice_of_taken (by rw [run]; nofun), empty]
      refine (select_of_run (by exact free) (by exact rest) (by exact run)).trans ((selectRun_of_voice rfl).trans ?_)
      simp [empty]
  · intro b s f l x own
    refine ⟨fun station merged => ?_, rfl, by rw [own]; rfl⟩
    rw [offer_of_taken station own merged]
    exact ⟨fun stays => by rw [flushCheck_goesOn (by exact stays)],
      fun serving empty => by rw [flushCheck_completes (by exact serving) (by exact empty)]⟩
  · rintro s _ rfl
    refine ⟨fun queued => ?_, fun unqueued => ⟨fun x => withdrawOpen_of_started unqueued, withdrawOpen_of_none unqueued⟩⟩
    rw [withdrawOpen_of_queued queued]
    exact ⟨fun stays => by rw [flushCheck_goesOn (by exact stays)],
      fun serving empty => by rw [flushCheck_completes (by exact serving) (by exact empty)]⟩
  · intro source k o q n m id on why c e kind kindIs
    simp only [kindIs, Frame.internalKind]
    simp
  · intro q
    simp only [hostFrames]
    congr 2
    funext f
    cases f.internalKind <;> rfl

end Sys2Proof.Machine

namespace Sys2Proof.Machine

/-! Silence and absence: the cadence count, the ages of the peer table, absence events and stale reports (R19, R23, R24,
R52, R53, R109, R176). -/

theorem counting_of_run {s : State} (run : s.station ≠ .setup) : s.counting = true := decide_eq_true run

theorem requestBeacon_eq (s : State) : requestBeacon s = if s.station = .run ∧ s.link.beaconSlot = none then
    select { s with link := { s.link with beaconSlot := some .normal } } else s := by
  unfold requestBeacon
  by_cases run : s.station = .run
  · cases slot : s.link.beaconSlot <;> simp [run]
  · simp [run]

theorem cadenceBlock_of_lt {s : State} (h : s.presence.cadence < 249) :
    cadenceBlock s = { s with presence := { s.presence with cadence := s.presence.cadence + 1 } } :=
  if_pos (Nat.succ_lt_succ h)

theorem cadenceBlock_of_le {s : State} (h : 249 ≤ s.presence.cadence) :
    cadenceBlock s = requestBeacon { s with presence := { s.presence with cadence := 0 } } :=
  if_neg (Nat.not_lt.2 (Nat.succ_le_succ h))

theorem exec_beaconRequest {s : State} (run : s.station ≠ .setup) : exec .beaconRequest s =
    .next (requestBeacon { s with presence := { s.presence with cadence := 0 } }) :=
  congrArg Host.Outcome.next (if_pos (counting_of_run run))

theorem exec_absenceEvent {k : Nat} {s : State} (run : s.station ≠ .setup) (present : (s.presence.peer k).state = .present) :
    exec (.absenceEvent k) s = .next (settle (peerAbsent k s)) :=
  congrArg Host.Outcome.next (if_pos ⟨counting_of_run run, present⟩)

theorem allSeats_eq : allSeats = List.range' 1 48 := rfl

/-- R23 and R24: a block of the peer table, and the absence events that it brings, in ascending seat order. -/
theorem presenceBlock_eq (s : State) : presenceBlock s =
    (silentSeats { s.presence with peers := s.presence.peers.map Peer.aged }).foldl (fun u k => settle (peerAbsent k u))
      { s with presence := { s.presence with peers := s.presence.peers.map Peer.aged } } := rfl

theorem silentSeats_eq (t : Presence) : silentSeats t = (List.range' 1 48).filter (fun k =>
    decide ((t.peer k).state = .present) && decide (1250 ≤ (t.peer k).frameAge)) := by
  rw [silentSeats, allSeats_eq]
  rfl

theorem boundSlot_of_bound {m : Mix} {i : Nat} {x : Slot} (slot : m.slots[i]? = some x) (bound : x.state ≠ .free) :
    m.boundSlot (i + 1) = some x := by
  simp [Mix.boundSlot, slot, bound]

theorem exec_staleSlot {i : Nat} {x : Slot} {s : State} (noDoor : s.config.role ≠ .door) (run : s.station ≠ .setup)
    (slot : s.mix.slots[i]? = some x) (bound : x.state ≠ .free) :
    exec (.staleSlot (i + 1)) s = .next (settle (staleReport x.seat s)) := by
  have taken : exec (.staleSlot (i + 1)) s = _ :=
    congrArg Host.Outcome.next (if_pos ⟨(hasMix_iff s).2 noDoor, counting_of_run run⟩)
  rw [taken, boundSlot_of_bound slot bound]

/-- Settles O54. -/
theorem silentSeatsLeaveAndBeaconsAreRequested : Obligations.SilentSeatsLeaveAndBeaconsAreRequested := by
  refine ⟨?_, ?_, ?_, fun k s => exec_absenceEvent, ?_, ?_, fun i x s => exec_staleSlot, requestBeacon_eq⟩
  · intro f k chair
    cases chair <;> rfl
  · exact fun s => ⟨cadenceBlock_of_lt, fun full run => by rw [cadenceBlock_of_le full, exec_beaconRequest run]⟩
  · intro s t silent aged seats
    have moved : t = { s with presence := { s.presence with peers := s.presence.peers.map Peer.aged } } := aged
    rw [seats, ← silentSeats_eq, presenceBlock_eq, moved]
  · intro s u reset run
    rw [exec_beaconRequest run, ← reset, requestBeacon_eq]
    refine ⟨fun kept => ?_, fun taken empty => ?_⟩
    · rw [if_neg]
      rintro ⟨taken, empty⟩
      rw [reset] at taken empty
      exact kept.elim (fun clash => by rw [show s.station = .run from taken] at clash; cases clash) (· empty)
    · rw [if_pos]
      rw [reset]
      exact ⟨taken, empty⟩
  · intro k s u v run present fell left
    rw [exec_absenceEvent run present, left, fell]
    rfl

end Sys2Proof.Machine

namespace Sys2Proof.Machine

/-! SUPPORT. What a block completion leaves of the mix outside the Mix Engine's own block: the output, the loudspeaker's
block, the clipped count and the limit flag always, and the limiter as long as no meeting starts (R122 to R127). -/

/-- The mix stays as it was, but for slots, overflow mark and late count; under `F` the limiter stays too. -/
structure MixKept (F : Prop) (s t : State) : Prop where
  output : t.mix.output = s.mix.output
  speaker : t.mix.speaker = s.mix.speaker
  clipped : t.mix.clipped = s.mix.clipped
  limitFlag : t.mix.limitFlag = s.mix.limitFlag
  limiter : F → t.mix.reduction = s.mix.reduction ∧ t.mix.quiet = s.mix.quiet

namespace MixKept
variable {F : Prop}

theorem same {s t : State} (h : t.mix = s.mix) : MixKept F s t := by
  constructor <;> rw [h]
  exact fun _ => ⟨rfl, rfl⟩

theorem refl (s : State) : MixKept F s s := same rfl

theorem trans {s t u : State} (h : MixKept F s t) (k : MixKept F t u) : MixKept F s u :=
  ⟨k.output.trans h.output, k.speaker.trans h.speaker, k.clipped.trans h.clipped, k.limitFlag.trans h.limitFlag,
    fun f => ⟨(k.limiter f).1.trans (h.limiter f).1, (k.limiter f).2.trans (h.limiter f).2⟩⟩

theorem ite {s t u : State} {p : Prop} [Decidable p] (h : p → MixKept F s t) (k : ¬ p → MixKept F s u) :
    MixKept F s (if p then t else u) := by
  split
  · exact h ‹_›
  · exact k ‹_›

theorem foldl {α : Type} {g : State → α → State} (hg : ∀ s a, MixKept F s (g s a)) (l : List α) (s : State) :
    MixKept F s (l.foldl g s) := by
  induction l generalizing s with
  | nil => exact refl s
  | cons a rest ih => exact (hg s a).trans (ih _)

theorem presence (s : State) (p : Presence) : MixKept F s { s with presence := p } := same rfl

theorem controls (s : State) (c : Controls) : MixKept F s { s with controls := c } := same rfl

theorem calendar (s : State) (c : Calendar) : MixKept F s { s with calendar := c } := same rfl

theorem meeting (s : State) (m : Meeting) : MixKept F s { s with meeting := m } := same rfl

theorem capture (s : State) (c : Capture) : MixKept F s { s with capture := c } := same rfl

/-- The operations of the table write nothing of the mix but its slots. -/
theorem of_table {s t : State} (h : TableStep s t) : MixKept F s t := by
  have mix : t.mix = { s.mix with slots := t.mix.slots } := congrArg State.mix h.frame
  constructor <;> rw [mix]
  exact fun _ => ⟨rfl, rfl⟩

theorem settled {s t : State} (h : MixKept F s t) : MixKept F s (settle t) := h.trans (same (settle_mix t))

end MixKept

section
variable {F : Prop}

/-! ## Meeting record and clock -/

theorem meetingWarningTest_mixKept (s : State) : MixKept F s (meetingWarningTest s) := by
  unfold meetingWarningTest
  dsimp only
  split
  · split
    · exact .refl s
    · refine .ite (fun _ => ?_) (fun _ => .refl s)
      split <;> exact .same rfl
    · exact .ite (fun _ => .refl s) (fun _ => .same rfl)
  · exact .refl s

/-- R154: a start brings the limiter to rest. -/
theorem startMeetingFor_mixKept (e : Entry) (s : State) : MixKept False s (startMeetingFor e s) := by
  have cleared : MixKept False s (settle (screenAtStart (mixAtStart (clearView (recordStart e s))))) :=
    MixKept.settled ⟨rfl, rfl, rfl, rfl, False.elim⟩
  exact ((cleared.trans (.of_table (replay_table _ _))).trans (.of_table (notify_table _ _))).trans
    ((meetingWarningTest_mixKept _).trans (.of_table (evalMic_table _)))

theorem startDue_mixKept (s : State) : MixKept False s (startDue s) := by
  unfold startDue
  refine .ite (fun _ => ?_) (fun _ => .refl s)
  split
  · exact startMeetingFor_mixKept _ s
  · exact .refl s

theorem closeMeeting_mixKept (id : Bid) (why : EndReason) (s : State) : MixKept False s (closeMeeting id why s) := by
  have microphone : MixKept False s (settle (micMeetingEnd (settle s))) :=
    .of_table ((settle_table s).trans (micMeetingEnd_table _)).settled
  have table (t : State) : MixKept False t (settle (clearShare (micOff (clearView t)))) :=
    MixKept.settled ⟨rfl, rfl, rfl, rfl, False.elim⟩
  have early (t : State) : MixKept False t (if why = .time then t
      else { t with meeting := { t.meeting with endedEarly := some id, endedEarlyAge := 0 } }) :=
    .ite (fun _ => .refl t) (fun _ => .meeting t _)
  have noticed (t : State) : MixKept False t (notify (.meetingEnd id why) t) := .of_table (notify_table _ t)
  exact (((microphone.trans (.meeting _ _)).trans (table _)).trans (MixKept.calendar _ _).settled).trans ((early _).trans (noticed _))

theorem endMeetingFor_mixKept (why : EndReason) (s : State) : MixKept False s (endMeetingFor why s) := by
  unfold endMeetingFor
  split
  · exact (closeMeeting_mixKept _ _ s).trans (startDue_mixKept _)
  · exact .refl s

theorem runRecord_mixKept (s : State) : MixKept False s (runRecord s) :=
  .ite (fun _ => .refl s) (fun _ => .ite (fun _ => startDue_mixKept s) (fun _ =>
    (meetingWarningTest_mixKept s).trans (.ite (fun _ => endMeetingFor_mixKept _ _) (fun _ => .refl _))))

theorem evaluate_mixKept (s : State) : MixKept False s (evaluate s) :=
  ((MixKept.refl s).settled.trans (runRecord_mixKept _)).settled

theorem clockChanged_mixKept (s : State) : MixKept False s (clockChanged s) := by
  have tested (t : State) : MixKept False t (timeTest t) := .ite (fun _ => .same rfl) (fun _ => .refl t)
  exact ((MixKept.refl s).settled.trans (tested _)).trans (evaluate_mixKept _)

theorem clockSecondPasses_mixKept (s : State) : MixKept False s (clockSecondPasses s) :=
  .ite (fun _ => .calendar s _) (fun _ => (MixKept.calendar s _).trans (clockChanged_mixKept _))

/-! ## The counts in blocks -/

theorem peerAbsent_mixKept (seat : Nat) (s : State) : MixKept F s (peerAbsent seat s) :=
  (MixKept.presence s _).trans
    (.of_table ((floorStep_table (Floor.departed_keeps _ _ _ _ _)).trans (shareReleased_table _ _)))

theorem presenceBlock_mixKept (s : State) : MixKept F s (presenceBlock s) :=
  (MixKept.presence s _).trans (.foldl (fun t k => (peerAbsent_mixKept k t).settled) _ _)

theorem cadenceBlock_mixKept (s : State) : MixKept F s (cadenceBlock s) :=
  .ite (fun _ => .presence s _) (fun _ => (MixKept.presence s _).trans (.of_table (requestBeacon_table _)))

/-- R132: a block in which no second of the clock passes starts no meeting. -/
theorem clockBlock_mixKept {s : State} (quiet : F → s.calendar.clock.set = false ∨ s.calendar.clock.count < 249) :
    MixKept F s (clockBlock s) := by
  by_cases f : F
  · rcases quiet f with unset | within
    · rw [clockBlock_of_unset unset]
      exact .refl s
    · refine .ite (fun _ => ?_) (fun _ => .refl s)
      rw [if_pos (show s.calendar.clock.count + 1 < Config.blocksPerSecond from Nat.succ_lt_succ within)]
      exact .same rfl
  · have any : MixKept False s (clockBlock s) :=
      .ite (fun _ => .ite (fun _ => .same rfl) (fun _ => clockSecondPasses_mixKept s)) (fun _ => .refl s)
    exact { any with limiter := fun h => absurd h f }

theorem endedEarlyBlock_mixKept (s : State) : MixKept F s (endedEarlyBlock s) :=
  .ite (fun _ => .refl s) (fun _ => .ite (fun _ => .same rfl) (fun _ => .same rfl))

theorem askUnanswered_mixKept (s : State) : MixKept F s (askUnanswered s) := by
  unfold askUnanswered
  split
  · exact .same rfl
  · exact .refl s

theorem askBlock_mixKept (s : State) : MixKept F s (askBlock s) := by
  unfold askBlock
  split
  · exact .ite (fun _ => .same rfl) (fun _ => askUnanswered_mixKept s)
  · exact .refl s

theorem windowBlock_mixKept (s : State) : MixKept F s (windowBlock s) :=
  .ite (fun _ => .ite (fun _ => .same rfl) (fun _ => .same rfl)) (fun _ => .refl s)

theorem ageEntries_mixKept (s : State) : MixKept F s (ageEntries s) := .same rfl

theorem messageBlock_mixKept (s : State) : MixKept F s (messageBlock s) := .same rfl

/-! ## The clock before its own block -/

theorem peerAbsent_clock (k : Nat) (s : State) : (peerAbsent k s).calendar.clock = s.calendar.clock := by
  rw [peerAbsent, (shareReleased_table _ _).frame.clock, (floorStep_table (Floor.departed_keeps _ _ _ _ _)).frame.clock]

theorem presenceBlock_clock (s : State) : (presenceBlock s).calendar.clock = s.calendar.clock := by
  have absences (l : List Nat) (u : State) :
      (l.foldl (fun u k => settle (peerAbsent k u)) u).calendar.clock = u.calendar.clock := by
    induction l generalizing u with
    | nil => rfl
    | cons k rest ih => rw [List.foldl_cons, ih, settle_calendar, peerAbsent_clock]
  rw [presenceBlock_eq, absences]

theorem cadenceBlock_clock (s : State) : (cadenceBlock s).calendar.clock = s.calendar.clock := by
  unfold cadenceBlock
  split
  · rfl
  · rw [(requestBeacon_table _).frame.clock]

/-- R78 to R169: the counts of a block, and the limiter among them where no second of the clock passes. -/
theorem runningCounts_mixKept {s : State} (quiet : F → s.calendar.clock.set = false ∨ s.calendar.clock.count < 249) :
    MixKept F s (runningCounts s) := by
  have budget : MixKept F s (settle (budgetBlock s)) := .of_table (budgetBlock_table s).settled
  have presence := budget.trans (presenceBlock_mixKept _).settled
  have clock : (cadenceBlock (settle (presenceBlock (settle (budgetBlock s))))).calendar.clock = s.calendar.clock := by
    rw [cadenceBlock_clock, settle_calendar, presenceBlock_clock, settle_calendar, (budgetBlock_table s).frame.clock]
  have second := presence.trans ((cadenceBlock_mixKept _).trans (clockBlock_mixKept (by rw [clock]; exact quiet))).settled
  have entries := second.trans (ageEntries_mixKept _).settled
  have ask := entries.trans ((endedEarlyBlock_mixKept _).trans (askBlock_mixKept _)).settled
  exact (ask.trans (windowBlock_mixKept _).settled).trans (messageBlock_mixKept _)

/-! ## Buttons and capture -/

theorem tickLeds_mix (s : State) : (tickLeds s).mix = s.mix := by
  unfold tickLeds
  split <;> rfl

theorem micPressed_mixKept (s : State) : MixKept F s (micPressed s) :=
  .ite (fun _ => .of_table (takePress_table s)) (fun _ => .ite (fun _ => .same rfl) (fun _ => .refl s))

theorem buttonEvents_mixKept (m p h : ButtonEvent) (s : State) : MixKept F s (buttonEvents m p h s) := by
  have mic : MixKept F s (if m = .press then settle (micPressed s) else s) :=
    .ite (fun _ => (micPressed_mixKept s).settled) (fun _ => .refl s)
  have share (t : State) : MixKept F t (if h = .press then sharePressed t else t) :=
    .ite (fun _ => .of_table (sharePressed_table t)) (fun _ => .refl t)
  cases p with
  | none => exact mic.trans (share _)
  | press => exact (mic.trans (.of_table (priorityButton_table true _))).trans (share _)
  | release => exact (mic.trans (.of_table (priorityButton_table false _))).trans (share _)

theorem sampleButtons_mixKept (m p h : Bool) (s : State) : MixKept F s (sampleButtons m p h s) :=
  .ite (fun _ => (MixKept.controls s _).trans (buttonEvents_mixKept _ _ _ _)) (fun _ => .refl s)

theorem captureBlock_mixKept (xs : List Sample) (s : State) : MixKept F s (captureBlock xs s) := by
  cases capturing : s.capturing with
  | false =>
    unfold captureBlock
    rw [if_neg (by rw [capturing]; nofun)]
    exact .refl s
  | true =>
    rw [captureBlock_eq capturing]
    have judged : MixKept F s (judgeBlock xs s) := (MixKept.capture s _).trans (.capture _ _)
    have onset (p : Prop) [Decidable p] (u : State) : MixKept F u (if p then talkOnset u else u) :=
      .ite (fun _ => .of_table (talkOnset_table u)) (fun _ => .refl u)
    exact (judged.trans (onset _ _)).trans (.of_table ((buildVoice_table _).trans (silenceBlock_table _)))

end

/-- The state that a block's mix is computed over. -/
def beforeMix (xs : List Sample) (m p h : Bool) (s : State) : State :=
  settle (captureBlock xs (sampleButtons m p h (tickLeds (advanceBlock s))))

theorem beforeMix_mixKept {F : Prop} (xs : List Sample) (m p h : Bool) (s : State) : MixKept F s (beforeMix xs m p h s) := by
  have ticked : MixKept F s (tickLeds (advanceBlock s)) :=
    (MixKept.same (s := s) (t := advanceBlock s) rfl).trans (.same (tickLeds_mix _))
  exact ((ticked.trans (sampleButtons_mixKept m p h _)).trans (captureBlock_mixKept xs _)).settled

theorem beforeMix_captureKept (xs : List Sample) (m p h : Bool) (s : State) :
    (beforeMix xs m p h s).config = s.config ∧ (beforeMix xs m p h s).station = s.station := by
  have ticked : CaptureKept s (tickLeds (advanceBlock s)) :=
    CaptureKept.trans (t := advanceBlock s) ⟨rfl, rfl, rfl⟩ (tickLeds_captureKept _)
  have sampled := ticked.trans (sampleButtons_captureKept m p h _)
  generalize whole : sampleButtons m p h (tickLeds (advanceBlock s)) = u at *
  have taken : (captureBlock xs u).config = u.config ∧ (captureBlock xs u).station = u.station := by
    cases capturing : u.capturing with
    | false =>
      unfold captureBlock
      rw [if_neg (by rw [capturing]; nofun)]
      exact ⟨rfl, rfl⟩
    | true =>
      have judged := captureBlock_judged capturing xs
      have config : (judgeBlock xs u).config = u.config := by simp only [judgeBlock, trimBlock]
      have station : (judgeBlock xs u).station = u.station := by simp only [judgeBlock, trimBlock]
      exact ⟨judged.config.trans config, judged.station.trans station⟩
  rw [beforeMix, whole, settle_config, settle_station, taken.1, taken.2]
  exact ⟨sampled.config, sampled.station⟩

/-- R109 and R52: what follows the computed mix in the Mix Engine's block. -/
theorem staleReports_mixKept {F : Prop} (l : List Nat) (s : State) : MixKept F s (l.foldl (fun u k => staleReport k u) s) :=
  MixKept.foldl (fun t k => MixKept.of_table (staleReport_table k t)) l s

end Sys2Proof.Machine

namespace Sys2Proof.Machine

/-! SUPPORT. What stands before the mix of a block and what the Mix Engine's block leaves (R62, R105 to R109, R122 to R127). -/

/-! ## Numbers of a block's mix (R123, R124) -/

theorem sumBlocks_length (l : List (List Int)) : (sumBlocks l).length = 64 := by
  rcases List.eq_nil_or_concat l with rfl | ⟨front, last, rfl⟩
  · exact List.length_replicate
  · simp [sumBlocks, Config.blockSamples]

theorem clampSample_range (x : Int) : -32768 ≤ clampSample x ∧ clampSample x ≤ 32767 := by
  unfold clampSample
  split
  · omega
  · split <;> omega

/-- The sums of a block's mix (R121, R123). -/
def State.mixSums (s : State) : List Int :=
  sumBlocks (s.mix.slots.filterMap (fun x => x.yield.1.map (fun l => terms (s.sourceCoefficient x.seat) l)))

theorem mixBlock_mix (s : State) : (mixBlock s).mix = { s.mix with
    slots := s.mix.slots.map (fun x => x.yield.2), output := s.mixSums.map clampSample, speaker := s.mix.output,
    clipped := clippedCount s.mixSums, limitFlag := s.mix.limitFlag || decide (1 ≤ clippedCount s.mixSums),
    reduction := (limiterStep (clippedCount s.mixSums) s.mix.reduction s.mix.quiet).1,
    quiet := (limiterStep (clippedCount s.mixSums) s.mix.reduction s.mix.quiet).2 } := by
  have yields : (s.mix.slots.map (fun x => (x.seat, x.yield))).filterMap
      (fun p => p.2.1.map (fun l => terms (s.sourceCoefficient p.1) l)) =
        s.mix.slots.filterMap (fun x => x.yield.1.map (fun l => terms (s.sourceCoefficient x.seat) l)) := by
    rw [List.filterMap_map]
    rfl
  have after : (s.mix.slots.map (fun x => (x.seat, x.yield))).map (fun p => p.2.2) = s.mix.slots.map (fun x => x.yield.2) := by
    rw [List.map_map]
    rfl
  unfold mixBlock State.mixSums
  dsimp only
  rw [yields, after]

/-- R122 and R124: the output of a computed mix. -/
theorem mixBlock_output_range (s : State) : (mixBlock s).mix.output.length = 64 ∧
    (∀ x ∈ (mixBlock s).mix.output, -32768 ≤ x ∧ x ≤ 32767) ∧ (mixBlock s).mix.clipped ≤ 64 := by
  rw [mixBlock_mix]
  refine ⟨(List.length_map _).trans (sumBlocks_length _), fun x mem => ?_, ?_⟩
  · obtain ⟨y, _, rfl⟩ := List.mem_map.1 mem
    exact clampSample_range y
  · exact (List.length_filter_le _ _).trans (sumBlocks_length _).le

/-! ## The Mix Engine's block -/

theorem mixEngineBlock_of_door {s : State} (door : s.config.role = .door) : mixEngineBlock s = s :=
  if_neg fun h => (hasMix_iff s).1 h door

theorem mixEngineBlock_of_setup {s : State} (noDoor : s.config.role ≠ .door) (setup : s.station = .setup) :
    mixEngineBlock s = silentBlock s := (if_pos ((hasMix_iff s).2 noDoor)).trans (if_pos setup)

theorem mixEngineBlock_of_run {s : State} (noDoor : s.config.role ≠ .door) (run : s.station ≠ .setup) : mixEngineBlock s =
    (staleSeats (ageSlots (mixBlock s)).mix.slots).foldl (fun u k => staleReport k u) (ageSlots (mixBlock s)) :=
  (if_pos ((hasMix_iff s).2 noDoor)).trans (if_neg run)

theorem mixEngineBlock_mixKept {F : Prop} {s : State} (noDoor : s.config.role ≠ .door) (run : s.station ≠ .setup) :
    MixKept F (mixBlock s) (mixEngineBlock s) := by
  rw [mixEngineBlock_of_run noDoor run]
  have aged : MixKept F (mixBlock s) (ageSlots (mixBlock s)) := ⟨rfl, rfl, rfl, rfl, fun _ => ⟨rfl, rfl⟩⟩
  exact aged.trans (staleReports_mixKept _ _)

theorem mixEngineBlock_clock (s : State) : (mixEngineBlock s).calendar.clock = s.calendar.clock := by
  have reports (l : List Nat) (u : State) :
      (l.foldl (fun u k => staleReport k u) u).calendar.clock = u.calendar.clock := by
    induction l generalizing u with
    | nil => rfl
    | cons k rest ih => rw [List.foldl_cons, ih, (staleReport_table k u).frame.clock]
  unfold mixEngineBlock
  split
  · split
    · rfl
    · exact reports _ _
  · rfl

/-! ## The clock before the mix -/

theorem buttonEvents_clock (m p h : ButtonEvent) (s : State) : (buttonEvents m p h s).calendar.clock = s.calendar.clock := by
  have mic : (if m = .press then settle (micPressed s) else s).calendar.clock = s.calendar.clock := by
    split
    · rw [settle_calendar]
      unfold micPressed
      split
      · exact (takePress_table s).frame.clock
      · split <;> rfl
    · rfl
  have share (t : State) : (if h = .press then sharePressed t else t).calendar.clock = t.calendar.clock := by
    split
    · exact (sharePressed_table t).frame.clock
    · rfl
  unfold buttonEvents
  dsimp only
  rw [share]
  cases p with
  | none => exact mic
  | press => exact (priorityButton_table true _).frame.clock.trans mic
  | release => exact (priorityButton_table false _).frame.clock.trans mic

theorem captureBlock_clock (xs : List Sample) (s : State) : (captureBlock xs s).calendar.clock = s.calendar.clock := by
  cases capturing : s.capturing with
  | false =>
    unfold captureBlock
    rw [if_neg (by rw [capturing]; nofun)]
  | true =>
    have onset (p : Prop) [Decidable p] (u : State) : (if p then talkOnset u else u).calendar.clock = u.calendar.clock := by
      split
      · exact (talkOnset_table u).frame.clock
      · rfl
    rw [captureBlock_eq capturing, (silenceBlock_table _).frame.clock, (buildVoice_table _).frame.clock, onset]
    simp only [judgeBlock, trimBlock]

theorem beforeMix_clock (xs : List Sample) (m p h : Bool) (s : State) :
    (beforeMix xs m p h s).calendar.clock = s.calendar.clock := by
  have ticked : (tickLeds (advanceBlock s)).calendar.clock = s.calendar.clock := by
    unfold tickLeds
    split <;> rfl
  rw [beforeMix, settle_calendar, captureBlock_clock, ← ticked]
  unfold sampleButtons
  split
  · exact buttonEvents_clock _ _ _ _
  · rfl

/-! ## A block completion in RUN and in CLASH -/

theorem blockStep_eq (xs : List Sample) (m p h : Bool) (s : State) : blockStep xs m p h s =
    if s.station = .setup then mixEngineBlock (beforeMix xs m p h s) else runningCounts (mixEngineBlock (beforeMix xs m p h s)) := by
  have station : (mixEngineBlock (beforeMix xs m p h s)).station = s.station :=
    (mixEngineBlock_captureKept _).station.trans (beforeMix_captureKept xs m p h s).2
  rw [← station]
  rfl

/-- R122 to R127: what a block completion leaves of the mix is what its mix computed; the limiter as well, where no second
of the clock passes. -/
theorem blockStep_mixed {F : Prop} (xs : List Sample) (m p h : Bool) {s : State} (noDoor : s.config.role ≠ .door)
    (run : s.station ≠ .setup) (quiet : F → s.calendar.clock.set = false ∨ s.calendar.clock.count < 249) :
    MixKept F (mixBlock (beforeMix xs m p h s)) (settle (blockStep xs m p h s)) := by
  obtain ⟨config, station⟩ := beforeMix_captureKept xs m p h s
  rw [blockStep_eq, if_neg run]
  have engine := mixEngineBlock_mixKept (F := F) (s := beforeMix xs m p h s) (by rw [config]; exact noDoor) (by rw [station]; exact run)
  refine (engine.trans (runningCounts_mixKept fun f => ?_)).settled
  rw [mixEngineBlock_clock, beforeMix_clock]
  exact quiet f

/-- R122: at a DOOR station no mix is computed. -/
theorem blockStep_unmixed (xs : List Sample) (m p h : Bool) {s : State} (door : s.config.role = .door) :
    MixKept False s (settle (blockStep xs m p h s)) := by
  rw [blockStep_eq, mixEngineBlock_of_door ((congrArg (fun c => c.role) (beforeMix_captureKept xs m p h s).1).trans door)]
  have before := beforeMix_mixKept (F := False) xs m p h s
  exact (MixKept.ite (fun _ => before) (fun _ => before.trans (runningCounts_mixKept False.elim))).settled

/-! ## A block before which nothing opens or closes the own microphone -/

/-- What the gains of a mix read, and what can open or close the own microphone, is as it was. -/
structure Undisturbed (s t : State) : Prop where
  mix : t.mix = s.mix
  config : t.config = s.config
  station : t.station = s.station
  meeting : t.meeting = s.meeting
  openSet : t.floor.openSet = s.floor.openSet
  priority : t.floor.priority = s.floor.priority
  micState : t.mic.state = s.mic.state
  micClass : t.mic.cls = s.mic.cls

namespace Undisturbed

theorem refl (s : State) : Undisturbed s s := ⟨rfl, rfl, rfl, rfl, rfl, rfl, rfl, rfl⟩

theorem trans {s t u : State} (h : Undisturbed s t) (k : Undisturbed t u) : Undisturbed s u :=
  ⟨k.mix.trans h.mix, k.config.trans h.config, k.station.trans h.station, k.meeting.trans h.meeting,
    k.openSet.trans h.openSet, k.priority.trans h.priority, k.micState.trans h.micState, k.micClass.trans h.micClass⟩

theorem ite {s t u : State} {p : Prop} [Decidable p] (h : p → Undisturbed s t) (k : ¬ p → Undisturbed s u) :
    Undisturbed s (if p then t else u) := by
  split
  · exact h ‹_›
  · exact k ‹_›

theorem of_linkOnly {s t : State} (h : linkOnly s t) : Undisturbed s t := by
  unfold linkOnly at h
  rw [h]
  exact ⟨rfl, rfl, rfl, rfl, rfl, rfl, rfl, rfl⟩

theorem settled {s t : State} (h : Undisturbed s t) : Undisturbed s (settle t) :=
  h.trans ⟨settle_mix t, settle_config t, settle_station t, settle_meeting t, by rw [settle_floor], by rw [settle_floor],
    by rw [settle_mic], by rw [settle_mic]⟩

theorem controls (s : State) (c : Controls) : Undisturbed s { s with controls := c } := ⟨rfl, rfl, rfl, rfl, rfl, rfl, rfl, rfl⟩

theorem share (s : State) (h : Share) : Undisturbed s { s with share := h } := ⟨rfl, rfl, rfl, rfl, rfl, rfl, rfl, rfl⟩

theorem capture (s : State) (c : Capture) : Undisturbed s { s with capture := c } := ⟨rfl, rfl, rfl, rfl, rfl, rfl, rfl, rfl⟩

end Undisturbed

theorem releaseClaim_undisturbed (s : State) : Undisturbed s (releaseClaim s) := by
  have offered : Undisturbed s (offer (.unshare s.meetingId) s).1 := .of_linkOnly (offer_linkOnly _ s)
  unfold releaseClaim
  dsimp only
  split
  · exact offered
  · exact .ite (fun _ => offered.trans (.share _ _)) (fun _ => offered.trans (.share _ _))
  · exact offered.trans (.share _ _)

theorem makeClaim_undisturbed (n : Nat) (s : State) : Undisturbed s (makeClaim n s) := by
  have issued : Undisturbed s { s with floor := s.floor.issued } := ⟨rfl, rfl, rfl, rfl, rfl, rfl, rfl, rfl⟩
  exact (issued.trans (.of_linkOnly (offerFrame_linkOnly _ _))).trans (.share _ _)

theorem sharePressed_undisturbed (s : State) : Undisturbed s (sharePressed s) := by
  unfold sharePressed
  refine .ite (fun _ => ?_) (fun _ => .ite (fun _ => .refl s) (fun _ => releaseClaim_undisturbed s))
  split
  · exact .refl s
  · exact makeClaim_undisturbed _ s

theorem priorityButton_undisturbed (on : Bool) (s : State) : Undisturbed s (priorityButton on s) :=
  .ite (fun _ => .of_linkOnly (offerFrame_linkOnly _ s)) (fun _ => .refl s)

/-- R62: the events of a block but a press of the MIC button. -/
theorem buttonEvents_undisturbed (m p h : ButtonEvent) {s : State} (mic : Undisturbed s
    (if m = .press then settle (micPressed s) else s)) : Undisturbed s (buttonEvents m p h s) := by
  have share (t : State) : Undisturbed t (if h = .press then sharePressed t else t) :=
    .ite (fun _ => sharePressed_undisturbed t) (fun _ => .refl t)
  cases p with
  | none => exact mic.trans (share _)
  | press => exact (mic.trans (priorityButton_undisturbed true _)).trans (share _)
  | release => exact (mic.trans (priorityButton_undisturbed false _)).trans (share _)

/-- R64: a press that the table of presses does not take. -/
theorem micPressed_undisturbed {s : State} (untaken : s.pressTaken = false) : Undisturbed s (micPressed s) := by
  unfold micPressed
  rw [if_neg (by rw [untaken]; nofun)]
  exact .ite (fun _ => .controls s _) (fun _ => .refl s)

theorem tickLeds_undisturbed (s : State) : Undisturbed s (tickLeds s) := .ite (fun _ => .controls s _) (fun _ => .refl s)

theorem advanceBlock_undisturbed (s : State) : Undisturbed s (advanceBlock s) := ⟨rfl, rfl, rfl, rfl, rfl, rfl, rfl, rfl⟩

theorem sample_of_same {b : Button} {x : Bool} (h : x = b.pressed) : b.sample x = ({ b with difference := 0 }, .none) :=
  if_pos h

/-- Whether a MIC input or a talk onset of a block can act on the own microphone, or silence close it. -/
def MicQuiet (s : State) : Prop :=
  (s.mic.state = .open → s.mic.cls = some .chair) ∧
  (s.mic.state = .closed → s.meeting.profile.mode ≠ .voice ∨ s.meeting.state = .idle)

theorem MicQuiet.of_undisturbed {s t : State} (h : Undisturbed s t) (q : MicQuiet s) : MicQuiet t := by
  unfold MicQuiet
  rw [h.micState, h.micClass, h.meeting]
  exact q

theorem talkOnset_undisturbed {s : State} (q : MicQuiet s) : Undisturbed s (talkOnset s) := by
  unfold talkOnset
  split
  · exact ⟨rfl, rfl, rfl, rfl, rfl, rfl, rfl, rfl⟩
  next closed =>
    rw [if_neg]
    · exact .refl s
    · rintro ⟨taken, voice⟩
      exact (q.2 closed).elim (· voice) (pressTaken_iff.1 taken).2.2
  · exact .refl s

theorem buildVoice_undisturbed (s : State) : Undisturbed s (buildVoice s) :=
  .ite (fun _ => .of_linkOnly (placeVoice_linkOnly _ s)) (fun _ => .refl s)

theorem silenceBlock_of_micQuiet {s : State} (q : MicQuiet s) : silenceBlock s = s := by
  refine if_neg ?_
  rintro ⟨opened, delegate, _⟩
  rw [q.1 opened] at delegate
  cases delegate

theorem captureBlock_of_untaken {xs : List Sample} {s : State} (h : s.config.role ≠ .seat ∨ s.station ≠ .run) :
    captureBlock xs s = s := by
  refine if_neg ?_
  simp only [State.capturing, Bool.and_eq_true, decide_eq_true_eq]
  exact fun taken => h.elim (· taken.1) (· taken.2)

theorem captureBlock_undisturbed (xs : List Sample) {s : State} (q : MicQuiet s) : Undisturbed s (captureBlock xs s) := by
  cases capturing : s.capturing with
  | false =>
    unfold captureBlock
    rw [if_neg (by rw [capturing]; nofun)]
    exact .refl s
  | true =>
    rw [captureBlock_eq capturing]
    have judged : Undisturbed s (judgeBlock xs s) := (Undisturbed.capture s _).trans (.capture _ _)
    have onset (p : Prop) [Decidable p] : Undisturbed (judgeBlock xs s) (if p then talkOnset (judgeBlock xs s) else judgeBlock xs s) :=
      .ite (fun _ => talkOnset_undisturbed (q.of_undisturbed judged)) (fun _ => .refl _)
    have voiced := (judged.trans (onset (((trimBlock xs s).capture.detect
      (decide ((trimBlock xs s).config.threshold ≤ (trimBlock xs s).capture.lastPeak))).2 = .onset))).trans
        (buildVoice_undisturbed _)
    rw [silenceBlock_of_micQuiet (q.of_undisturbed voiced)]
    exact voiced

/-- R62 and R88: before the mix of a block nothing moves what the gains read, where the MIC input stays, no silence is
counted and no talk onset stands for a press. -/
theorem beforeMix_undisturbed (xs : List Sample) {m : Bool} (p h : Bool) {s : State} (input : m = s.controls.mic.pressed)
    (q : MicQuiet s) : Undisturbed s (beforeMix xs m p h s) := by
  have ticked := (advanceBlock_undisturbed s).trans (tickLeds_undisturbed _)
  have sameInput : m = (tickLeds (advanceBlock s)).controls.mic.pressed := by
    rw [input]
    unfold tickLeds
    split <;> rfl
  have sampled : Undisturbed (tickLeds (advanceBlock s)) (sampleButtons m p h (tickLeds (advanceBlock s))) := by
    refine .ite (fun _ => ?_) (fun _ => .refl _)
    refine (Undisturbed.controls _ _).trans (buttonEvents_undisturbed _ _ _ ?_)
    rw [sample_of_same sameInput]
    exact .refl _
  have before := ticked.trans sampled
  exact (before.trans (captureBlock_undisturbed xs (q.of_undisturbed before))).settled

/-- R62 and R88: in SETUP and at a DOOR or WALL station nothing moves before the mix of a block. -/
theorem beforeMix_undisturbed_of_idle (xs : List Sample) (m p h : Bool) {s : State}
    (idle : s.config.role ≠ .seat ∨ s.station = .setup) : Undisturbed s (beforeMix xs m p h s) := by
  have ticked := (advanceBlock_undisturbed s).trans (tickLeds_undisturbed _)
  have sampled : Undisturbed (tickLeds (advanceBlock s)) (sampleButtons m p h (tickLeds (advanceBlock s))) := by
    refine .ite (fun seat => ?_) (fun _ => .refl _)
    have setup : (tickLeds (advanceBlock s)).station = .setup :=
      ticked.station.trans (idle.resolve_left fun other => other (ticked.config ▸ seat))
    refine (Undisturbed.controls _ _).trans (buttonEvents_undisturbed _ _ _ (.ite (fun _ => ?_) (fun _ => .refl _)))
    refine (micPressed_undisturbed ?_).settled
    simp [State.pressTaken, setup]
  have before := ticked.trans sampled
  have untaken : (sampleButtons m p h (tickLeds (advanceBlock s))).config.role ≠ .seat ∨
      (sampleButtons m p h (tickLeds (advanceBlock s))).station ≠ .run := by
    rw [before.config, before.station]
    exact idle.imp_right fun setup => by rw [setup]; nofun
  rw [beforeMix, captureBlock_of_untaken untaken]
  exact before.settled

/-- The sums of a mix whose slots and gains are those of another state. -/
theorem Undisturbed.mixSums {s t : State} (h : Undisturbed s t) : t.mixSums = s.mixSums := by
  have own : t.ownSeat = s.ownSeat := by rw [State.ownSeat, State.ownSeat, h.config]
  have duck : t.duckApplies = s.duckApplies := by
    rw [State.duckApplies, State.duckApplies, h.config, own, Floor.isOpen_congr h.openSet]
  have muted (k : Nat) : t.priorityMuted k = s.priorityMuted k := by
    rw [State.priorityMuted, State.priorityMuted, h.priority, h.meeting]
  have near (k : Nat) : t.proximityApplies k = s.proximityApplies k := by
    rw [State.proximityApplies, State.proximityApplies, h.config, own]
  have coefficient (k : Nat) : t.sourceCoefficient k = s.sourceCoefficient k := by
    rw [State.sourceCoefficient, State.sourceCoefficient, duck, muted, near, h.mix, h.config]
  simp only [State.mixSums, h.mix, coefficient]

end Sys2Proof.Machine

namespace Sys2Proof.Machine

/-! A block completion: capture, mix and counts (R62, R88 to R95, R98, R122, R124). -/

/-! ## Trim and peak (R89, R90) -/

theorem block64_of_length {xs : List Sample} (h : xs.length = 64) : block64 xs = xs.map (fun x => x.toInt) := by
  refine List.ext_getElem (by simp [block64, Config.blockSamples, h]) fun i left right => ?_
  have inside : i < xs.length := by simpa using right
  simp [block64, inside]

theorem trimmed_eq {xs : List Sample} (h : xs.length = 64) (c : Nat) : (block64 xs).map (fun x => scale x c) =
    xs.map (fun x => (x.toInt * (c : Int) + 16384).fdiv 32768) := by
  rw [block64_of_length h, List.map_map]
  rfl

theorem peak_eq (l : List Int) : peak l = (l.map (fun x => x.natAbs)).foldl max 0 := by
  rw [peak, List.foldl_map]
  rfl

theorem judgeBlock_outgoing {xs : List Sample} {s : State} (h : xs.length = 64) :
    (judgeBlock xs s).capture.outgoing = xs.map (fun x => (x.toInt * (coefficient s.config.trim : Int) + 16384).fdiv 32768) ∧
    (judgeBlock xs s).capture.lastPeak = ((judgeBlock xs s).capture.outgoing.map (fun x => x.natAbs)).foldl max 0 := by
  rw [← peak_eq, ← trimmed_eq h, judgeBlock_capture, Capture.detect_fst]
  exact ⟨rfl, rfl⟩

/-! ## The parts of a block -/

theorem advanceBlock_captureKept (s : State) : CaptureKept s (advanceBlock s) := ⟨rfl, rfl, rfl⟩

/-- R88: where the Capture Path takes no block its samples and its peak stay. -/
theorem blockStep_uncaptured {s : State} (untaken : s.config.role ≠ .seat ∨ s.station ≠ .run) (xs : List Sample) (m p h : Bool) :
    CaptureKept s (blockStep xs m p h s) := by
  have sampled := ((advanceBlock_captureKept s).trans (tickLeds_captureKept _)).trans (sampleButtons_captureKept m p h _)
  have before : CaptureKept s (beforeMix xs m p h s) := by
    rw [beforeMix, captureBlock_of_untaken (by rw [sampled.config, sampled.station]; exact untaken)]
    exact sampled.settled
  rw [blockStep_eq]
  have mixed := before.trans (mixEngineBlock_captureKept _)
  exact .ite (fun _ => mixed) (fun _ => mixed.trans (runningCounts_captureKept _))

/-- R98: a block completion moves the block number on by one and nothing else moves it. -/
theorem blockStep_blockNumber (xs : List Sample) (m p h : Bool) (s : State) :
    (settle (blockStep xs m p h s)).blockNumber = (s.blockNumber + 1) % 65536 := by
  have taken := (((tickLeds_keeps (advanceBlock s)).trans (sampleButtons_keeps m p h _)).trans (captureBlock_keeps xs _)).settled
  have mixed := taken.trans (mixEngineBlock_keeps _)
  have whole : Keeps (advanceBlock s) (blockStep xs m p h s) := by
    rw [blockStep_eq]
    exact .ite (fun _ => mixed) (fun _ => mixed.trans (runningCounts_keeps _))
  exact whole.settled.evolves.same.blockNumber

theorem sampleButtons_of_role {s : State} (role : s.config.role ≠ .seat) (m p h : Bool) : sampleButtons m p h s = s := if_neg role

theorem tickLeds_of_role {s : State} (role : s.config.role ≠ .seat) : tickLeds s = s := if_neg role

/-- R62 and R88: at a DOOR or WALL station nothing but the block number moves before the mix. -/
theorem beforeMix_of_role {s : State} (role : s.config.role ≠ .seat) (xs : List Sample) (m p h : Bool) :
    beforeMix xs m p h s = settle (advanceBlock s) := by
  have same : (advanceBlock s).config.role ≠ .seat := role
  rw [beforeMix, tickLeds_of_role same, sampleButtons_of_role same, captureBlock_of_untaken (.inl same)]

/-- What follows a change does not read the mix. -/
theorem settle_silentBlock (s : State) : silentBlock (settle s) = settle (silentBlock s) := rfl

theorem blockStep_of_setup {s : State} (setup : s.station = .setup) (xs : List Sample) (m p h : Bool) :
    blockStep xs m p h s = mixEngineBlock (beforeMix xs m p h s) := by
  rw [blockStep_eq, if_pos setup]

theorem blockStep_setup_door {s : State} (setup : s.station = .setup) (door : s.config.role = .door) (xs : List Sample)
    (m p h : Bool) : settle (blockStep xs m p h s) = settle (advanceBlock s) := by
  have role : s.config.role ≠ .seat := by rw [door]; nofun
  rw [blockStep_of_setup setup, beforeMix_of_role role, mixEngineBlock_of_door (by rw [settle_config]; exact door), settle_settle]

theorem blockStep_setup_wall {s : State} (setup : s.station = .setup) (wall : s.config.role = .wall) (xs : List Sample)
    (m p h : Bool) : settle (blockStep xs m p h s) = settle (silentBlock (advanceBlock s)) := by
  have role : s.config.role ≠ .seat := by rw [wall]; nofun
  have noDoor : (settle (advanceBlock s)).config.role ≠ .door := by
    rw [settle_config, show (advanceBlock s).config.role = .wall from wall]; nofun
  rw [blockStep_of_setup setup, beforeMix_of_role role, mixEngineBlock_of_setup noDoor (by rw [settle_station]; exact setup),
    settle_silentBlock, settle_settle]

theorem blockStep_setup_seat {s : State} (setup : s.station = .setup) (seat : s.config.role = .seat) (xs : List Sample)
    (m p h : Bool) : (settle (blockStep xs m p h s)).mix =
      { s.mix with output := List.replicate 64 0, speaker := List.replicate 64 0 } := by
  have before := beforeMix_undisturbed_of_idle xs m p h (.inr setup)
  have noDoor : (beforeMix xs m p h s).config.role ≠ .door := by rw [before.config, seat]; nofun
  rw [settle_mix, blockStep_of_setup setup, mixEngineBlock_of_setup noDoor (by rw [before.station, setup]), silentBlock, before.mix]
  rfl

/-- R122 and R124: the loudspeaker's block of a SEAT or WALL station in RUN or CLASH. -/
theorem blockStep_output {s : State} (noDoor : s.config.role ≠ .door) (run : s.station ≠ .setup) (xs : List Sample)
    (m p h : Bool) {t : State} (next : t = settle (blockStep xs m p h s)) :
    t.mix.output.length = 64 ∧ (∀ x ∈ t.mix.output, -32768 ≤ x ∧ x ≤ 32767) ∧ t.mix.clipped ≤ 64 ∧
      t.mix.speaker = s.mix.output ∧ (t.mix.limitFlag = true ↔ s.mix.limitFlag = true ∨ 0 < t.mix.clipped) := by
  have mixed := blockStep_mixed (F := False) xs m p h noDoor run False.elim
  have before := beforeMix_mixKept (F := False) xs m p h s
  obtain ⟨length, range, clipped⟩ := mixBlock_output_range (beforeMix xs m p h s)
  rw [next, mixed.output, mixed.clipped, mixed.speaker, mixed.limitFlag]
  refine ⟨length, range, clipped, ?_, ?_⟩
  · rw [mixBlock_mix]
    exact before.output
  · rw [mixBlock_mix]
    simp only [Bool.or_eq_true, decide_eq_true_eq, before.limitFlag]
    exact Iff.rfl

/-! ## Buttons and onset -/

theorem sample_of_differing {b : Button} {x : Bool} (h : x ≠ b.pressed) :
    (b.difference < 4 → b.sample x = ({ b with difference := b.difference + 1 }, .none)) ∧
    (4 ≤ b.difference → b.sample x = ({ pressed := x, difference := 0 }, if x then .press else .release)) :=
  ⟨fun few => (if_neg h).trans (if_pos (Nat.succ_lt_succ few)),
    fun full => (if_neg h).trans (if_neg (Nat.not_lt.2 (Nat.succ_le_succ full)))⟩

theorem sampleButtons_of_seat {s : State} (seat : s.config.role = .seat) (m p h : Bool) : sampleButtons m p h s =
    buttonEvents (s.controls.mic.sample m).2 (s.controls.priority.sample p).2 (s.controls.share.sample h).2
      { s with controls := { s.controls with
        mic := (s.controls.mic.sample m).1, priority := (s.controls.priority.sample p).1,
        share := (s.controls.share.sample h).1 } } := if_pos seat

theorem buttonEvents_parts {m p h : ButtonEvent} {u v w : State} (mic : v = (if m = .press then settle (micPressed u) else u))
    (priority : w = (if p = .press then priorityButton true v else if p = .release then priorityButton false v else v)) :
    buttonEvents m p h u = (if h = .press then sharePressed w else w) := by
  subst mic priority
  cases p <;> rfl

theorem hasButtons_of_seat {s : State} (seat : s.config.role = .seat) : s.hasButtons = true := decide_eq_true seat

theorem talkOnset_of_open {s : State} (h : s.mic.state = .open) : talkOnset s = { s with mic := { s.mic with silence := 0 } } := by
  unfold talkOnset
  rw [h]

theorem talkOnset_of_voice {s : State} (h : s.mic.state = .closed) (taken : s.pressTaken = true)
    (voice : s.meeting.profile.mode = .voice) : talkOnset s = takePress s := by
  unfold talkOnset
  rw [h]
  exact if_pos ⟨taken, voice⟩

theorem talkOnset_of_other {s : State} (h : s.mic.state = .waiting ∨ s.mic.state = .opening ∨ (s.mic.state = .closed ∧
    (s.config.role ≠ .seat ∨ s.station ≠ .run ∨ s.meeting.state = .idle ∨ s.meeting.profile.mode ≠ .voice))) :
    talkOnset s = s := by
  unfold talkOnset
  rcases h with waiting | opening | ⟨closed, untaken⟩
  · rw [waiting]
  · rw [opening]
  · rw [closed]
    refine if_neg ?_
    rintro ⟨taken, voice⟩
    obtain ⟨seat, run, running⟩ := pressTaken_iff.1 taken
    exact untaken.elim (· seat) (·.elim (· run) (·.elim running (· voice)))

/-- R88 to R95: the Capture Path's block, part by part. -/
theorem captureBlock_parts {xs : List Sample} {out : List Int} {c : Capture} {s u : State} (seat : s.config.role = .seat)
    (run : s.station = .run) (length : xs.length = 64)
    (trimmed : out = xs.map (fun x => (x.toInt * (coefficient s.config.trim : Int) + 16384).fdiv 32768))
    (taken : c = { s.capture with outgoing := out, lastPeak := (out.map (fun x => x.natAbs)).foldl max 0 })
    (judged : u = { s with capture := (c.detect (decide (s.config.threshold ≤ c.lastPeak))).1 }) :
    captureBlock xs s = silenceBlock (buildVoice
      (if (c.detect (decide (s.config.threshold ≤ c.lastPeak))).2 = .onset then talkOnset u else u)) := by
  have capturing : s.capturing = true := by simp [State.capturing, seat, run]
  have trim : trimBlock xs s = { s with capture := c } := by
    rw [taken, ← peak_eq, trimmed, ← trimmed_eq length]
    rfl
  rw [captureBlock_eq capturing, judgeBlock, trim, judged]

/-- Settles O55. -/
theorem blockCompletionCapturesMixesAndCounts : Obligations.BlockCompletionCapturesMixesAndCounts := by
  refine ⟨?_, ?_, fun b x => ⟨sample_of_same, fun ne => (sample_of_differing ne).1, fun ne => (sample_of_differing ne).2⟩, ?_, ?_,
    fun m p h xs s => ⟨fun role => sampleButtons_of_role role m p h, captureBlock_of_untaken⟩,
    fun xs out c s u => captureBlock_parts, ?_, ?_⟩
  · intro xs m p h s
    refine ⟨_, exec_blockCompletion xs m p h s, blockStep_blockNumber xs m p h s,
      fun setup door => blockStep_setup_door setup door xs m p h, fun setup wall => blockStep_setup_wall setup wall xs m p h,
      fun setup seat => blockStep_setup_seat setup seat xs m p h, fun run seat length => ?_, fun untaken => ?_,
      fun noDoor run => blockStep_output noDoor run xs m p h rfl, fun door => ?_⟩
    · obtain ⟨u, before, after⟩ := blockStep_judged (s := s) (by simp [State.capturing, seat, run]) xs m p h
      obtain ⟨outgoing, lastPeak⟩ := judgeBlock_outgoing (xs := xs) (s := u) length
      rw [before.config] at outgoing
      rw [after.settled.capture]
      exact ⟨outgoing, lastPeak⟩
    · rw [(blockStep_uncaptured untaken xs m p h).settled.capture]
      exact ⟨rfl, rfl⟩
    · have kept := blockStep_unmixed xs m p h door
      exact ⟨kept.output, kept.speaker⟩
  · rintro xs m p h s _ rfl
    rw [exec_blockCompletion, blockStep_eq]
    rfl
  · rintro m p h s _ v w seat rfl mic priority
    rw [sampleButtons_of_seat seat]
    exact buttonEvents_parts mic priority
  · intro s seat
    refine ⟨congrArg Host.Outcome.next (if_pos (hasButtons_of_seat seat)), fun on => ?_,
      congrArg Host.Outcome.next (if_pos (hasButtons_of_seat seat))⟩
    rw [exec_priorityButton, if_pos seat]
  · intro s
    refine ⟨talkOnset_of_open, fun closed seat run running voice => ?_, talkOnset_of_other, fun off => ?_, fun on => if_pos on⟩
    · exact talkOnset_of_voice closed (pressTaken_iff.2 ⟨seat, run, running⟩) voice
    · exact if_neg (by rw [off]; nofun)
  · rintro s _ _ _ _ _ _ rfl rfl rfl rfl rfl rfl
    rfl

end Sys2Proof.Machine

namespace Sys2Proof.Machine

/-! The source slots and the mix arithmetic (R102 to R107, R109, R114, R117 to R127). -/

/-! ## The bound slot of a seat (R102) -/

theorem slotOf_of_bound {k : Nat} {l r : List Slot} {x : Slot} (bound : x.state ≠ .free) (seat : x.seat = k)
    (others : ∀ z ∈ l ++ r, z.state = .free ∨ z.seat ≠ k) : slotOf (l ++ x :: r) k = some x := by
  have before : l.find? (fun z => decide (z.state ≠ .free) && decide (z.seat = k)) = none := by
    refine List.find?_eq_none.2 fun z mem => ?_
    simpa [Classical.or_iff_not_imp_left] using others z (List.mem_append_left _ mem)
  rw [slotOf, List.find?_append, before, List.find?_cons_of_pos (by simp [bound, seat])]
  rfl

theorem slotOf_of_unbound {k : Nat} {l : List Slot} (others : ∀ z ∈ l, z.state = .free ∨ z.seat ≠ k) : slotOf l k = none := by
  refine List.find?_eq_none.2 fun z mem => ?_
  simpa [Classical.or_iff_not_imp_left] using others z mem

theorem put_of_bound {k : Nat} {l r : List Slot} {x : Slot} (bound : x.state ≠ .free) (seat : x.seat = k)
    (others : ∀ z ∈ l ++ r, z.state = .free ∨ z.seat ≠ k) (y : Slot) :
    (l ++ x :: r).map (fun z => if z.state ≠ .free ∧ z.seat = k then y else z) = l ++ y :: r := by
  have kept (m : List Slot) (sub : ∀ z ∈ m, z ∈ l ++ r) :
      m.map (fun z => if z.state ≠ .free ∧ z.seat = k then y else z) = m :=
    (List.map_congr_left fun z mem => if_neg fun ⟨taken, own⟩ => (others z (sub z mem)).elim taken (· own)).trans
      (List.map_id' m)
  rw [List.map_append, List.map_cons, kept l fun _ => List.mem_append_left _, kept r fun _ => List.mem_append_right _,
    if_pos ⟨bound, seat⟩]

theorem accepts_iff {x : Slot} {n : Nat} : x.accepts n = true ↔
    ∀ z : HeldBlock, x.fifo.getLast? = some z ∨ x.last = some z → newerBlock n z.block = true := by
  unfold Slot.accepts
  cases x.fifo.getLast? <;> cases x.last <;> simp [or_imp, forall_and]

/-- R102: a frame of a bound seat that is not newer is counted late. -/
theorem mixReceive_late {k : Nat} {h : HeldBlock} {s : State} {x : Slot} (noDoor : s.config.role ≠ .door)
    (slot : slotOf s.mix.slots k = some x) (late : x.accepts h.block = false) : mixReceive k h s = { s with mix := { s.mix with
      slots := s.mix.slots.map (fun z => if z.state ≠ .free ∧ z.seat = k then { x with stale := 0 } else z),
      lateBlocks := sat16 s.mix.lateBlocks } } := by
  unfold mixReceive
  rw [if_pos ((hasMix_iff s).2 noDoor), slot]
  exact if_neg (by rw [late]; nofun)

/-- R102 to R104: a frame of a bound seat that is newer. -/
theorem mixReceive_newer {k : Nat} {h : HeldBlock} {s t : State} {x : Slot} (noDoor : s.config.role ≠ .door)
    (slot : slotOf s.mix.slots k = some x) (newer : x.accepts h.block = true)
    (put : t = { s with mix := { s.mix with
      slots := s.mix.slots.map (fun z => if z.state ≠ .free ∧ z.seat = k then x.take h else z) } }) :
    mixReceive k h s = if x.fifo.length < 4 then t else if s.mix.overflowMark then t
      else notify (.jitterOverflow k) { t with mix := { t.mix with overflowMark := true } } := by
  subst put
  unfold mixReceive
  rw [if_pos ((hasMix_iff s).2 noDoor), slot]
  exact if_pos newer

theorem mixReceive_unbound {k : Nat} {h : HeldBlock} {s : State}
    (unbound : s.config.role = .door ∨ (∀ z ∈ s.mix.slots, z.state = .free ∨ z.seat ≠ k)) : mixReceive k h s = s := by
  unfold mixReceive
  by_cases door : s.config.role = .door
  · exact if_neg fun has => (hasMix_iff s).1 has door
  · rw [if_pos ((hasMix_iff s).2 door), slotOf_of_unbound (unbound.resolve_left door)]

theorem take_of_room {x : Slot} {h : HeldBlock} (room : x.fifo.length < 4) : x.take h = { x with
    fifo := x.fifo ++ [h], stale := 0, state := if x.state = .filling ∧ x.fifo.length = 1 then .playing else x.state } := by
  have whole : x.take h = _ := if_pos room
  rw [whole]
  simp [Config.prefillBlocks]

theorem take_of_full {x : Slot} {h : HeldBlock} (full : 4 ≤ x.fifo.length) :
    x.take h = { x with overflow := true, stale := 0 } := if_neg (Nat.not_lt.2 full)

/-! ## What a slot yields (R105 to R107) -/

theorem yield_of_silent {x : Slot} (h : x.state = .free ∨ x.state = .filling) : x.yield = (none, x) := by
  unfold Slot.yield
  rcases h with free | filling
  · rw [free]
  · rw [filling]

theorem yield_of_held {x : Slot} {h : HeldBlock} {rest : List HeldBlock} (state : x.state = .playing ∨ x.state = .concealing)
    (fifo : x.fifo = h :: rest) : x.yield = (some h.samples, { x with state := .playing, fifo := rest, last := some h }) := by
  unfold Slot.yield
  rcases state with playing | concealing
  · rw [playing, fifo]
  · rw [concealing, fifo]

theorem yield_of_repeated {x : Slot} {h : HeldBlock} (playing : x.state = .playing) (empty : x.fifo = []) (last : x.last = some h) :
    x.yield = (some (halved h.samples), { x with state := .concealing }) := by
  unfold Slot.yield
  rw [playing, empty, last]

theorem yield_of_spent {x : Slot} (concealing : x.state = .concealing) (empty : x.fifo = []) :
    x.yield = (none, { x with state := .filling }) := by
  unfold Slot.yield
  rw [concealing, empty]

/-- R106: each sample of the repetition is half of the block's, rounded down. -/
theorem halved_spec (l : List Int) : (halved l).length = l.length ∧
    ∀ (i : Nat) (a b : Int), l[i]? = some a → (halved l)[i]? = some b → 2 * b ≤ a ∧ a ≤ 2 * b + 1 := by
  refine ⟨List.length_map _, fun i a b at_ half => ?_⟩
  rw [halved, List.getElem?_map, at_] at half
  have value : a.fdiv 2 = b := Option.some.inj half
  rw [Int.fdiv_eq_ediv_of_nonneg _ (by decide)] at value
  omega

/-- 00_scope.md: a block number is newer than another by 1 to 32767, modulo 65536. -/
theorem newerBlock_iff {n r : Nat} (hn : n < 65536) (hr : r < 65536) :
    newerBlock n r = true ↔ ∃ d : Nat, 1 ≤ d ∧ d ≤ 32767 ∧ n = (r + d) % 65536 := by
  simp only [newerBlock, Bool.and_eq_true, decide_eq_true_eq]
  constructor
  · rintro ⟨low, high⟩
    exact ⟨(n + 65536 - r) % 65536, by omega, by omega, by omega⟩
  · rintro ⟨d, low, high, rfl⟩
    omega

/-- Settles O56. -/
theorem slotsHoldPlayAndConceal : Obligations.SlotsHoldPlayAndConceal := by
  refine ⟨?_, fun k h s => mixReceive_unbound, fun x => ⟨yield_of_silent, fun h rest => yield_of_held, fun h => yield_of_repeated,
    yield_of_spent⟩, halved_spec, ?_, fun n r => newerBlock_iff⟩
  · intro k h s u l r x put noDoor slots bound seat others puts
    have slot : slotOf s.mix.slots k = some x := by rw [slots]; exact slotOf_of_bound bound seat others
    have stored (y : Slot) : ({ s with mix := { s.mix with
        slots := s.mix.slots.map (fun z => if z.state ≠ .free ∧ z.seat = k then y else z) } } : State) = put y := by
      rw [puts, slots, put_of_bound bound seat others]
    refine ⟨fun ⟨z, held, notNewer⟩ => ?_, fun newer => ?_⟩
    · have late : x.accepts h.block = false := by
        rw [← Bool.not_eq_true, accepts_iff]
        intro all
        rw [all z held] at notNewer
        cases notNewer
      rw [mixReceive_late noDoor slot late, ← stored]
      rfl
    · have taken := mixReceive_newer noDoor slot (accepts_iff.2 newer) (stored (x.take h)).symm
      refine ⟨fun room => ?_, fun full next => ?_⟩
      · rw [taken, if_pos room, take_of_room room]
      · rw [taken, if_neg (Nat.not_lt.2 full), take_of_full full, ← next]
  · rintro s _ rfl
    exact ⟨mixEngineBlock_of_door, mixEngineBlock_of_setup, mixEngineBlock_of_run⟩

/-! ## Gains and terms (R114, R117 to R121) -/

theorem scale_bounds {x : Int} {c : Nat} (low : -32768 ≤ x) (high : x ≤ 32767) (small : c ≤ 32767) :
    scale x c * 32768 ≤ x * c + 16384 ∧ x * c + 16384 < (scale x c + 1) * 32768 ∧ -32767 ≤ scale x c ∧ scale x c ≤ 32766 := by
  have least : -32768 * 32767 ≤ x * c := by nlinarith
  have most : x * c ≤ 32767 * 32767 := by nlinarith
  rw [scale, Int.fdiv_eq_ediv_of_nonneg _ (by decide)]
  omega

theorem terms_muted (l : List Int) : terms 0 l = List.replicate l.length 0 := List.map_const'

theorem terms_scaled {c : Nat} (h : c ≠ 0) (l : List Int) : terms c l = l.map (fun x => scale x c) :=
  List.map_congr_left fun _ _ => if_neg h

/-- R114: each coefficient of Table 7-1 is 32768 × 10^(−g/20) rounded half up. -/
theorem coefficient_rounds {g : Nat} (low : 1 ≤ g) (high : g ≤ 62) :
    (2 * coefficient g - 1) ^ 20 * 10 ^ g ≤ 65536 ^ 20 ∧ 65536 ^ 20 < (2 * coefficient g + 1) ^ 20 * 10 ^ g := by
  have all : ∀ g ∈ List.range' 1 62, (2 * coefficient g - 1) ^ 20 * 10 ^ g ≤ 65536 ^ 20 ∧
      65536 ^ 20 < (2 * coefficient g + 1) ^ 20 * 10 ^ g := by decide +kernel
  exact all g (List.mem_range'_1.2 ⟨low, by omega⟩)

theorem coefficient_falls {g h : Nat} (le : g ≤ h) (high : h ≤ 63) : coefficient h ≤ coefficient g := by
  have step : ∀ h ∈ List.range 64, ∀ g ∈ List.range 64, g ≤ h → coefficient h ≤ coefficient g := by decide +kernel
  exact step h (List.mem_range.2 (by omega)) g (List.mem_range.2 (by omega)) le

theorem proximityApplies_iff {s : State} {k : Nat} : s.proximityApplies k = true ↔
    s.config.role = .seat ∧ 0 < s.config.span ∧ k ≤ s.config.seat + s.config.span ∧ s.config.seat ≤ k + s.config.span := by
  simp only [State.proximityApplies, Bool.and_eq_true, decide_eq_true_eq, and_assoc]
  refine and_congr_right fun _ => and_congr_right fun _ => ?_
  rw [show s.config.seat = s.ownSeat from rfl]
  split <;> omega

theorem duckApplies_iff {s : State} : s.duckApplies = true ↔ s.config.role = .seat ∧ s.floor.isOpen s.config.seat = true := by
  simp [State.duckApplies, State.ownSeat]

theorem priorityMuted_iff {s : State} {k : Nat} : s.priorityMuted k = true ↔ s.floor.priority = true ∧ k ≠ s.meeting.chair := by
  simp [State.priorityMuted]

/-- R120: the coefficient of a source by the four components of its gain. -/
theorem sourceCoefficient_eq {s : State} {k a d : Nat}
    (near : a = if s.proximityApplies k = true then s.config.attenuation else 0)
    (duck : d = if s.duckApplies = true then s.config.duck else 0) : s.sourceCoefficient k =
      if s.mix.volume = 63 ∨ d = 63 ∨ s.priorityMuted k = true then 0
      else coefficient (min 62 (s.mix.volume + s.mix.reduction + a + d)) := by
  have ducked : d = 63 ↔ s.duckApplies = true ∧ s.config.duck = 63 := by
    rw [duck]
    by_cases applies : s.duckApplies = true <;> simp [applies]
  rw [State.sourceCoefficient, ← near, ← duck]
  exact if_congr (by rw [ducked]) rfl rfl

/-! ## Sum, clamp and limiter (R122 to R127) -/

theorem sumBlocks_from (l : List (List Int)) (acc : List Int) (whole : acc = (List.range 64).map (fun i => acc.getD i 0)) :
    l.foldl (fun acc b => (List.range Config.blockSamples).map (fun i => acc.getD i 0 + b.getD i 0)) acc =
      (List.range 64).map (fun i => acc.getD i 0 + (l.map (fun b => b.getD i 0)).sum) := by
  induction l generalizing acc with
  | nil => simpa using whole
  | cons b rest ih =>
    have read {i : Nat} (h : i < 64) (f : Nat → Int) : ((List.range 64).map f).getD i 0 = f i := by simp [h]
    rw [List.foldl_cons, ih]
    · refine List.map_congr_left fun i mem => ?_
      rw [show Config.blockSamples = 64 from rfl, read (List.mem_range.1 mem), List.map_cons, List.sum_cons, Int.add_assoc]
    · refine List.map_congr_left fun i mem => ?_
      exact (read (List.mem_range.1 mem) (fun i => acc.getD i 0 + b.getD i 0)).symm

theorem sumBlocks_eq (l : List (List Int)) : sumBlocks l = (List.range 64).map (fun i => (l.map (fun b => b.getD i 0)).sum) := by
  have zero : ∀ i, zeroBlock.getD i 0 = 0 := fun i => by
    rw [zeroBlock, List.getD_eq_getElem?_getD, List.getElem?_replicate]
    split <;> rfl
  rw [sumBlocks, sumBlocks_from l zeroBlock (by simp only [zero]; rfl)]
  simp only [zero, Int.zero_add]

theorem clampSample_eq (x : Int) : clampSample x = max (-32768) (min 32767 x) := by
  unfold clampSample
  split
  · omega
  · split <;> omega

theorem clippedCount_eq (l : List Int) : clippedCount l = (l.filter (fun x => decide (x < -32768 ∨ 32767 < x))).length := by
  unfold clippedCount
  refine congrArg List.length (List.filter_congr fun x _ => ?_)
  rw [← Bool.decide_or, decide_eq_decide]
  omega

theorem limiterStep_heavy {n : Nat} (h : 8 ≤ n) (r quiet : Nat) : limiterStep n r quiet = (min 12 (r + 1), 0) := if_pos h

theorem limiterStep_light {n : Nat} (low : 1 ≤ n) (high : n ≤ 7) (r quiet : Nat) : limiterStep n r quiet = (r, 0) :=
  (if_neg (Nat.not_le.2 (Nat.lt_succ_of_le high))).trans (if_pos low)

theorem limiterStep_quiet {quiet : Nat} (h : quiet < 499) (r : Nat) : limiterStep 0 r quiet = (r, quiet + 1) :=
  if_neg (Nat.not_le.2 (Nat.succ_lt_succ h))

theorem limiterStep_recovers (r : Nat) : limiterStep 0 r 499 = (r - 1, 0) := rfl

theorem limiter_counts (r : Nat) {n : Nat} (h : n < 500) :
    Nat.repeat (fun p : Nat × Nat => limiterStep 0 p.1 p.2) n (r, 0) = (r, n) := by
  induction n with
  | zero => rfl
  | succ n ih =>
    rw [Nat.repeat, ih (by omega)]
    exact limiterStep_quiet (by omega) r

theorem repeat_add {α : Type} (f : α → α) (m n : Nat) (a : α) : Nat.repeat f (m + n) a = Nat.repeat f m (Nat.repeat f n a) := by
  induction m with
  | zero => rw [Nat.zero_add]; rfl
  | succ m ih => rw [Nat.succ_add, Nat.repeat, ih]; rfl

/-- R127: every 500 quiet blocks take one decibel away. -/
theorem limiter_recovers (r n : Nat) :
    Nat.repeat (fun p : Nat × Nat => limiterStep 0 p.1 p.2) (500 * n) (r, 0) = (r - n, 0) := by
  induction n with
  | zero => rfl
  | succ n ih =>
    rw [Nat.mul_succ, Nat.add_comm, repeat_add, ih, show 500 = 499 + 1 from rfl, Nat.repeat, limiter_counts _ (by omega)]
    exact (limiterStep_recovers _).trans (by rw [Nat.sub_sub])

theorem mixBlock_eq (s : State) : mixBlock s = { s with mix := (mixBlock s).mix } := rfl

/-- R126 and R127: a block completion passes its clipped count through the limiter. -/
theorem blockStep_limiter (xs : List Sample) (m p h : Bool) {s t : State} (noDoor : s.config.role ≠ .door)
    (run : s.station ≠ .setup) (quiet : s.calendar.clock.set = false ∨ s.calendar.clock.count < 249)
    (next : t = settle (blockStep xs m p h s)) :
    (t.mix.reduction, t.mix.quiet) = limiterStep t.mix.clipped s.mix.reduction s.mix.quiet := by
  have mixed := blockStep_mixed (F := True) xs m p h noDoor run fun _ => quiet
  obtain ⟨reduction, quietCount⟩ := (beforeMix_mixKept (F := True) xs m p h s).limiter trivial
  obtain ⟨after, afterQuiet⟩ := mixed.limiter trivial
  rw [next, after, afterQuiet, mixed.clipped, mixBlock_mix, ← reduction, ← quietCount]

/-- R122 and R123: the output of a block before whose mix nothing moves the gains. -/
theorem blockStep_sums (xs : List Sample) (m p h : Bool) {s : State} (noDoor : s.config.role ≠ .door)
    (run : s.station ≠ .setup) (before : Undisturbed s (beforeMix xs m p h s)) :
    (settle (blockStep xs m p h s)).mix.output = s.mixSums.map clampSample := by
  have mixed := blockStep_mixed (F := False) xs m p h noDoor run False.elim
  rw [mixed.output, mixBlock_mix, before.mixSums]

/-- Settles O58. -/
theorem termsRoundHalfUpAndTheLimiterSteps : Obligations.TermsRoundHalfUpAndTheLimiterSteps := by
  refine ⟨fun x c => scale_bounds, ?_, ?_, sumBlocks_eq, clampSample_eq, ?_, fun r n _ => limiter_recovers r n, ?_, ?_, ?_⟩
  · rintro c l
    exact ⟨fun zero => zero ▸ terms_muted l, fun some => terms_scaled some l⟩
  · exact ⟨rfl, rfl, rfl, rfl, rfl, rfl, fun g => coefficient_rounds, fun g h => coefficient_falls⟩
  · rintro clipped r quiet _ _
    exact ⟨fun heavy => limiterStep_heavy heavy r quiet, fun low high => limiterStep_light low high r quiet,
      fun few => limiterStep_quiet few r, fun last => last ▸ limiterStep_recovers r⟩
  · rintro s k a d near duck
    have whole := sourceCoefficient_eq (k := k) (near.trans (if_congr proximityApplies_iff.symm rfl rfl))
      (duck.trans (if_congr duckApplies_iff.symm rfl rfl))
    refine ⟨fun muted => whole.trans (if_pos ?_), fun volume ducked heardThrough => whole.trans (if_neg ?_)⟩
    · rw [priorityMuted_iff]
      exact muted
    · rw [priorityMuted_iff]
      rintro (full | full | ⟨on, other⟩)
      · exact volume full
      · exact ducked full
      · exact heardThrough.elim (fun off => by rw [off] at on; cases on) other
  · rintro s l _ _ rfl rfl rfl
    rw [mixBlock_eq, mixBlock_mix, ← sumBlocks_eq, ← clippedCount_eq]
    simp only [← clampSample_eq]
    rfl
  · intro xs m p h s noDoor run
    refine ⟨_, exec_blockCompletion xs m p h s, fun quiet => blockStep_limiter xs m p h noDoor run quiet rfl, fun still => ?_⟩
    refine blockStep_sums xs m p h noDoor run ?_
    rcases still with wall | ⟨input, open_, closed⟩
    · exact beforeMix_undisturbed_of_idle xs m p h (.inl (by rw [wall]; nofun))
    · exact beforeMix_undisturbed xs p h input ⟨open_, closed⟩

end Sys2Proof.Machine

namespace Sys2Proof.Machine

/-! The counts of a station and the events at their ends (R62, R63, R91, R127, R143, R149, R159, R165, R168, R169). -/

/-! ## Lamps (R63) -/

theorem tick_of_steady {l : LedState} (h : l.pattern = .off ∨ l.pattern = .on) : l.tick = l := by
  refine if_pos ?_
  rcases h with off | on
  · rw [off]; rfl
  · rw [on]; rfl

/-- R63: the blocks of a phase of a blinking pattern. -/
theorem phase_of_blink {p : LedPattern} {n : Nat} (blocks : n = if p = .slowBlink then 250 else 50)
    (blink : p = .slowBlink ∨ p = .fastBlink) : p.phase = n ∧ 0 < n := by
  subst blocks
  rcases blink with rfl | rfl
  · exact ⟨rfl, by decide⟩
  · exact ⟨rfl, by decide⟩

theorem tick_of_blink {l : LedState} {n : Nat} (phase : l.pattern.phase = n) (some : 0 < n) :
    (l.phaseCount + 1 < n → l.tick = { l with phaseCount := l.phaseCount + 1 }) ∧
    (n ≤ l.phaseCount + 1 → l.tick = { l with onPhase := !l.onPhase, phaseCount := 0 }) := by
  subst phase
  have blinks : l.tick = if l.phaseCount + 1 < l.pattern.phase then { l with phaseCount := l.phaseCount + 1 } else l.toggle :=
    if_neg (Nat.ne_of_gt some)
  rw [blinks]
  exact ⟨fun within => if_pos within, fun full => if_neg (Nat.not_lt.2 full)⟩

theorem phaseEnds_of_blink {l : LedState} (blink : l.pattern = .slowBlink ∨ l.pattern = .fastBlink) :
    l.phaseEnds = { l with onPhase := !l.onPhase, phaseCount := 0 } :=
  if_neg (by rw [(phase_of_blink rfl blink).1]; exact Nat.ne_of_gt (phase_of_blink rfl blink).2)

theorem lit_iff {l : LedState} : l.lit = true ↔ l.pattern = .on ∨ (l.pattern ≠ .off ∧ l.onPhase = true) := by
  unfold LedState.lit
  cases l.pattern <;> simp

/-! ## The commands at the ends of counts -/

section
variable {s : State}

theorem exec_talkEnd (seat : s.config.role = .seat) (run : s.station = .run) (talking : s.capture.talking = true) :
    exec .talkEnd s = .next { s with capture := { s.capture with talking := false, hangover := 0 } } :=
  congrArg Host.Outcome.next (if_pos ⟨by simp [State.capturing, seat, run], talking⟩)

theorem exec_limiterRecovery (noDoor : s.config.role ≠ .door) (run : s.station ≠ .setup) :
    exec .limiterRecovery s = .next { s with mix := { s.mix with reduction := s.mix.reduction - 1, quiet := 0 } } :=
  congrArg Host.Outcome.next (if_pos ⟨(hasMix_iff s).2 noDoor, counting_of_run run⟩)

/-- R143: a HEARD entry that is not active ages out. -/
theorem exec_entryAgedOut {holder serial : Nat} {id : Bid} {e : Entry} (run : s.station ≠ .setup)
    (named : id = { holder := holder, serial := serial }) (mem : e ∈ s.calendar.view) (same : e.wire.id = id)
    (heard : e.held = false) (inactive : e.active = false) : exec (.entryAgedOut holder serial) s = .next (settle
      { s with calendar := { s.calendar with view := s.calendar.view.filter (fun x => decide (x.wire.id ≠ id)) } }) := by
  subst named
  have ages : viewAges s.calendar.view { holder := holder, serial := serial } = true :=
    List.any_eq_true.2 ⟨e, mem, by simp [heard, inactive, same]⟩
  exact congrArg Host.Outcome.next (if_pos ⟨counting_of_run run, ages⟩)

theorem askUnanswered_of_some {a : ExtensionAsk} (ask : s.calendar.ask = some a) : askUnanswered s =
    showTransient (text "Extension: no answer")
      (notify (.extendResult a.id .noAnswer 0) { s with calendar := { s.calendar with ask := none } }) := by
  unfold askUnanswered
  rw [ask]
  rfl

theorem exec_extendTimeout {a : ExtensionAsk} (run : s.station ≠ .setup) (ask : s.calendar.ask = some a) :
    exec .extendTimeout s = .next (settle (askUnanswered s)) :=
  congrArg Host.Outcome.next (if_pos ⟨counting_of_run run, by rw [ask]; nofun⟩)

theorem exec_endedEarlyExpiry (run : s.station ≠ .setup) : exec .endedEarlyExpiry s = .next (dropEndedEarly s) :=
  congrArg Host.Outcome.next (if_pos (counting_of_run run))

theorem exec_ledBlinkPhase_ring (blink : s.controls.ring.pattern = .slowBlink ∨ s.controls.ring.pattern = .fastBlink) :
    exec (.ledBlinkPhase .ring) s = .next { s with controls := { s.controls with
      ring := { s.controls.ring with onPhase := !s.controls.ring.onPhase, phaseCount := 0 } } } := by
  rw [← phaseEnds_of_blink blink]
  rfl

theorem exec_ledBlinkPhase_request (blink : s.controls.request.pattern = .slowBlink ∨ s.controls.request.pattern = .fastBlink) :
    exec (.ledBlinkPhase .request) s = .next { s with controls := { s.controls with
      request := { s.controls.request with onPhase := !s.controls.request.onPhase, phaseCount := 0 } } } := by
  rw [← phaseEnds_of_blink blink]
  rfl

theorem exec_queueWindowAdvance (run : s.station ≠ .setup) (running : s.meeting.state ≠ .idle) :
    exec .queueWindowAdvance s = .next (settle (advanceWindow s)) :=
  congrArg Host.Outcome.next (if_pos ⟨counting_of_run run, inMeeting_iff.2 running⟩)

/-! ## Messages and the display (R165, R169) -/

theorem exec_showMessage (msg : List Byte) (n : BitVec 16) (taken : RunTaken s) : exec (.showMessage msg n) s = .next
    (if 24 < msg.length then s.answered .badParam
     else settle { s.answered .ok with screen := { s.screen with host := hostMessage msg n.toNat } }) :=
  congrArg Host.Outcome.next (runGroup_of_taken taken _)

theorem exec_displayTransferComplete (running : s.screen.running = true) :
    exec .displayTransferComplete s = .next (startTransfer (completeTransfer s)) :=
  congrArg Host.Outcome.next (if_pos running)

theorem nextTransfer_of_clean (clean : s.screen.dirty = false) :
    startTransfer (completeTransfer s) = { s with screen := { s.screen with running := false } } := by
  simp [startTransfer, completeTransfer, Screen.start, clean]

theorem nextTransfer_of_dirty (running : s.screen.running = true) (dirty : s.screen.dirty = true) :
    startTransfer (completeTransfer s) = { s with screen := { s.screen with dirty := false, sent := s.screen.buffer } } := by
  simp [startTransfer, completeTransfer, Screen.start, dirty, ← running]

/-! ## A block of each count -/

theorem ageEntries_eq {aged : List Entry}
    (h : aged = s.calendar.view.map (fun e => if e.held = true ∨ e.active = true then e else { e with age := e.age + 1 })) :
    ageEntries s = { s with calendar := { s.calendar with
      view := aged.filter (fun e => e.held || e.active || decide (e.age < 15000)) } } := by
  have same : s.calendar.view.map (fun e => if e.held || e.active then e else { e with age := e.age + 1 }) = aged := by
    rw [h]
    exact List.map_congr_left fun e _ => if_congr (Bool.or_eq_true _ _ ▸ Iff.rfl) rfl rfl
  rw [ageEntries, same]
  rfl

theorem askBlock_of_none (none : s.calendar.ask = none) : askBlock s = s := by
  unfold askBlock
  rw [none]

theorem askBlock_of_lt {a : ExtensionAsk} (ask : s.calendar.ask = some a) (few : a.timer < 749) :
    askBlock s = { s with calendar := { s.calendar with ask := some { a with timer := a.timer + 1 } } } := by
  unfold askBlock
  rw [ask]
  exact if_pos (Nat.succ_lt_succ few)

theorem askBlock_of_le {a : ExtensionAsk} (ask : s.calendar.ask = some a) (full : 749 ≤ a.timer) :
    askBlock s = askUnanswered s := by
  unfold askBlock
  rw [ask]
  exact if_neg (Nat.not_lt.2 (Nat.succ_le_succ full))

theorem endedEarlyBlock_of_lt (some : s.meeting.endedEarly ≠ none) (few : s.meeting.endedEarlyAge < 14999) :
    endedEarlyBlock s = { s with meeting := { s.meeting with endedEarlyAge := s.meeting.endedEarlyAge + 1 } } :=
  (if_neg some).trans (if_pos (Nat.succ_lt_succ few))

theorem endedEarlyBlock_of_le (some : s.meeting.endedEarly ≠ none) (full : 14999 ≤ s.meeting.endedEarlyAge) :
    endedEarlyBlock s = dropEndedEarly s :=
  (if_neg some).trans (if_neg (Nat.not_lt.2 (Nat.succ_le_succ full)))

theorem windowBlock_of_idle (idle : s.meeting.state = .idle) : windowBlock s = s :=
  if_neg fun running => inMeeting_iff.1 running idle

theorem windowBlock_of_lt (running : s.meeting.state ≠ .idle) (few : s.screen.windowCount < 499) :
    windowBlock s = { s with screen := { s.screen with windowCount := s.screen.windowCount + 1 } } :=
  (if_pos (inMeeting_iff.2 running)).trans (if_pos (Nat.succ_lt_succ few))

theorem windowBlock_of_le (running : s.meeting.state ≠ .idle) (full : 499 ≤ s.screen.windowCount) :
    windowBlock s = advanceWindow s :=
  (if_pos (inMeeting_iff.2 running)).trans (if_neg (Nat.not_lt.2 (Nat.succ_le_succ full)))

end

/-- Settles O60. -/
theorem controlsMessagesDisplayAndCountsMoveOn : Obligations.ControlsMessagesDisplayAndCountsMoveOn := by
  intro s
  refine ⟨exec_talkEnd, exec_limiterRecovery, fun run => ⟨fun holder serial id e => exec_entryAgedOut run, fun a ask => ?_,
      exec_endedEarlyExpiry run⟩, fun seat => ?_, rfl, exec_ledBlinkPhase_ring, exec_ledBlinkPhase_request, fun msg n taken => ?_,
    fun run => ?_, fun running => ?_, tickLeds_of_role, fun seat => if_pos seat,
    fun l n blocks => ⟨tick_of_steady, fun blink => tick_of_blink (phase_of_blink blocks blink).1 (phase_of_blink blocks blink).2⟩,
    ?_, ?_, fun aged => ageEntries_eq, askBlock_of_none, fun a ask => ⟨askBlock_of_lt ask, fun full run => ?_⟩,
    fun none => if_pos none, fun some => ⟨endedEarlyBlock_of_lt some, fun full run => ?_⟩, windowBlock_of_idle,
    fun running => ⟨windowBlock_of_lt running, fun full run => ?_⟩⟩
  · rw [exec_extendTimeout run ask, askUnanswered_of_some ask]
  · exact ⟨congrArg Host.Outcome.next (if_pos (hasButtons_of_seat seat)), congrArg Host.Outcome.next (if_pos (hasButtons_of_seat seat))⟩
  · rw [exec_showMessage msg n taken]
    refine ⟨fun long => congrArg Host.Outcome.next (if_pos long), fun some fits => ?_, fun empty => ?_⟩
    · have shown : hostMessage msg n.toNat = { text := msg, lifetime := max 1 (min n.toNat 600) * 250 } := by
        rw [hostMessage, if_neg (by rwa [List.isEmpty_iff])]
        simp only [clampNat, Config.blocksPerSecond, Nat.min_comm 600]
      rw [if_neg (Nat.not_lt.2 fits), shown]
    · rw [empty]
      rfl
  · refine ⟨congrArg Host.Outcome.next (if_pos (counting_of_run run)), congrArg Host.Outcome.next (if_pos (counting_of_run run)),
      fun k running start => ?_⟩
    rw [exec_queueWindowAdvance run running, start]
    rfl
  · rw [exec_displayTransferComplete running]
    exact ⟨fun clean => congrArg Host.Outcome.next (nextTransfer_of_clean clean),
      fun dirty => congrArg Host.Outcome.next (nextTransfer_of_dirty running dirty)⟩
  · simp only [State.ringLit, Bool.and_eq_true, Bool.or_eq_true, decide_eq_true_eq, lit_iff]
  · simp only [State.requestLit, Bool.and_eq_true, decide_eq_true_eq, lit_iff]
  · rw [exec_extendTimeout run ask, askBlock_of_le ask full]
  · rw [exec_endedEarlyExpiry run, endedEarlyBlock_of_le some full]
  · rw [exec_queueWindowAdvance run running, windowBlock_of_le running full]

end Sys2Proof.Machine

namespace Sys2Proof.Machine

/-! ## Numbers as bytes (R2) -/

theorem byte_toNat {n : Nat} (fits : n ≤ 255) : (byte n).toNat = n :=
  (BitVec.toNat_ofNat n 8).trans (Nat.mod_eq_of_lt (by omega))

theorem byte_of_toNat (b : Byte) : byte b.toNat = b := by simp [byte]

theorem nat2_be2 {n : Nat} (fits : n ≤ 65535) : nat2 (byte (n / 256)) (byte n) = n := by
  simp only [nat2, byte, BitVec.toNat_ofNat]
  omega

theorem nat4_be4 {n : Nat} (fits : n ≤ 4294967295) :
    nat4 (byte (n / 16777216)) (byte (n / 65536)) (byte (n / 256)) (byte n) = n := by
  simp only [nat4, byte, BitVec.toNat_ofNat]
  omega

theorem nat2_le (a b : Byte) : nat2 a b ≤ 65535 := by
  simp only [nat2]
  have := a.isLt
  have := b.isLt
  omega

theorem nat4_le (a b c d : Byte) : nat4 a b c d ≤ 4294967295 := by
  simp only [nat4]
  have := a.isLt
  have := b.isLt
  have := c.isLt
  have := d.isLt
  omega

theorem byte_eq_iff {n : Nat} {b : Byte} : byte n = b ↔ n % 256 = b.toNat := by
  rw [← BitVec.toNat_inj]
  exact Eq.congr_left (BitVec.toNat_ofNat n 8)

theorem be2_nat2 (a b : Byte) : be2 (nat2 a b) = [a, b] := by
  have := a.isLt
  have := b.isLt
  simp only [be2, nat2, List.cons.injEq, byte_eq_iff, and_true]
  omega

theorem be4_nat4 (a b c d : Byte) : be4 (nat4 a b c d) = [a, b, c, d] := by
  have := a.isLt
  have := b.isLt
  have := c.isLt
  have := d.isLt
  simp only [be4, nat4, List.cons.injEq, byte_eq_iff, and_true]
  omega

end Sys2Proof.Machine

namespace Sys2Proof.HostFrame

open Sys2Proof.Machine

/-! ## Host commands as bytes (Tables 11-1, 11-2 and 11-4) -/

theorem word2_bytes2 (w : BitVec 16) : word2 (byte (w.toNat / 256)) (byte w.toNat) = w := by
  rw [word2, nat2_be2 (Nat.le_of_lt_succ w.isLt)]
  simp

theorem word4_bytes4 (w : BitVec 32) :
    word4 (byte (w.toNat / 16777216)) (byte (w.toNat / 65536)) (byte (w.toNat / 256)) (byte w.toNat) = w := by
  rw [word4, nat4_be4 (Nat.le_of_lt_succ w.isLt)]
  simp

theorem splitText_append {t : List Byte} (fits : t.length ≤ 255) (r : List Byte) :
    splitText (byte t.length) (t ++ r) = some (t, r) := by
  rw [splitText, byte_toNat fits, if_pos (by simp), List.take_left, List.drop_left]

theorem splitText_self {t : List Byte} (fits : t.length ≤ 255) : splitText (byte t.length) t = some (t, []) := by
  simpa using splitText_append fits []

section

variable {code : Byte} {p : List Byte} {c : Instr}

theorem decode_frame (fits : p.length ≤ 255) (reads : command code p = some c) : decode (frame code p) = c := by
  simp only [decode, frame, List.cons_append, List.nil_append, byte_toNat fits, if_true, reads]

/-- Table 11-4: the parameters of a well-formed host command have a length of one byte and are read back from their
bytes, which the row of its code in Table 11-2 does. -/
theorem command_parameters (wf : c.wellFormed = true) (spelled : parameters c = some (code, p)) :
    p.length ≤ 255 ∧ command code p = some c := by
  cases c with
  | configure seat role name trim threshold span attenuation duck follower wall share =>
    obtain ⟨rfl, rfl⟩ := spelled
    have fits := of_decide_eq_true wf
    refine ⟨by simp [textField, bytes2, be2]; omega, ?_⟩
    simp [command, readConfigure, textField, bytes2, be2, splitText_append (show name.length ≤ 255 by omega), word2_bytes2]
  | setProfile index mode limit budget kind warning silence rule endWarning allowed closes =>
    obtain ⟨rfl, rfl⟩ := spelled
    refine ⟨by simp [bytes2, be2], ?_⟩
    simp [command, readSetProfile, bytes2, be2, word2_bytes2]
  | setTime day second =>
    obtain ⟨rfl, rfl⟩ := spelled
    refine ⟨by simp [bytes2, be2, bytes4, be4], ?_⟩
    simp [command, readSetTime, bytes2, be2, bytes4, be4, word2_bytes2, word4_bytes4]
  | addTime seat seconds =>
    obtain ⟨rfl, rfl⟩ := spelled
    refine ⟨by simp [bytes2, be2], ?_⟩
    simp [command, readAddTime, bytes2, be2, word2_bytes2]
  | book day minute duration profile chair title =>
    obtain ⟨rfl, rfl⟩ := spelled
    have fits := of_decide_eq_true wf
    refine ⟨by simp [textField, bytes2, be2]; omega, ?_⟩
    simp [command, readBook, textField, bytes2, be2, splitText_self (show title.length ≤ 255 by omega), word2_bytes2]
  | restoreBooking day minute duration profile chair title serial version createdDay createdSecond =>
    obtain ⟨rfl, rfl⟩ := spelled
    have fits := of_decide_eq_true wf
    refine ⟨by simp [textField, bytes2, be2, bytes4, be4]; omega, ?_⟩
    simp [command, readRestoreBooking, textField, bytes2, be2, bytes4, be4,
      splitText_append (show title.length ≤ 255 by omega), word2_bytes2, word4_bytes4]
  | startMeeting duration profile title =>
    obtain ⟨rfl, rfl⟩ := spelled
    have fits := of_decide_eq_true wf
    refine ⟨by simp [textField, bytes2, be2]; omega, ?_⟩
    simp [command, readStartMeeting, textField, bytes2, be2, splitText_self (show title.length ≤ 255 by omega), word2_bytes2]
  | showMessage message lifetime =>
    obtain ⟨rfl, rfl⟩ := spelled
    have fits := of_decide_eq_true wf
    refine ⟨by simp [textField, bytes2, be2]; omega, ?_⟩
    simp [command, readShowMessage, textField, bytes2, be2, splitText_append (show message.length ≤ 255 by omega), word2_bytes2]
  | go | resetFull | resetSoft | readStatus | readNotices | press | clearQueue | endMeeting | unshare | flush =>
    obtain ⟨rfl, rfl⟩ := spelled
    exact ⟨by decide, rfl⟩
  | setNoticeLevel a | setVolume a | priority a | readFloor a | readCalendar a | extendMeeting a | share a =>
    obtain ⟨rfl, rfl⟩ := spelled
    exact ⟨Nat.le_add_left 1 254, rfl⟩
  | grant a b | closeSeat a b | cancelBooking a b =>
    obtain ⟨rfl, rfl⟩ := spelled
    exact ⟨Nat.le_add_left 2 253, rfl⟩
  | _ => exact absurd spelled nofun

theorem decode_encode {bytes : List Byte} (wf : c.wellFormed = true) (spelled : encode c = some bytes) : decode bytes = c := by
  obtain ⟨⟨code, p⟩, named, rfl⟩ := Option.map_eq_some_iff.1 spelled
  obtain ⟨fits, reads⟩ := command_parameters wf named
  exact decode_frame fits reads

theorem decode_nil : decode [] = .cutShortCommandFrame [] := rfl

theorem decode_singleton (a : Byte) : decode [a] = .cutShortCommandFrame [a] := rfl

theorem decode_cut {n : Byte} (other : p.length ≠ n.toNat) : decode (code :: n :: p) = .cutShortCommandFrame (code :: n :: p) := by
  simp only [decode, if_neg other]

end

end Sys2Proof.HostFrame

namespace Sys2Proof.Machine

open HostFrame

theorem encode_eq {c : Instr} {code : Byte} {n : Byte} {p : List Byte} (spelled : parameters c = some (code, p))
    (counted : byte p.length = n) : HostFrame.encode c = some (code :: n :: p) := by
  rw [HostFrame.encode, spelled, ← counted]
  rfl

/-- Settles O11. -/
theorem hostCommandsDecodeFromTheirBytes : Obligations.HostCommandsDecodeFromTheirBytes := by
  refine ⟨fun c bytes => decode_encode, fun a b c d e f g h i j x y z u w l => ?_,
    fun code n p => ⟨decode_nil, decode_singleton code, decode_cut⟩⟩
  refine ⟨?_, encode_eq rfl rfl, encode_eq rfl rfl, encode_eq rfl rfl, encode_eq rfl rfl, encode_eq rfl rfl, encode_eq rfl rfl, encode_eq rfl rfl,
    encode_eq rfl rfl, encode_eq rfl rfl, encode_eq rfl rfl, encode_eq rfl rfl, encode_eq rfl rfl, encode_eq rfl rfl, encode_eq rfl rfl, encode_eq rfl rfl,
    encode_eq rfl rfl, ?_, ?_, encode_eq rfl rfl, encode_eq rfl rfl, ?_, encode_eq rfl rfl, encode_eq rfl rfl, ?_,
    encode_eq rfl rfl, encode_eq rfl rfl, encode_eq rfl rfl⟩
  · exact (encode_eq (n := byte (l.length + 12)) rfl (congrArg byte (by simp [textField, bytes2, be2]))).trans
      (by simp [textField, bytes2, be2])
  · exact (encode_eq (n := byte (l.length + 9)) rfl (congrArg byte (by simp [textField, bytes2, be2]))).trans
      (by simp [textField, bytes2, be2])
  · exact (encode_eq (n := byte (l.length + 17)) rfl (congrArg byte (by simp [textField, bytes2, be2, bytes4, be4]))).trans
      (by simp [textField, bytes2, be2, bytes4, be4])
  · exact (encode_eq (n := byte (l.length + 4)) rfl (congrArg byte (by simp [textField, bytes2, be2]))).trans
      (by simp [textField, bytes2, be2])
  · exact (encode_eq (n := byte (l.length + 3)) rfl (congrArg byte (by simp [textField, bytes2, be2]))).trans
      (by simp [textField, bytes2, be2])

end Sys2Proof.Machine

namespace Sys2Proof.Machine

/-! ## The CRC register (R2) -/

theorem crcShift_eq (c : BitVec 16) : crcShift c = (c <<< 1) ^^^ (if c.getLsbD 15 then 0x1021#16 else 0#16) := by
  have top : c.msb = c.getLsbD 15 := BitVec.msb_eq_getLsbD_last c
  rw [crcShift, top]
  split
  · rfl
  · exact (BitVec.xor_zero).symm

/-- The polynomial's lowest bit is set, so the bit that falls out stands in the lowest place after the shift. -/
theorem crcShift_low (c : BitVec 16) : (crcShift c).getLsbD 0 = c.getLsbD 15 := by
  rw [crcShift_eq]
  cases c.getLsbD 15 <;> simp

theorem crcShift_injective : Function.Injective crcShift := by
  intro a b same
  have top : a.getLsbD 15 = b.getLsbD 15 := by rw [← crcShift_low, ← crcShift_low, same]
  have shifted : a <<< 1 = b <<< 1 := by
    rw [crcShift_eq, crcShift_eq, top] at same
    exact (BitVec.xor_left_inj _).1 same
  refine BitVec.eq_of_getLsbD_eq fun i small => ?_
  by_cases last : i = 15
  · rw [last, top]
  · have bit : (a <<< 1).getLsbD (i + 1) = (b <<< 1).getLsbD (i + 1) := by rw [shifted]
    simpa [show i + 1 < 16 by omega, small] using bit

theorem crcByte_eq (c : BitVec 16) (b : Byte) : crcByte c b = crcShift^[8] (c ^^^ (b.setWidth 16 <<< 8)) := rfl

theorem crcByte_injective_left (b : Byte) : Function.Injective fun c => crcByte c b := fun _ _ same =>
  (BitVec.xor_left_inj _).1 (crcShift_injective.iterate 8 same)

theorem crcByte_injective_right (c : BitVec 16) : Function.Injective (crcByte c) := by
  intro a b same
  have high : a.setWidth 16 <<< 8 = b.setWidth 16 <<< 8 := (BitVec.xor_right_inj _).1 (crcShift_injective.iterate 8 same)
  refine BitVec.eq_of_getLsbD_eq fun i small => ?_
  have bit : (a.setWidth 16 <<< 8).getLsbD (i + 8) = (b.setWidth 16 <<< 8).getLsbD (i + 8) := by rw [high]
  simpa [show i + 8 < 16 by omega, show i < 16 by omega] using bit

theorem foldl_crcByte_injective : ∀ l : List Byte, Function.Injective fun c => l.foldl crcByte c
  | [] => fun _ _ same => same
  | b :: l => fun _ _ same => crcByte_injective_left b (foldl_crcByte_injective l same)

theorem crc16_append (l r : List Byte) : crc16 (l ++ r) = r.foldl crcByte (crc16 l) := List.foldl_append

/-- Two lists that differ in one byte alone have different CRCs. -/
theorem eq_of_crc16_eq {l r : List Byte} {a b : Byte} (same : crc16 (l ++ a :: r) = crc16 (l ++ b :: r)) : a = b := by
  rw [crc16_append, crc16_append] at same
  exact crcByte_injective_right _ (foldl_crcByte_injective r same)

theorem getElem?_of_crc16_set {l : List Byte} {i : Nat} {b : Byte} (inside : i < l.length)
    (same : crc16 (l.set i b) = crc16 l) : l[i]? = some b := by
  have split : l = l.take i ++ l[i] :: l.drop (i + 1) := by simp
  rw [List.set_eq_take_append_cons_drop, if_pos inside] at same
  have equal : b = l[i] := eq_of_crc16_eq (same.trans (congrArg crc16 split))
  rw [List.getElem?_eq_getElem inside, equal]

theorem be2_injective {a b : BitVec 16} (same : be2 a.toNat = be2 b.toNat) : a = b := by
  have read := congrArg (fun l => rd2 l) same
  simp only [be2, rd2, Option.some.injEq, Prod.mk.injEq, and_true] at read
  rw [nat2_be2 (Nat.le_of_lt_succ a.isLt), nat2_be2 (Nat.le_of_lt_succ b.isLt)] at read
  exact BitVec.eq_of_toNat_eq read

/-! ## The envelope (Table 1-1) -/

/-- Bytes with their CRC behind them. -/
def withCrc (l : List Byte) : List Byte := l ++ be2 (crc16 l).toNat

theorem envelope_eq (kind source : Byte) (body : List Byte) :
    envelope kind source body = withCrc ([kind, source, byte body.length] ++ body) := rfl

theorem length_withCrc (l : List Byte) : (withCrc l).length = l.length + 2 := by
  simp [withCrc, be2]

/-- Altering one byte of bytes with their CRC never gives bytes with their CRC: the byte must have been the same. -/
theorem getElem?_of_set_withCrc {l m : List Byte} {i : Nat} {b : Byte} (inside : i < (withCrc l).length)
    (altered : (withCrc l).set i b = withCrc m) : (withCrc l)[i]? = some b := by
  have long : l.length = m.length := by
    have := congrArg List.length altered
    rw [List.length_set, length_withCrc, length_withCrc] at this
    omega
  by_cases covered : i < l.length
  · rw [withCrc, withCrc, List.set_append_left _ _ covered] at altered
    obtain ⟨front, check⟩ := List.append_inj altered (by rw [List.length_set, long])
    rw [withCrc, List.getElem?_append_left covered]
    exact getElem?_of_crc16_set covered (by rw [front, be2_injective check])
  · have same : l = m := by
      rw [withCrc, withCrc, List.set_append_right _ _ (Nat.le_of_not_lt covered)] at altered
      exact (List.append_inj altered long).1
    have kept : (withCrc l).set i b = withCrc l := altered.trans (congrArg withCrc same.symm)
    rw [← kept, List.getElem?_set_self inside]

theorem checkCrc_envelope {kind source : Byte} {body : List Byte} (fits : body.length ≤ 255) :
    checkCrc (envelope kind source body) = some (kind, source, body) := by
  simp only [envelope, checkCrc, List.cons_append, List.nil_append, byte_toNat fits, List.take_left, List.drop_left]
  rw [if_pos ⟨by simp [be2], trivial⟩]

theorem eq_envelope_of_checkCrc {bytes body : List Byte} {kind source : Byte}
    (passed : checkCrc bytes = some (kind, source, body)) : body.length ≤ 255 ∧ bytes = envelope kind source body := by
  rcases bytes with _ | ⟨k, _ | ⟨s, _ | ⟨n, rest⟩⟩⟩
  · exact absurd passed nofun
  · exact absurd passed nofun
  · exact absurd passed nofun
  · rw [checkCrc, Option.ite_none_right_eq_some] at passed
    obtain ⟨⟨long, check⟩, read⟩ := passed
    obtain ⟨rfl, rfl, rfl⟩ : k = kind ∧ s = source ∧ rest.take n.toNat = body := by simpa using read
    have taken : (rest.take n.toNat).length = n.toNat := by rw [List.length_take]; omega
    refine ⟨by have := n.isLt; omega, ?_⟩
    rw [envelope, taken, byte_of_toNat, ← check]
    simp

theorem checkCrc_eq_some_iff {bytes body : List Byte} {kind source : Byte} :
    checkCrc bytes = some (kind, source, body) ↔ body.length ≤ 255 ∧ bytes = envelope kind source body :=
  ⟨eq_envelope_of_checkCrc, fun ⟨fits, spelled⟩ => by rw [spelled, checkCrc_envelope fits]⟩

theorem checkCrc_of_altered {kind source : Byte} {body : List Byte} {i : Nat} {b : Byte}
    (inside : i < (envelope kind source body).length) (other : (envelope kind source body)[i]? ≠ some b) :
    checkCrc ((envelope kind source body).set i b) = none := by
  refine Option.eq_none_iff_forall_ne_some.2 fun ⟨k, s, read⟩ passed => ?_
  obtain ⟨-, altered⟩ := eq_envelope_of_checkCrc passed
  rw [envelope_eq] at inside other
  rw [envelope_eq, envelope_eq] at altered
  exact other (getElem?_of_set_withCrc inside altered)

/-- Settles O13. -/
theorem oneAlteredByteFailsTheCheck : Obligations.OneAlteredByteFailsTheCheck := by
  refine ⟨fun kind source body i b _ => checkCrc_of_altered, fun kind source body => rfl,
    fun bytes body kind source => checkCrc_eq_some_iff, rfl, fun l b => ?_⟩
  simp only [crc16_append, List.foldl_cons, List.foldl_nil, ← crcShift_eq]
  rfl

end Sys2Proof.Machine

namespace Sys2Proof.Machine

/-! ## Readers of fields (R2, R4) -/

/-- A reader takes exactly the bytes that spell its values off the front: it reads back every value of `ok` from its
bytes `enc`, and what it reads is such a value, spelled by the bytes it took. -/
structure Exact {α : Type} (rd : List Byte → Option (α × List Byte)) (enc : α → List Byte) (ok : α → Prop) : Prop where
  reads : ∀ a r, ok a → rd (enc a ++ r) = some (a, r)
  strict : ∀ l a r, rd l = some (a, r) → ok a ∧ l = enc a ++ r

section

variable {α β : Type} {rd : List Byte → Option (α × List Byte)} {enc : α → List Byte} {ok : α → Prop} {l : List Byte} {b : β}
  {f : α × List Byte → Option β}

theorem Exact.bind_iff (exact_rd : Exact rd enc ok) :
    rd l >>= f = some b ↔ ∃ a r, ok a ∧ l = enc a ++ r ∧ f (a, r) = some b := by
  constructor
  · intro read
    obtain ⟨⟨a, r⟩, front, rest⟩ := Option.bind_eq_some_iff.1 read
    obtain ⟨fits, spelled⟩ := exact_rd.strict l a r front
    exact ⟨a, r, fits, spelled, rest⟩
  · rintro ⟨a, r, fits, rfl, rest⟩
    exact Option.bind_eq_some_iff.2 ⟨(a, r), exact_rd.reads a r fits, rest⟩

theorem Exact.whole_iff (exact_rd : Exact rd enc ok) {a : α} : whole (rd l) = some a ↔ ok a ∧ l = enc a := by
  constructor
  · intro read
    rcases front : rd l with _ | ⟨x, _ | ⟨y, rest⟩⟩
    · rw [front] at read
      exact absurd read nofun
    · rw [front] at read
      obtain rfl : x = a := Option.some.inj read
      simpa using exact_rd.strict l _ [] front
    · rw [front] at read
      exact absurd read nofun
  · rintro ⟨fits, rfl⟩
    have front := exact_rd.reads a [] fits
    rw [List.append_nil] at front
    rw [front]
    rfl

end

theorem exact_rd1 : Exact rd1 (fun n => [byte n]) (fun n => n ≤ 255) where
  reads n r fits := by simp [rd1, byte_toNat fits]
  strict l n r read := by
    rcases l with _ | ⟨a, l⟩
    · exact absurd read nofun
    · obtain ⟨rfl, rfl⟩ : a.toNat = n ∧ l = r := by simpa [rd1] using read
      exact ⟨Nat.le_of_lt_succ a.isLt, by simp [byte_of_toNat]⟩

theorem exact_rd2 : Exact rd2 be2 (fun n => n ≤ 65535) where
  reads n r fits := by simp [rd2, be2, nat2_be2 fits]
  strict l n r read := by
    rcases l with _ | ⟨a, _ | ⟨b, l⟩⟩
    · exact absurd read nofun
    · exact absurd read nofun
    · obtain ⟨rfl, rfl⟩ : nat2 a b = n ∧ l = r := by simpa [rd2] using read
      exact ⟨nat2_le a b, by simp [be2_nat2]⟩

theorem exact_rd4 : Exact rd4 be4 (fun n => n ≤ maxStamp) where
  reads n r fits := by simp [rd4, be4, nat4_be4 fits]
  strict l n r read := by
    rcases l with _ | ⟨a, _ | ⟨b, _ | ⟨c, _ | ⟨d, l⟩⟩⟩⟩
    · exact absurd read nofun
    · exact absurd read nofun
    · exact absurd read nofun
    · exact absurd read nofun
    · obtain ⟨rfl, rfl⟩ : nat4 a b c d = n ∧ l = r := by simpa [rd4] using read
      exact ⟨nat4_le a b c d, by simp [be4_nat4]⟩

theorem exact_rdText {limit : Nat} (short : limit ≤ 255) :
    Exact (rdText limit) textField (fun t => t.length ≤ limit) where
  reads t r fits := by
    simp only [rdText, textField, List.cons_append, byte_toNat (Nat.le_trans fits short)]
    rw [if_pos ⟨fits, by simp⟩, List.take_left, List.drop_left]
  strict l t r read := by
    rcases l with _ | ⟨k, l⟩
    · exact absurd read nofun
    · rw [rdText, Option.ite_none_right_eq_some] at read
      obtain ⟨⟨fits, inside⟩, taken⟩ := read
      obtain ⟨rfl, rfl⟩ : l.take k.toNat = t ∧ l.drop k.toNat = r := by simpa using taken
      have long : (l.take k.toNat).length = k.toNat := by rw [List.length_take]; omega
      exact ⟨Nat.le_trans (Nat.le_of_eq long) fits, by simp [textField, byte_of_toNat, inside]⟩

theorem exact_rdFlag : Exact rdFlag (fun v => [flagByte v]) (fun _ => True) where
  reads v r _ := by cases v <;> rfl
  strict l v r read := by
    rcases l with _ | ⟨a, l⟩
    · exact absurd read nofun
    · refine ⟨trivial, ?_⟩
      rw [rdFlag] at read
      split at read
      · next zero =>
        obtain ⟨rfl, rfl⟩ : false = v ∧ l = r := by simpa using read
        rw [show a = 0#8 from BitVec.eq_of_toNat_eq zero]
        rfl
      · next zero =>
        obtain ⟨one, read⟩ := Option.ite_none_right_eq_some.1 read
        obtain ⟨rfl, rfl⟩ : true = v ∧ l = r := by simpa using read
        rw [show a = 1#8 from BitVec.eq_of_toNat_eq one]
        rfl

theorem exact_rdSeat : Exact rdSeat (fun n => [byte n]) (fun n => isSeat n = true) where
  reads n r seat := by
    have fits : n ≤ 255 := Nat.le_trans ((isSeat_iff n).1 seat).2 (by decide)
    refine exact_rd1.bind_iff.2 ⟨n, r, fits, rfl, ?_⟩
    simp [seat]
  strict l n r read := by
    obtain ⟨a, r', -, rfl, rest⟩ := exact_rd1.bind_iff.1 read
    obtain ⟨seat, read⟩ := Option.ite_none_right_eq_some.1 rest
    obtain ⟨rfl, rfl⟩ : a = n ∧ r' = r := by simpa using read
    exact ⟨seat, rfl⟩

theorem bid_wellFormed_iff {id : Bid} : id.wellFormed = true ↔ isSeat id.holder = true ∧ id.serial ≤ 255 := by
  simp [Bid.wellFormed]

theorem exact_rdBid : Exact rdBid bidBytes (fun id => id.wellFormed = true) where
  reads id r wf := by
    obtain ⟨seat, fits⟩ := bid_wellFormed_iff.1 wf
    exact exact_rdSeat.bind_iff.2 ⟨_, _, seat, rfl, exact_rd1.bind_iff.2 ⟨_, _, fits, rfl, rfl⟩⟩
  strict l id r read := by
    obtain ⟨h, r', seat, rfl, tail⟩ := exact_rdSeat.bind_iff.1 read
    obtain ⟨k, r'', fits, rfl, rest⟩ := exact_rd1.bind_iff.1 tail
    obtain ⟨rfl, rfl⟩ := Prod.mk.inj (Option.some.inj rest)
    exact ⟨bid_wellFormed_iff.2 ⟨seat, fits⟩, rfl⟩

theorem isSeat_of_pos {n : Nat} (pos : n ≠ 0) (last : n ≤ Config.seats) : isSeat n = true := by
  simpa [isSeat, last] using Nat.one_le_iff_ne_zero.2 pos

theorem exact_rdMeeting : Exact rdMeeting meetingBytes (fun m => m.all Bid.wellFormed = true) where
  reads m r wf := by
    cases m with
    | none => rfl
    | some id =>
      obtain ⟨seat, fits⟩ := bid_wellFormed_iff.1 wf
      simp only [isSeat, Bool.and_eq_true, decide_eq_true_eq] at seat
      obtain ⟨first, last⟩ := seat
      refine exact_rd1.bind_iff.2 ⟨id.holder, _, Nat.le_trans last (by decide), rfl, exact_rd1.bind_iff.2 ⟨_, r, fits, rfl, ?_⟩⟩
      simp only [if_neg (show id.holder ≠ 0 by omega), if_pos last]
  strict l m r read := by
    obtain ⟨h, r', -, rfl, tail⟩ := exact_rd1.bind_iff.1 read
    obtain ⟨k, r'', fits, rfl, rest⟩ := exact_rd1.bind_iff.1 tail
    dsimp only at rest
    split at rest
    · next zero =>
      obtain ⟨nought, rest⟩ := Option.ite_none_right_eq_some.1 rest
      obtain ⟨rfl, rfl⟩ : none = m ∧ r'' = r := by simpa using rest
      rw [zero, nought]
      exact ⟨rfl, rfl⟩
    · next pos =>
      obtain ⟨last, rest⟩ := Option.ite_none_right_eq_some.1 rest
      obtain ⟨rfl, rfl⟩ : some ⟨h, k⟩ = m ∧ r'' = r := by simpa using rest
      exact ⟨bid_wellFormed_iff.2 ⟨isSeat_of_pos pos last, fits⟩, rfl⟩

theorem wireEntry_wellFormed_iff {e : WireEntry} : e.wellFormed = true ↔
    e.id.wellFormed = true ∧ e.version ≤ 255 ∧ e.startDay ≤ 65535 ∧ e.startMinute ≤ 65535 ∧ e.duration ≤ 65535 ∧
    e.profile ≤ 255 ∧ e.chair ≤ 255 ∧ e.createdDay ≤ 65535 ∧ e.createdSecond ≤ maxStamp ∧ e.title.length ≤ 24 ∧
    (e.startMinute < 1440 ∧ 15 ≤ e.duration ∧ e.duration ≤ 720 ∧ e.duration % 5 = 0 ∧ e.profile ≤ 3
      ∧ e.chair ≤ Config.seats ∧ e.createdSecond ≤ Config.lastSecond) := by
  simp only [WireEntry.wellFormed, Bool.and_eq_true, decide_eq_true_eq]
  constructor
  · rintro ⟨⟨⟨⟨⟨⟨⟨⟨⟨⟨⟨id, version⟩, day⟩, minute⟩, least⟩, most⟩, step⟩, profile⟩, chair⟩, created⟩, second⟩, title⟩
    exact ⟨id, version, day, by omega, by omega, by omega, Nat.le_trans chair (by decide), created,
      Nat.le_trans second (by decide), title, by omega, least, most, step, profile, chair, second⟩
  · rintro ⟨id, version, day, -, -, -, -, created, -, title, minute, least, most, step, profile, chair, second⟩
    exact ⟨⟨⟨⟨⟨⟨⟨⟨⟨⟨⟨id, version⟩, day⟩, by omega⟩, least⟩, most⟩, step⟩, profile⟩, chair⟩, created⟩, second⟩, title⟩

theorem exact_rdEntry : Exact rdEntry entryBytes (fun e => e.wellFormed = true) where
  reads e r wf := by
    obtain ⟨id, version, day, minute, long, profile, chair, created, second, title, ranges⟩ := wireEntry_wellFormed_iff.1 wf
    simp only [rdEntry, exact_rdBid.bind_iff, exact_rd1.bind_iff, exact_rd2.bind_iff, exact_rd4.bind_iff,
      (exact_rdText (show 24 ≤ 255 by decide)).bind_iff]
    refine ⟨_, _, id, ?_, _, _, version, rfl, _, _, day, rfl, _, _, minute, rfl, _, _, long, rfl, _, _, profile, rfl,
      _, _, chair, rfl, _, _, created, rfl, _, _, second, rfl, _, r, title, rfl, if_pos ranges⟩
    simp [entryBytes]
  strict l e r read := by
    simp only [rdEntry, exact_rdBid.bind_iff, exact_rd1.bind_iff, exact_rd2.bind_iff, exact_rd4.bind_iff,
      (exact_rdText (show 24 ≤ 255 by decide)).bind_iff] at read
    obtain ⟨_, _, id, rfl, _, _, version, rfl, _, _, day, rfl, _, _, minute, rfl, _, _, long, rfl, _, _, profile, rfl,
      _, _, chair, rfl, _, _, created, rfl, _, _, second, rfl, _, _, title, rfl, rest⟩ := read
    obtain ⟨ranges, rest⟩ := Option.ite_none_right_eq_some.1 rest
    obtain ⟨rfl, rfl⟩ := Prod.mk.inj (Option.some.inj rest)
    exact ⟨wireEntry_wellFormed_iff.2 ⟨id, version, day, minute, long, profile, chair, created, second, title, ranges⟩,
      by simp [entryBytes]⟩

end Sys2Proof.Machine

namespace Sys2Proof.Machine

/-! ## Readers of bodies (Table 1-2) -/

section

variable {α β : Type} {rd : List Byte → Option (α × List Byte)} {enc : α → List Byte} {ok : α → Prop} {l : List Byte} {b : β}

theorem Exact.whole_bind_iff (exact_rd : Exact rd enc ok) {f : α → Option β} :
    whole (rd l) >>= f = some b ↔ ∃ a, ok a ∧ l = enc a ∧ f a = some b := by
  refine Option.bind_eq_some_iff.trans (exists_congr fun a => ?_)
  rw [exact_rd.whole_iff, and_assoc]

theorem Exact.whole_map_iff (exact_rd : Exact rd enc ok) {f : α → β} :
    (whole (rd l)).map f = some b ↔ ∃ a, ok a ∧ l = enc a ∧ f a = b := by
  refine Option.map_eq_some_iff.trans (exists_congr fun a => ?_)
  rw [exact_rd.whole_iff, and_assoc]

end

theorem stampFits_iff {n : Nat} : stampFits n = true ↔ n ≤ maxStamp := decide_eq_true_iff

theorem classOf_eq_some_iff {n : Nat} {c : OpenClass} : classOf n = some c ↔ n = c.code := by
  constructor
  · intro named
    rw [classOf.eq_def] at named
    split at named
    · obtain rfl := Option.some.inj named
      rfl
    · obtain rfl := Option.some.inj named
      rfl
    · exact absurd named nofun
  · rintro rfl
    cases c <;> rfl

theorem roleOf_eq_some_iff {n : Nat} {r : Role} : roleOf n = some r ↔ n = r.code := by
  constructor
  · intro named
    rw [roleOf.eq_def] at named
    split at named
    · obtain rfl := Option.some.inj named
      rfl
    · obtain rfl := Option.some.inj named
      rfl
    · obtain rfl := Option.some.inj named
      rfl
    · exact absurd named nofun
  · rintro rfl
    cases r <;> rfl

theorem closeReasonOf_eq_some_iff {n : Nat} {r : Reason} : closeReasonOf n = some r ↔ n = r.code ∧ r.carried = true := by
  constructor
  · intro named
    rw [closeReasonOf.eq_def] at named
    split at named
    case h_7 => exact absurd named nofun
    all_goals
      obtain rfl := Option.some.inj named
      exact ⟨rfl, rfl⟩
  · rintro ⟨rfl, carried⟩
    cases r
    case displaced | stale | sync | absent => exact absurd carried (by decide)
    all_goals rfl

/-- The body read is a well-formed one of the kind, and the bytes are its bytes. -/
structure ReadAs (kind : Byte) (l : List Byte) (b : Body) : Prop where
  wellFormed : b.wellFormed = true
  kindCode : b.kindCode = kind
  bytes : l = b.bytes

section

variable {l : List Byte} {b : Body} {m : Option Bid} {id : Bid} {o q k n g : Nat} {on : Bool} {why : Reason} {c : OpenClass}
  {xs : List Int} {e : WireEntry}

/-! ### Samples -/

theorem sampleFits_iff {x : Int} : sampleFits x = true ↔ -32768 ≤ x ∧ x ≤ 32767 := by
  simp [sampleFits]

theorem sampleOf_sampleBytes {x : Int} (fits : sampleFits x = true) :
    sampleOf (byte ((BitVec.ofInt 16 x).toNat / 256)) (byte (BitVec.ofInt 16 x).toNat) = x := by
  rw [sampleFits_iff] at fits
  rw [sampleOf, nat2_be2 (Nat.le_of_lt_succ (BitVec.ofInt 16 x).isLt), BitVec.ofNat_toNat, BitVec.setWidth_eq,
    BitVec.toInt_ofInt, Int.bmod_eq_of_le (by omega) (by omega)]

theorem sampleBytes_sampleOf (a b : Byte) : sampleBytes (sampleOf a b) = [a, b] := by
  rw [sampleBytes, sampleOf, BitVec.ofInt_toInt, BitVec.toNat_ofNat, Nat.mod_eq_of_lt (Nat.lt_succ_of_le (nat2_le a b)), be2_nat2]

theorem sampleFits_sampleOf (a b : Byte) : sampleFits (sampleOf a b) = true := by
  have low := BitVec.le_toInt (BitVec.ofNat 16 (nat2 a b))
  have high := BitVec.toInt_lt (x := BitVec.ofNat 16 (nat2 a b))
  exact sampleFits_iff.2 ⟨low, Int.le_of_lt_add_one high⟩

theorem rdSamples_bytes : ∀ {xs : List Int}, xs.all sampleFits = true → rdSamples (xs.map sampleBytes).flatten = some xs
  | [], _ => rfl
  | x :: xs, fit => by
    rw [List.all_cons, Bool.and_eq_true] at fit
    obtain ⟨head, tail⟩ := fit
    have front : (List.map sampleBytes (x :: xs)).flatten = byte ((BitVec.ofInt 16 x).toNat / 256)
      :: byte (BitVec.ofInt 16 x).toNat :: (xs.map sampleBytes).flatten := rfl
    rw [front, rdSamples, rdSamples_bytes tail, sampleOf_sampleBytes head]
    rfl

theorem rdSamples_strict : ∀ {l : List Byte} {xs : List Int}, rdSamples l = some xs →
    xs.all sampleFits = true ∧ l = (xs.map sampleBytes).flatten
  | [], xs, read => by
    obtain rfl := Option.some.inj read
    exact ⟨rfl, rfl⟩
  | [_], _, read => absurd read nofun
  | a :: b :: r, xs, read => by
    obtain ⟨ys, rest, rfl⟩ := Option.map_eq_some_iff.1 read
    obtain ⟨fit, spelled⟩ := rdSamples_strict rest
    exact ⟨by rw [List.all_cons, sampleFits_sampleOf, fit]; rfl,
      by rw [List.map_cons, List.flatten_cons, sampleBytes_sampleOf, ← spelled]; rfl⟩

/-! ### Kind by kind -/

theorem parseVoice_bytes (wf : (Body.voice m o q n on xs).wellFormed = true) :
    parseVoice (Body.voice m o q n on xs).bytes = some (.voice m o q n on xs) := by
  simp only [Body.wellFormed, Bool.and_eq_true, decide_eq_true_eq, stampFits_iff] at wf
  obtain ⟨⟨⟨⟨⟨meeting, opened⟩, asked⟩, block⟩, count⟩, samples⟩ := wf
  simp only [parseVoice, exact_rdMeeting.bind_iff, exact_rd4.bind_iff, exact_rd2.bind_iff, exact_rdFlag.bind_iff]
  refine ⟨_, _, meeting, ?_, _, _, opened, rfl, _, _, asked, rfl, _, _, block, rfl, _, _, trivial, rfl,
    Option.bind_eq_some_iff.2 ⟨xs, rdSamples_bytes samples, if_pos count⟩⟩
  simp [Body.bytes]

theorem parseVoice_strict (read : parseVoice l = some b) : ReadAs 0x10#8 l b := by
  simp only [parseVoice, exact_rdMeeting.bind_iff, exact_rd4.bind_iff, exact_rd2.bind_iff, exact_rdFlag.bind_iff] at read
  obtain ⟨_, _, meeting, rfl, _, _, opened, rfl, _, _, asked, rfl, _, _, block, rfl, _, _, -, rfl, tail⟩ := read
  obtain ⟨_, samples, rest⟩ := Option.bind_eq_some_iff.1 tail
  obtain ⟨fit, rfl⟩ := rdSamples_strict samples
  obtain ⟨count, made⟩ := Option.ite_none_right_eq_some.1 rest
  obtain rfl := Option.some.inj made
  exact ⟨by simp [Body.wellFormed, stampFits_iff, *], rfl, by simp [Body.bytes]⟩

theorem parseMeetingStamp_iff {p : Option Bid × Nat} : parseMeetingStamp l = some p ↔
    p.1.all Bid.wellFormed = true ∧ p.2 ≤ maxStamp ∧ l = meetingBytes p.1 ++ be4 p.2 := by
  simp only [parseMeetingStamp, exact_rdMeeting.bind_iff, exact_rd4.whole_bind_iff]
  constructor
  · rintro ⟨_, _, meeting, rfl, _, stamp, rfl, rest⟩
    obtain rfl := Option.some.inj rest
    exact ⟨meeting, stamp, rfl⟩
  · rintro ⟨meeting, stamp, rfl⟩
    exact ⟨_, _, meeting, rfl, _, stamp, rfl, rfl⟩

theorem parseOpening_bytes (wf : (Body.opening m o q c).wellFormed = true) :
    parseOpening (Body.opening m o q c).bytes = some (.opening m o q c) := by
  simp only [Body.wellFormed, Bool.and_eq_true, stampFits_iff] at wf
  obtain ⟨⟨meeting, opened⟩, asked⟩ := wf
  simp only [parseOpening, exact_rdMeeting.bind_iff, exact_rd4.bind_iff, exact_rd1.whole_bind_iff]
  refine ⟨_, _, meeting, ?_, _, _, opened, rfl, _, _, asked, rfl, _, ?_, rfl,
    Option.bind_eq_some_iff.2 ⟨c, classOf_eq_some_iff.2 rfl, rfl⟩⟩
  · simp [Body.bytes]
  · cases c <;> decide

theorem parseOpening_strict (read : parseOpening l = some b) : ReadAs 0x43#8 l b := by
  simp only [parseOpening, exact_rdMeeting.bind_iff, exact_rd4.bind_iff, exact_rd1.whole_bind_iff] at read
  obtain ⟨_, _, meeting, rfl, _, _, opened, rfl, _, _, asked, rfl, _, -, rfl, tail⟩ := read
  obtain ⟨_, code, rest⟩ := Option.bind_eq_some_iff.1 tail
  obtain rfl := classOf_eq_some_iff.1 code
  obtain rfl := Option.some.inj rest
  exact ⟨by simp [Body.wellFormed, stampFits_iff, *], rfl, by simp [Body.bytes]⟩

theorem parseClose_bytes (wf : (Body.close m k why).wellFormed = true) :
    parseClose (Body.close m k why).bytes = some (.close m k why) := by
  simp only [Body.wellFormed, Bool.and_eq_true] at wf
  obtain ⟨⟨meeting, seat⟩, carried⟩ := wf
  simp only [parseClose, exact_rdMeeting.bind_iff, exact_rdSeat.bind_iff, exact_rd1.whole_bind_iff]
  exact ⟨_, _, meeting, rfl, _, _, seat, rfl, _, Nat.le_trans (of_decide_eq_true carried) (by decide), rfl,
    Option.bind_eq_some_iff.2 ⟨why, closeReasonOf_eq_some_iff.2 ⟨rfl, carried⟩, rfl⟩⟩

theorem parseClose_strict (read : parseClose l = some b) : ReadAs 0x44#8 l b := by
  simp only [parseClose, exact_rdMeeting.bind_iff, exact_rdSeat.bind_iff, exact_rd1.whole_bind_iff] at read
  obtain ⟨_, _, meeting, rfl, _, _, seat, rfl, _, -, rfl, tail⟩ := read
  obtain ⟨_, code, rest⟩ := Option.bind_eq_some_iff.1 tail
  obtain ⟨rfl, carried⟩ := closeReasonOf_eq_some_iff.1 code
  obtain rfl := Option.some.inj rest
  exact ⟨by simp [Body.wellFormed, *], rfl, rfl⟩

theorem parseGrant_bytes (wf : (Body.grant m k).wellFormed = true) : parseGrant (Body.grant m k).bytes = some (.grant m k) := by
  simp only [Body.wellFormed, Bool.and_eq_true] at wf
  obtain ⟨meeting, seat⟩ := wf
  simp only [parseGrant, exact_rdMeeting.bind_iff, exact_rdSeat.whole_bind_iff]
  exact ⟨_, _, meeting, rfl, _, seat, rfl, rfl⟩

theorem parseGrant_strict (read : parseGrant l = some b) : ReadAs 0x46#8 l b := by
  simp only [parseGrant, exact_rdMeeting.bind_iff, exact_rdSeat.whole_bind_iff] at read
  obtain ⟨_, _, meeting, rfl, _, seat, rfl, rest⟩ := read
  obtain rfl := Option.some.inj rest
  exact ⟨by simp [Body.wellFormed, *], rfl, rfl⟩

theorem parsePriority_bytes (wf : (Body.priority m on).wellFormed = true) :
    parsePriority (Body.priority m on).bytes = some (.priority m on) := by
  simp only [parsePriority, exact_rdMeeting.bind_iff, exact_rdFlag.whole_bind_iff]
  exact ⟨_, _, wf, rfl, _, trivial, rfl, rfl⟩

theorem parsePriority_strict (read : parsePriority l = some b) : ReadAs 0x48#8 l b := by
  simp only [parsePriority, exact_rdMeeting.bind_iff, exact_rdFlag.whole_bind_iff] at read
  obtain ⟨_, _, meeting, rfl, _, -, rfl, rest⟩ := read
  obtain rfl := Option.some.inj rest
  exact ⟨meeting, rfl, rfl⟩

theorem parseTimeAdd_bytes (wf : (Body.timeAdd m k n).wellFormed = true) :
    parseTimeAdd (Body.timeAdd m k n).bytes = some (.timeAdd m k n) := by
  simp only [Body.wellFormed, Bool.and_eq_true, decide_eq_true_eq] at wf
  obtain ⟨⟨⟨meeting, seat⟩, least⟩, most⟩ := wf
  simp only [parseTimeAdd, exact_rdMeeting.bind_iff, exact_rdSeat.bind_iff, exact_rd2.whole_bind_iff]
  exact ⟨_, _, meeting, by simp [Body.bytes], _, _, seat, rfl, _, by omega, rfl, if_pos ⟨least, most⟩⟩

theorem parseTimeAdd_strict (read : parseTimeAdd l = some b) : ReadAs 0x49#8 l b := by
  simp only [parseTimeAdd, exact_rdMeeting.bind_iff, exact_rdSeat.bind_iff, exact_rd2.whole_bind_iff] at read
  obtain ⟨_, _, meeting, rfl, _, _, seat, rfl, _, -, rfl, rest⟩ := read
  obtain ⟨range, rest⟩ := Option.ite_none_right_eq_some.1 rest
  obtain rfl := Option.some.inj rest
  exact ⟨by simp [Body.wellFormed, *], rfl, by simp [Body.bytes]⟩

theorem parseShare_bytes (wf : (Body.share m k q).wellFormed = true) :
    parseShare (Body.share m k q).bytes = some (.share m k q) := by
  simp only [Body.wellFormed, Bool.and_eq_true, Bool.or_eq_true, decide_eq_true_eq, stampFits_iff] at wf
  obtain ⟨⟨meeting, screen⟩, stamp⟩ := wf
  simp only [parseShare, exact_rdMeeting.bind_iff, exact_rd1.bind_iff, exact_rd4.whole_bind_iff]
  exact ⟨_, _, meeting, by simp [Body.bytes], _, _, by omega, rfl, _, stamp, rfl, if_pos screen⟩

theorem parseShare_strict (read : parseShare l = some b) : ReadAs 0x4A#8 l b := by
  simp only [parseShare, exact_rdMeeting.bind_iff, exact_rd1.bind_iff, exact_rd4.whole_bind_iff] at read
  obtain ⟨_, _, meeting, rfl, _, _, -, rfl, _, stamp, rfl, rest⟩ := read
  obtain ⟨screen, rest⟩ := Option.ite_none_right_eq_some.1 rest
  obtain rfl := Option.some.inj rest
  exact ⟨by simp [Body.wellFormed, stampFits_iff, *], rfl, by simp [Body.bytes]⟩

theorem parseExtendAsk_bytes (wf : (Body.extendAsk id n).wellFormed = true) :
    parseExtendAsk (Body.extendAsk id n).bytes = some (.extendAsk id n) := by
  simp only [Body.wellFormed, Bool.and_eq_true, decide_eq_true_eq] at wf
  obtain ⟨⟨⟨holder, least⟩, most⟩, step⟩ := wf
  simp only [parseExtendAsk, exact_rdBid.bind_iff, exact_rd1.whole_bind_iff]
  exact ⟨_, _, holder, rfl, _, by omega, rfl, if_pos ⟨least, most, step⟩⟩

theorem parseExtendAsk_strict (read : parseExtendAsk l = some b) : ReadAs 0x62#8 l b := by
  simp only [parseExtendAsk, exact_rdBid.bind_iff, exact_rd1.whole_bind_iff] at read
  obtain ⟨_, _, holder, rfl, _, -, rfl, rest⟩ := read
  obtain ⟨range, rest⟩ := Option.ite_none_right_eq_some.1 rest
  obtain rfl := Option.some.inj rest
  exact ⟨by simp [Body.wellFormed, *], rfl, rfl⟩

theorem parseExtendAnswer_bytes (wf : (Body.extendAnswer id k on g e).wellFormed = true) :
    parseExtendAnswer (Body.extendAnswer id k on g e).bytes = some (.extendAnswer id k on g e) := by
  simp only [Body.wellFormed, Bool.and_eq_true, decide_eq_true_eq] at wf
  obtain ⟨⟨⟨holder, asker⟩, granted⟩, entry⟩ := wf
  simp only [parseExtendAnswer, exact_rdBid.bind_iff, exact_rdSeat.bind_iff, exact_rd1.bind_iff, exact_rdEntry.whole_bind_iff]
  refine ⟨_, _, holder, ?_, _, _, asker, rfl, if on then 1 else 2, _, by split <;> decide, rfl, g, _, by omega, rfl, _, entry, rfl, ?_⟩
  · cases on <;> simp [Body.bytes] <;> rfl
  · cases on <;> simp [granted]

theorem parseExtendAnswer_strict (read : parseExtendAnswer l = some b) : ReadAs 0x63#8 l b := by
  simp only [parseExtendAnswer, exact_rdBid.bind_iff, exact_rdSeat.bind_iff, exact_rd1.bind_iff, exact_rdEntry.whole_bind_iff] at read
  obtain ⟨_, _, holder, rfl, _, _, asker, rfl, res, _, -, rfl, _, _, -, rfl, _, entry, rfl, rest⟩ := read
  obtain ⟨⟨result, granted⟩, rest⟩ := Option.ite_none_right_eq_some.1 rest
  obtain rfl := Option.some.inj rest
  refine ⟨by simp [Body.wellFormed, *], rfl, ?_⟩
  rcases result with rfl | rfl
  · simp [Body.bytes]
    rfl
  · simp [Body.bytes]
    rfl

end

end Sys2Proof.Machine

namespace Sys2Proof.Machine

/-! ## Readers of a beacon's parts (Table 1-4) -/

/-- The own-microphone field of a beacon in bytes. -/
def micField (mic : Option (Nat × Nat)) : List Byte := (mic.map fun x => [1#8] ++ be4 x.1 ++ be4 x.2).getD (List.replicate 9 0#8)

/-- The request field of a beacon in bytes. -/
def requestField (request : Option Nat) : List Byte := (request.map fun x => [1#8] ++ be4 x).getD (List.replicate 5 0#8)

/-- The share field of a beacon in bytes. -/
def shareField (share : Option (Nat × Nat)) : List Byte :=
  (share.map fun x => [byte x.1] ++ be4 x.2).getD (List.replicate 5 0#8)

/-- The entry field of a beacon in bytes. -/
def entryField (entry : Option WireEntry) : List Byte := (entry.map fun x => [1#8] ++ entryBytes x).getD [0#8]

theorem meetingBytes_eq (m : Option Bid) :
    meetingBytes m = (m.map (fun i => [byte i.holder, byte i.serial])).getD [0#8, 0#8] := by
  cases m <;> rfl

theorem beaconBytes_eq (b : BeaconBody) : beaconBytes b = [byte b.role.code] ++ textField b.name ++ meetingBytes b.meeting
    ++ meetingBytes b.endedEarly ++ micField b.mic ++ requestField b.request ++ shareField b.share ++ [flagByte b.priority]
    ++ be2 b.day ++ be4 b.second ++ entryField b.entry := by
  obtain ⟨role, name, meeting, ended, mic, request, share, priority, day, second, entry⟩ := b
  cases mic <;> cases request <;> cases share <;> cases entry <;> rfl

/-- A reader of a field in which one value makes the bytes behind it meaningless: a value is read back from its bytes; the
value read is in range, took as many bytes as its own, and took its own bytes unless it is that value. -/
structure Lax {α : Type} (rd : List Byte → Option (Option α × List Byte)) (enc : Option α → List Byte) (ok : α → Bool) :
    Prop where
  reads : ∀ a r, a.all ok = true → rd (enc a ++ r) = some (a, r)
  strict : ∀ l a r, rd l = some (a, r) → a.all ok = true ∧ ∃ p, l = p ++ r ∧ p.length = (enc a).length ∧ (a ≠ none → p = enc a)

theorem Lax.bind {α β : Type} {rd : List Byte → Option (Option α × List Byte)} {enc : Option α → List Byte} {ok : α → Bool}
    (lax : Lax rd enc ok) {l : List Byte} {f : Option α × List Byte → Option β} {b : β} (read : rd l >>= f = some b) :
    ∃ a p r, l = p ++ r ∧ a.all ok = true ∧ p.length = (enc a).length ∧ (a ≠ none → p = enc a) ∧ f (a, r) = some b := by
  obtain ⟨⟨a, r⟩, front, rest⟩ := Option.bind_eq_some_iff.1 read
  obtain ⟨fits, p, spelled, long, own⟩ := lax.strict l a r front
  exact ⟨a, p, r, spelled, fits, long, own, rest⟩

theorem lax_rdMicState : Lax rdMicState micField (fun p => stampFits p.1 && stampFits p.2) where
  reads a r fits := by
    simp only [rdMicState, exact_rdFlag.bind_iff, exact_rd4.bind_iff]
    cases a with
    | none => exact ⟨false, _, trivial, rfl, 0, _, by decide, rfl, 0, _, by decide, rfl, rfl⟩
    | some p =>
      obtain ⟨o, q⟩ := p
      simp only [Option.all_some, Bool.and_eq_true, stampFits_iff] at fits
      obtain ⟨opened, asked⟩ := fits
      exact ⟨true, _, trivial, rfl, o, _, opened, rfl, q, _, asked, rfl, rfl⟩
  strict l a r read := by
    simp only [rdMicState, exact_rdFlag.bind_iff, exact_rd4.bind_iff] at read
    obtain ⟨f, _, -, rfl, o, _, opened, rfl, q, _, asked, rfl, made⟩ := read
    obtain ⟨rfl, rfl⟩ := Prod.mk.inj (Option.some.inj made)
    cases f with
    | false => exact ⟨rfl, [0#8] ++ be4 o ++ be4 q, by simp [flagByte], rfl, fun some => absurd rfl some⟩
    | true => exact ⟨by simp [stampFits_iff, opened, asked], [1#8] ++ be4 o ++ be4 q, by simp [flagByte], rfl, fun _ => rfl⟩

theorem lax_rdRequestState : Lax rdRequestState requestField stampFits where
  reads a r fits := by
    simp only [rdRequestState, exact_rdFlag.bind_iff, exact_rd4.bind_iff]
    cases a with
    | none => exact ⟨false, _, trivial, rfl, 0, _, by decide, rfl, rfl⟩
    | some q => exact ⟨true, _, trivial, rfl, q, _, stampFits_iff.1 fits, rfl, rfl⟩
  strict l a r read := by
    simp only [rdRequestState, exact_rdFlag.bind_iff, exact_rd4.bind_iff] at read
    obtain ⟨f, _, -, rfl, q, _, asked, rfl, made⟩ := read
    obtain ⟨rfl, rfl⟩ := Prod.mk.inj (Option.some.inj made)
    cases f with
    | false => exact ⟨rfl, [0#8] ++ be4 q, by simp [flagByte], rfl, fun some => absurd rfl some⟩
    | true => exact ⟨stampFits_iff.2 asked, [1#8] ++ be4 q, by simp [flagByte], rfl, fun _ => rfl⟩

theorem lax_rdShareState :
    Lax rdShareState shareField (fun p => (decide (p.1 = 1) || decide (p.1 = 2)) && stampFits p.2) where
  reads a r fits := by
    simp only [rdShareState, exact_rd1.bind_iff, exact_rd4.bind_iff]
    cases a with
    | none => exact ⟨0, _, by decide, rfl, 0, _, by decide, rfl, rfl⟩
    | some p =>
      obtain ⟨sc, k⟩ := p
      simp only [Option.all_some, Bool.and_eq_true, Bool.or_eq_true, decide_eq_true_eq, stampFits_iff] at fits
      obtain ⟨screen, stamp⟩ := fits
      refine ⟨sc, _, by omega, rfl, k, _, stamp, rfl, ?_⟩
      simp only [if_pos (show sc ≤ 2 by omega), if_neg (show sc ≠ 0 by omega)]
  strict l a r read := by
    simp only [rdShareState, exact_rd1.bind_iff, exact_rd4.bind_iff] at read
    obtain ⟨sc, _, -, rfl, k, _, stamp, rfl, made⟩ := read
    obtain ⟨last, made⟩ := Option.ite_none_right_eq_some.1 made
    obtain ⟨rfl, rfl⟩ := Prod.mk.inj (Option.some.inj made)
    by_cases none : sc = 0
    · rw [if_pos none]
      exact ⟨rfl, [byte sc] ++ be4 k, by simp, rfl, fun some => absurd rfl some⟩
    · rw [if_neg none]
      refine ⟨?_, [byte sc] ++ be4 k, by simp, rfl, fun _ => rfl⟩
      simp only [Option.all_some, Bool.and_eq_true, Bool.or_eq_true, decide_eq_true_eq, stampFits_iff]
      omega

theorem exact_rdEntryField : Exact rdEntryField entryField (fun e => e.all WireEntry.wellFormed = true) where
  reads e r wf := by
    refine exact_rdFlag.bind_iff.2 ?_
    cases e with
    | none => exact ⟨false, r, trivial, rfl, rfl⟩
    | some e => exact ⟨true, entryBytes e ++ r, trivial, rfl, congrArg (Option.map _) (exact_rdEntry.reads e r wf)⟩
  strict l e r read := by
    obtain ⟨f, r', -, rfl, made⟩ := exact_rdFlag.bind_iff.1 read
    cases f with
    | false =>
      obtain ⟨rfl, rfl⟩ := Prod.mk.inj (Option.some.inj made)
      exact ⟨rfl, rfl⟩
    | true =>
      obtain ⟨⟨e', r''⟩, entry, made⟩ := Option.map_eq_some_iff.1 made
      obtain ⟨rfl, rfl⟩ := Prod.mk.inj made
      obtain ⟨wf, rfl⟩ := exact_rdEntry.strict _ _ _ entry
      exact ⟨wf, rfl⟩

/-- Table 1-4: the ranges of a beacon's fields. -/
theorem beacon_wellFormed_iff {b : BeaconBody} : b.wellFormed = true ↔
    b.name.length ≤ 20 ∧ b.meeting.all Bid.wellFormed = true ∧ b.endedEarly.all Bid.wellFormed = true
    ∧ b.mic.all (fun p => stampFits p.1 && stampFits p.2) = true ∧ b.request.all stampFits = true
    ∧ b.share.all (fun p => (decide (p.1 = 1) || decide (p.1 = 2)) && stampFits p.2) = true
    ∧ b.day ≤ 65535 ∧ b.second ≤ Config.lastSecond ∧ b.entry.all WireEntry.wellFormed = true := by
  simp only [BeaconBody.wellFormed, Bool.and_eq_true, decide_eq_true_eq, and_assoc]

theorem role_code_le (r : Role) : r.code ≤ 255 := by
  cases r <;> decide

theorem parseBeacon_bytes {b : BeaconBody} (wf : b.wellFormed = true) : parseBeacon (beaconBytes b) = some (.beacon b) := by
  obtain ⟨name, meeting, ended, mic, request, share, day, second, entry⟩ := beacon_wellFormed_iff.1 wf
  rw [beaconBytes_eq]
  simp only [List.append_assoc]
  refine exact_rd1.bind_iff.2 ⟨_, _, role_code_le b.role, rfl, Option.bind_eq_some_iff.2 ⟨b.role, roleOf_eq_some_iff.2 rfl, ?_⟩⟩
  refine (exact_rdText (show 20 ≤ 255 by decide)).bind_iff.2 ⟨_, _, name, rfl, exact_rdMeeting.bind_iff.2 ⟨_, _, meeting, rfl,
    exact_rdMeeting.bind_iff.2 ⟨_, _, ended, rfl, ?_⟩⟩⟩
  refine Option.bind_eq_some_iff.2 ⟨_, lax_rdMicState.reads _ _ mic, Option.bind_eq_some_iff.2 ⟨_,
    lax_rdRequestState.reads _ _ request, Option.bind_eq_some_iff.2 ⟨_, lax_rdShareState.reads _ _ share, ?_⟩⟩⟩
  exact exact_rdFlag.bind_iff.2 ⟨_, _, trivial, rfl, exact_rd2.bind_iff.2 ⟨_, _, day, rfl, exact_rd4.bind_iff.2 ⟨_, _,
    Nat.le_trans second (by decide), rfl, exact_rdEntryField.whole_bind_iff.2 ⟨_, entry, rfl, if_pos second⟩⟩⟩⟩

/-- What the body of a BEACON says of itself: it is a well-formed one, as long as its own bytes, and its own bytes where no
field makes another meaningless (notes/assumptions/10.md). -/
theorem parseBeacon_strict {l : List Byte} {body : Body} (read : parseBeacon l = some body) :
    ∃ b : BeaconBody, body = .beacon b ∧ b.wellFormed = true ∧ l.length = (beaconBytes b).length ∧
      (b.mic ≠ none → b.request ≠ none → b.share ≠ none → l = beaconBytes b) := by
  obtain ⟨code, r, -, rfl, rest⟩ := exact_rd1.bind_iff.1 read
  obtain ⟨role, named, afterRole⟩ := Option.bind_eq_some_iff.1 rest
  obtain rfl := roleOf_eq_some_iff.1 named
  obtain ⟨name, r₁, short, rfl, afterName⟩ := (exact_rdText (show 20 ≤ 255 by decide)).bind_iff.1 afterRole
  obtain ⟨meeting, r₂, meets, rfl, afterMeeting⟩ := exact_rdMeeting.bind_iff.1 afterName
  obtain ⟨ended, r₃, ends, rfl, afterEnded⟩ := exact_rdMeeting.bind_iff.1 afterMeeting
  obtain ⟨mic, p, r₄, rfl, opened, micLong, micOwn, afterMic⟩ := lax_rdMicState.bind afterEnded
  obtain ⟨request, p', r₅, rfl, asked, requestLong, requestOwn, afterRequest⟩ := lax_rdRequestState.bind afterMic
  obtain ⟨share, p'', r₆, rfl, shared, shareLong, shareOwn, afterShare⟩ := lax_rdShareState.bind afterRequest
  obtain ⟨priority, r₇, -, rfl, afterPriority⟩ := exact_rdFlag.bind_iff.1 afterShare
  obtain ⟨day, r₈, today, rfl, afterDay⟩ := exact_rd2.bind_iff.1 afterPriority
  obtain ⟨second, r₉, -, rfl, afterSecond⟩ := exact_rd4.bind_iff.1 afterDay
  obtain ⟨entry, carried, rfl, made⟩ := exact_rdEntryField.whole_bind_iff.1 afterSecond
  obtain ⟨now, made⟩ := Option.ite_none_right_eq_some.1 made
  refine ⟨_, (Option.some.inj made).symm, ?_, ?_, ?_⟩
  · exact beacon_wellFormed_iff.2 ⟨short, meets, ends, opened, asked, shared, today, now, carried⟩
  · simp [beaconBytes_eq, micLong, requestLong, shareLong]
  · intro hasMic hasRequest hasShare
    simp [beaconBytes_eq, micOwn hasMic, requestOwn hasRequest, shareOwn hasShare]

end Sys2Proof.Machine

namespace Sys2Proof.Machine

/-! ## Frames read from their bytes (R2, R4) -/

/-- What is said of every body read: it is a well-formed one of the kind and as long as its own bytes, and the bytes are its
own where no field of a beacon makes another meaningless. -/
structure ReadFrom (kind : Byte) (l : List Byte) (b : Body) : Prop where
  wellFormed : b.wellFormed = true
  kindCode : b.kindCode = kind
  length : l.length = b.bytes.length
  bytes : (∀ c : BeaconBody, b = .beacon c → c.mic ≠ none ∧ c.request ≠ none ∧ c.share ≠ none) → l = b.bytes

section

variable {kind : Byte} {l : List Byte} {b : Body}

theorem ReadAs.readFrom (read : ReadAs kind l b) : ReadFrom kind l b :=
  ⟨read.wellFormed, read.kindCode, congrArg List.length read.bytes, fun _ => read.bytes⟩

theorem parseBeacon_readFrom (read : parseBeacon l = some b) : ReadFrom 0x20#8 l b := by
  obtain ⟨c, rfl, wf, long, own⟩ := parseBeacon_strict read
  exact ⟨wf, rfl, long, fun whole => own (whole c rfl).1 (whole c rfl).2.1 (whole c rfl).2.2⟩

/-- A body of a meeting id alone. -/
theorem meetingOnly_readAs {make : Option Bid → Body} (spells : ∀ m, (make m).bytes = meetingBytes m)
    (fits : ∀ m, m.all Bid.wellFormed = true → (make m).wellFormed = true) (is : ∀ m, (make m).kindCode = kind)
    (read : (parseMeetingOnly l).map make = some b) : ReadAs kind l b := by
  obtain ⟨m, wf, rfl, rfl⟩ := exact_rdMeeting.whole_map_iff.1 read
  exact ⟨fits m wf, is m, (spells m).symm⟩

/-- A body of a booking id alone. -/
theorem bidOnly_readAs {make : Bid → Body} (spells : ∀ id, (make id).bytes = bidBytes id)
    (fits : ∀ id, id.wellFormed = true → (make id).wellFormed = true) (is : ∀ id, (make id).kindCode = kind)
    (read : (whole (rdBid l)).map make = some b) : ReadAs kind l b := by
  obtain ⟨id, wf, rfl, rfl⟩ := exact_rdBid.whole_map_iff.1 read
  exact ⟨fits id wf, is id, (spells id).symm⟩

/-- A body of a meeting id and a stamp. -/
theorem meetingStamp_readAs {make : Option Bid × Nat → Body} (spells : ∀ p, (make p).bytes = meetingBytes p.1 ++ be4 p.2)
    (fits : ∀ p, p.1.all Bid.wellFormed = true → stampFits p.2 = true → (make p).wellFormed = true)
    (is : ∀ p, (make p).kindCode = kind) (read : (parseMeetingStamp l).map make = some b) : ReadAs kind l b := by
  obtain ⟨p, found, rfl⟩ := Option.map_eq_some_iff.1 read
  obtain ⟨meeting, stamp, rfl⟩ := parseMeetingStamp_iff.1 found
  exact ⟨fits p meeting (stampFits_iff.2 stamp), is p, (spells p).symm⟩

/-- The kind of a body read is the byte whose number is its code. -/
theorem ReadFrom.of_code {k : Byte} (read : ReadFrom k l b) (code : kind.toNat = k.toNat) : ReadFrom kind l b :=
  BitVec.eq_of_toNat_eq code ▸ read

theorem ReadAs.of_code {k : Byte} (read : ReadAs k l b) (code : kind.toNat = k.toNat) : ReadFrom kind l b :=
  read.readFrom.of_code code

/-- R4: the kinds of Table 1-1, each by its own reader. -/
theorem parseBody_readFrom (read : parseBody kind l = some b) : ReadFrom kind l b := by
  rw [parseBody.eq_def] at read
  split at read
  case h_1 code => exact (parseVoice_strict read).of_code code
  case h_2 code => exact (parseBeacon_readFrom read).of_code code
  case h_3 code =>
    exact (meetingStamp_readAs (kind := 0x41#8) (make := fun p => .request p.1 p.2) (fun _ => rfl)
      (fun _ m q => Bool.and_eq_true_iff.2 ⟨m, q⟩) (fun _ => rfl) read).of_code code
  case h_4 code =>
    exact (meetingOnly_readAs (kind := 0x42#8) (make := .withdraw) (fun _ => rfl) (fun _ m => m) (fun _ => rfl) read).of_code code
  case h_5 code => exact (parseOpening_strict read).of_code code
  case h_6 code => exact (parseClose_strict read).of_code code
  case h_7 code =>
    exact (meetingStamp_readAs (kind := 0x45#8) (make := fun p => .yield p.1 p.2) (fun _ => rfl)
      (fun _ m q => Bool.and_eq_true_iff.2 ⟨m, q⟩) (fun _ => rfl) read).of_code code
  case h_8 code => exact (parseGrant_strict read).of_code code
  case h_9 code =>
    exact (meetingOnly_readAs (kind := 0x47#8) (make := .clear) (fun _ => rfl) (fun _ m => m) (fun _ => rfl) read).of_code code
  case h_10 code => exact (parsePriority_strict read).of_code code
  case h_11 code => exact (parseTimeAdd_strict read).of_code code
  case h_12 code => exact (parseShare_strict read).of_code code
  case h_13 code =>
    exact (meetingOnly_readAs (kind := 0x4B#8) (make := .unshare) (fun _ => rfl) (fun _ m => m) (fun _ => rfl) read).of_code code
  case h_14 code =>
    exact (bidOnly_readAs (kind := 0x61#8) (make := .cancel) (fun _ => rfl) (fun _ m => m) (fun _ => rfl) read).of_code code
  case h_15 code => exact (parseExtendAsk_strict read).of_code code
  case h_16 code => exact (parseExtendAnswer_strict read).of_code code
  case h_17 code =>
    exact (bidOnly_readAs (kind := 0x64#8) (make := .endNow) (fun _ => rfl) (fun _ m => m) (fun _ => rfl) read).of_code code
  case h_18 => exact absurd read nofun

/-- R2: every well-formed body is read from its own bytes. -/
theorem parseBody_bytes (wf : b.wellFormed = true) : parseBody b.kindCode b.bytes = some b := by
  cases b with
  | voice m o q n on xs => exact parseVoice_bytes wf
  | beacon c => exact parseBeacon_bytes wf
  | request m q | yield m q =>
    obtain ⟨meeting, stamp⟩ := Bool.and_eq_true_iff.1 wf
    exact congrArg (Option.map _) (parseMeetingStamp_iff (p := (m, q)).2 ⟨meeting, stampFits_iff.1 stamp, rfl⟩)
  | withdraw m | clear m | unshare m => exact exact_rdMeeting.whole_map_iff.2 ⟨m, wf, rfl, rfl⟩
  | opening m o q c => exact parseOpening_bytes wf
  | close m k why => exact parseClose_bytes wf
  | grant m k => exact parseGrant_bytes wf
  | priority m on => exact parsePriority_bytes wf
  | timeAdd m k n => exact parseTimeAdd_bytes wf
  | share m k q => exact parseShare_bytes wf
  | cancel id | endNow id => exact exact_rdBid.whole_map_iff.2 ⟨id, wf, rfl, rfl⟩
  | extendAsk id n => exact parseExtendAsk_bytes wf
  | extendAnswer id k on g e => exact parseExtendAnswer_bytes wf

/-! ### Lengths -/

theorem length_meetingBytes (m : Option Bid) : (meetingBytes m).length = 2 := by
  cases m <;> rfl

theorem length_sampleBytes (xs : List Int) : (xs.map sampleBytes).flatten.length = 2 * xs.length := by
  simp [sampleBytes, be2, Function.comp_def, Nat.mul_comm]

theorem length_entryBytes_le {e : WireEntry} (wf : e.wellFormed = true) : (entryBytes e).length ≤ 42 := by
  obtain ⟨-, -, -, -, -, -, -, -, -, title, -⟩ := wireEntry_wellFormed_iff.1 wf
  simp [entryBytes, bidBytes, be2, be4, textField]
  omega

theorem length_beaconBytes_le {c : BeaconBody} (wf : c.wellFormed = true) : (beaconBytes c).length ≤ 141 := by
  obtain ⟨name, -, -, -, -, -, -, -, entry⟩ := beacon_wellFormed_iff.1 wf
  have mic : (micField c.mic).length = 9 := by cases c.mic <;> rfl
  have request : (requestField c.request).length = 5 := by cases c.request <;> rfl
  have share : (shareField c.share).length = 5 := by cases c.share <;> rfl
  have carried : (entryField c.entry).length ≤ 43 := by
    cases here : c.entry with
    | none => decide
    | some e =>
      rw [here] at entry
      simpa [entryField] using Nat.succ_le_succ (length_entryBytes_le entry)
  simp [beaconBytes_eq, mic, request, share, length_meetingBytes, be2, be4, textField]
  omega

theorem length_bytes_le (wf : b.wellFormed = true) : b.bytes.length ≤ 141 := by
  cases b with
  | voice m o q n on xs =>
    simp only [Body.wellFormed, Bool.and_eq_true, decide_eq_true_eq] at wf
    obtain ⟨⟨-, count⟩, -⟩ := wf
    simp only [Body.bytes, List.length_append, length_meetingBytes, length_sampleBytes, count]
    simp [be2, be4, Config.blockSamples]
  | beacon c => exact length_beaconBytes_le wf
  | extendAnswer id k on g e =>
    have entry := length_entryBytes_le (Bool.and_eq_true_iff.1 wf).2
    simp [Body.bytes, bidBytes]
    omega
  | _ => simp [Body.bytes, length_meetingBytes, bidBytes, be2, be4]

end

theorem byte_source {f : Frame} (wf : f.wellFormed = true) : (byte f.source).toNat = f.source ∧ isSeat f.source = true := by
  have seat := (Bool.and_eq_true_iff.1 wf).1
  exact ⟨byte_toNat (Nat.le_trans ((isSeat_iff _).1 seat).2 (by decide)), seat⟩

theorem parseFrame_bytes {f : Frame} (wf : f.wellFormed = true) :
    parseFrame f.body.kindCode (byte f.source) f.body.bytes = some f := by
  obtain ⟨source, seat⟩ := byte_source wf
  rw [parseFrame, source, if_pos seat, parseBody_bytes (Bool.and_eq_true_iff.1 wf).2]
  rfl

theorem decode_bytes {f : Frame} (wf : f.wellFormed = true) :
    LinkFrame.decode f.bytes = LinkFrame.received f.body.kindCode (byte f.source) f.body.bytes := by
  have fits := length_bytes_le (Bool.and_eq_true_iff.1 wf).2
  rw [LinkFrame.decode, Frame.bytes, checkCrc_envelope (Nat.le_trans fits (by decide))]

theorem length_frame_le {f : Frame} (wf : f.wellFormed = true) : f.bytes.length ≤ 146 := by
  have fits := length_bytes_le (Bool.and_eq_true_iff.1 wf).2
  rw [Frame.bytes, envelope_eq, length_withCrc]
  simp
  omega

section

variable {kind source : Byte} {body : List Byte} {f : Frame}

/-- R4: a frame that is read comes from a seat 1..48 and has a body read from its bytes. -/
theorem parseFrame_eq_some (read : parseFrame kind source body = some f) :
    isSeat source.toNat = true ∧ f.source = source.toNat ∧ ReadFrom kind body f.body := by
  obtain ⟨seat, read⟩ := Option.ite_none_right_eq_some.1 read
  obtain ⟨b, found, rfl⟩ := Option.map_eq_some_iff.1 read
  exact ⟨seat, rfl, parseBody_readFrom found⟩

theorem kindCode_listed (b : Body) : b.kindCode ∈ [0x10#8, 0x20#8, 0x41#8, 0x42#8, 0x43#8, 0x44#8, 0x45#8, 0x46#8, 0x47#8,
    0x48#8, 0x49#8, 0x4A#8, 0x4B#8, 0x61#8, 0x62#8, 0x63#8, 0x64#8] := by
  cases b <;> simp [Body.kindCode]

theorem parseFrame_of_unlisted (bad : source.toNat = 0 ∨ 48 < source.toNat ∨ kind ∉ [0x10#8, 0x20#8, 0x41#8, 0x42#8, 0x43#8,
    0x44#8, 0x45#8, 0x46#8, 0x47#8, 0x48#8, 0x49#8, 0x4A#8, 0x4B#8, 0x61#8, 0x62#8, 0x63#8, 0x64#8]) :
    parseFrame kind source body = none := by
  refine Option.eq_none_iff_forall_ne_some.2 fun f read => ?_
  obtain ⟨seat, -, was⟩ := parseFrame_eq_some read
  obtain ⟨first, last⟩ := (isSeat_iff _).1 seat
  rcases bad with nought | far | unlisted
  · omega
  · omega
  · exact unlisted (was.kindCode ▸ kindCode_listed f.body)

end

theorem flatten_sampleBytes (xs : List Int) :
    (xs.map sampleBytes).flatten = xs.flatMap (fun x => be2 (x % 65536).toNat) := by
  rw [List.flatMap]
  congr 1

/-- Settles O12. -/
theorem linkFramesDecodeFromTheirBytes : Obligations.LinkFramesDecodeFromTheirBytes := by
  refine ⟨fun f wf => ⟨decode_bytes wf, parseFrame_bytes wf, length_frame_le wf⟩, fun kind source body f read => ?_,
    fun kind source body => parseFrame_of_unlisted, fun m id o q k n g on why c xs e b mb ib meeting holder => ?_,
    fun _ _ _ _ _ _ _ _ _ _ _ _ _ => rfl, fun _ _ => rfl, fun _ => rfl⟩
  · obtain ⟨seat, from_source, was⟩ := parseFrame_eq_some read
    exact ⟨Bool.and_eq_true_iff.2 ⟨from_source ▸ seat, was.wellFormed⟩, from_source, was.kindCode, was.length, was.bytes⟩
  · rw [← meetingBytes_eq] at meeting
    subst meeting
    subst holder
    refine ⟨?_, rfl, rfl, ?_, rfl, rfl, rfl, rfl, rfl, rfl, rfl, rfl, rfl, rfl, ?_, rfl, ?_⟩
    · rw [← flatten_sampleBytes]
      rfl
    · cases c <;> rfl
    · cases on <;> rfl
    · rw [← meetingBytes_eq, ← meetingBytes_eq]
      exact beaconBytes_eq b

end Sys2Proof.Machine

namespace Sys2Proof.Machine

/-! ## Text fields (R165, R166) -/

section

variable {n i : Nat} {x : List Byte} {c : Byte}

/-- A cell that the display can show. -/
def printable (c : Byte) : Prop := 0x20 ≤ c.toNat ∧ c.toNat ≤ 0x7E

theorem printable_cell (c : Byte) : printable (cell c) := by
  rw [cell]
  split
  · assumption
  · exact ⟨by decide, by decide⟩

theorem length_field (n : Nat) (x : List Byte) : (field n x).length = n := by
  simp [field]

theorem field_of_some (inside : i < n) (here : x[i]? = some c) : (field n x)[i]? = some (cell c) := by
  obtain ⟨long, -⟩ := List.getElem?_eq_some_iff.1 here
  rw [field, List.getElem?_append_left (by simp; omega), List.getElem?_map, List.getElem?_take_of_lt inside, here]
  rfl

theorem field_of_none (inside : i < n) (here : x[i]? = none) : (field n x)[i]? = some 0x20#8 := by
  have past := List.getElem?_eq_none_iff.1 here
  rw [field, List.getElem?_append_right (by simp; omega), List.getElem?_replicate, if_pos (by simp; omega)]

theorem printable_of_mem_field (mem : c ∈ field n x) : printable c := by
  rcases List.mem_append.1 mem with cut | fill
  · obtain ⟨a, -, rfl⟩ := List.mem_map.1 cut
    exact printable_cell a
  · rw [List.eq_of_mem_replicate fill]
    exact ⟨by decide, by decide⟩

theorem digits2_of_lt (small : n < 100) : digits2 n = [byte (48 + n / 10), byte (48 + n % 10)] := by
  rw [digits2, digit, digit, Nat.mod_eq_of_lt (show n / 10 < 10 by omega)]

theorem decimal_eq (n : Nat) : decimal n = if n < 10 then [byte (48 + n)] else digits2 n := by
  rw [decimal, digit]
  split
  · next one => rw [Nat.mod_eq_of_lt one]
  · rfl

theorem durationText_eq {m : Nat} (small : m < 60) : durationText (60 * n + m) = digits2 n ++ text ":" ++ digits2 m := by
  rw [durationText, show (60 * n + m) / 60 = n by omega, show (60 * n + m) % 60 = m by omega]

theorem digits5_of_lt (small : n < 100000) : digits5 n = [byte (48 + n / 10000), byte (48 + n / 1000 % 10),
    byte (48 + n / 100 % 10), byte (48 + n / 10 % 10), byte (48 + n % 10)] := by
  rw [digits5, digit, digit, digit, digit, digit, Nat.mod_eq_of_lt (show n / 10000 < 10 by omega)]

theorem joinText_eq_intercalate (sep : List Byte) : ∀ l : List (List Byte), joinText sep l = List.intercalate sep l
  | [] => rfl
  | [x] => by simp [joinText]
  | x :: y :: rest => by
    rw [joinText, joinText_eq_intercalate sep (y :: rest), List.intercalate_cons_cons]

end

/-! ## Names and lines (R166 to R170) -/

section

variable {s : State} {k : Nat}

theorem nameOf_eq (s : State) (k : Nat) :
    s.nameOf k = if k = s.config.seat then s.config.name else (s.presence.peer k).name := rfl

theorem seatText_of_named (named : s.nameOf k ≠ []) : s.seatText k = s.nameOf k :=
  if_neg (by rwa [List.isEmpty_iff])

theorem seatText_of_nameless (nameless : s.nameOf k = []) : s.seatText k = text "Seat " ++ digits2 k :=
  if_pos (List.isEmpty_iff.2 nameless)

theorem speakersLine_of_some {seats : List Nat} (some : seats ≠ []) : s.speakersLine seats = List.intercalate (text " / ")
    (seats.map (fun k => (if k = s.meeting.chair then text "*" else []) ++ s.seatText k)) :=
  (if_neg (by rwa [List.isEmpty_iff])).trans (joinText_eq_intercalate _ _)

theorem meetingTitle_of_entry {id : Bid} {e : Entry} (active : s.meeting.id = some id)
    (here : viewFind s.calendar.view id = some e) : s.meetingTitle = e.wire.title := by
  simp only [State.meetingTitle, active, here]

theorem meetingDefault_eq (s : State) : s.meetingDefault = if s.meetingTitle = []
    then text "until " ++ clockText (s.meeting.finish % 1440)
    else s.meetingTitle.take 12 ++ text " " ++ (text "until " ++ clockText (s.meeting.finish % 1440)) := by
  rw [State.meetingDefault]
  simp only [List.isEmpty_iff, Config.dayMinutes]

/-! ### Line 4 (R169) -/

theorem lineFour_of_clash (clash : s.station = .clash) (x : List Byte) : s.lineFour x = text "SEAT NUMBER IN USE" :=
  if_pos clash

theorem lineFour_of_ending (other : s.station ≠ .clash) (ending : s.meeting.state = .ending) (x : List Byte) :
    s.lineFour x = text "Meeting ends in " ++ durationText s.timeRemaining.toNat :=
  (if_neg other).trans (if_pos ending)

theorem lineFour_of_transient (other : s.station ≠ .clash) (more : s.meeting.state ≠ .ending)
    (lasts : 0 < s.screen.transient.lifetime) (x : List Byte) : s.lineFour x = s.screen.transient.text :=
  (if_neg other).trans ((if_neg more).trans (if_pos lasts))

theorem lineFour_of_host (other : s.station ≠ .clash) (more : s.meeting.state ≠ .ending)
    (gone : s.screen.transient.lifetime = 0) (lasts : 0 < s.screen.host.lifetime) (x : List Byte) :
    s.lineFour x = s.screen.host.text :=
  (if_neg other).trans ((if_neg more).trans ((if_neg (by omega)).trans (if_pos lasts)))

theorem lineFour_of_default (other : s.station ≠ .clash) (more : s.meeting.state ≠ .ending)
    (gone : s.screen.transient.lifetime = 0) (silent : s.screen.host.lifetime = 0) (x : List Byte) : s.lineFour x = x :=
  (if_neg other).trans ((if_neg more).trans ((if_neg (by omega)).trans (if_neg (by omega))))

/-! ### The own-state line (R167) -/

theorem ownStateLine_of_closed (state : s.mic.state = .closed) : s.ownStateLine = text "Press to speak" := by
  simp only [State.ownStateLine, state]

theorem ownStateLine_of_waiting {p : Nat} (state : s.mic.state = .waiting) (position : s.floor.position s.config.seat = some p) :
    s.ownStateLine = text "Waiting  #" ++ decimal p := by
  have at_p : s.floor.position s.ownSeat = some p := position
  simp only [State.ownStateLine, state, at_p, Option.getD_some]

theorem ownStateLine_of_opening (state : s.mic.state = .opening) : s.ownStateLine = text "Opening" := by
  simp only [State.ownStateLine, state]

theorem ownStateLine_of_open (state : s.mic.state = .open) (inTime : s.mic.overrun = false) (limitless : s.mic.remaining = none) :
    s.ownStateLine = text "SPEAKING" := by
  simp [State.ownStateLine, state, inTime, limitless]

theorem ownStateLine_of_budget {n : Nat} (state : s.mic.state = .open) (inTime : s.mic.overrun = false)
    (left : s.mic.remaining = some n) : s.ownStateLine = text "SPEAKING " ++ durationText n := by
  simp [State.ownStateLine, state, inTime, left]

theorem ownStateLine_of_overrun (state : s.mic.state = .open) (overrun : s.mic.overrun = true) :
    s.ownStateLine = text "OVER TIME +" ++ durationText s.mic.overrunCount := by
  simp [State.ownStateLine, state, overrun]

/-! ### The queue window (R168) -/

theorem windowLine_of_empty (empty : s.floor.queue = []) : s.windowLine = text "No requests" :=
  if_pos (List.isEmpty_iff.2 empty)

theorem windowLine_of_some (some : s.floor.queue ≠ []) : s.windowLine
    = s.windowField (s.floor.queue[s.screen.windowStart - 1]?) ++ s.windowField (s.floor.queue[s.screen.windowStart]?) :=
  if_neg (by rwa [List.isEmpty_iff])

/-! ### Pages (R167, R170) -/

theorem page_of_setup (setup : s.station = .setup) : s.page = [text "SETUP", [], [], s.lineFour []].map (field 24) := by
  rw [State.page, if_pos setup]
  rfl

theorem page_of_door (up : s.station ≠ .setup) (door : s.config.role = .door) : s.page = s.doorPage.map (field 24) := by
  rw [State.page, if_neg up]
  simp only [door]
  rfl

theorem page_of_seat (up : s.station ≠ .setup) (seat : s.config.role = .seat) (running : s.meeting.state ≠ .idle) :
    s.page = s.seatPage.map (field 24) := by
  rw [State.page, if_neg up]
  simp only [seat, if_pos (inMeeting_iff.2 running)]
  rfl

theorem page_of_wall (up : s.station ≠ .setup) (wall : s.config.role = .wall) (running : s.meeting.state ≠ .idle) :
    s.page = s.wallPage.map (field 24) := by
  rw [State.page, if_neg up]
  simp only [wall, if_pos (inMeeting_iff.2 running)]
  rfl

theorem page_of_idle (up : s.station ≠ .setup) (inside : s.config.role ≠ .door) (idle : s.meeting.state = .idle) :
    s.page = s.idlePage.map (field 24) := by
  have stopped : s.inMeeting = false := by simp [State.inMeeting, idle]
  rw [State.page, if_neg up]
  cases role : s.config.role with
  | door => exact absurd role inside
  | seat | wall =>
    simp only [stopped, Bool.false_eq_true, if_false]
    rfl

/-- Every page has four lines, and line 4 is the first present of the sources of R169. -/
theorem page_eq (s : State) : ∃ one two three default : List Byte,
    s.page = [one, two, three, s.lineFour default].map (field 24) := by
  by_cases up : s.station = .setup
  · exact ⟨_, _, _, _, page_of_setup up⟩
  cases role : s.config.role with
  | door => exact ⟨_, _, _, _, page_of_door up role⟩
  | seat =>
    by_cases running : s.meeting.state = .idle
    · exact ⟨_, _, _, _, page_of_idle up (by rw [role]; exact nofun) running⟩
    · exact ⟨_, _, _, _, page_of_seat up role running⟩
  | wall =>
    by_cases running : s.meeting.state = .idle
    · exact ⟨_, _, _, _, page_of_idle up (by rw [role]; exact nofun) running⟩
    · exact ⟨_, _, _, _, page_of_wall up role running⟩

theorem page_line_four_of_clash (clash : s.station = .clash) : s.page[3]? = some (field 24 (text "SEAT NUMBER IN USE")) := by
  obtain ⟨one, two, three, default, page⟩ := page_eq s
  rw [page, lineFour_of_clash clash]
  rfl

theorem page_line_four_of_ending (other : s.station ≠ .clash) (ending : s.meeting.state = .ending) :
    s.page[3]? = some (field 24 (text "Meeting ends in " ++ durationText s.timeRemaining.toNat)) := by
  obtain ⟨one, two, three, default, page⟩ := page_eq s
  rw [page, lineFour_of_ending other ending]
  rfl

theorem length_page (s : State) : s.page.length = 4 := by
  obtain ⟨one, two, three, default, page⟩ := page_eq s
  rw [page]
  rfl

theorem page_cells {l : List Byte} (mem : l ∈ s.page) : l.length = 24 ∧ ∀ c ∈ l, printable c := by
  obtain ⟨one, two, three, default, page⟩ := page_eq s
  rw [page] at mem
  obtain ⟨x, -, rfl⟩ := List.mem_map.1 mem
  exact ⟨length_field 24 x, fun c => printable_of_mem_field⟩

end

end Sys2Proof.Machine

namespace Sys2Proof.Machine

section

variable {s : State}

/-! ## Lamps (R63) -/

@[simp] theorem LedState.set_pattern (l : LedState) (p : LedPattern) : (l.set p).pattern = p := by
  rw [LedState.set]
  split
  · assumption
  · rfl

theorem LedState.set_of_same {l : LedState} {p : LedPattern} (same : (l.set p).pattern = l.pattern) : l.set p = l :=
  if_pos (same.symm.trans (l.set_pattern p))

theorem LedState.set_of_other {l : LedState} {p : LedPattern} (other : (l.set p).pattern ≠ l.pattern) :
    (l.set p).onPhase = true ∧ (l.set p).phaseCount = 0 := by
  rw [LedState.set_pattern] at other
  rw [LedState.set, if_neg (Ne.symm other)]
  exact ⟨rfl, rfl⟩

theorem settle_ring (s : State) : (settle s).controls.ring = s.controls.ring.set s.ringPattern :=
  congrArg (fun t => t.controls.ring) (settle_eq s)

theorem settle_request (s : State) : (settle s).controls.request = s.controls.request.set s.requestPattern :=
  congrArg (fun t => t.controls.request) (settle_eq s)

theorem patterns_of_other (other : s.config.role ≠ .seat) : s.ringPattern = .off ∧ s.requestPattern = .off :=
  ⟨if_pos other, if_pos other⟩

/-- The patterns of a SEAT station that is not in RUN. -/
theorem patterns_of_rest (seat : s.config.role = .seat) (rest : s.station ≠ .run) :
    s.ringPattern = .off ∧ s.requestPattern = if s.station = .clash then .fastBlink else .off := by
  rw [State.ringPattern, State.requestPattern, if_neg (not_not_intro seat), if_neg (not_not_intro seat)]
  cases station : s.station with
  | setup | clash => exact ⟨rfl, rfl⟩
  | run => exact absurd station rest

/-- The patterns of a SEAT station in RUN, by the own-microphone state. -/
theorem patterns_of_run (seat : s.config.role = .seat) (run : s.station = .run) :
    (s.mic.state = .closed → s.ringPattern = .off ∧ s.requestPattern = .off) ∧
    (∀ r : QueueRecord, s.mic.state = .waiting → s.floor.queueRecord s.config.seat = some r →
      s.ringPattern = .slowBlink ∧ s.requestPattern = (if r.granted then .on else .off)) ∧
    (s.mic.state = .opening → s.ringPattern = .on ∧ s.requestPattern = .off) ∧
    (s.mic.state = .open → s.requestPattern = .off ∧
      s.ringPattern = (if s.mic.warned = true ∨ s.mic.overrun = true then .fastBlink else .on)) := by
  rw [State.ringPattern, State.requestPattern, if_neg (not_not_intro seat), if_neg (not_not_intro seat), run]
  refine ⟨fun state => ?_, fun r state queued => ?_, fun state => ?_, fun state => ?_⟩
  · rw [state]
    exact ⟨rfl, rfl⟩
  · have own : s.floor.queueRecord s.ownSeat = some r := queued
    rw [state, own]
    exact ⟨rfl, rfl⟩
  · rw [state]
    exact ⟨rfl, rfl⟩
  · rw [state]
    exact ⟨rfl, by simp only [Bool.or_eq_true]⟩

/-! ## The selector (R176) -/

theorem settle_selector (s : State) :
    (settle s).share.selector = if s.config.role = .wall ∧ s.station ≠ .setup then s.shownSeat else 0 :=
  congrArg (fun t => t.share.selector) (settle_eq s)

theorem settle_selector_of_wall (wall : s.config.role = .wall) (up : s.station ≠ .setup) :
    (settle s).share.selector = s.shownSeat :=
  (settle_selector s).trans (if_pos ⟨wall, up⟩)

theorem shownSeat_of_some {p : Presenter}
    (shown : (if s.config.wallScreen = 1 then s.share.screen1 else s.share.screen2) = some p) : s.shownSeat = p.seat := by
  have held : s.share.presenter s.config.wallScreen = some p := shown
  simp only [State.shownSeat, held]

theorem shownSeat_of_none (bare : (if s.config.wallScreen = 1 then s.share.screen1 else s.share.screen2) = none) :
    s.shownSeat = 0 := by
  have held : s.share.presenter s.config.wallScreen = none := bare
  simp only [State.shownSeat, held]

theorem settle_selector_of_bare
    (bare : s.config.role ≠ .wall ∨ (if s.config.wallScreen = 1 then s.share.screen1 else s.share.screen2) = none) :
    (settle s).share.selector = 0 := by
  rw [settle_selector]
  rcases bare with other | bare
  · exact if_neg fun h => other h.1
  · rw [shownSeat_of_none bare, ite_self]

/-! ## The display (R165, R168) -/

/-- The buffer written and the transfer that it starts. -/
theorem settle_screen_eq (s : State) :
    (settle s).screen = ({ s.screen with windowStart := s.windowShown }.write (fixWindow s).page).start := rfl

/-- A display that has kept its messages and its window count has changed in the rest alone. -/
theorem screen_eq_of_kept {d e : Screen} (count : d.windowCount = e.windowCount) (transient : d.transient = e.transient)
    (host : d.host = e.host) : d = { e with
      buffer := d.buffer, dirty := d.dirty, running := d.running, sent := d.sent, windowStart := d.windowStart } := by
  rw [← count, ← transient, ← host]

theorem settle_frame (s : State) : settle s = { s with
    controls := { s.controls with ring := (settle s).controls.ring, request := (settle s).controls.request },
    share := { s.share with selector := (settle s).share.selector },
    screen := { s.screen with buffer := (settle s).screen.buffer, dirty := (settle s).screen.dirty,
                              running := (settle s).screen.running, sent := (settle s).screen.sent,
                              windowStart := (settle s).screen.windowStart } } := by
  have screen := screen_eq_of_kept (settle_screen_windowCount s) (settle_screen_transient s) (settle_screen_host s)
  rw [← screen]
  exact settle_outputs s

theorem settle_of_running (running : s.screen.running = true) :
    (settle s).screen.running = true ∧ (settle s).screen.sent = s.screen.sent ∧
      ((settle s).screen.dirty = true ↔ s.screen.dirty = true ∨ (settle s).screen.buffer ≠ s.screen.buffer) := by
  rw [settle_screen_buffer, settle_screen_eq, Screen.start, if_neg (by simp [Screen.write, running])]
  exact ⟨running, rfl, by simp [Screen.write]⟩

theorem settle_of_still (still : s.screen.running = false) :
    (settle s).screen.dirty = false ∧
      ((settle s).screen.running = true ↔ s.screen.dirty = true ∨ (settle s).screen.buffer ≠ s.screen.buffer) ∧
      (settle s).screen.sent = if (settle s).screen.running then (settle s).screen.buffer else s.screen.sent := by
  rw [settle_screen_buffer, settle_screen_eq, Screen.start]
  by_cases changed : s.screen.dirty = true ∨ (fixWindow s).page ≠ s.screen.buffer
  · rw [if_pos (by simpa [Screen.write, still] using changed)]
    exact ⟨rfl, iff_of_true rfl changed, rfl⟩
  · have clean : ({ s.screen with windowStart := s.windowShown }.write (fixWindow s).page).dirty = false := by
      simpa [Screen.write] using changed
    rw [clean]
    exact ⟨clean, iff_of_false (by simpa [Screen.write] using still) changed, by simp [Screen.write, still]⟩

theorem windowShown_of_seat (up : s.station ≠ .setup) (running : s.meeting.state ≠ .idle) (seat : s.config.role = .seat) :
    s.windowShown = if s.floor.queue.length < s.screen.windowStart then 1 else s.screen.windowStart := by
  simp only [State.windowShown, seat, true_and, inMeeting_iff.2 running, ne_eq, up, not_false_eq_true]

theorem windowShown_of_other (other : s.station = .setup ∨ s.meeting.state = .idle ∨ s.config.role ≠ .seat) :
    s.windowShown = s.screen.windowStart := by
  refine if_neg fun ⟨seat, up, running, _⟩ => ?_
  rcases other with setup | idle | role
  · exact up setup
  · exact inMeeting_iff.1 running idle
  · exact role seat

theorem settle_line_four_of_clash (clash : s.station = .clash) :
    (settle s).screen.buffer[3]? = some (field 24 (text "SEAT NUMBER IN USE")) := by
  rw [settle_screen_buffer]
  exact page_line_four_of_clash (s := fixWindow s) clash

theorem settle_line_four_of_ending (other : s.station ≠ .clash) (ending : s.meeting.state = .ending) :
    (settle s).screen.buffer[3]? = some (field 24 (text "Meeting ends in " ++ durationText s.timeRemaining.toNat)) := by
  rw [settle_screen_buffer]
  exact page_line_four_of_ending (s := fixWindow s) other ending

/-- The page of a SEAT station in a meeting after a change: its lines read nothing that `settle` writes but the window's
start. -/
theorem settle_buffer_of_seat (up : s.station ≠ .setup) (seat : s.config.role = .seat) (running : s.meeting.state ≠ .idle) :
    (settle s).screen.buffer
      = [s.speakersLine ((s.floor.openSet.map (fun r => r.seat)).filter (fun k => decide (k ≠ s.config.seat))),
        s.ownStateLine, (settle s).windowLine, s.lineFour s.meetingDefault].map (field 24) := by
  have window : (settle s).windowLine = (fixWindow s).windowLine := by
    rw [settle_outputs, State.windowLine, settle_screen_windowStart]
    rfl
  rw [settle_screen_buffer, window]
  exact page_of_seat (s := fixWindow s) up seat running

theorem settle_window_of_empty (empty : s.floor.queue = []) : (settle s).windowLine = text "No requests" :=
  windowLine_of_empty (by rw [settle_floor, empty])

theorem settle_window_of_some (some : s.floor.queue ≠ []) : (settle s).windowLine
    = s.windowField (s.floor.queue[(settle s).screen.windowStart - 1]?)
      ++ s.windowField (s.floor.queue[(settle s).screen.windowStart]?) := by
  have same : (settle s).windowField = s.windowField := by
    rw [settle_outputs]
    rfl
  rw [windowLine_of_some (by rwa [settle_floor]), settle_floor, same]

theorem settle_buffer_of_wall (up : s.station ≠ .setup) (wall : s.config.role = .wall) (running : s.meeting.state ≠ .idle) :
    (settle s).screen.buffer = [s.speakersLine (s.floor.openSet.map (fun r => r.seat)),
      if (settle s).share.selector = 0 then text "No presentation"
        else text "Showing: " ++ s.seatText (settle s).share.selector,
      s.meetingTitle, s.lineFour s.meetingDefault].map (field 24) := by
  rw [settle_screen_buffer, settle_selector_of_wall wall up]
  exact page_of_wall (s := fixWindow s) up wall running

theorem settle_buffer_of_setup (setup : s.station = .setup) :
    (settle s).screen.buffer = [text "SETUP", [], [], s.lineFour []].map (field 24) := by
  rw [settle_screen_buffer]
  exact page_of_setup (s := fixWindow s) setup

theorem settle_buffer_of_idle (up : s.station ≠ .setup) (inside : s.config.role ≠ .door) (idle : s.meeting.state = .idle) :
    (settle s).screen.buffer = s.idlePage.map (field 24) := by
  rw [settle_screen_buffer]
  exact page_of_idle (s := fixWindow s) up inside idle

theorem settle_buffer_of_door (up : s.station ≠ .setup) (door : s.config.role = .door) :
    (settle s).screen.buffer = s.doorPage.map (field 24) := by
  rw [settle_screen_buffer]
  exact page_of_door (s := fixWindow s) up door

theorem doorPage_eq (s : State) : s.doorPage = [
    if s.calendar.clock.set then text "Day " ++ digits5 s.calendar.clock.day ++ text " "
      ++ clockText (s.calendar.clock.second / 60) else text "Time not set",
    if s.calendar.view = [] then text "No bookings" else doorEntry s.calendar.view[0]?, doorEntry s.calendar.view[1]?,
    s.lineFour (doorEntry s.calendar.view[2]?)] := by
  simp only [State.doorPage, Clock.minute, List.isEmpty_iff]

end

/-- Settles O59. -/
theorem lampsSelectorAndDisplayFollowTheState : Obligations.LampsSelectorAndDisplayFollowTheState := by
  refine ⟨?_, ?_, ?_, rfl, fun n => digits5_of_lt, ?_, fun s seats => ⟨rfl, speakersLine_of_some⟩, ?_, fun x => ⟨rfl, rfl, rfl⟩,
    fun s x => ⟨fun clash => lineFour_of_clash clash x, fun other => ⟨fun ending => lineFour_of_ending other ending x,
      fun more => ⟨fun lasts => lineFour_of_transient other more lasts x,
        fun gone lasts => lineFour_of_host other more gone lasts x,
        fun gone silent => lineFour_of_default other more gone silent x⟩⟩⟩, ?_⟩
  · rintro s t rfl
    refine ⟨settle_frame s, settle_settle s, fun seat => ⟨fun rest => ?_, fun run => ?_⟩, fun other => ?_, ?_, ?_, ?_, ?_,
      fun p wall up shown => ?_, settle_selector_of_bare, ⟨(settle_settled s).page.symm, ?_, fun l mem => ?_⟩,
      settle_line_four_of_clash, fun run ending _ => settle_line_four_of_ending (by rw [run]; exact nofun) ending,
      fun up running seat => ⟨?_, ?_, ?_, ?_, ?_⟩, fun other => ?_, settle_of_running, settle_of_still⟩
    · rw [settle_ring, settle_request, LedState.set_pattern, LedState.set_pattern]
      exact patterns_of_rest seat rest
    · rw [settle_ring, settle_request, LedState.set_pattern, LedState.set_pattern]
      exact patterns_of_run seat run
    · rw [settle_ring, settle_request, LedState.set_pattern, LedState.set_pattern]
      exact patterns_of_other other
    · rw [settle_ring]
      exact LedState.set_of_same
    · rw [settle_ring]
      exact LedState.set_of_other
    · rw [settle_request]
      exact LedState.set_of_same
    · rw [settle_request]
      exact LedState.set_of_other
    · rw [settle_selector_of_wall wall up, shownSeat_of_some shown]
    · rw [settle_screen_buffer, length_page]
    · rw [settle_screen_buffer] at mem
      exact page_cells mem
    · rw [settle_screen_windowStart, windowShown_of_seat up running seat]
    · intro state
      rw [settle_buffer_of_seat up seat running, ownStateLine_of_closed state]
      rfl
    · intro state
      rw [settle_buffer_of_seat up seat running, ownStateLine_of_opening state]
      rfl
    · intro n state inTime left
      rw [settle_buffer_of_seat up seat running, ownStateLine_of_budget state inTime left]
      rfl
    · intro state overrun
      rw [settle_buffer_of_seat up seat running, ownStateLine_of_overrun state overrun]
      rfl
    · rw [settle_screen_windowStart, windowShown_of_other other]
  · refine fun n x => ⟨length_field n x, fun i inside => ?_⟩
    cases here : x[i]? with
    | none => exact field_of_none inside here
    | some c => exact field_of_some inside here
  · exact fun n m small least => ⟨digits2_of_lt small, decimal_eq n, durationText_eq least, durationText_eq least⟩
  · rintro s k name rfl
    rw [← nameOf_eq]
    exact ⟨fun named => seatText_of_named named, fun nameless => seatText_of_nameless nameless, by rintro r rfl; rfl, rfl⟩
  · rintro s id e until_ active here rfl
    rw [meetingDefault_eq, meetingTitle_of_entry active here]
    exact ⟨rfl, rfl⟩
  · rintro s t v rfl rfl
    refine ⟨settle_buffer_of_setup, fun up seat running => ?_, settle_buffer_of_wall, settle_buffer_of_idle, fun up door => ?_⟩
    · rw [settle_buffer_of_seat up seat running]
      refine ⟨rfl, fun p state position => ?_, fun state inTime limitless => ?_, fun empty => ?_, fun some => ?_, rfl⟩
      · rw [ownStateLine_of_waiting state position]
        rfl
      · rw [ownStateLine_of_open state inTime limitless]
        rfl
      · rw [settle_window_of_empty empty]
        rfl
      · rw [settle_window_of_some some]
        rfl
    · rw [settle_buffer_of_door up door, doorPage_eq]

end Sys2Proof.Machine
